-- ==== Sys2Proof/Word.lean ====
section
/-! DEFINITION. The plain words of the part: bytes, sixteen-bit words and clock readings. -/

namespace Sys2Proof

/-- A byte on the station line or in the image. -/
abbrev Byte := BitVec 8

/-- Two bytes read high byte first (the opening of Chapter 10). -/
abbrev Word16 := BitVec 16

/-- A reading of the station clock: milliseconds since the start, counted in 32 bits (5.5, R19). -/
abbrev Clock := BitVec 32

/-- The sixteen bytes of one row of the image store (section 9.1). -/
abbrev Row := Vector Byte 16

end Sys2Proof
end

