-- ==== Sys2Proof/Syntax.lean ====
section
/-! DEFINITION. The commands of the part: one constructor of Instr per row of spec/opcode_table.json.
A row of the table is a step of the part, whole and indivisible; its operands are what the step's event
brings with it: the moment, the frame's bytes, the converted code, the pin's level, the timer's owner.
The operand `t` is the moment of the event in µs since the last start (assumption 1). -/

namespace Sys2Proof

/-- A key: source station, quantity code, instance (5.6). -/
structure Key where
  source : BitVec 4
  code : BitVec 6
  inst : BitVec 2
  deriving DecidableEq, Repr

/-- One of the two valve channels. -/
inductive ChannelId
  | a
  | b
  deriving DecidableEq, Repr

/-- One of the two pulse inputs. -/
inductive PulseInput
  | pls0
  | pls1
  deriving DecidableEq, Repr

/-- The five bytes of one sample of a PUBLISH payload, field by field (section 10.1). -/
structure RawSample where
  code : BitVec 6
  inst : BitVec 2
  seq : Byte
  quality : Byte
  value : Word16
  deriving DecidableEq, Repr

/-- A byte cell as a receiver reads it: its data bits, and whether its stop bit read recessive (R153). -/
structure ByteCell where
  byte : Byte
  stop : Bool
  deriving DecidableEq, Repr

/-- The straps as read at clock 0 of a start (R167). -/
structure Straps where
  number : BitVec 4
  commission : Bool
  deriving DecidableEq, Repr

/-- The header a SERVICE frame brings beside its command: SOURCE byte, target station byte, row byte. -/
structure ServiceHeader where
  source : Byte
  target : Byte
  row : Byte
  deriving DecidableEq, Repr

/-- The commands. The docstring of each names its row's rule. -/
inductive Instr
  /-- POWER_ON (R167), with the straps as they read at the start. -/
  | powerOn (straps : Straps)
  /-- RESET_ASSERT (R167). -/
  | resetAssert
  /-- RESET_RELEASE (R167), with the straps as they read at the start. -/
  | resetRelease (straps : Straps)
  /-- END_OF_LOADING (R168). -/
  | endOfLoading (t : Nat)
  /-- ENTRY_TO_RUNNING (R170). -/
  | entryToRunning (t : Nat)
  /-- RECEIVER_IDLE (R155). -/
  | receiverIdle (t : Nat)
  /-- FRAME_START_HEARD (R160). -/
  | frameStartHeard (t : Nat)
  /-- FRAME_BROKEN (R156). -/
  | frameBroken (t : Nat)
  /-- FRAME_DROPPED (R156), with the byte cells heard up to the failing check. -/
  | frameDropped (t : Nat) (cells : List ByteCell)
  /-- PUBLISH_FRAME (R4): the SOURCE byte as received and the samples in payload order. -/
  | publishFrame (t : Nat) (source : Byte) (samples : List RawSample)
  /-- HALT_FRAME (R141). -/
  | haltFrame (t : Nat) (source cause detail : Byte)
  /-- RELEASE_FRAME (R142). -/
  | releaseFrame (t : Nat) (source : Byte)
  /-- STATUS_FRAME (R152). -/
  | statusFrame (t : Nat) (source : Byte) (payload : Vector Byte 20)
  /-- SERVICE_REPLY_FRAME (R157): status code, row byte, and the row data where the reply has them. -/
  | serviceReplyFrame (t : Nat) (source status row : Byte) (data : Option Row)
  /-- READ_ROW (R174). -/
  | readRow (t : Nat) (header : ServiceHeader)
  /-- WRITE_ROW (R175). -/
  | writeRow (t : Nat) (header : ServiceHeader) (data : Row)
  /-- ERASE_ROW (R176). -/
  | eraseRow (t : Nat) (header : ServiceHeader)
  /-- ERASE_ALL (R176). -/
  | eraseAll (t : Nat) (header : ServiceHeader)
  /-- BLANK_CHECK (R174). -/
  | blankCheck (t : Nat) (header : ServiceHeader)
  /-- LOCK (R174). -/
  | lock (t : Nat) (header : ServiceHeader)
  /-- RESTART (R177), with the straps as they read at the start it begins. -/
  | restart (t : Nat) (header : ServiceHeader) (straps : Straps)
  /-- SERVICE_BAD_COMMAND (R173): the command code, and the row data of a 19-byte frame. -/
  | serviceBadCommand (t : Nat) (header : ServiceHeader) (code : Byte) (data : Option Row)
  /-- WRITE_ROW_COMPLETE (R175), with the row as read back. -/
  | writeRowComplete (t : Nat) (readBack : Row)
  /-- ERASE_ROW_COMPLETE (R176). -/
  | eraseRowComplete (t : Nat)
  /-- ERASE_ALL_COMPLETE (R176). -/
  | eraseAllComplete (t : Nat)
  /-- BLANK_CHECK_COMPLETE (R174). -/
  | blankCheckComplete (t : Nat)
  /-- FRESH_TO_AGED (R18). -/
  | freshToAged (t : Nat) (key : Key)
  /-- AGED_TO_EXPIRED (R18). -/
  | agedToExpired (t : Nat) (key : Key)
  /-- GROUP_EVALUATION (R28). -/
  | groupEvaluation (t : Nat) (group : Fin 4)
  /-- SCAN_START (R48). -/
  | scanStart (t : Nat)
  /-- OVERRUN_CLEAR (R51). -/
  | overrunClear (t : Nat)
  /-- CONVERSION_COMPLETE (R47), with the raw code converted. -/
  | conversionComplete (t : Nat) (raw : BitVec 12)
  /-- SERIAL_EXCHANGE_BEGIN (R56). -/
  | serialExchangeBegin (t : Nat)
  /-- SERIAL_EXCHANGE_COMPLETE (R58), with the four reply bytes. -/
  | serialExchangeComplete (t : Nat) (status high low check : Byte)
  /-- SERIAL_TAKE (R60). -/
  | serialTake (t : Nat)
  /-- PULSE_EDGE (R61). -/
  | pulseEdge (t : Nat) (input : PulseInput)
  /-- PULSE_STOPPED (R62). -/
  | pulseStopped (t : Nat) (input : PulseInput)
  /-- PULSE_UPDATE (R63). -/
  | pulseUpdate (t : Nat) (input : PulseInput)
  /-- DISCRETE_PIN_CHANGE (R64), with the level the pin changes to. -/
  | discretePinChange (t : Nat) (input : Fin 6) (level : Bool)
  /-- DEBOUNCE_EXPIRY (R64). -/
  | debounceExpiry (t : Nat) (input : Fin 6)
  /-- PANEL_REFRESH (R87). -/
  | panelRefresh (t : Nat)
  /-- PUBLICATION_EVENT (R67), of the published key with this code and instance. -/
  | publicationEvent (t : Nat) (code : BitVec 6) (inst : BitVec 2)
  /-- CHANNEL_UPDATE (R93). -/
  | channelUpdate (t : Nat) (channel : ChannelId)
  /-- RESUME_WINDOW_EXPIRY (R102). -/
  | resumeWindowExpiry (t : Nat) (channel : ChannelId)
  /-- CONVEYOR_HOLD_EXPIRY (R125). -/
  | conveyorHoldExpiry (t : Nat)
  /-- BELT_HOLD_EXPIRY (R148). -/
  | beltHoldExpiry (t : Nat)
  /-- STATUS_TIMER (R151). -/
  | statusTimer (t : Nat)
  /-- FRAME_BEGIN (R159). -/
  | frameBegin (t : Nat)
  /-- FRAME_COMPLETE (R165). -/
  | frameComplete (t : Nat)
  /-- CONTENTION_LOSS (R161). -/
  | contentionLoss (t : Nat)
  /-- ECHO_FAULT (R162). -/
  | echoFault (t : Nat)
  /-- MUTE_EXPIRY (R162). -/
  | muteExpiry (t : Nat)
  /-- POWER_LOSS (R167). -/
  | powerLoss
  deriving DecidableEq, Repr

end Sys2Proof
end

