-- ==== Sys2Proof/Decode.lean ====
section
/-! DEFINITION. The rows of spec/opcode_table.json that give bits: there are none, so no word spells a command. -/

namespace Sys2Proof

/-- The command a word spells by the table's bits. No row of the table gives any. -/
def decodeTableWord (_nbits _w : Nat) : Option Instr := none

end Sys2Proof
end

