-- ==== Sys2Proof/Config.lean ====
section
/-! DEFINITION. What is fixed in the part itself: bit timing, waits, times, thresholds, quantity codes.
The spec leaves no value of this part open, so there is no free value here. -/

namespace Sys2Proof.Config

/-- One bit on the station line at 250 kbit/s, in µs (R153). -/
def bitTime : Nat := 4
/-- A byte cell is ten bit times (R153). -/
def cellTime : Nat := 10 * bitTime
/-- The bits in which a difference may be another station's: the cells of SYNC, TYPE and SOURCE (R161). -/
def contentionBits : Nat := 30
/-- The largest gap inside a frame, 8 bit times, in µs (section 8.2, R155). -/
def gapLimit : Nat := 8 * bitTime
/-- The fixed first byte of every frame (section 8.2). -/
def sync : Byte := 0xA7
/-- The constant part of the access wait, in bit times (R159). -/
def accessBase : Nat := 20
/-- The access wait's bit times per unit of station number (R159). -/
def accessPerStation : Nat := 4
/-- What yielding adds to the access wait, in bit times (R159, R160). -/
def yieldBits : Nat := 100
/-- Echo faults in a row that mute the bus (R162). -/
def muteRun : Nat := 8
/-- The timed mute, in ms (R162). -/
def muteTime : Nat := 1000
/-- The period of STATUS, in ms (R151). -/
def statusPeriod : Nat := 500
/-- The clock at which LOADING ends (R167). -/
def loadingEnd : Nat := 6
/-- The clock at which LISTENING ends (R170). -/
def listeningEnd : Nat := 1006
/-- Places of the peer table (R1). -/
def tableSize : Nat := 32
/-- Most distinct pinned keys (R2). -/
def pinnedLimit : Nat := 24
/-- Most contributions of a group (R31). -/
def contributionLimit : Nat := 6
/-- Places of the pending sample queue (R164). -/
def queueSize : Nat := 16
/-- Most samples of one PUBLISH (R164). -/
def publishLimit : Nat := 4
/-- The saturation value of every total (R22, R156). -/
def totalLimit : Nat := 65535
/-- One conversion, in µs (R47). -/
def conversionTime : Nat := 25
/-- The bytes every serial exchange sends (R56). -/
def serialRequest : List Byte := [0x01, 0x00, 0x00, 0x00]
/-- One bit of a serial exchange at 500 kHz, in µs (R56). -/
def serialBitTime : Nat := 2
/-- One serial exchange, in µs (R56). -/
def exchangeTime : Nat := 64
/-- The overrun clear time, in ms (R51). -/
def overrunTime : Nat := 1000
/-- The debounce time, in ms (R64). -/
def debounceTime : Nat := 20
/-- Edges closer than this to the last accepted one are glitches, in µs (R61). -/
def glitchTime : Nat := 50
/-- Periods a pulse ring holds (section 3.5). -/
def ringSize : Nat := 4
/-- Values a recall stack holds (R82). -/
def stackSize : Nat := 4
/-- The conveyor's hold time, in ms (section 6.1). -/
def holdTime : Nat := 2000
/-- The stall output, in per-mille (section 6.1). -/
def stallOutput : Int := 200
/-- The stall time, in ms (section 6.1). -/
def stallTime : Nat := 1500
/-- The largest milled rate Q, in cm³/s (R123). -/
def rateLimit : Int := 4000000
/-- A measured coil current above this is a short, in mA (R110). -/
def shortCurrent : Int := 2600
/-- The sum of all words of a sound image (R168). -/
def checkSum : Nat := 0x5A3C
/-- WRITE_ROW's duration, in ms (section 9.5). -/
def writeTime : Nat := 3
/-- ERASE_ROW's duration, in ms (section 9.5). -/
def eraseRowTime : Nat := 20
/-- ERASE_ALL's duration, in ms (section 9.5). -/
def eraseAllTime : Nat := 60
/-- BLANK_CHECK's duration, in ms (section 9.5). -/
def blankCheckTime : Nat := 2

/-! Quantity codes with a part of their own in the rules (section 1.9). -/

def fusedDepth : BitVec 6 := 6
def depthTarget : BitVec 6 := 8
def slopeTarget : BitVec 6 := 9
def depthAction : BitVec 6 := 10
def modeRequest : BitVec 6 := 11
def jogA : BitVec 6 := 12
def beltSpeed : BitVec 6 := 14
def beltTrim : BitVec 6 := 16
def loadHold : BitVec 6 := 17
def chamberFill : BitVec 6 := 18
def channelOutput : BitVec 6 := 19
def jogB : BitVec 6 := 20
def pitchTarget : BitVec 6 := 21

/-- The command quantities (section 6 of the introduction, R8). -/
def commandCodes : List (BitVec 6) :=
  [depthTarget, slopeTarget, depthAction, modeRequest, jogA, beltTrim, loadHold, jogB, pitchTarget]

end Sys2Proof.Config
end

