-- ==== Sys2Proof/Machine/Arith.lean ====
section
/-! DEFINITION. The part's arithmetic (5.3, 5.4) and its clock (5.5). -/

namespace Sys2Proof.Machine

/-- Division to the nearest integer, a half away from zero (5.4). Every divisor of the rules is positive. -/
def roundDiv (n d : Int) : Int :=
  if n < 0 then -((2 * (-n) + d) / (2 * d)) else (2 * n + d) / (2 * d)

/-- clamp(x, lo, hi) (5.4). -/
def clamp (x lo hi : Int) : Int :=
  if x < lo then lo else if hi < x then hi else x

/-- clamp(x, ±n) (5.4). -/
def clampAbs (x n : Int) : Int := clamp x (-n) n

/-- The range of every computed sample value, ±32767 (5.3). -/
def clampValue (x : Int) : Int := clampAbs x 32767

/-- A value of ±32767 as the two bytes of a sample (5.3). -/
def toWord16 (v : Int) : Word16 := BitVec.ofInt 16 v

/-- A total grows by n and stops at 65535 (R22, R156). -/
def saturate (total n : Nat) : Nat := min (total + n) Config.totalLimit

/-- The clock reading a number of milliseconds later (5.5). -/
def after (c : Clock) (ms : Nat) : Clock := c + BitVec.ofNat 32 ms

/-- How long ago a reading was taken, modulo 2^32 (R19). -/
def since (clock past : Clock) : Nat := (clock - past).toNat

/-- The clock has reached an expiry: it lies less than half the clock's range behind (assumption 3). -/
def reached (clock expiry : Clock) : Bool := since clock expiry < 2 ^ 31

/-- An expiry lies in the past: reached, and not at this very reading (R101). -/
def passed (clock expiry : Clock) : Bool := reached clock expiry && clock != expiry

/-- A timer that is running and has reached its expiry. -/
def expired (timer : Option Clock) (clock : Clock) : Option Clock :=
  match timer with
  | some e => if reached clock e then some e else none
  | none => none

end Sys2Proof.Machine
end

