-- ==== Sys2Proof/Machine/State.lean ====
section
/-! DEFINITION. The settings taken from the image, the state of every block, and the state after reset. -/

namespace Sys2Proof.Machine

/-- No behaviour of the part ends a run: what the spec calls a fault is a code of the fault collection. -/
inductive Fault
  deriving DecidableEq, Repr

/-- Why a command has no next state. -/
inductive Refusal
  /-- Raised by exec's arm of a command that has no meaning yet; safe. No arm raises it. -/
  | notModelled (mnemonic : String)
  deriving DecidableEq, Repr

/-! ### Names used throughout -/

/-- Quality of a sample or an entry (1.1). -/
inductive Quality
  | good | held | suspect | failed
  deriving DecidableEq, Repr

/-- State of a peer-table entry (1.1). -/
inductive EntryState
  | vacant | fresh | aged | expired
  deriving DecidableEq, Repr

/-- Where an entry's samples come from (1.1). -/
inductive Origin
  | localSource | remote
  deriving DecidableEq, Repr

/-- The station states (R167, R170 to R172). -/
inductive Station
  | loading | listening | running | safe | commissioning
  deriving DecidableEq, Repr

/-- The station roles (section 10.2). -/
inductive Role
  | legDepth | legAttitude | conveyor | sensor | panel
  deriving DecidableEq, Repr

/-- The side codes (5.2). -/
inductive Side
  | left | right | centre
  deriving DecidableEq, Repr

/-- The fault codes (7.6). -/
inductive FaultCode
  | imageCheckword | imageFormat | imageLimits | imageReference | numberClash | echoMute
  | scanOverrun | portLost | coilOpenA | coilShortA | coilOpenB | coilShortB
  | refLostA | refLostB | beltStall
  deriving DecidableEq, Repr

/-! ### Settings (fixed from the end of LOADING until the next start, R166) -/

/-- A definition of the quantity table (R3). -/
structure QuantityDef where
  code : BitVec 6
  fresh : Nat
  expiry : Nat
  lo : Int
  hi : Int
  deriving DecidableEq, Repr

/-- What a local source reads, with the settings of its kind (3.1). -/
inductive SourceKind
  | analog (positions : List Nat)
  | serial (take exchange : Nat)
  | pulse (input : PulseInput) (constant edgeTimeout update : Nat)
  deriving DecidableEq, Repr

/-- A local source (3.1). -/
structure SourceDef where
  kind : SourceKind
  code : BitVec 6
  inst : BitVec 2
  gain : Int
  offset : Int
  shift : Nat
  publish : Bool
  deriving DecidableEq, Repr

/-- A member pattern (2.1); absent source or inst is ANY. -/
structure Pattern where
  source : Option (BitVec 4)
  code : BitVec 6
  inst : Option (BitVec 2)
  weight : Nat
  offset : Int
  required : Bool
  deriving DecidableEq, Repr

inductive GroupMode
  | mean | slope
  deriving DecidableEq, Repr

/-- A group definition (2.1). -/
structure GroupDef where
  mode : GroupMode
  patterns : List Pattern
  minimum : Nat
  acceptAged : Bool
  period : Nat
  arm : Int
  result : Option (BitVec 6 × BitVec 2)
  deriving DecidableEq, Repr

inductive ChannelRole
  | none | depth | attitude | belt
  deriving DecidableEq, Repr

/-- Where a commanded target comes from, with the settings of that source (4.1). -/
inductive TargetSource
  | operator (key : Option Key) (maxStep lift : Int)
  | derived (group : Nat)
  | fixed (value : Int)
  deriving DecidableEq, Repr

/-- The plunge settings of a channel that names a plunge group (5.1). -/
structure PlungeDef where
  group : Nat
  limit : Int
  output : Int
  deriving DecidableEq, Repr

/-- A channel's settings (4.1, 5.1). -/
structure ChannelDef where
  role : ChannelRole
  period : Nat
  refs : List Nat
  target : TargetSource
  lo : Int
  hi : Int
  ramp : Int
  deadband : Int
  gain : Int
  umin : Int
  umax : Int
  slew : Int
  plunge : Option PlungeDef
  window : Nat
  imin : Int
  imax : Int
  deriving DecidableEq, Repr

/-- The conveyor settings (6.1). -/
structure ConveyorDef where
  depthGroup : Nat
  advanceGroup : Nat
  speedInst : BitVec 2
  width : Int
  bulking : Int
  load : Int
  capacity : Int
  smin : Int
  smax : Int
  sclear : Int
  sfallback : Int
  gain : Int
  xmax : Int
  alarm : Int
  resume : Int
  deriving DecidableEq, Repr

inductive WatchAction
  | none | latch | beltHold (window : Nat)
  deriving DecidableEq, Repr

/-- A frame watch (7.5). -/
structure Watch where
  pattern : List Byte
  mask : List Byte
  action : WatchAction
  deriving DecidableEq, Repr

/-- A published key (3.7). -/
structure PublicationDef where
  code : BitVec 6
  inst : BitVec 2
  period : Nat
  deriving DecidableEq, Repr

/-- The function of a discrete input (R65). -/
inductive InputFunction
  | none | haltButton | releaseButton
  | stepUpL | stepDownL | stepUpR | stepDownR
  | liftAll | returnAll | autoAll | manualAll | offAll | truckHold
  deriving DecidableEq, Repr

/-- The panel settings (4.8). -/
structure PanelDef where
  lo : Int
  hi : Int
  step : Int
  left : Int
  right : Int
  refresh : Nat
  deriving DecidableEq, Repr

/-- Everything taken from a loaded image. -/
structure Settings where
  role : Role
  side : Side
  listen : Word16
  release : Word16
  scanList : List Nat
  scanPeriod : Nat
  quantities : List QuantityDef
  sources : List SourceDef
  groups : Vector (Option GroupDef) 4
  chanA : ChannelDef
  chanB : ChannelDef
  conveyor : Option ConveyorDef
  watches : Vector Watch 4
  publications : List PublicationDef
  functions : Vector InputFunction 6
  panel : Option PanelDef
  deriving DecidableEq, Repr

/-! ### Peer table and groups -/

/-- An entry of the peer table (1.1). -/
structure Entry where
  key : Key
  origin : Origin
  pinned : Bool
  state : EntryState
  value : Option Int
  quality : Option Quality
  arrival : Option Clock
  lastSeq : Option Byte
  staleRun : Option Nat
  acted : Option (BitVec 7)
  expiredSince : Option Clock
  deriving DecidableEq, Repr

/-- The peer table, in ascending key order, with its totals (R1, R22). -/
structure PeerTable where
  entries : List Entry
  refusals : Nat
  gaps : Nat
  deriving DecidableEq, Repr

inductive RecordState
  | vacant | evaluated
  deriving DecidableEq, Repr

inductive ResultQuality
  | good | suspect | invalid
  deriving DecidableEq, Repr

/-- A group's result record (R29). -/
structure ResultRecord where
  state : RecordState
  quality : Option ResultQuality
  value : Option Int
  deriving DecidableEq, Repr

/-- A defined group at work: its record and its evaluation timer. -/
structure GroupRun where
  record : ResultRecord
  timer : Option Clock
  deriving DecidableEq, Repr

/-! ### Local acquisition and publication -/

/-- For whom a conversion runs (R47). -/
inductive ConversionUser
  | scan
  | check (channel : ChannelId) (target : Int)
  deriving DecidableEq, Repr

/-- A running conversion: for whom, and the moment it started. -/
structure Conversion where
  user : ConversionUser
  started : Nat
  deriving DecidableEq, Repr

/-- The converter (3.2). A scan in flight is the raw codes of the positions done so far. -/
structure Converter where
  running : Option Conversion
  scan : Option (List Nat)
  requestA : Option Int
  requestB : Option Int
  scanTimer : Option Clock
  overrunTimer : Option Clock
  deriving DecidableEq, Repr

inductive PortState
  | syncing | tracking
  deriving DecidableEq, Repr

inductive ReplyOutcome
  | value (v : Int) | notReady | lost
  deriving DecidableEq, Repr

/-- An exchange in flight: the moment it began, and the bytes it shifts out on SDO (R56). -/
structure SerialExchange where
  began : Nat
  sent : List Byte
  deriving DecidableEq, Repr

/-- The serial sensor port (3.4). -/
structure SerialPort where
  state : PortState
  errorRun : Nat
  buffer : Option ReplyOutcome
  exchange : Option SerialExchange
  exchangeTimer : Option Clock
  takeTimer : Option Clock
  deriving DecidableEq, Repr

/-- A pulse input (3.5), times in µs counted in 32 bits, ring oldest first. -/
structure PulseState where
  lastEdge : Option (BitVec 32)
  ring : List (BitVec 32)
  edgeTimer : Option Clock
  updateTimer : Option Clock
  deriving DecidableEq, Repr

/-- A discrete input (R64). -/
structure DiscreteInput where
  pin : Bool
  level : Bool
  timer : Option Clock
  deriving DecidableEq, Repr

/-- A published key at work (R67, R71). -/
structure PublicationRun where
  code : BitVec 6
  inst : BitVec 2
  timer : Option Clock
  seq : Byte
  deriving DecidableEq, Repr

/-! ### Targets, panel values, channels, conveyor -/

/-- A target record (4.1). The recall stack has its newest value first. -/
structure TargetRecord where
  commanded : Int
  taken : Option Bool
  ramped : Int
  offset : Int
  effective : Int
  stack : Option (List Int)
  deriving DecidableEq, Repr

/-- An action value of a panel: its serial and its last code (R86). -/
structure PanelAction where
  serial : BitVec 7
  code : Byte
  deriving DecidableEq, Repr

/-- The panel values (4.8). -/
structure PanelValues where
  left : Int
  right : Int
  action : PanelAction
  mode : PanelAction
  hold : Bool
  timer : Option Clock
  deriving DecidableEq, Repr

inductive ChannelState
  | off | manual | auto | held | fault
  deriving DecidableEq, Repr

inductive HeldCause
  | latch | refLost
  deriving DecidableEq, Repr

inductive Coil
  | none | down | up
  deriving DecidableEq, Repr

inductive Saturation
  | none | high | low
  deriving DecidableEq, Repr

inductive CoilFault
  | coilOpen | coilShort
  deriving DecidableEq, Repr

/-- The group a channel used last, and the value it then measured (2.7). -/
structure LastUsed where
  group : Nat
  measured : Int
  deriving DecidableEq, Repr

/-- A channel's reference state (2.7). -/
structure RefState where
  active : Option Nat
  last : Option LastUsed
  deriving DecidableEq, Repr

/-- A valve channel (5.1), with its reference state and its target record. -/
structure Channel where
  state : ChannelState
  cause : Option HeldCause
  out : Int
  coil : Coil
  current : Int
  sat : Saturation
  inDeadband : Bool
  openRun : Nat
  fault : Option CoilFault
  resumeTimer : Option Clock
  updateTimer : Option Clock
  ref : RefState
  target : Option TargetRecord
  deriving DecidableEq, Repr

inductive RateState
  | computed | holding | fallback
  deriving DecidableEq, Repr

inductive Substate
  | feed | clear | idle | truckWait
  deriving DecidableEq, Repr

/-- The conveyor block (6.1). -/
structure Conveyor where
  rate : RateState
  milled : Int
  loose : Int
  holdTimer : Option Clock
  content : Int
  full : Bool
  substate : Option Substate
  command : Option Int
  stallStart : Option Clock
  deriving DecidableEq, Repr

/-! ### Latch, line, store -/

/-- The cause record of a LATCHED latch (7.1). -/
structure LatchRecord where
  cause : Byte
  origin : BitVec 4
  detail : Byte
  deriving DecidableEq, Repr

/-- A SERVICE_REPLY's contents (section 10.1). -/
structure Reply where
  status : Byte
  row : Byte
  data : List Byte
  deriving DecidableEq, Repr

/-- The control set: at most one frame of each control type (R163). -/
structure ControlSet where
  halt : Option (Byte × Byte)
  release : Bool
  reply : Option Reply
  status : Bool
  deriving DecidableEq, Repr

/-- A sample of the pending sample queue (R70); its source is the own station. -/
structure QueuedSample where
  code : BitVec 6
  inst : BitVec 2
  quality : Quality
  value : Int
  deriving DecidableEq, Repr

/-- A sample stamped with its sequence number in a built PUBLISH (R71). -/
structure StampedSample where
  sample : QueuedSample
  seq : Byte
  deriving DecidableEq, Repr

/-- A frame of the station's own, built (R163, R164). -/
inductive OwnFrame
  | halt (cause detail : Byte)
  | release
  | reply (r : Reply)
  | status (payload : List Byte)
  | publish (samples : List StampedSample)
  deriving DecidableEq, Repr

/-- A frame in flight: the moment it began, and whether its type was discarded since (R144, R163). -/
structure Flight where
  frame : OwnFrame
  began : Nat
  discarded : Bool
  deriving DecidableEq, Repr

inductive BusState
  | receiveOnly | active | mutedTimed | mutedClash
  deriving DecidableEq, Repr

/-- The receiver (8.3); `own` says that the station drove the frame's first byte cell (R156). -/
inductive Receiver
  | stopped | waiting | idle | inFrame (own : Bool)
  deriving DecidableEq, Repr

/-- The line interface and the transmit queues (Chapter 8). `quietSince` is absent while the line is not quiet. -/
structure Line where
  bus : BusState
  receiver : Receiver
  quietSince : Option Nat
  echoRun : Nat
  muteTimer : Option Clock
  yielding : Bool
  errors : Nat
  control : ControlSet
  queue : List QueuedSample
  flight : Option Flight
  deriving DecidableEq, Repr

inductive StoreCommand
  | writeRow (data : List Byte) | eraseRow | eraseAll | blankCheck
  deriving DecidableEq, Repr

/-- The operation in flight of a BUSY store (9.5). -/
structure StoreOp where
  command : StoreCommand
  row : Byte
  done : Clock
  deriving DecidableEq, Repr

/-- The image store's cells, addresses rising, none equal to an erased byte (9.1). -/
abbrev Memory := List Host.Cell

/-- The image store (9.1). -/
structure Store where
  cells : Memory
  locked : Bool
  op : Option StoreOp
  deriving DecidableEq, Repr

/-! ### The station -/

/-- Everything the spec gives the station, and the queue of commands. -/
structure State where
  now : Nat
  supply : Bool
  resetHeld : Bool
  station : Station
  number : BitVec 4
  commission : Bool
  settings : Option Settings
  table : PeerTable
  groups : Vector (Option GroupRun) 4
  converter : Converter
  smoothing : List (Option Int)
  port : SerialPort
  pulse0 : PulseState
  pulse1 : PulseState
  inputs : Vector DiscreteInput 6
  publications : List PublicationRun
  chanA : Channel
  chanB : Channel
  conveyor : Option Conveyor
  panel : Option PanelValues
  latch : Option LatchRecord
  beltHold : Option Clock
  faults : List FaultCode
  statusTimer : Option Clock
  line : Line
  store : Store
  pending : List Instr
  deriving DecidableEq, Repr

/-! ### Values after a start (9.4) -/

/-- R23. -/
def PeerTable.empty : PeerTable := ⟨[], 0, 0⟩

/-- R46. -/
def Converter.atStart : Converter := ⟨none, none, none, none, none, none⟩

/-- R46. -/
def SerialPort.atStart : SerialPort := ⟨.syncing, 0, none, none, none, none⟩

/-- R46. -/
def PulseState.atStart : PulseState := ⟨none, [], none, none⟩

/-- R44. -/
def RefState.atStart : RefState := ⟨none, none⟩

/-- R92; the target record follows when the settings are taken (assumption 8). -/
def Channel.atStart : Channel :=
  { state := .off, cause := none, out := 0, coil := .none, current := 0, sat := .none, inDeadband := false,
    openRun := 0, fault := none, resumeTimer := none, updateTimer := none, ref := .atStart, target := none }

/-- R163. -/
def ControlSet.empty : ControlSet := ⟨none, false, none, false⟩

/-- R159, R165. -/
def Line.atStart : Line :=
  { bus := .receiveOnly, receiver := .stopped, quietSince := none, echoRun := 0, muteTimer := none,
    yielding := false, errors := 0, control := .empty, queue := [], flight := none }

/-- A discrete input before the end of LOADING has read it (R46, assumption 7). -/
def DiscreteInput.low : DiscreteInput := ⟨false, false, none⟩

/-- The machine right after a start at power-on with the straps at 0, an erased and unlocked store and low
pins (assumptions 5, 6, 7); everything else as section 9.4 gathers it. -/
def State.reset : State :=
  { now := 0, supply := true, resetHeld := false, station := .loading, number := 0, commission := false,
    settings := none, table := .empty, groups := #v[none, none, none, none], converter := .atStart,
    smoothing := [], port := .atStart, pulse0 := .atStart, pulse1 := .atStart,
    inputs := #v[.low, .low, .low, .low, .low, .low], publications := [], chanA := .atStart, chanB := .atStart,
    conveyor := none, panel := none, latch := none, beltHold := none, faults := [], statusTimer := none,
    line := .atStart, store := ⟨[], false, none⟩, pending := [] }

end Sys2Proof.Machine
end

