-- ==== Sys2Proof/Machine/Ops.lean ====
section
/-! DEFINITION. The operations that several blocks share: time, the image store's bytes, the fault collection,
marking STATUS, the settings, the peer table's places, the channels and the converter's waiting requests. -/

namespace Sys2Proof.Machine

/-- What a command answers. -/
abbrev Out := Host.Outcome State Fault Refusal

/-! ### Time -/

/-- The station clock (5.5): whole milliseconds since the start, 32 bits. -/
def State.clock (s : State) : Clock := BitVec.ofNat 32 (s.now / 1000)

/-- The station runs while the supply is at its level and RESET is not held (R167). -/
abbrev State.runs (s : State) : Prop := s.supply = true ∧ s.resetHeld = false

/-- The moment of an event; a moment already behind is taken as now (assumption 1). -/
def State.tick (s : State) (t : Nat) : State := { s with now := max s.now t }

/-- An event at moment t: its effect on a running station, none on one that does not run (R167). -/
def State.event (s : State) (t : Nat) (effect : State → State) : Out :=
  .next (if s.runs then effect (s.tick t) else s)

/-- The station states in which the blocks of the control path work (R46, R92, R28, R136, R146). -/
abbrev State.atWork (s : State) : Prop := s.station = .listening ∨ s.station = .running

/-! ### The image store's bytes (9.1) -/

/-- An erased byte, which is what an unlisted address reads as (9.1). -/
def erasedByte : Byte := 0xFF

/-- The byte at an address. -/
def Memory.read : Memory → Nat → Byte
  | [], _ => erasedByte
  | (k, b) :: m, a => if k = a then b else Memory.read m a

/-- Put a byte at an address, keeping the canonical form. -/
def Memory.write : Memory → Nat → Byte → Memory
  | [], a, b => if b = erasedByte then [] else [(a, b)]
  | (k, c) :: m, a, b =>
    if a < k then (if b = erasedByte then (k, c) :: m else (a, b) :: (k, c) :: m)
    else if a = k then (if b = erasedByte then m else (a, b) :: m)
    else (k, c) :: Memory.write m a b

/-- Addresses strictly rising, and no cell equal to an erased byte. -/
abbrev Memory.wf (m : Memory) : Prop :=
  m.Pairwise (fun x y => x.1 < y.1) ∧ ∀ x ∈ m, x.2 ≠ erasedByte

/-- Put bytes at consecutive addresses. -/
def Memory.writeAll : Memory → Nat → List Byte → Memory
  | m, _, [] => m
  | m, a, b :: bs => Memory.writeAll (Memory.write m a b) (a + 1) bs

/-- The sixteen bytes of a row (9.1). -/
def Memory.row (m : Memory) (row : Nat) : List Byte :=
  (List.range 16).map fun i => Memory.read m (16 * row + i)

/-- Put sixteen bytes into a row. -/
def Memory.setRow (m : Memory) (row : Nat) (bytes : List Byte) : Memory :=
  Memory.writeAll m (16 * row) bytes

/-- Erase a row: every byte reads 0xFF (9.1). -/
def Memory.eraseRow (m : Memory) (row : Nat) : Memory :=
  Memory.setRow m row (List.replicate 16 erasedByte)

/-- A row is blank when it is all 0xFF (R173, R174). -/
def Memory.rowBlank (m : Memory) (row : Nat) : Bool := (Memory.row m row).all (· == erasedByte)

/-! ### STATUS marks and the fault collection -/

/-- Mark STATUS pending (R151). -/
def State.markStatus (s : State) : State :=
  { s with line := { s.line with control := { s.line.control with status := true } } }

/-- An addition to the fault collection (R149). -/
def State.addFault (s : State) (f : FaultCode) : State :=
  if f ∈ s.faults then s else { s with faults := s.faults ++ [f] }.markStatus

/-- A removal from the fault collection (R149). -/
def State.removeFault (s : State) (f : FaultCode) : State :=
  if f ∈ s.faults then { s with faults := s.faults.filter (· != f) }.markStatus else s

/-! ### Settings -/

/-- What a block does with the settings; a station without settings runs no such block. -/
def State.withSettings (s : State) (effect : Settings → State) : State :=
  match s.settings with
  | some st => effect st
  | none => s

def Settings.channel (st : Settings) : ChannelId → ChannelDef
  | .a => st.chanA
  | .b => st.chanB

/-- A channel with a target record and a reference list (4.1, 2.7). -/
abbrev ChannelDef.controls (cd : ChannelDef) : Prop := cd.role = .depth ∨ cd.role = .attitude

/-- The definition of a quantity code (R3). -/
def Settings.quantity (st : Settings) (code : BitVec 6) : Option QuantityDef :=
  st.quantities.find? (·.code == code)

/-- The side as the instance field of a command quantity writes it (5.2). -/
def Side.inst : Side → BitVec 2
  | .left => 0
  | .right => 1
  | .centre => 2

/-- The instances a station consumes of a command quantity: its side and 3 (R8, R15, R17). -/
def Settings.consumes (st : Settings) (inst : BitVec 2) : Bool := inst == st.side.inst || inst == 3

/-- The result key of a group (R27). -/
def GroupDef.key (g : GroupDef) (number : BitVec 4) (side : Side) : Key :=
  match g.result with
  | some (code, inst) => ⟨number, code, inst⟩
  | none => ⟨number, Config.fusedDepth, side.inst⟩

/-! ### The peer table's places -/

/-- The order of keys as one number (5.6). -/
def keyRank (k : Key) : Nat := k.source.toNat * 256 + k.code.toNat * 4 + k.inst.toNat

/-- The entry of a key (R8, R21). -/
def PeerTable.find (p : PeerTable) (k : Key) : Option Entry := p.entries.find? (·.key == k)

/-- Change the entry of a key, if there is one. -/
def PeerTable.update (p : PeerTable) (k : Key) (change : Entry → Entry) : PeerTable :=
  { p with entries := p.entries.map fun e => if e.key = k then change e else e }

/-- Put an entry in its place in ascending key order; a key present already keeps its entry (R1). -/
def insertEntry (e : Entry) : List Entry → List Entry
  | [] => [e]
  | x :: xs =>
    if keyRank e.key < keyRank x.key then e :: x :: xs
    else if e.key = x.key then x :: xs
    else x :: insertEntry e xs

/-- Change a key's entry in the station's table. -/
def State.updateEntry (s : State) (k : Key) (change : Entry → Entry) : State :=
  { s with table := s.table.update k change }

/-- What taking a sample does to an entry (R14): plausible clamp, value and quality, arrival and state. -/
def Entry.take (e : Entry) (d : QuantityDef) (quality : Quality) (value : Option Int) (clock : Clock) : Entry :=
  let clamped := value.map fun v => clamp v d.lo d.hi
  let marked := if clamped ≠ value ∧ (quality = .good ∨ quality = .held) then .suspect else quality
  { e with
    value := if clamped.isSome then clamped else e.value
    quality := some marked
    arrival := some clock
    state := .fresh
    expiredSince := none }

/-- A local producer delivers a sample to its entry (R20). -/
def State.deliver (s : State) (k : Key) (quality : Quality) (value : Option Int) : State :=
  s.withSettings fun st =>
    match st.quantity k.code with
    | some d => s.updateEntry k fun e => e.take d quality value s.clock
    | none => s

/-! ### Channels and the converter's waiting requests -/

def State.channel (s : State) : ChannelId → Channel
  | .a => s.chanA
  | .b => s.chanB

def State.setChannel (s : State) (c : ChannelId) (ch : Channel) : State :=
  match c with
  | .a => { s with chanA := ch }
  | .b => { s with chanB := ch }

/-- Channel A leaving AUTO takes the substate, the belt speed command and the stall start away (R128). -/
def Conveyor.leaveAuto (k : Conveyor) : Conveyor :=
  { k with substate := none, command := none, stallStart := none }

/-- Write a channel; a change of its state or HELD cause marks STATUS (R115, R151), and channel A leaving AUTO
tells the conveyor (R128). -/
def State.putChannel (s : State) (c : ChannelId) (ch : Channel) : State :=
  let old := s.channel c
  let s := s.setChannel c ch
  let s := if old.state = ch.state ∧ old.cause = ch.cause then s else s.markStatus
  if c = .a ∧ old.state = .auto ∧ ch.state ≠ .auto then { s with conveyor := s.conveyor.map Conveyor.leaveAuto }
  else s

/-- What every entry to OFF, HELD or FAULT does to the channel itself: output 0 without the slew, coils
de-energised, flags 0 and clear, open run 0 (R95, R98, R100, R112, R116). -/
def Channel.silence (ch : Channel) : Channel :=
  { ch with out := 0, coil := .none, current := 0, sat := .none, inDeadband := false, openRun := 0 }

/-- Withdraw a channel's waiting coil-check request (R49). -/
def State.withdrawCheck (s : State) (c : ChannelId) : State :=
  { s with converter := match c with
      | .a => { s.converter with requestA := none }
      | .b => { s.converter with requestB := none } }

/-- The fault code of a coil fault (R112). -/
def coilCode : ChannelId → CoilFault → FaultCode
  | .a, .coilOpen => .coilOpenA
  | .a, .coilShort => .coilShortA
  | .b, .coilOpen => .coilOpenB
  | .b, .coilShort => .coilShortB

/-- The fault code of a lost reference (R102). -/
def refLostCode : ChannelId → FaultCode
  | .a => .refLostA
  | .b => .refLostB

/-- Leaving FAULT removes the coil fault's code (R95, R96, R97, R116). -/
def State.dropCoilCode (s : State) (c : ChannelId) : State :=
  match (s.channel c).fault with
  | some f => s.removeFault (coilCode c f)
  | none => s

/-- Force a channel into OFF, HELD or FAULT at this event (R95, R98, R100, R112). -/
def State.forceChannel (s : State) (c : ChannelId) (state : ChannelState) (cause : Option HeldCause)
    (fault : Option CoilFault) (resume : Option Clock) : State :=
  (s.withdrawCheck c).putChannel c
    { (s.channel c).silence with state := state, cause := cause, fault := fault, resumeTimer := resume }

/-- A channel moves to OFF, with all that leaving its state takes away (R95, R116); in OFF nothing changes. -/
def State.channelOff (s : State) (c : ChannelId) : State :=
  if (s.channel c).state = .off then s
  else (s.dropCoilCode c).forceChannel c .off none none none

end Sys2Proof.Machine
end

