-- ==== Sys2Proof/Machine/Acquisition.lean ====
section
/-! DEFINITION. Local acquisition (Chapter 3): the converter and its arbiter, analog sources, the serial sensor port,
pulse capture, and the coil-check results (R110 to R112). -/

namespace Sys2Proof.Machine

/-! ### Scaling and smoothing -/

/-- Scaling (R53). -/
def SourceDef.scale (x : SourceDef) (raw : Int) : Int := clampValue (roundDiv (raw * x.gain) 4096 + x.offset)

/-- Smoothing (R54). -/
def SourceDef.smooth (x : SourceDef) (previous : Option Int) (value : Int) : Int :=
  match previous with
  | some y => y + roundDiv (value - y) (2 ^ x.shift)
  | none => value

/-- The smoothing state of a source, by its place in the source list. -/
def State.smoothed (s : State) (i : Nat) : Option Int := (s.smoothing[i]?).join

/-- A source's key under the own station (3.1). -/
def SourceDef.key (x : SourceDef) (number : BitVec 4) : Key := ⟨number, x.code, x.inst⟩

/-- A source delivers a raw value: scaled, smoothed, GOOD (R53 to R55). -/
def State.deliverRaw (s : State) (i : Nat) (x : SourceDef) (raw : Int) : State :=
  let y := x.smooth (s.smoothed i) (x.scale raw)
  ({ s with smoothing := s.smoothing.set i (some y) }).deliver (x.key s.number) .good (some y)

/-- A source delivers FAILED and loses its smoothing state (R52, R60). -/
def State.deliverFailed (s : State) (i : Nat) (x : SourceDef) : State :=
  ({ s with smoothing := s.smoothing.set i none }).deliver (x.key s.number) .failed none

/-! ### The converter -/

/-- Start a conversion now. -/
def State.startConversion (s : State) (user : ConversionUser) : State :=
  { s with converter := { s.converter with running := some ⟨user, s.now⟩ } }

/-- A channel makes a coil-check request (R49). -/
def State.requestCheck (s : State) (c : ChannelId) (target : Int) : State :=
  if s.converter.running = none then s.startConversion (.check c target)
  else { s with converter := match c with
    | .a => { s.converter with requestA := some target }
    | .b => { s.converter with requestB := some target } }

/-- The next conversion (R50): channel A's check, channel B's check, the scan's next position, or none. -/
def State.nextConversion (s : State) (positions : Nat) : State :=
  match s.converter.requestA, s.converter.requestB, s.converter.scan with
  | some target, _, _ =>
    { s with converter := { s.converter with requestA := none } }.startConversion (.check .a target)
  | none, some target, _ =>
    { s with converter := { s.converter with requestB := none } }.startConversion (.check .b target)
  | none, none, some codes => if codes.length < positions then s.startConversion .scan else s
  | none, none, none => s

/-- The raw value of an ANALOG source: the rounded mean of the codes at its positions (R52). -/
def analogRaw (positions codes : List Nat) : Int :=
  roundDiv ((positions.map fun p => ((codes[p]?.getD 0 : Nat) : Int)).sum) positions.length

/-- One ANALOG source at a scan's completion (R52, R55). -/
def State.deliverAnalog (s : State) (codes : List Nat) (x : SourceDef) (i : Nat) : State :=
  match x.kind with
  | .analog positions =>
    let raw := analogRaw positions codes
    if raw < 40 ∨ 4055 < raw then s.deliverFailed i x else s.deliverRaw i x raw
  | .serial _ _ | .pulse _ _ _ _ => s

/-- A scan completes: every ANALOG source delivers, in image order (R55). -/
def State.completeScan (s : State) (st : Settings) (codes : List Nat) : State :=
  st.sources.zipIdx.foldl (fun s (x, i) => s.deliverAnalog codes x i)
    { s with converter := { s.converter with scan := none } }

/-- A raw code as a measured coil current, in mA (R47). -/
def measuredCurrent (raw : BitVec 12) : Int := roundDiv (raw.toNat * 3000) 4095

/-- A channel goes to FAULT (R112). -/
def State.coilFault (s : State) (c : ChannelId) (f : CoilFault) : State :=
  (s.forceChannel c .fault none (some f) none).addFault (coilCode c f)

/-- A coil-check result reaches its channel (R110, R111). -/
def State.judgeCoil (s : State) (c : ChannelId) (target measured : Int) : State :=
  let ch := s.channel c
  if (ch.state = .manual ∨ ch.state = .auto) ∧ ch.out ≠ 0 then
    if 3 * target < 2 * measured ∨ Config.shortCurrent < measured then s.coilFault c .coilShort
    else if 4 * measured < target then
      if 2 ≤ ch.openRun then s.coilFault c .coilOpen
      else s.setChannel c { ch with openRun := ch.openRun + 1 }
    else s.setChannel c { ch with openRun := 0 }
  else s

/-- The result of a completed conversion is delivered (R47). -/
def State.deliverConversion (s : State) (st : Settings) (user : ConversionUser) (raw : BitVec 12) : State :=
  match user with
  | .check c target => s.judgeCoil c target (measuredCurrent raw)
  | .scan =>
    match s.converter.scan with
    | some codes =>
      let codes := codes ++ [raw.toNat]
      if codes.length < st.scanList.length then { s with converter := { s.converter with scan := some codes } }
      else s.completeScan st codes
    | none => s

/-- CONVERSION_COMPLETE (R47, R50). -/
def execConversionComplete (t : Nat) (raw : BitVec 12) (s : State) : Out :=
  s.event t fun s =>
    s.withSettings fun st =>
      match s.converter.running with
      | some k =>
        if k.started + Config.conversionTime ≤ s.now then
          (({ s with converter := { s.converter with running := none } }).deliverConversion st k.user raw).nextConversion
            st.scanList.length
        else s
      | none => s

/-- A scan timer's expiry: a scan starts, or is skipped while one is in flight (R48, R51). -/
def State.scanExpiry (s : State) : State :=
  match s.converter.scan with
  | some _ =>
    { s with converter := { s.converter with overrunTimer := some (after s.clock Config.overrunTime) } }.addFault
      .scanOverrun
  | none =>
    let started := { s with converter := { s.converter with scan := some [] } }
    if s.converter.running = none then started.startConversion .scan else started

/-- SCAN_START (R48). -/
def execScanStart (t : Nat) (s : State) : Out :=
  s.event t fun s =>
    s.withSettings fun st =>
      match expired s.converter.scanTimer s.clock with
      | some expiry =>
        { s with converter := { s.converter with scanTimer := some (after expiry st.scanPeriod) } }.scanExpiry
      | none => s

/-- OVERRUN_CLEAR (R51). -/
def execOverrunClear (t : Nat) (s : State) : Out :=
  s.event t fun s =>
    match expired s.converter.overrunTimer s.clock with
    | some _ => { s with converter := { s.converter with overrunTimer := none } }.removeFault .scanOverrun
    | none => s

/-! ### The serial sensor port -/

/-- The SERIAL source, with its place in the source list and its take and exchange periods (R45). -/
def Settings.serialSource (st : Settings) : Option (Nat × SourceDef × Nat × Nat) :=
  st.sources.zipIdx.findSome? fun (x, i) => match x.kind with
    | .serial take exchange => some (i, x, take, exchange)
    | _ => none

/-- SSEL is active while an exchange is in flight (R56). -/
def SerialPort.selected (p : SerialPort) : Bool := p.exchange.isSome

/-- The bits an exchange shifts out on SDO in their order, each byte's most significant bit first (R56). -/
def SerialExchange.bits (x : SerialExchange) : List Bool :=
  x.sent.flatMap fun b => [7, 6, 5, 4, 3, 2, 1, 0].map b.getLsbD

/-- The bit on SDO at a moment; none where no exchange shifts one out (R56). -/
def SerialPort.sdo (p : SerialPort) (now : Nat) : Option Bool :=
  p.exchange.bind fun x => x.bits[(now - x.began) / Config.serialBitTime]?

/-- SERIAL_EXCHANGE_BEGIN (R56): the request goes out. -/
def execSerialExchangeBegin (t : Nat) (s : State) : Out :=
  s.event t fun s =>
    s.withSettings fun st =>
      match st.serialSource, expired s.port.exchangeTimer s.clock with
      | some (_, _, _, period), some expiry =>
        { s with port := { s.port with
            exchange := some ⟨s.now, Config.serialRequest⟩, exchangeTimer := some (after expiry period) } }
      | _, _ => s

/-- Place an outcome if the reply buffer is empty (R59). -/
def SerialPort.place (p : SerialPort) (o : ReplyOutcome) : SerialPort :=
  { p with buffer := match p.buffer with | some older => some older | none => some o }

/-- A well-formed reply's outcome: check good and status ready or not ready (R58). -/
def replyOutcome (status high low check : Byte) : Option ReplyOutcome :=
  if check = status ^^^ high ^^^ low ^^^ 0x5A then
    if status = 0 then some (.value (high ++ low).toInt)
    else if status = 1 then some .notReady
    else none
  else none

/-- A reply completes (R57, R58). -/
def State.judgeReply (s : State) (outcome : Option ReplyOutcome) : State :=
  match s.port.state, outcome with
  | .syncing, _ => { s with port := { s.port with state := .tracking, errorRun := 0 } }
  | .tracking, some o => { s with port := { s.port.place o with errorRun := 0 } }.removeFault .portLost
  | .tracking, none =>
    if s.port.errorRun < 2 then { s with port := { s.port with errorRun := s.port.errorRun + 1 } }
    else { s with port := { s.port.place .lost with errorRun := 0, state := .syncing } }.addFault .portLost

/-- SERIAL_EXCHANGE_COMPLETE (R56 to R58). -/
def execSerialExchangeComplete (t : Nat) (status high low check : Byte) (s : State) : Out :=
  s.event t fun s =>
    match s.port.exchange with
    | some x =>
      if x.began + Config.exchangeTime ≤ s.now then
        { s with port := { s.port with exchange := none } }.judgeReply (replyOutcome status high low check)
      else s
    | none => s

/-- The SERIAL source takes an outcome (R60). -/
def State.takeOutcome (s : State) (i : Nat) (x : SourceDef) (o : ReplyOutcome) : State :=
  match o, s.smoothed i with
  | .value v, _ => s.deliverRaw i x v
  | .notReady, some y => s.deliver (x.key s.number) .held (some y)
  | .notReady, none => s
  | .lost, _ => s.deliverFailed i x

/-- SERIAL_TAKE (R60). -/
def execSerialTake (t : Nat) (s : State) : Out :=
  s.event t fun s =>
    s.withSettings fun st =>
      match st.serialSource, expired s.port.takeTimer s.clock with
      | some (i, x, period, _), some expiry =>
        let taken := { s with port := { s.port with buffer := none, takeTimer := some (after expiry period) } }
        match s.port.buffer with
        | some o => taken.takeOutcome i x o
        | none => taken
      | _, _ => s

/-! ### Pulse capture -/

def State.pulse (s : State) : PulseInput → PulseState
  | .pls0 => s.pulse0
  | .pls1 => s.pulse1

def State.setPulse (s : State) (i : PulseInput) (p : PulseState) : State :=
  match i with
  | .pls0 => { s with pulse0 := p }
  | .pls1 => { s with pulse1 := p }

/-- The PULSE source of an input: its place, its record, pulse constant, edge timeout and update period. -/
def Settings.pulseSource (st : Settings) (input : PulseInput) : Option (Nat × SourceDef × Nat × Nat × Nat) :=
  st.sources.zipIdx.findSome? fun (x, i) => match x.kind with
    | .pulse j constant timeout update => if j = input then some (i, x, constant, timeout, update) else none
    | _ => none

/-- A period at the new end of the ring, the oldest dropped from a full one (R61). -/
def pushPeriod (ring : List (BitVec 32)) (period : BitVec 32) : List (BitVec 32) :=
  (if ring.length < Config.ringSize then ring else ring.drop 1) ++ [period]

/-- A rising edge (R61), at a moment in 32 bits of µs; the edge timer's expiry is given. -/
def PulseState.edge (p : PulseState) (moment : BitVec 32) (expiry : Clock) : PulseState :=
  match p.lastEdge with
  | none => { p with lastEdge := some moment, edgeTimer := some expiry }
  | some last =>
    if (moment - last).toNat < Config.glitchTime then p
    else { p with lastEdge := some moment, ring := pushPeriod p.ring (moment - last), edgeTimer := some expiry }

/-- PULSE_EDGE (R61), captured in LISTENING and RUNNING on an input that a PULSE source names (R46, 3.5). -/
def execPulseEdge (t : Nat) (input : PulseInput) (s : State) : Out :=
  s.event t fun s =>
    s.withSettings fun st =>
      match st.pulseSource input with
      | some (_, _, _, timeout, _) =>
        s.setPulse input ((s.pulse input).edge (BitVec.ofNat 32 s.now) (after s.clock timeout))
      | none => s

/-- PULSE_STOPPED (R62). -/
def execPulseStopped (t : Nat) (input : PulseInput) (s : State) : Out :=
  s.event t fun s =>
    match expired (s.pulse input).edgeTimer s.clock with
    | some _ => s.setPulse input { s.pulse input with lastEdge := none, ring := [], edgeTimer := none }
    | none => s

/-- The speed of a ring (R63): the pulse constant over the mean period, 0 for an empty ring. -/
def pulseSpeed (ring : List (BitVec 32)) (constant : Nat) : Int :=
  if ring = [] then 0
  else roundDiv constant (roundDiv ((ring.map fun p => (p.toNat : Int)).sum) ring.length)

/-- PULSE_UPDATE (R63). -/
def execPulseUpdate (t : Nat) (input : PulseInput) (s : State) : Out :=
  s.event t fun s =>
    s.withSettings fun st =>
      match st.pulseSource input, expired (s.pulse input).updateTimer s.clock with
      | some (i, x, constant, _, period), some expiry =>
        (s.setPulse input { s.pulse input with updateTimer := some (after expiry period) }).deliverRaw i x
          (pulseSpeed (s.pulse input).ring constant)
      | _, _ => s

end Sys2Proof.Machine
end

