-- ==== Sys2Proof/Machine/Latch.lean ====
section
/-! DEFINITION. The hold latch (Chapter 7): causes, the latch's effect on the channels, the pending HALT and RELEASE. -/

namespace Sys2Proof.Machine

/-- The discrete input of a function, the lowest if there were several (R65). -/
def Settings.inputOf (st : Settings) (f : InputFunction) : Option (Fin 6) :=
  [0, 1, 2, 3, 4, 5].find? fun i : Fin 6 => st.functions[i] == f

/-! ### The control set's HALT and RELEASE (R144) -/

def OwnFrame.isHalt : OwnFrame → Bool
  | .halt _ _ => true
  | _ => false

def OwnFrame.isRelease : OwnFrame → Bool
  | .release => true
  | _ => false

/-- A discard reaches a frame of that type in flight: it will not return (R144, R163). -/
def Line.markDiscarded (l : Line) (ofType : OwnFrame → Bool) : Line :=
  { l with flight := l.flight.map fun f => { f with discarded := f.discarded || ofType f.frame } }

/-- Place a HALT. -/
def Line.placeHalt (l : Line) (cause detail : Byte) : Line :=
  { l with control := { l.control with halt := some (cause, detail) } }

/-- Discard a pending HALT. -/
def Line.discardHalt (l : Line) : Line :=
  { l with control := { l.control with halt := none } }.markDiscarded OwnFrame.isHalt

/-- Place a RELEASE, replacing any pending. -/
def Line.placeRelease (l : Line) : Line :=
  { l with control := { l.control with release := true } }

/-- Discard a pending RELEASE. -/
def Line.discardRelease (l : Line) : Line :=
  { l with control := { l.control with release := false } }.markDiscarded OwnFrame.isRelease

/-! ### Setting and clearing (R136, R137) -/

/-- What a channel does when the latch becomes LATCHED (R98). -/
def State.latchChannel (s : State) (c : ChannelId) : State :=
  match (s.channel c).state, (s.channel c).cause with
  | .manual, _ | .auto, _ | .held, some .refLost => s.forceChannel c .held (some .latch) none none
  | _, _ => s

/-- What a channel does when the latch becomes CLEAR (R99). -/
def State.unlatchChannel (s : State) (c : ChannelId) : State :=
  match (s.channel c).state, (s.channel c).cause with
  | .held, some .latch => s.putChannel c { (s.channel c).silence with state := .manual, cause := none }
  | _, _ => s

/-- The latch becomes LATCHED with this record, and the effects of R137 follow. -/
def State.setLatch (s : State) (r : LatchRecord) : State :=
  (({ s with latch := some r }.markStatus).latchChannel .a).latchChannel .b

/-- The latch becomes CLEAR, its record is removed, and the effects of R137 follow. -/
def State.clearLatch (s : State) : State :=
  ((({ s with latch := none }.markStatus).unlatchChannel .a).unlatchChannel .b).removeFault .beltStall

/-! ### Causes (R138 to R140) -/

/-- A local cause is raised (R138): taken in LISTENING and RUNNING while the latch is CLEAR. -/
def State.raiseCause (s : State) (cause detail : Byte) : State :=
  if s.atWork ∧ s.latch = none then
    { s with line := (s.line.placeHalt cause detail).discardRelease }.setLatch ⟨cause, s.number, detail⟩
  else s

/-- The codes of the local causes (7.2). -/
def haltInputCause : Byte := 1
def chamberFullCause : Byte := 2
def beltStallCause : Byte := 3
def watchCause (n : Fin 4) : Byte := BitVec.ofNat 8 (4 + n.val)

/-- A value clamped to 0..255 as a detail byte (R132, R135). -/
def detailByte (x : Int) : Byte := BitVec.ofInt 8 (clamp x 0 255)

/-- HALT_INPUT is active while the halt button's debounced level is high; its detail is the input (R139, R140). -/
def State.haltHeld (s : State) (st : Settings) : Option (Fin 6) :=
  match st.inputOf .haltButton with
  | some i => if s.inputs[i].level then some i else none
  | none => none

/-- CHAMBER_FULL's detail: the alarm level, clamped to 0..255 (R132). -/
def alarmDetail (st : Settings) : Byte :=
  match st.conveyor with
  | some cv => detailByte cv.alarm
  | none => 0

/-- The persisting cause active now, HALT_INPUT before CHAMBER_FULL (R140). -/
def State.persistingCause (s : State) : Option (Byte × Byte) :=
  match s.settings with
  | some st =>
    match s.haltHeld st with
    | some i => some (haltInputCause, BitVec.ofNat 8 i.val)
    | none =>
      match s.conveyor with
      | some k => if k.full then some (chamberFullCause, alarmDetail st) else none
      | none => none
  | none => none

/-- A station number belongs to a set of the header; its place for station 0 is ignored (R169). -/
def inSet (set : Word16) (number : BitVec 4) : Bool := number != 0 && set.getLsbD number.toNat

/-- A RELEASE frame reaches the latch (R142). -/
def State.takeRelease (s : State) (source : BitVec 4) : State :=
  s.withSettings fun st =>
    if s.atWork ∧ inSet st.release source ∧ s.latch ≠ none then
      let cleared := { s with line := s.line.discardHalt }.clearLatch
      match cleared.persistingCause with
      | some (cause, detail) => cleared.raiseCause cause detail
      | none => cleared
    else s

/-- A HALT frame reaches the latch (R141). -/
def State.takeHalt (s : State) (source : BitVec 4) (cause detail : Byte) : State :=
  if s.atWork ∧ s.latch = none then s.setLatch ⟨cause, source, detail⟩ else s

/-- A RELEASE_BUTTON press reaches the latch (R143). -/
def State.pressRelease (s : State) : State :=
  if ¬ s.atWork ∨ s.persistingCause ≠ none then s
  else
    let cleared := if s.latch = none then s else s.clearLatch
    { cleared with line := cleared.line.discardHalt.placeRelease }

/-- The halt button's debounced level changed (R139). -/
def State.haltButton (s : State) (input : Fin 6) (level : Bool) : State :=
  if level then s.raiseCause haltInputCause (BitVec.ofNat 8 input.val) else s

end Sys2Proof.Machine
end

