-- ==== Sys2Proof/Machine/Image.lean ====
section
/-! DEFINITION. Loading: the image's byte layouts (10.2, R179), the four steps of the loading checks (R168, R169 and
the rules they gather), the settings taken from a loaded image, and the pinned keys it names (R2). -/

namespace Sys2Proof.Machine

/-! ### Fields of the image, high byte first -/

def u8 (m : Memory) (a : Nat) : Nat := (Memory.read m a).toNat
def u16 (m : Memory) (a : Nat) : Nat := u8 m a * 256 + u8 m (a + 1)
def u24 (m : Memory) (a : Nat) : Nat := u16 m a * 256 + u8 m (a + 2)
def u32 (m : Memory) (a : Nat) : Nat := u16 m a * 65536 + u16 m (a + 2)

/-- A signed field, two's complement. -/
def s16 (m : Memory) (a : Nat) : Int := (BitVec.ofNat 16 (u16 m a)).toInt

/-- lo..hi, both ends included (5.3). -/
def inRange (x lo hi : Nat) : Bool := decide (lo ≤ x ∧ x ≤ hi)

/-- A signed setting of −32768 fails step 3 (R179). -/
def signedOk (x : Int) : Bool := decide (-32767 ≤ x)

/-! ### Regions (10.2) -/

def quantityAt (i : Nat) : Nat := 16 + 9 * i
def sourceAt (i : Nat) : Nat := 160 + 12 * i
def groupAt (i : Nat) : Nat := 304 + 44 * i
def channelAt : ChannelId → Nat
  | .a => 480
  | .b => 544
def conveyorAt : Nat := 608
def watchAt (i : Nat) : Nat := 640 + 28 * i
def publicationAt (i : Nat) : Nat := 752 + 4 * i
def panelAt : Nat := 816

/-- The check word sum over all 512 words (R168 step 1). -/
def wordSum (m : Memory) : Nat :=
  (List.range 512).foldl (fun sum w => (sum + u16 m (2 * w)) % 65536) 0

/-! ### Step 3: encodings and ranges (R169, R179) -/

/-- The eight 4-bit scan-list entries, high half of byte 8 first. -/
def scanNibbles (m : Memory) : List Nat :=
  [8, 9, 10, 11].flatMap fun a => [u8 m a / 16, u8 m a % 16]

/-- The scan list: the run of entries before the first 0xF (R179). -/
def scanEntries (m : Memory) : List Nat := (scanNibbles m).takeWhile (· != 15)

def headerLimits (m : Memory) : Bool :=
  inRange (u8 m 2) 1 5 && inRange (u8 m 3) 0 2 && (scanEntries m).all (inRange · 0 7) && inRange (u8 m 12) 2 100

/-- A quantity definition's ranges (R3); an empty record is not judged. -/
def quantityLimits (m : Memory) (i : Nat) : Bool :=
  let a := quantityAt i
  u8 m a == 255 ||
    (inRange (u8 m a) 0 63 && inRange (u16 m (a + 1)) 10 5000
      && inRange (u16 m (a + 3)) (u16 m (a + 1) + 10) 30000
      && signedOk (s16 m (a + 5)) && signedOk (s16 m (a + 7)) && decide (s16 m (a + 5) ≤ s16 m (a + 7)))

/-- The codes of the quantity records that are not empty. -/
def quantityCodes (m : Memory) : List Nat :=
  ((List.range 16).map fun i => u8 m (quantityAt i)).filter (· != 255)

/-- The kind code of a source record. -/
def sourceKindCode (m : Memory) (i : Nat) : Nat := u8 m (sourceAt i) / 32

/-- A source record's ranges (R45); a record of kind 0 is not judged, nor bit 6 of byte 1, which no layout names
(assumption 30). -/
def sourceLimits (m : Memory) (i : Nat) : Bool :=
  let a := sourceAt i
  let common := inRange (u8 m a / 4 % 8) 0 4 && signedOk (s16 m (a + 2)) && signedOk (s16 m (a + 4))
  match sourceKindCode m i with
  | 0 => true
  | 1 => common && inRange (u8 m (a + 7)) 1 4
      && (List.range (u8 m (a + 7))).all fun p => inRange (u8 m (a + 8 + p)) 0 7
  | 2 => common && inRange (u8 m (a + 6)) 5 100 && inRange (u8 m (a + 7)) 5 100
  | 3 | 4 => common && inRange (u8 m (a + 6)) 5 100 && inRange (u8 m (a + 7)) 10 200
      && decide (1 ≤ u32 m (a + 8))
  | _ => false

/-- At most one SERIAL source (R45). -/
def oneSerial (m : Memory) : Bool :=
  decide (((List.range 12).filter fun i => sourceKindCode m i == 2).length ≤ 1)

def patternAt (g p : Nat) : Nat := groupAt g + 8 + 6 * p

/-- A member pattern's ranges (R25, R179); SLOPE does not read the weight (assumption 20), and nothing reads bit 6 of
byte 1 (assumption 30). -/
def patternLimits (m : Memory) (g p : Nat) (mean : Bool) : Bool :=
  let a := patternAt g p
  (inRange (u8 m a) 0 15 || u8 m a == 255) && (inRange (u8 m (a + 2)) 0 3 || u8 m (a + 2) == 255)
    && (!mean || inRange (u8 m (a + 3)) 1 15) && signedOk (s16 m (a + 4))

def patternRequired (m : Memory) (g p : Nat) : Bool := decide (128 ≤ u8 m (patternAt g p + 1))

/-- A group record's ranges (R25); a record of mode 0 is not judged, nor bits 6 to 2 of byte 0, which no layout names
(assumption 30). -/
def groupLimits (m : Memory) (g : Nat) : Bool :=
  let a := groupAt g
  let count := u8 m (a + 1)
  let common := inRange count 1 6 && inRange (u8 m (a + 2)) 1 6 && inRange (u8 m (a + 3)) 5 200
    && (u8 m (a + 4) == 255 || (inRange (u8 m (a + 4)) 0 63 && inRange (u8 m (a + 5)) 0 3))
  match u8 m a % 4 with
  | 0 => true
  | 1 => common && (List.range count).all fun p => patternLimits m g p true
  | 2 => common && count == 2 && (List.range 2).all (fun p => patternLimits m g p false && patternRequired m g p)
      && inRange (u8 m (a + 2)) 1 2 && signedOk (s16 m (a + 6))
  | _ => false

/-- The target settings of a DEPTH or ATTITUDE channel (R72); settings that the target source does not read are
not judged (R179, assumption 20). -/
def targetLimits (m : Memory) (c : ChannelId) : Bool :=
  let a := channelAt c
  let lo := s16 m (a + 12)
  let hi := s16 m (a + 14)
  signedOk lo && signedOk hi && decide (lo ≤ hi) && inRange (u16 m (a + 18)) 1 500 &&
  match u8 m (a + 5) with
  | 0 => (u8 m (a + 6) == 255
        || (inRange (u8 m (a + 6)) 0 15 && inRange (u8 m (a + 7)) 0 63 && inRange (u8 m (a + 8)) 0 3))
      && inRange (u16 m (a + 16)) 1 5000 && (u8 m a != 1 || inRange (u16 m (a + 20)) 0 5000)
  | 1 => true
  | 2 => signedOk (s16 m (a + 10)) && decide (lo ≤ s16 m (a + 10) ∧ s16 m (a + 10) ≤ hi)
  | _ => false

/-- The settings every driven channel reads (R91). -/
def driveLimits (m : Memory) (c : ChannelId) : Bool :=
  let a := channelAt c
  inRange (u8 m (a + 1)) 5 50 && inRange (u16 m (a + 28)) 100 1000 && inRange (u16 m (a + 30)) 1 1000
    && inRange (u16 m (a + 39)) 0 2000 && inRange (u16 m (a + 41)) (u16 m (a + 39)) 2500

/-- A channel record's ranges (R91). -/
def channelLimits (m : Memory) (c : ChannelId) : Bool :=
  let a := channelAt c
  match u8 m a with
  | 0 => true
  | 3 => driveLimits m c
  | 1 | 2 => driveLimits m c && targetLimits m c && inRange (u16 m (a + 22)) 0 500
      && inRange (u16 m (a + 24)) 0 32767 && inRange (u16 m (a + 26)) 0 300
      && (u8 m (a + 32) == 255 || (signedOk (s16 m (a + 33)) && inRange (u16 m (a + 35)) 0 1000))
      && inRange (u16 m (a + 37)) 0 5000
  | _ => false

/-- The conveyor record's ranges (R117), read when channel A is BELT. -/
def conveyorLimits (m : Memory) : Bool :=
  let a := conveyorAt
  u8 m (channelAt .a) != 3 ||
    (inRange (u8 m (a + 2)) 0 3 && inRange (u16 m (a + 3)) 500 4400 && inRange (u16 m (a + 5)) 1000 2000
      && inRange (u24 m (a + 7)) 1000 200000 && inRange (u24 m (a + 10)) (u24 m (a + 7)) 200000
      && inRange (u16 m (a + 15)) 100 8000 && inRange (u16 m (a + 13)) 0 (u16 m (a + 15))
      && inRange (u16 m (a + 17)) (u16 m (a + 13)) (u16 m (a + 15))
      && inRange (u16 m (a + 19)) (u16 m (a + 13)) (u16 m (a + 15))
      && inRange (u16 m (a + 21)) 0 32767 && inRange (u24 m (a + 23)) 10000 2000000
      && inRange (u16 m (a + 26)) 1 1000 && decide (u16 m (a + 28) < u16 m (a + 26)))

/-- A watch record's ranges (R145). -/
def watchLimits (m : Memory) (i : Nat) : Bool :=
  let a := watchAt i
  match u8 m (a + 24) with
  | 0 | 1 => true
  | 2 => inRange (u16 m (a + 25)) 50 5000
  | _ => false

/-- A publication record's ranges (R66); an empty record is not judged. -/
def publicationLimits (m : Memory) (i : Nat) : Bool :=
  let a := publicationAt i
  u8 m a == 255 || (inRange (u8 m a) 0 63 && inRange (u8 m (a + 1)) 0 3 && inRange (u16 m (a + 2)) 5 1000)

/-- The panel record's ranges: functions on every station (R65), panel settings on a panel station (R86). -/
def panelLimits (m : Memory) : Bool :=
  let a := panelAt
  let lo := s16 m (a + 6)
  let hi := s16 m (a + 8)
  (List.range 6).all (fun i => inRange (u8 m (a + i)) 0 12) &&
    (u8 m 2 != 5 ||
      (signedOk lo && signedOk hi && decide (lo ≤ hi) && inRange (u16 m (a + 10)) 1 1000
        && decide (lo ≤ s16 m (a + 12) ∧ s16 m (a + 12) ≤ hi) && decide (lo ≤ s16 m (a + 14) ∧ s16 m (a + 14) ≤ hi)
        && inRange (u16 m (a + 16)) 10 1000))

/-- Step 3 over the bytes; the pinned-entry count joins it in `loadImage`. -/
def byteLimits (m : Memory) : Bool :=
  headerLimits m && (List.range 16).all (quantityLimits m) && decide (quantityCodes m).Nodup
    && (List.range 12).all (sourceLimits m) && oneSerial m && (List.range 4).all (groupLimits m)
    && channelLimits m .a && channelLimits m .b && conveyorLimits m && (List.range 4).all (watchLimits m)
    && (List.range 16).all (publicationLimits m) && panelLimits m

/-! ### The settings the bytes hold -/

def quantityDef (m : Memory) (i : Nat) : Option QuantityDef :=
  let a := quantityAt i
  if u8 m a = 255 then none
  else some ⟨BitVec.ofNat 6 (u8 m a), u16 m (a + 1), u16 m (a + 3), s16 m (a + 5), s16 m (a + 7)⟩

def sourceKind (m : Memory) (i : Nat) : Option SourceKind :=
  let a := sourceAt i
  let pulse (input : PulseInput) := SourceKind.pulse input (u32 m (a + 8)) (u8 m (a + 7) * 10) (u8 m (a + 6))
  match sourceKindCode m i with
  | 1 => some (.analog ((List.range (u8 m (a + 7))).map fun p => u8 m (a + 8 + p)))
  | 2 => some (.serial (u8 m (a + 6)) (u8 m (a + 7)))
  | 3 => some (pulse .pls0)
  | 4 => some (pulse .pls1)
  | _ => none

def sourceDef (m : Memory) (i : Nat) : Option SourceDef :=
  let a := sourceAt i
  (sourceKind m i).map fun kind =>
    { kind, code := BitVec.ofNat 6 (u8 m (a + 1)), inst := BitVec.ofNat 2 (u8 m a), gain := s16 m (a + 2),
      offset := s16 m (a + 4), shift := u8 m a / 4 % 8, publish := decide (128 ≤ u8 m (a + 1)) }

def patternDef (m : Memory) (g p : Nat) : Pattern :=
  let a := patternAt g p
  { source := if u8 m a = 255 then none else some (BitVec.ofNat 4 (u8 m a))
    code := BitVec.ofNat 6 (u8 m (a + 1))
    inst := if u8 m (a + 2) = 255 then none else some (BitVec.ofNat 2 (u8 m (a + 2)))
    weight := u8 m (a + 3), offset := s16 m (a + 4), required := patternRequired m g p }

def groupDef (m : Memory) (g : Nat) : Option GroupDef :=
  let a := groupAt g
  if u8 m a % 4 = 0 then none
  else some
    { mode := if u8 m a % 4 = 2 then .slope else .mean
      patterns := (List.range (u8 m (a + 1))).map (patternDef m g)
      minimum := u8 m (a + 2), acceptAged := decide (128 ≤ u8 m a), period := u8 m (a + 3), arm := s16 m (a + 6)
      result := if u8 m (a + 4) = 255 then none
        else some (BitVec.ofNat 6 (u8 m (a + 4)), BitVec.ofNat 2 (u8 m (a + 5))) }

def channelRole (m : Memory) (c : ChannelId) : ChannelRole :=
  match u8 m (channelAt c) with
  | 1 => .depth
  | 2 => .attitude
  | 3 => .belt
  | _ => .none

def targetSource (m : Memory) (c : ChannelId) : TargetSource :=
  let a := channelAt c
  match u8 m (a + 5) with
  | 1 => .derived (u8 m (a + 9))
  | 2 => .fixed (s16 m (a + 10))
  | _ => .operator
      (if u8 m (a + 6) = 255 then none
        else some ⟨BitVec.ofNat 4 (u8 m (a + 6)), BitVec.ofNat 6 (u8 m (a + 7)), BitVec.ofNat 2 (u8 m (a + 8))⟩)
      (u16 m (a + 16)) (u16 m (a + 20))

def channelDef (m : Memory) (c : ChannelId) : ChannelDef :=
  let a := channelAt c
  { role := channelRole m c, period := u8 m (a + 1)
    refs := [u8 m (a + 2), u8 m (a + 3), u8 m (a + 4)].filter (· != 255)
    target := targetSource m c, lo := s16 m (a + 12), hi := s16 m (a + 14), ramp := u16 m (a + 18)
    deadband := u16 m (a + 22), gain := u16 m (a + 24), umin := u16 m (a + 26), umax := u16 m (a + 28)
    slew := u16 m (a + 30)
    plunge := if u8 m (a + 32) = 255 then none else some ⟨u8 m (a + 32), s16 m (a + 33), u16 m (a + 35)⟩
    window := u16 m (a + 37), imin := u16 m (a + 39), imax := u16 m (a + 41) }

/-- The conveyor settings, on a station whose channel A is BELT (R117). -/
def conveyorDef (m : Memory) : Option ConveyorDef :=
  let a := conveyorAt
  if channelRole m .a = .belt then some
    { depthGroup := u8 m a, advanceGroup := u8 m (a + 1), speedInst := BitVec.ofNat 2 (u8 m (a + 2))
      width := u16 m (a + 3), bulking := u16 m (a + 5), load := u24 m (a + 7), capacity := u24 m (a + 10)
      smin := u16 m (a + 13), smax := u16 m (a + 15), sclear := u16 m (a + 17), sfallback := u16 m (a + 19)
      gain := u16 m (a + 21), xmax := u24 m (a + 23), alarm := u16 m (a + 26), resume := u16 m (a + 28) }
  else none

def watchDef (m : Memory) (i : Nat) : Watch :=
  let a := watchAt i
  { pattern := (List.range 12).map fun k => Memory.read m (a + k)
    mask := (List.range 12).map fun k => Memory.read m (a + 12 + k)
    action := match u8 m (a + 24) with
      | 1 => .latch
      | 2 => .beltHold (u16 m (a + 25))
      | _ => .none }

def publicationDef (m : Memory) (i : Nat) : Option PublicationDef :=
  let a := publicationAt i
  if u8 m a = 255 then none else some ⟨BitVec.ofNat 6 (u8 m a), BitVec.ofNat 2 (u8 m (a + 1)), u16 m (a + 2)⟩

def inputFunction (m : Memory) (i : Nat) : InputFunction :=
  match u8 m (panelAt + i) with
  | 1 => .haltButton
  | 2 => .releaseButton
  | 3 => .stepUpL
  | 4 => .stepDownL
  | 5 => .stepUpR
  | 6 => .stepDownR
  | 7 => .liftAll
  | 8 => .returnAll
  | 9 => .autoAll
  | 10 => .manualAll
  | 11 => .offAll
  | 12 => .truckHold
  | _ => .none

def stationRole (m : Memory) : Role :=
  match u8 m 2 with
  | 1 => .legDepth
  | 2 => .legAttitude
  | 3 => .conveyor
  | 4 => .sensor
  | _ => .panel

def stationSide (m : Memory) : Side :=
  match u8 m 3 with
  | 0 => .left
  | 1 => .right
  | _ => .centre

/-- The panel settings, on a panel station (R86). -/
def panelDef (m : Memory) : Option PanelDef :=
  let a := panelAt
  if stationRole m = .panel then some
    { lo := s16 m (a + 6), hi := s16 m (a + 8), step := u16 m (a + 10), left := s16 m (a + 12),
      right := s16 m (a + 14), refresh := u16 m (a + 16) }
  else none

/-- The settings the image's bytes hold (R179). -/
def settingsOf (m : Memory) : Settings :=
  { role := stationRole m, side := stationSide m, listen := BitVec.ofNat 16 (u16 m 4), release := BitVec.ofNat 16 (u16 m 6)
    scanList := scanEntries m, scanPeriod := u8 m 12
    quantities := (List.range 16).filterMap (quantityDef m)
    sources := (List.range 12).filterMap (sourceDef m)
    groups := #v[groupDef m 0, groupDef m 1, groupDef m 2, groupDef m 3]
    chanA := channelDef m .a, chanB := channelDef m .b, conveyor := conveyorDef m
    watches := #v[watchDef m 0, watchDef m 1, watchDef m 2, watchDef m 3]
    publications := (List.range 16).filterMap (publicationDef m)
    functions := #v[inputFunction m 0, inputFunction m 1, inputFunction m 2, inputFunction m 3, inputFunction m 4,
      inputFunction m 5]
    panel := panelDef m }

/-! ### Keys the image names (R2) -/

/-- The keys of the local sources. -/
def sourceKeys (number : BitVec 4) (st : Settings) : List Key := st.sources.map fun x => ⟨number, x.code, x.inst⟩

/-- The result keys of the defined groups. -/
def groupKeys (number : BitVec 4) (st : Settings) : List Key :=
  st.groups.toList.filterMap fun g => g.map (·.key number st.side)

/-- The keys of the panel values of a panel station. -/
def panelKeys (number : BitVec 4) (st : Settings) : List Key :=
  match st.panel with
  | some _ => [⟨number, Config.depthTarget, 0⟩, ⟨number, Config.depthTarget, 1⟩, ⟨number, Config.depthAction, 3⟩,
      ⟨number, Config.modeRequest, 3⟩, ⟨number, Config.loadHold, 2⟩]
  | none => []

/-- The keys of all local producers. -/
def producerKeys (number : BitVec 4) (st : Settings) : List Key :=
  sourceKeys number st ++ groupKeys number st ++ panelKeys number st

/-- The key a member pattern names in full, if it does. -/
def Pattern.fullKey (p : Pattern) : Option Key :=
  match p.source, p.inst with
  | some source, some inst => some ⟨source, p.code, inst⟩
  | _, _ => none

/-- Every pattern of every defined group. -/
def allPatterns (st : Settings) : List Pattern :=
  st.groups.toList.flatMap fun g => match g with
    | some g => g.patterns
    | none => []

/-- The key a channel's target setting names in full. -/
def ChannelDef.operatorKey (cd : ChannelDef) : Option Key :=
  match cd.target with
  | .operator key _ _ => if cd.controls then key else none
  | _ => none

/-- Every key that R2's list pins, repeats included. A pattern that names source 0 in full on a station numbered 1 to 15
pins its key too, REMOTE, though no sample can reach it (assumption 29, the model's choice). -/
def namedKeys (number : BitVec 4) (st : Settings) : List Key :=
  producerKeys number st ++ (allPatterns st).filterMap Pattern.fullKey
    ++ [st.chanA, st.chanB].filterMap ChannelDef.operatorKey

/-- A pinned entry as it is built (R2); the one of a source 0 on a station numbered 1 to 15 stays VACANT
(assumption 29). -/
def pinnedEntry (number : BitVec 4) (k : Key) : Entry :=
  { key := k, origin := if k.source = number then .localSource else .remote, pinned := true, state := .vacant,
    value := none, quality := none, arrival := none, lastSeq := none,
    staleRun := if k.source = number then none else some 0, acted := none, expiredSince := none }

/-- The pinned entries, one for each distinct key, in ascending key order (R2). -/
def pinnedEntries (number : BitVec 4) (st : Settings) : List Entry :=
  (namedKeys number st).foldl (fun es k => insertEntry (pinnedEntry number k) es) []

/-! ### Step 4: references (R169) -/

/-- A group number names a defined group. -/
def Settings.defines (st : Settings) (n : Nat) : Bool :=
  match st.groups[n]? with
  | some (some _) => true
  | _ => false

/-- R25: no pattern of a group names the group's own result key in full. -/
def groupRefs (number : BitVec 4) (st : Settings) : Bool :=
  st.groups.toList.all fun g => match g with
    | some g => g.patterns.all fun p => p.fullKey != some (g.key number st.side)
    | none => true

/-- R45: positions within the scan list, one PULSE source per input. -/
def sourceRefs (st : Settings) : Bool :=
  (st.sources.all fun x => match x.kind with
    | .analog ps => ps.all (· < st.scanList.length)
    | _ => true) &&
  [PulseInput.pls0, PulseInput.pls1].all fun i =>
    decide ((st.sources.filter fun x => match x.kind with
      | .pulse j _ _ _ => j == i
      | _ => false).length ≤ 1)

/-- R65, R86: at most one HALT_BUTTON and one TRUCK_HOLD, panel functions on a panel station alone. -/
def functionRefs (st : Settings) : Bool :=
  let fs := st.functions.toList
  decide ((fs.filter (· == .haltButton)).length ≤ 1) && decide ((fs.filter (· == .truckHold)).length ≤ 1)
    && (st.panel.isSome || fs.all fun f => f == .none || f == .haltButton || f == .releaseButton)

/-- R66: what a published key names. -/
def publicationRef (number : BitVec 4) (st : Settings) (p : PublicationDef) : Bool :=
  let produced := (producerKeys number st).contains ⟨number, p.code, p.inst⟩
  if p.code = Config.channelOutput then
    !produced && ((p.inst == 0 && st.chanA.role != .none) || (p.inst == 1 && st.chanB.role != .none))
  else if p.code = Config.chamberFill then !produced && st.chanA.role == .belt
  else produced

/-- R66, the list as a whole. -/
def publicationRefs (number : BitVec 4) (st : Settings) : Bool :=
  st.publications.all (publicationRef number st) && decide (st.publications.map fun p => (p.code, p.inst)).Nodup

/-- R41, R72, R91: a channel's reference list, target source, operator key and plunge group. -/
def channelRefs (st : Settings) (cd : ChannelDef) : Bool :=
  !decide cd.controls ||
    (decide (1 ≤ cd.refs.length) && cd.refs.all st.defines && decide cd.refs.Nodup
      && (match cd.target with
        | .operator (some k) _ _ =>
          k.code == (if cd.role = .depth then Config.depthTarget else Config.pitchTarget) && st.consumes k.inst
        | .derived g => st.defines g
        | _ => true)
      && match cd.plunge with
        | some p => st.defines p.group
        | none => true)

/-- R117: the conveyor's groups and its belt speed source. -/
def conveyorRefs (number : BitVec 4) (st : Settings) : Bool :=
  match st.conveyor with
  | some cv => st.defines cv.depthGroup && st.defines cv.advanceGroup
      && (sourceKeys number st).contains ⟨number, Config.beltSpeed, cv.speedInst⟩
  | none => true

/-- R145: BELT_HOLD on a station whose channel A is BELT alone. -/
def watchRefs (st : Settings) : Bool :=
  st.watches.toList.all fun w => match w.action with
    | .beltHold _ => st.chanA.role == .belt
    | _ => true

/-- R169: the fit of the channels to the station role, and R91: channel B is never BELT. -/
def roleRefs (st : Settings) : Bool :=
  st.chanB.role != .belt &&
  match st.role with
  | .legDepth => (st.chanA.role == .depth || st.chanB.role == .depth) && st.chanA.role != .belt
  | .legAttitude => (st.chanA.role == .attitude || st.chanB.role == .attitude) && st.chanA.role != .belt
  | .conveyor => st.chanA.role == .belt
  | .sensor | .panel => st.chanA.role == .none && st.chanB.role == .none

/-- Step 4 of the loading checks: every reference, and R2's producers and definitions. -/
def referencesHold (number : BitVec 4) (st : Settings) : Bool :=
  decide (producerKeys number st).Nodup
    && ((namedKeys number st).all fun k => (st.quantity k.code).isSome)
    && ((allPatterns st).all fun p => (st.quantity p.code).isSome)
    && groupRefs number st && sourceRefs st && functionRefs st && publicationRefs number st
    && channelRefs st st.chanA && channelRefs st st.chanB && conveyorRefs number st && watchRefs st && roleRefs st

/-- The loading checks in their order (R168): the settings of a loaded image, or the first fault found. -/
def loadImage (number : BitVec 4) (m : Memory) : Except FaultCode Settings :=
  let st := settingsOf m
  if wordSum m ≠ Config.checkSum then .error .imageCheckword
  else if u16 m 0 ≠ 1 then .error .imageFormat
  else if !byteLimits m || Config.pinnedLimit < (pinnedEntries number st).length then .error .imageLimits
  else if referencesHold number st then .ok st
  else .error .imageReference

end Sys2Proof.Machine
end

