-- ==== Sys2Proof/Machine/Targets.lean ====
section
/-! DEFINITION. Target records (4.1 to 4.6): operator targets, LIFT and RETURN, the ramp and the effective target. -/

namespace Sys2Proof.Machine

/-- The commanded target a target record starts from (R73). -/
def ChannelDef.firstTarget (cd : ChannelDef) : Int :=
  match cd.target with
  | .fixed v => v
  | _ => cd.lo

abbrev ChannelDef.isOperator (cd : ChannelDef) : Bool :=
  match cd.target with
  | .operator _ _ _ => true
  | _ => false

/-- A target record after a start (R73); a BELT or NONE channel has none. -/
def ChannelDef.targetAtStart (cd : ChannelDef) : Option TargetRecord :=
  if cd.controls then some
    { commanded := cd.firstTarget, taken := if cd.isOperator then some false else none, ramped := cd.firstTarget,
      offset := 0, effective := cd.firstTarget,
      stack := if cd.isOperator && cd.role == .depth then some [] else none }
  else none

/-- A new operator target (R74). -/
def TargetRecord.newTarget (r : TargetRecord) (cd : ChannelDef) (maxStep v : Int) : TargetRecord :=
  let c := r.commanded
  { r with
    commanded := if r.taken = some true then clamp (clamp v (c - maxStep) (c + maxStep)) cd.lo cd.hi
      else clamp v cd.lo cd.hi
    taken := some true
    offset := 0 }

/-- LIFT (R83): push the commanded target, dropping the oldest of four, and raise by the lift height. -/
def TargetRecord.lift (r : TargetRecord) (cd : ChannelDef) (height : Int) : TargetRecord :=
  match r.stack with
  | some st =>
    { r with
      stack := some ((r.commanded :: st).take Config.stackSize)
      commanded := clamp (r.commanded - height) cd.lo cd.hi }
  | none => r

/-- RETURN (R84): pop the newest value; nothing on an empty stack. -/
def TargetRecord.recall (r : TargetRecord) : TargetRecord :=
  match r.stack with
  | some (top :: rest) => { r with stack := some rest, commanded := top, offset := 0, taken := some true }
  | _ => r

/-- Change a channel's target record. No state or HELD cause moves, so nothing is marked. -/
def State.mapTarget (s : State) (c : ChannelId) (change : TargetRecord → TargetRecord) : State :=
  s.setChannel c { s.channel c with target := (s.channel c).target.map change }

/-- The role a target quantity is handed to (R15). -/
def targetRole (code : BitVec 6) : ChannelRole :=
  if code = Config.depthTarget then .depth else if code = Config.pitchTarget then .attitude else .none

/-- Hand a new target to one channel (R15, R74). -/
def State.handTarget (s : State) (st : Settings) (c : ChannelId) (code : BitVec 6) (v : Int) : State :=
  let cd := st.channel c
  match cd.target with
  | .operator _ maxStep _ =>
    if cd.controls ∧ cd.role = targetRole code then s.mapTarget c fun r => r.newTarget cd maxStep v else s
  | _ => s

/-- Hand a DEPTH_ACTION to one channel (R85): code 1 LIFT, 2 RETURN, to DEPTH channels with OPERATOR source. -/
def State.handAction (s : State) (st : Settings) (c : ChannelId) (code : Byte) : State :=
  let cd := st.channel c
  match cd.target with
  | .operator _ _ height =>
    if cd.role = .depth ∧ code = 1 then s.mapTarget c fun r => r.lift cd height
    else if cd.role = .depth ∧ code = 2 then s.mapTarget c TargetRecord.recall
    else s
  | _ => s

/-- The ramp of R79 step 2: toward c by at most the ramp rate. -/
def ramp (r c rate : Int) : Int :=
  if c - r ≤ rate ∧ r - c ≤ rate then c else if r < c then r + rate else r - rate

/-- The target block's work at an update (R79); `derived` is the value held by the derived group's record (R76). -/
def TargetRecord.update (r : TargetRecord) (cd : ChannelDef) (derived : Option Int) : TargetRecord :=
  let commanded := match derived with
    | some v => clamp v cd.lo cd.hi
    | none => r.commanded
  let ramped := ramp r.ramped commanded cd.ramp
  { r with commanded, ramped, effective := clamp (ramped + r.offset) cd.lo cd.hi }

/-- Switch adoption (R43). -/
def TargetRecord.adopt (r : TargetRecord) (difference : Int) : TargetRecord :=
  { r with offset := clampValue (r.offset + difference) }

end Sys2Proof.Machine
end

