-- ==== Sys2Proof/Machine/Modes.lean ====
section
/-! DEFINITION. Mode requests (R94 to R97) and whether a channel has a reference (R42). -/

namespace Sys2Proof.Machine

/-- The value of a valid record: EVALUATED with quality GOOD or SUSPECT (R29). -/
def ResultRecord.valid (r : ResultRecord) : Option Int :=
  match r.state, r.quality with
  | .evaluated, some .good | .evaluated, some .suspect => r.value
  | _, _ => none

/-- The result record of a group number, if the group is defined. -/
def State.record (s : State) (n : Nat) : Option ResultRecord :=
  match s.groups[n]? with
  | some (some g) => some g.record
  | _ => none

/-- The value of a group's valid result. -/
def State.validResult (s : State) (n : Nat) : Option Int :=
  match s.record n with
  | some r => r.valid
  | none => none

/-- The first group of a reference list whose record is valid, with its value (R42). -/
def State.activeGroup (s : State) : List Nat → Option (Nat × Int)
  | [] => none
  | g :: gs =>
    match s.validResult g with
    | some v => some (g, v)
    | none => State.activeGroup s gs

/-- A channel has a reference; a BELT channel needs none (R97). -/
def State.hasReference (s : State) (cd : ChannelDef) : Bool :=
  cd.role == .belt || (s.activeGroup cd.refs).isSome

/-- MANUAL request (R96). -/
def State.requestManual (s : State) (c : ChannelId) : State :=
  let ch := s.channel c
  if s.latch ≠ none ∨ ch.state = .manual then s
  else (s.dropCoilCode c).putChannel c
    { ch with state := .manual, cause := none, sat := .none, inDeadband := false, resumeTimer := none, fault := none,
              openRun := if ch.state = .fault then 0 else ch.openRun }

/-- Entry to AUTO by an accepted request (R97). -/
def State.enterAuto (s : State) (c : ChannelId) : State :=
  let ch := s.channel c
  ((s.dropCoilCode c).removeFault (refLostCode c)).putChannel c
    { ch with state := .auto, sat := .none, inDeadband := false, fault := none,
              openRun := if ch.state = .fault then 0 else ch.openRun
              target := ch.target.map fun r => { r with offset := 0 } }

/-- AUTO request (R97). -/
def State.requestAuto (s : State) (cd : ChannelDef) (c : ChannelId) : State :=
  match (s.channel c).state with
  | .auto | .held => s
  | .off | .manual | .fault => if s.latch = none ∧ s.hasReference cd then s.enterAuto c else s

/-- A mode request handed to one channel (R94): refused in LISTENING and after a clash, and not handed to a
channel of role NONE (R16). -/
def State.modeRequest (s : State) (st : Settings) (c : ChannelId) (code : Byte) : State :=
  let cd := st.channel c
  if s.station ≠ .running ∨ s.line.bus = .mutedClash ∨ cd.role = .none then s
  else if code = 0 then s.channelOff c
  else if code = 1 then s.requestManual c
  else if code = 2 then s.requestAuto cd c
  else s

end Sys2Proof.Machine
end

