-- ==== Sys2Proof/Machine/Conveyor.lean ====
section
/-! DEFINITION. The conveyor block (Chapter 6): inputs, milled rate, chamber model, stall, substate and belt demand. -/

namespace Sys2Proof.Machine

/-- The conveyor block after a start (R118). -/
def Conveyor.atStart : Conveyor :=
  { rate := .fallback, milled := 0, loose := 0, holdTimer := none, content := 0, full := false, substate := none,
    command := none, stallStart := none }

/-! ### Inputs (6.3) -/

/-- A remote entry that the command binding gives the station for a code: its side or instance 3 (R17). -/
def Entry.bound (e : Entry) (st : Settings) (code : BitVec 6) : Bool :=
  e.origin == .remote && e.key.code == code && st.consumes e.key.inst

/-- An entry of quality GOOD, HELD or SUSPECT, which then holds a value. -/
def Entry.sound (e : Entry) : Bool :=
  e.quality == some .good || e.quality == some .held || e.quality == some .suspect

/-- How long ago an entry's sample arrived. -/
def Entry.ageAt (e : Entry) (clock : Clock) : Nat :=
  match e.arrival with
  | some t => since clock t
  | none => 0

/-- The later arrival of two qualifying entries, taken in ascending key order: of equals the first (R108, R121). -/
def laterArrival (clock : Clock) (best : Option Entry) (e : Entry) : Option Entry :=
  match best with
  | some b => if e.ageAt clock < b.ageAt clock then some e else some b
  | none => some e

/-- The value of a jog or trim quantity: the FRESH sound bound entry of the latest arrival, 0 without one
(R108, R121). -/
def State.latestCommand (s : State) (st : Settings) (code : BitVec 6) : Int :=
  let qualify := s.table.entries.filter fun e => e.bound st code && e.state == .fresh && e.sound
  match (qualify.foldl (laterArrival s.clock) none).bind (·.value) with
  | some v => v
  | none => 0

/-- The measured belt speed (R120). -/
def State.beltSpeed (s : State) (cv : ConveyorDef) : Int :=
  match s.table.find ⟨s.number, Config.beltSpeed, cv.speedInst⟩ with
  | some e =>
    if e.quality = some .failed then 0
    else match e.value with
      | some v => max v 0
      | none => 0
  | none => 0

/-- The trim (R121). -/
def State.trim (s : State) (st : Settings) : Int := clampAbs (s.latestCommand st Config.beltTrim) 300

/-- The hold condition (R122). -/
def State.holdCondition (s : State) (st : Settings) : Bool :=
  (s.table.entries.any fun e =>
    e.bound st Config.loadHold && (e.state == .fresh || e.state == .aged) && e.sound
      && (match e.value with | some v => v != 0 | none => false))
    || s.beltHold.isSome

/-! ### Milled rate (6.4) -/

/-- Q from depth and advance (R123). -/
def milledRate (cv : ConveyorDef) (depth advance : Int) : Int :=
  clamp (roundDiv (max depth 0 * cv.width * max advance 0) 60000) 0 Config.rateLimit

/-- Q_L from Q (R123). -/
def looseRate (cv : ConveyorDef) (q : Int) : Int := roundDiv (q * cv.bulking) 1000

/-- The rate part of an update (R123, R124), given the two groups' valid results. -/
def Conveyor.updateRate (k : Conveyor) (cv : ConveyorDef) (depth advance : Option Int) (clock : Clock) : Conveyor :=
  match depth, advance with
  | some d, some v =>
    { k with rate := .computed, milled := milledRate cv d v, loose := looseRate cv (milledRate cv d v), holdTimer := none }
  | _, _ =>
    match k.rate with
    | .computed => { k with rate := .holding, holdTimer := some (after clock Config.holdTime) }
    | .holding | .fallback => k

/-! ### Chamber model and judgements (6.8 to 6.10) -/

/-- C, the loose volume carried out per second (R130). -/
def carriedOut (cv : ConveyorDef) (speed : Int) : Int := roundDiv (speed * cv.capacity) 1000

/-- The chamber content after an integration (R130). -/
def integrate (cv : ConveyorDef) (content loose speed : Int) (period : Nat) : Int :=
  clamp (content + roundDiv ((loose - carriedOut cv speed) * period) 1000) 0 cv.xmax

/-- X_alarm and X_resume (6.1). -/
def ConveyorDef.alarmContent (cv : ConveyorDef) : Int := roundDiv (cv.alarm * cv.xmax) 1000
def ConveyorDef.resumeContent (cv : ConveyorDef) : Int := roundDiv (cv.resume * cv.xmax) 1000

/-- The chamber-full judgement after an integration (R132). -/
def Conveyor.judgeFull (k : Conveyor) (cv : ConveyorDef) : Conveyor :=
  { k with full := if k.full then !decide (k.content < cv.resumeContent) else decide (cv.alarmContent ≤ k.content) }

/-- The stall condition of an update (R134), on what stood as the update began. -/
def stallCondition (before : Channel) (command : Option Int) (speed : Int) : Bool :=
  match command with
  | some cmd => before.state == .auto && decide (Config.stallOutput ≤ before.out) && decide (10 * speed < cmd)
  | none => false

/-- The stall is raised at this update (R134). -/
def stallRaised (start : Option Clock) (condition : Bool) (clock : Clock) : Bool :=
  match start with
  | some t => condition && decide (Config.stallTime ≤ since clock t)
  | none => false

/-- The stall start after the judgement (R134, R135). -/
def nextStallStart (start : Option Clock) (condition : Bool) (clock : Clock) : Option Clock :=
  match start with
  | none => if condition then some clock else none
  | some t => if condition then (if Config.stallTime ≤ since clock t then none else some t) else none

/-! ### Belt demand and command (6.5 to 6.7) -/

/-- The belt demand in FEED (R126). -/
def beltDemand (cv : ConveyorDef) (loose trim : Int) : Int :=
  clamp (roundDiv (roundDiv (loose * 1000) cv.load * (1000 + trim)) 1000) cv.smin cv.smax

/-- The substate and belt speed command of an AUTO update (R127). -/
def chooseSubstate (cv : ConveyorDef) (k : Conveyor) (hold : Bool) (trim : Int) : Substate × Int :=
  if hold then (.truckWait, 0)
  else if k.rate = .fallback then (.feed, cv.sfallback)
  else if 0 < k.loose then (.feed, beltDemand cv k.loose trim)
  else if 0 < k.content then (.clear, cv.sclear)
  else (.idle, cv.smin)

/-- The belt demand output u₀ (R129). -/
def beltOutput (cv : ConveyorDef) (command speed : Int) : Int :=
  roundDiv (command * 1000) cv.smax + roundDiv (cv.gain * (command - speed)) 256

/-! ### The update (R119) -/

/-- Write the conveyor block. -/
def State.setConveyor (s : State) (k : Conveyor) : State := { s with conveyor := some k }

/-- Steps 3 and 4 of R119, in RUNNING: the chamber model, chamber full and the stall, and what they raise. Both
judgements are made before either cause is handed to the latch (assumption 19), and the latch takes it before the
command and the output step, the one of R119's two orders that the model takes (assumption 31). -/
def State.judgeBelt (s : State) (st : Settings) (cv : ConveyorDef) (k : Conveyor) (speed : Int) : State :=
  if s.station ≠ .running then s.setConveyor k
  else
    let filled := { k with content := integrate cv k.content k.loose speed st.chanA.period }.judgeFull cv
    let condition := stallCondition s.chanA k.command speed
    let raised := stallRaised k.stallStart condition s.clock
    let s := s.setConveyor { filled with stallStart := nextStallStart k.stallStart condition s.clock }
    let s := if raised then s.addFault .beltStall else s
    let s := if filled.full ∧ ¬ k.full then s.raiseCause chamberFullCause (alarmDetail st) else s
    if raised then s.raiseCause beltStallCause (detailByte speed) else s

/-- Step 5 of R119: in AUTO the substate and the command are chosen. -/
def State.commandBelt (s : State) (cv : ConveyorDef) (hold : Bool) (trim : Int) : State :=
  match s.conveyor with
  | some k =>
    if s.chanA.state = .auto then
      let (substate, command) := chooseSubstate cv k hold trim
      s.setConveyor { k with substate := some substate, command := some command }
    else s
  | none => s

/-- The conveyor's work at an update of channel A (R119), inputs first. -/
def State.conveyorWork (s : State) (st : Settings) : State :=
  match st.conveyor, s.conveyor with
  | some cv, some k =>
    let speed := s.beltSpeed cv
    let trim := s.trim st
    let hold := s.holdCondition st
    let k := k.updateRate cv (s.validResult cv.depthGroup) (s.validResult cv.advanceGroup) s.clock
    (s.judgeBelt st cv k speed).commandBelt cv hold trim
  | _, _ => s

/-- The belt demand output of an AUTO update (R129). -/
def State.beltDemandOutput (s : State) (st : Settings) : Int :=
  match st.conveyor, s.conveyor with
  | some cv, some k =>
    match k.command with
    | some cmd => beltOutput cv cmd (s.beltSpeed cv)
    | none => 0
  | _, _ => 0

/-- The hold timer's expiry (R125). -/
def Conveyor.holdExpired (k : Conveyor) : Conveyor := { k with rate := .fallback, holdTimer := none }

/-- CONVEYOR_HOLD_EXPIRY (R125). -/
def execConveyorHoldExpiry (t : Nat) (s : State) : Out :=
  s.event t fun s =>
    match s.conveyor with
    | some k =>
      match expired k.holdTimer s.clock with
      | some _ => s.setConveyor k.holdExpired
      | none => s
    | none => s

/-- BELT_HOLD_EXPIRY (R148). -/
def execBeltHoldExpiry (t : Nat) (s : State) : Out :=
  s.event t fun s =>
    match expired s.beltHold s.clock with
    | some _ => { s with beltHold := none }
    | none => s

end Sys2Proof.Machine
end

