-- ==== Sys2Proof/Machine/Channels.lean ====
section
/-! DEFINITION. Channel updates (Chapter 5): reference state, target, reference checks, output and coil drive. -/

namespace Sys2Proof.Machine

/-! ### Steps 1 and 2: reference state and target -/

/-- Settling the reference state, with any switch adoption (R42, R43). -/
def Channel.settle (ch : Channel) (active : Option (Nat × Int)) : Channel :=
  match active with
  | some (g, m) =>
    let target := match ch.ref.last with
      | some last => if last.group ≠ g then ch.target.map fun r => r.adopt (m - last.measured) else ch.target
      | none => ch.target
    { ch with ref := ⟨some g, some ⟨g, m⟩⟩, target := target }
  | none => { ch with ref := { ch.ref with active := none } }

/-- The value held by a DERIVED channel's group record, valid or not (R76). -/
def State.derivedValue (s : State) (cd : ChannelDef) : Option Int :=
  match cd.target with
  | .derived g => (s.record g).bind (·.value)
  | _ => none

/-- Steps 1 and 2 of an update (R93). -/
def State.settleTarget (s : State) (cd : ChannelDef) (c : ChannelId) : State :=
  let ch := (s.channel c).settle (s.activeGroup cd.refs)
  s.setChannel c { ch with target := ch.target.map fun r => r.update cd (s.derivedValue cd) }

/-! ### Step 3: reference checks -/

/-- The resume window's expiry (R102). -/
def State.resumeExpired (s : State) (c : ChannelId) : State :=
  (s.putChannel c
    { (s.channel c).silence with state := .manual, cause := none, resumeTimer := none }).addFault (refLostCode c)

/-- An AUTO update finds no active group (R100); a window of 0 has expired at once. -/
def State.loseReference (s : State) (cd : ChannelDef) (c : ChannelId) : State :=
  let held := s.forceChannel c .held (some .refLost) none (some (after s.clock cd.window))
  if cd.window = 0 then held.resumeExpired c else held

/-- The return from HELD with cause REF_LOST (R101). -/
def State.resumeAuto (s : State) (c : ChannelId) : State :=
  s.putChannel c { s.channel c with state := .auto, cause := none, resumeTimer := none }

/-- The window of a HELD channel has not yet expired (R101). -/
def Channel.windowOpen (ch : Channel) (clock : Clock) : Bool :=
  match ch.resumeTimer with
  | some e => !passed clock e
  | none => false

/-- Step 3 of an update (R93, R100, R101). -/
def State.checkReference (s : State) (cd : ChannelDef) (c : ChannelId) : State :=
  let ch := s.channel c
  match ch.state, ch.cause, ch.ref.active with
  | .auto, _, none => s.loseReference cd c
  | .held, some .refLost, some _ => if ch.windowOpen s.clock then s.resumeAuto c else s
  | _, _, _ => s

/-! ### Step 4: output -/

/-- The error shrunk by the deadband (R104). -/
def shrunkError (cd : ChannelDef) (measured target : Int) : Int :=
  let e := clampValue (target - measured)
  if -cd.deadband ≤ e ∧ e ≤ cd.deadband then 0 else if 0 < e then e - cd.deadband else e + cd.deadband

/-- The demand with minimum flow (R105). -/
def flowDemand (cd : ChannelDef) (e : Int) : Int :=
  let p := roundDiv (e * cd.gain) 256
  if 0 < p then p + cd.umin else if p < 0 then p - cd.umin else 0

/-- The plunge limit (R106), given the plunge group's valid result. -/
def plungeLimit (plunge : Option PlungeDef) (result : Option Int) (u : Int) : Int :=
  match plunge with
  | none => u
  | some p =>
    let limited : Bool := match result with
      | some v => decide (p.limit ≤ v)
      | none => true
    if 0 < u ∧ limited then min u p.output else u

/-- The saturation flag of a demand bounded to lo..hi (R107). -/
def saturationOf (u lo hi : Int) : Saturation :=
  if hi < u then .high else if u < lo then .low else .none

/-- The slew (R107). -/
def slewTo (u previous slew : Int) : Int := clamp u (previous - slew) (previous + slew)

/-- The lower bound of a channel's output (R107). -/
def ChannelDef.lowest (cd : ChannelDef) : Int := if cd.role = .belt then 0 else -cd.umax

/-- Bound a demand, set the saturation flag, and slew from the output as it stood (R107). -/
def Channel.drive (ch : Channel) (cd : ChannelDef) (demand : Int) (inDeadband : Bool) : Channel :=
  { ch with
    out := slewTo (clamp demand cd.lowest cd.umax) ch.out cd.slew
    sat := saturationOf demand cd.lowest cd.umax
    inDeadband := inDeadband }

/-- The measured value and effective target of a channel with an active group (R104). -/
def Channel.error (ch : Channel) (cd : ChannelDef) : Option Int :=
  match ch.ref.last, ch.target with
  | some last, some r => some (shrunkError cd last.measured r.effective)
  | _, _ => none

/-- The result a channel's plunge group gives. -/
def State.plungeResult (s : State) (cd : ChannelDef) : Option Int := cd.plunge.bind fun p => s.validResult p.group

/-- The AUTO output (R104 to R107); for BELT the belt demand output takes the chain's place (R129). -/
def State.autoOutput (s : State) (st : Settings) (cd : ChannelDef) (c : ChannelId) : Channel :=
  let ch := s.channel c
  if cd.role = .belt then ch.drive cd (s.beltDemandOutput st) false
  else match ch.error cd with
    | some e => ch.drive cd (plungeLimit cd.plunge (s.plungeResult cd) (flowDemand cd e)) (e == 0)
    | none => ch

/-- The jog quantity of a channel (R108). -/
def jogCode : ChannelId → BitVec 6
  | .a => Config.jogA
  | .b => Config.jogB

/-- The MANUAL output (R108). -/
def State.manualOutput (s : State) (st : Settings) (cd : ChannelDef) (c : ChannelId) : Channel :=
  let ch := s.channel c
  { ch with
    out := slewTo (clamp (s.latestCommand st (jogCode c)) cd.lowest cd.umax) ch.out cd.slew
    sat := .none
    inDeadband := false }

/-- Step 4 of an update: the output for the state as it now stands (R93). -/
def State.outputStep (s : State) (st : Settings) (cd : ChannelDef) (c : ChannelId) : Channel :=
  let ch := s.channel c
  match ch.state with
  | .auto => s.autoOutput st cd c
  | .manual => s.manualOutput st cd c
  | .off | .held | .fault => { ch with out := 0 }

/-! ### Step 5: coil drive -/

/-- The current target of an output's magnitude (R109). -/
def coilCurrent (cd : ChannelDef) (u : Int) : Int := cd.imin + roundDiv (u * (cd.imax - cd.imin)) 1000

/-- The coil drive of an output (R109); an output of 0 also ends the open run (R111). -/
def Channel.setCoils (ch : Channel) (cd : ChannelDef) : Channel :=
  if 0 < ch.out then { ch with coil := .down, current := coilCurrent cd ch.out }
  else if ch.out < 0 then { ch with coil := .up, current := coilCurrent cd (-ch.out) }
  else { ch with coil := .none, current := 0, openRun := 0 }

/-- Steps 4 and 5 of an update (R93, R109). -/
def State.driveChannel (s : State) (st : Settings) (cd : ChannelDef) (c : ChannelId) : State :=
  let ch := (s.outputStep st cd c).setCoils cd
  let s := s.setChannel c ch
  if ch.out = 0 then s.withdrawCheck c else s.requestCheck c ch.current

/-! ### The update -/

/-- One update, taken whole (R93, R119). -/
def State.updateChannel (s : State) (st : Settings) (c : ChannelId) : State :=
  let cd := st.channel c
  if cd.role = .none then s
  else if cd.role = .belt then (s.conveyorWork st).driveChannel st cd c
  else ((s.settleTarget cd c).checkReference cd c).driveChannel st cd c

/-- Rearm a channel's update timer. -/
def State.armUpdate (s : State) (c : ChannelId) (expiry : Clock) : State :=
  s.setChannel c { s.channel c with updateTimer := some expiry }

/-- CHANNEL_UPDATE (R93). -/
def execChannelUpdate (t : Nat) (channel : ChannelId) (s : State) : Out :=
  s.event t fun s =>
    s.withSettings fun st =>
      match expired (s.channel channel).updateTimer s.clock with
      | some expiry => (s.armUpdate channel (after expiry (st.channel channel).period)).updateChannel st channel
      | none => s

/-- RESUME_WINDOW_EXPIRY (R102). -/
def execResumeWindowExpiry (t : Nat) (channel : ChannelId) (s : State) : Out :=
  s.event t fun s =>
    let ch := s.channel channel
    if ch.state = .held ∧ ch.cause = some .refLost then
      match expired ch.resumeTimer s.clock with
      | some _ => s.resumeExpired channel
      | none => s
    else s

end Sys2Proof.Machine
end

