-- ==== Sys2Proof/Machine/Table.lean ====
section
/-! DEFINITION. The peer table (Chapter 1): acceptance of remote samples, their hand-over, and ageing. -/

namespace Sys2Proof.Machine

/-- A sample's effective quality and the value it carries (R7). -/
def RawSample.effective (r : RawSample) : Quality × Option Int :=
  if r.value = 0x8000#16 then (.failed, none)
  else if r.quality = 0 then (.good, some r.value.toInt)
  else if r.quality = 1 then (.held, some r.value.toInt)
  else if r.quality = 2 then (.suspect, some r.value.toInt)
  else (.failed, none)

/-- A member pattern matches a key (R26). -/
def Pattern.fits (p : Pattern) (k : Key) : Bool :=
  k.code == p.code
    && (match p.source with | some x => k.source == x | none => true)
    && (match p.inst with | some x => k.inst == x | none => true)

/-- A key matches a wildcard consumer: a pattern with source or instance ANY, or a command binding (R8). -/
def Settings.wants (st : Settings) (k : Key) : Bool :=
  ((allPatterns st).any fun p => (p.source.isNone || p.inst.isNone) && p.fits k)
    || (Config.commandCodes.contains k.code && st.consumes k.inst)

abbrev isTarget (code : BitVec 6) : Prop := code = Config.depthTarget ∨ code = Config.pitchTarget
abbrev isAction (code : BitVec 6) : Prop := code = Config.depthAction ∨ code = Config.modeRequest

/-- The serial and code of an action value; not decoded when absent or negative (R16). -/
def decodeAction (value : Option Int) : Option (BitVec 7 × Byte) :=
  match value with
  | some v => if 0 ≤ v then some (BitVec.ofInt 7 (v / 256), BitVec.ofInt 8 (v % 256)) else none
  | none => none

/-- A remote entry takes a sample: R14, then its sequence, stale run and, for an action, its acted serial
(R11, R12, R16). -/
def Entry.takeRemote (e : Entry) (d : QuantityDef) (r : RawSample) (clock : Clock) : Entry :=
  let (quality, value) := RawSample.effective r
  { e.take d quality value clock with
    lastSeq := some r.seq
    staleRun := some 0
    acted := if isAction e.key.code then
        (match decodeAction value with | some (serial, _) => some serial | none => e.acted)
      else e.acted }

/-- A new remote entry before it takes its first sample (R9). -/
def remoteEntry (k : Key) : Entry :=
  { key := k, origin := .remote, pinned := false, state := .vacant, value := none, quality := none, arrival := none,
    lastSeq := none, staleRun := some 0, acted := none, expiredSince := none }

/-- Hand a taken target value over (R15): on a first value, or when the clamped value changed. -/
def State.handTargets (s : State) (st : Settings) (d : QuantityDef) (old : Entry) (first : Bool) (code : BitVec 6)
    (value : Option Int) : State :=
  match value.map fun v => clamp v d.lo d.hi with
  | some v =>
    if first ∨ old.value ≠ some v then (s.handTarget st .a code v).handTarget st .b code v else s
  | none => s

/-- Hand a taken action over (R16): a decoded serial that differs from the acted one, by sequence judgement. -/
def State.handActions (s : State) (st : Settings) (old : Entry) (first : Bool) (code : BitVec 6) (value : Option Int) :
    State :=
  match decodeAction value, old.acted with
  | some (serial, action), some acted =>
    if first ∨ serial = acted then s
    else if code = Config.depthAction then (s.handAction st .a action).handAction st .b action
    else (s.modeRequest st .a action).modeRequest st .b action
  | _, _ => s

/-- The hand-over of section 1.4, for an entry of the station's side or instance 3 (R15, R16). -/
def State.handOver (s : State) (st : Settings) (d : QuantityDef) (old : Entry) (first : Bool) (r : RawSample) : State :=
  let value := (RawSample.effective r).2
  if st.consumes r.inst = false then s
  else if isTarget r.code then s.handTargets st d old first r.code value
  else if isAction r.code then s.handActions st old first r.code value
  else s

/-- The entry takes the sample, and what that hands over (R14 to R16). -/
def State.takeSample (s : State) (st : Settings) (d : QuantityDef) (e : Entry) (first : Bool) (r : RawSample) : State :=
  (s.updateEntry e.key fun _ => e.takeRemote d r s.clock).handOver st d e first r

/-- How long ago an entry expired (R10). -/
def Entry.expiredFor (e : Entry) (clock : Clock) : Nat :=
  match e.expiredSince with
  | some t => since clock t
  | none => 0

/-- The better eviction candidate of two, taken in ascending key order: the one expired longer, and of equals the
first, whose key is lower (R10). -/
def longerExpired (clock : Clock) (best : Option Entry) (e : Entry) : Option Entry :=
  if e.pinned = false ∧ e.state = .expired then
    match best with
    | some b => if b.expiredFor clock < e.expiredFor clock then some e else some b
    | none => some e
  else best

/-- The victim of eviction (R10). -/
def PeerTable.victim (p : PeerTable) (clock : Clock) : Option Entry :=
  p.entries.foldl (longerExpired clock) none

/-- Find a place for a new key (R9): the table with room in it, or none. -/
def PeerTable.makeRoom (p : PeerTable) (clock : Clock) : Option PeerTable :=
  if p.entries.length < Config.tableSize then some p
  else match p.victim clock with
    | some v => some { p with entries := p.entries.filter (·.key != v.key) }
    | none => none

/-- The creation path (R9). -/
def State.createEntry (s : State) (st : Settings) (d : QuantityDef) (k : Key) (r : RawSample) : State :=
  match s.table.makeRoom s.clock with
  | some p =>
    let e := remoteEntry k
    ({ s with table := { p with entries := insertEntry e p.entries } }).takeSample st d e true r
  | none => { s with table := { s.table with refusals := saturate s.table.refusals 1 } }

/-- The update path (R11 to R13). -/
def State.updatePath (s : State) (st : Settings) (d : QuantityDef) (e : Entry) (r : RawSample) : State :=
  match e.state, e.lastSeq with
  | .fresh, some last | .aged, some last =>
    let distance := (r.seq - last).toNat
    if distance = 0 then s
    else if distance ≤ 127 then
      ({ s with table := { s.table with gaps := saturate s.table.gaps (distance - 1) } }).takeSample st d e false r
    else if e.staleRun = some 2 then s.takeSample st d e true r
    else s.updateEntry e.key fun e => { e with staleRun := e.staleRun.map (· + 1) }
  | _, _ => s.takeSample st d e true r

/-- One sample of a PUBLISH frame through the acceptance stage (R4 to R9). -/
def State.acceptSample (s : State) (source : BitVec 4) (r : RawSample) : State :=
  s.withSettings fun st =>
    if inSet st.listen source then
      match st.quantity r.code with
      | some d =>
        match s.table.find ⟨source, r.code, r.inst⟩ with
        | some e => s.updatePath st d e r
        | none => if st.wants ⟨source, r.code, r.inst⟩ then s.createEntry st d ⟨source, r.code, r.inst⟩ r else s
      | none => s
    else s

/-- The samples of a frame, one at a time in payload order (R4). -/
def State.acceptAll (s : State) (source : BitVec 4) (samples : List RawSample) : State :=
  samples.foldl (fun s r => s.acceptSample source r) s

/-! ### Ageing (R18, R19) -/

/-- The age of an entry exceeds a limit of its quantity. -/
def Entry.older (e : Entry) (clock : Clock) (limit : Nat) : Bool :=
  match e.arrival with
  | some t => decide (limit < since clock t)
  | none => false

/-- FRESH to AGED, if the entry's age exceeds its fresh limit (R18). -/
def Entry.toAged (e : Entry) (d : QuantityDef) (clock : Clock) : Entry :=
  if e.state = .fresh ∧ e.older clock d.fresh then { e with state := .aged } else e

/-- AGED to EXPIRED, if the entry's age exceeds its expiry limit (R18). -/
def Entry.toExpired (e : Entry) (d : QuantityDef) (clock : Clock) : Entry :=
  if e.state = .aged ∧ e.older clock d.expiry then { e with state := .expired, expiredSince := some clock } else e

/-- An entry's ageing step, under the definition of its quantity. -/
def State.age (s : State) (k : Key) (change : Entry → QuantityDef → Clock → Entry) : State :=
  s.withSettings fun st =>
    match st.quantity k.code with
    | some d => s.updateEntry k fun e => change e d s.clock
    | none => s

/-- FRESH_TO_AGED (R18). -/
def execFreshToAged (t : Nat) (key : Key) (s : State) : Out :=
  s.event t fun s => s.age key Entry.toAged

/-- AGED_TO_EXPIRED (R18, R19). -/
def execAgedToExpired (t : Nat) (key : Key) (s : State) : Out :=
  s.event t fun s => s.age key Entry.toExpired

end Sys2Proof.Machine
end

