-- ==== Sys2Proof/Machine/Groups.lean ====
section
/-! DEFINITION. Reference groups (Chapter 2): selecting contributions, MEAN and SLOPE, the result record and entry. -/

namespace Sys2Proof.Machine

/-- An entry claimed by a pattern: its key, its value, and what the pattern and the entry bring (R31, R33, R36). -/
structure Claim where
  key : Key
  pattern : Nat
  value : Int
  weight : Nat
  offset : Int
  doubtful : Bool
  deriving DecidableEq, Repr

/-- An entry is usable by a group (R30). -/
def Entry.usable (e : Entry) (acceptAged : Bool) : Bool :=
  (e.state == .fresh || (e.state == .aged && acceptAged))
    && (e.quality == some .good || e.quality == some .held || e.quality == some .suspect)

/-- The claim a pattern makes on an entry, if it matches, is usable and is not the group's own result entry
(R26, R30). -/
def Pattern.claim (p : Pattern) (index : Nat) (own : Key) (acceptAged : Bool) (e : Entry) : Option Claim :=
  if p.fits e.key ∧ e.key ≠ own ∧ e.usable acceptAged then
    e.value.map fun v =>
      ⟨e.key, index, v, p.weight, p.offset, e.quality == some .suspect || e.state == .aged⟩
  else none

/-- One entry offered to one pattern of a MEAN (R31): passed over when claimed already, and from the sixth claim
on. -/
def addClaim (claims : List Claim) (claim : Option Claim) : List Claim :=
  match claim with
  | some c =>
    if claims.length < Config.contributionLimit ∧ claims.all (·.key != c.key) then claims ++ [c] else claims
  | none => claims

/-- The contributions of a MEAN group (R31). -/
def GroupDef.meanClaims (g : GroupDef) (own : Key) (entries : List Entry) : List Claim :=
  g.patterns.zipIdx.foldl
    (fun claims (p, i) => entries.foldl (fun claims e => addClaim claims (p.claim i own g.acceptAged e)) claims) []

/-- A term: value plus offset, clamped (R33). -/
def Claim.term (c : Claim) : Int := clampValue (c.value + c.offset)

/-- The clamp changed the term (R33). -/
def Claim.clamped (c : Claim) : Bool := c.term != c.value + c.offset

/-- Every required pattern claimed something, and the minimum is met (R32). -/
def GroupDef.satisfied (g : GroupDef) (claims : List Claim) : Bool :=
  (g.patterns.zipIdx.all fun (p, i) => !p.required || claims.any (·.pattern == i))
    && decide (g.minimum ≤ claims.length)

/-- The quality of a valid result from its marks (R36). -/
def markQuality (claims : List Claim) (resultClamped : Bool) : ResultQuality :=
  if claims.any (fun c => c.doubtful || c.clamped) || resultClamped then .suspect else .good

/-- A MEAN evaluation: the value and quality of a valid result (R33, R36). -/
def GroupDef.mean (g : GroupDef) (own : Key) (entries : List Entry) : Option (Int × ResultQuality) :=
  let claims := g.meanClaims own entries
  if g.satisfied claims then
    some (roundDiv ((claims.map fun c => (c.weight : Int) * c.term).sum) ((claims.map fun c => (c.weight : Int)).sum),
      markQuality claims false)
  else none

/-- A SLOPE evaluation (R34, R35). -/
def GroupDef.slope (g : GroupDef) (own : Key) (entries : List Entry) : Option (Int × ResultQuality) :=
  match g.patterns with
  | base :: slope :: _ =>
    match entries.findSome? (base.claim 0 own g.acceptAged) with
    | some b =>
      match (entries.filter (·.key != b.key)).findSome? (slope.claim 1 own g.acceptAged) with
      | some x =>
        let exact := b.term + roundDiv (x.term * g.arm) 10000
        if g.satisfied [b, x] then some (clampValue exact, markQuality [b, x] (clampValue exact != exact)) else none
      | none => none
    | none => none
  | _ => none

/-- The result of an evaluation, if it is valid (R32, R34). -/
def GroupDef.evaluate (g : GroupDef) (own : Key) (entries : List Entry) : Option (Int × ResultQuality) :=
  match g.mode with
  | .mean => g.mean own entries
  | .slope => g.slope own entries

/-- The record after an evaluation (R37, R38). -/
def ResultRecord.after (r : ResultRecord) (result : Option (Int × ResultQuality)) : ResultRecord :=
  match result with
  | some (v, q) => ⟨.evaluated, some q, some v⟩
  | none => ⟨.evaluated, some .invalid, r.value⟩

/-- The quality under which a valid result is delivered (R39). -/
def ResultQuality.delivered : ResultQuality → Quality
  | .good => .good
  | .suspect => .suspect
  | .invalid => .failed

/-- What the group delivers to its result entry (R39). -/
def State.deliverResult (s : State) (own : Key) (before : ResultRecord) (result : Option (Int × ResultQuality)) : State :=
  match result with
  | some (v, q) => s.deliver own q.delivered (some v)
  | none => if before.value.isSome then s.deliver own .failed none else s

/-- Write a group's record and timer. -/
def State.setGroup (s : State) (n : Fin 4) (g : GroupRun) : State := { s with groups := s.groups.set n (some g) }

/-- One evaluation, taken whole (R28). -/
def State.evaluateGroup (s : State) (n : Fin 4) (g : GroupDef) (own : Key) (run : GroupRun) (expiry : Clock) : State :=
  let result := g.evaluate own s.table.entries
  (s.setGroup n ⟨run.record.after result, some (after expiry g.period)⟩).deliverResult own run.record result

/-- GROUP_EVALUATION (R28). -/
def execGroupEvaluation (t : Nat) (group : Fin 4) (s : State) : Out :=
  s.event t fun s =>
    s.withSettings fun st =>
      match st.groups[group], s.groups[group] with
      | some g, some run =>
        match expired run.timer s.clock with
        | some expiry => s.evaluateGroup group g (g.key s.number st.side) run expiry
        | none => s
      | _, _ => s

end Sys2Proof.Machine
end

