-- ==== Sys2Proof/Machine/Operands.lean ====
section
/-! DEFINITION. The byte layouts of the line: the frame's envelope and CRC (8.2), the receive checks (R156), the
payloads (10.1), and the frames the commands and the station's own frames spell. -/

namespace Sys2Proof.Machine

/-- A frame between SYNC and the CRC: TYPE byte, SOURCE byte, payload; LENGTH is the payload's length. -/
structure WireFrame where
  typ : Byte
  source : Byte
  payload : List Byte
  deriving DecidableEq, Repr

/-- The two levels of the line (R153): dominant stands for a 0 bit, recessive for a 1 bit. -/
inductive Level
  | dominant | recessive
  deriving DecidableEq, Repr

/-- What a station makes of one bit of its own frame as it reads it back (R161, R162). -/
inductive Echo
  | same | contentionLoss | echoFault
  deriving DecidableEq, Repr

/-- What the receive checks make of the byte cells heard so far (R155, R156). -/
inductive Verdict
  | incomplete | droppedEarly | droppedAtArrival | intact
  deriving DecidableEq, Repr

def highByte (w : Word16) : Byte := w.extractLsb' 8 8
def lowByte (w : Word16) : Byte := w.extractLsb' 0 8

/-- A total as the two bytes of a STATUS field (10.1). -/
def totalBytes (n : Nat) : List Byte := [highByte (BitVec.ofNat 16 n), lowByte (BitVec.ofNat 16 n)]

/-- The station a SOURCE byte names: its low four bits (R154). -/
def stationOf (source : Byte) : BitVec 4 := source.extractLsb' 0 4

/-- A byte with a station number in its low four bits, the high four 0 (8.2). -/
def sourceByte (number : BitVec 4) : Byte := number.zeroExtend 8

/-! ### CRC (R154) -/

/-- One bit fed to the CRC remainder. -/
def crcBit (r : Word16) (bit : Bool) : Word16 :=
  if r.msb ^^ bit then (r <<< 1) ^^^ 0x1021 else r <<< 1

/-- One byte fed to the remainder, most significant bit first. -/
def crcByte (r : Word16) (b : Byte) : Word16 :=
  [7, 6, 5, 4, 3, 2, 1, 0].foldl (fun r i => crcBit r (b.getLsbD i)) r

/-- The remainder over some bytes, from the initial value 0xFFFF. -/
def crc (bytes : List Byte) : Word16 := bytes.foldl crcByte 0xFFFF

/-- The bytes the CRC covers: TYPE, SOURCE, LENGTH, payload. -/
def WireFrame.covered (f : WireFrame) : List Byte :=
  f.typ :: f.source :: BitVec.ofNat 8 f.payload.length :: f.payload

/-- The whole frame as its byte cells carry it (8.2). -/
def WireFrame.bytes (f : WireFrame) : List Byte :=
  Config.sync :: f.covered ++ [highByte (crc f.covered), lowByte (crc f.covered)]

/-- The level that stands for a bit (R153). -/
def bitLevel (bit : Bool) : Level := if bit then .recessive else .dominant

/-- The ten bits of a byte cell (R153): start bit, eight data bits least significant first, stop bit. -/
def cellLevels (b : Byte) : List Level :=
  .dominant :: [0, 1, 2, 3, 4, 5, 6, 7].map (fun i => bitLevel (b.getLsbD i)) ++ [.recessive]

/-- The byte cell a receiver reads from ten bits that begin with a start bit (R153); none from anything else. -/
def readCell : List Level → Option ByteCell
  | [.dominant, b0, b1, b2, b3, b4, b5, b6, b7, stop] =>
    some ⟨[b7, b6, b5, b4, b3, b2, b1, b0].foldl (fun byte b => byte <<< 1 ||| if b = .recessive then 1 else 0) 0,
      stop = .recessive⟩
  | _ => none

/-- The levels a sender drives for a frame, bit by bit, without gaps (R153, 8.2). -/
def WireFrame.levels (f : WireFrame) : List Level := f.bytes.flatMap cellLevels

/-- The line when two stations drive it in one bit time: dominant where either does (R153). -/
def lineLevel (x y : Level) : Level := if x = .dominant ∨ y = .dominant then .dominant else .recessive

/-- The other level: what is read back where the line differs from what is driven. -/
def Level.other : Level → Level
  | .dominant => .recessive
  | .recessive => .dominant

/-- Bit i of a frame, driven and read back (R153, R161, R162): dominant read where recessive was driven in SYNC, TYPE
or SOURCE is a contention loss, any other difference an echo fault. -/
def judgeBit (i : Nat) (driven read : Level) : Echo :=
  if driven = read then .same
  else if i < Config.contentionBits ∧ driven = .recessive then .contentionLoss
  else .echoFault

/-- How long a frame takes on the line, sent without gaps, in µs (8.2). -/
def WireFrame.duration (f : WireFrame) : Nat := Config.cellTime * (6 + f.payload.length)

/-! ### Receive checks (R156) -/

/-- The frame type in TYPE's high four bits. -/
def frameType (typ : Byte) : Nat := typ.toNat / 16

/-- The sample count in TYPE's low four bits. -/
def frameCount (typ : Byte) : Nat := typ.toNat % 16

/-- The LENGTH check at arrival (R156, table of 8.2). -/
def lengthFits (typ : Byte) (length : Nat) : Bool :=
  match frameType typ with
  | 1 => decide (1 ≤ frameCount typ ∧ frameCount typ ≤ 4 ∧ length = 5 * frameCount typ)
  | 2 => length == 20
  | 3 => length == 2
  | 4 => length == 0
  | 5 => length == 3 || length == 19
  | 6 => length == 2 || length == 18
  | _ => true

/-- The TYPE check (R156). -/
def typeFits (typ : Byte) : Bool :=
  decide (1 ≤ frameType typ ∧ frameType typ ≤ 6 ∧ (frameType typ = 1 ∨ frameCount typ = 0))

/-- The checks made at arrival, over TYPE through the second CRC byte (R154, R156). -/
def arrivalChecks (bytes : List Byte) : Bool :=
  crc bytes == 0 &&
  match bytes with
  | typ :: _ :: length :: _ => lengthFits typ length.toNat && typeFits typ
  | _ => false

/-- The receive checks over the byte cells heard from a frame's first one on (R155, R156). A dominant stop bit in the last
CRC byte's cell, whose end is also the arrival, counts as a drop before the end (assumption 34, the model's choice). -/
def judgeCells (cells : List ByteCell) : Verdict :=
  let bytes := cells.map (·.byte)
  let tooLong := match bytes[3]? with | some l => decide (20 < l.toNat) | none => false
  let size := match bytes[3]? with | some l => 6 + l.toNat | none => 6 + cells.length
  let framing := (match bytes with | b :: _ => b != Config.sync | [] => false) || (cells.take size).any (!·.stop)
  if framing || tooLong then .droppedEarly
  else if cells.length < size then .incomplete
  else if arrivalChecks ((bytes.take size).drop 1) then .intact
  else .droppedAtArrival

/-- The part of a received frame the watches see: position 0 is TYPE (R146). -/
def WireFrame.window (f : WireFrame) : List Byte := f.covered

/-! ### Payloads (10.1) -/

def Quality.code : Quality → Byte
  | .good => 0
  | .held => 1
  | .suspect => 2
  | .failed => 3

/-- The five bytes of a sample. -/
def RawSample.bytes (r : RawSample) : List Byte :=
  [r.code ++ r.inst, r.seq, r.quality, highByte r.value, lowByte r.value]

/-- The bytes of a stamped sample of the station's own. -/
def StampedSample.raw (x : StampedSample) : RawSample :=
  ⟨x.sample.code, x.sample.inst, x.seq, x.sample.quality.code, toWord16 x.sample.value⟩

def publishWire (source : Byte) (samples : List RawSample) : WireFrame :=
  ⟨BitVec.ofNat 8 (16 + samples.length), source, samples.flatMap RawSample.bytes⟩

def haltWire (source cause detail : Byte) : WireFrame := ⟨0x30, source, [cause, detail]⟩

def releaseWire (source : Byte) : WireFrame := ⟨0x40, source, []⟩

def statusWire (source : Byte) (payload : List Byte) : WireFrame := ⟨0x20, source, payload⟩

def rowBytes (data : Option Row) : List Byte :=
  match data with
  | some r => r.toList
  | none => []

def serviceWire (h : ServiceHeader) (code : Byte) (data : List Byte) : WireFrame :=
  ⟨0x50, h.source, h.target :: code :: h.row :: data⟩

def replyWire (source status row : Byte) (data : List Byte) : WireFrame :=
  ⟨0x60, source, status :: row :: data⟩

/-- A frame of the station's own on the line (8.2, R163, R164). -/
def OwnFrame.wire (number : BitVec 4) : OwnFrame → WireFrame
  | .halt cause detail => haltWire (sourceByte number) cause detail
  | .release => releaseWire (sourceByte number)
  | .reply r => replyWire (sourceByte number) r.status r.row r.data
  | .status payload => statusWire (sourceByte number) payload
  | .publish samples => publishWire (sourceByte number) (samples.map StampedSample.raw)

/-- Command codes of the service commands (9.5). -/
def readRowCode : Byte := 1
def writeRowCode : Byte := 2
def eraseRowCode : Byte := 3
def eraseAllCode : Byte := 4
def blankCheckCode : Byte := 5
def lockCode : Byte := 6
def restartCode : Byte := 7

/-- Status codes of the replies (9.5). -/
def okStatus : Byte := 0
def busyStatus : Byte := 1
def lockedStatus : Byte := 2
def notBlankStatus : Byte := 3
def writeFailedStatus : Byte := 4
def badRowStatus : Byte := 5
def badCommandStatus : Byte := 6
def blankStatus : Byte := 7

/-- A command code and length that no service command has: an unknown code, or a length that does not match
(R173, 2): 19 for WRITE_ROW, 3 for the others. -/
def badCommand (code : Byte) (data : Option Row) : Bool :=
  decide (code.toNat < 1 ∨ 7 < code.toNat) || (data.isSome != (code == writeRowCode))

end Sys2Proof.Machine
end

