-- ==== Sys2Proof/Machine/Receive.lean ====
section
/-! DEFINITION. Receiving (8.3): the receiver's states, frame watches (7.5), the number clash (R158), and the handing
on of intact frames by their type (R157). -/

namespace Sys2Proof.Machine

/-! ### Frame watches -/

/-- A watch matches a frame (R146). -/
def Watch.fits (w : Watch) (window : List Byte) : Bool :=
  ((w.mask.zip w.pattern).zipIdx).all fun ((mask, pattern), i) =>
    mask == 0 ||
    match window[i]? with
    | some b => (b &&& mask) == (pattern &&& mask)
    | none => false

/-- One watch at a frame (R147, R148). -/
def State.runWatch (s : State) (n : Fin 4) (w : Watch) (f : WireFrame) : State :=
  match w.action with
  | .none => s
  | .latch => if w.fits f.window then s.raiseCause (watchCause n) (sourceByte (stationOf f.source)) else s
  | .beltHold ms => if w.fits f.window then { s with beltHold := some (after s.clock ms) } else s

/-- The watches in the order W0 to W3, in LISTENING and RUNNING (R146). -/
def State.runWatches (s : State) (f : WireFrame) : State :=
  if s.atWork then
    s.withSettings fun st =>
      (((s.runWatch 0 st.watches[0] f).runWatch 1 st.watches[1] f).runWatch 2 st.watches[2] f).runWatch 3
        st.watches[3] f
  else s

/-! ### Number clash -/

/-- Leaving the timed mute: ECHO_MUTE removed, the run 0, the timer gone (R162). -/
def State.endMute (s : State) (bus : BusState) : State :=
  { s with line := { s.line with bus := bus, muteTimer := none, echoRun := 0 } }.removeFault .echoMute

/-- A number clash is detected (R158, R116). -/
def State.numberClash (s : State) : State :=
  if s.line.bus = .mutedClash then s
  else
    let muted := if s.line.bus = .mutedTimed then s.endMute .mutedClash
      else { s with line := { s.line with bus := .mutedClash } }
    ((muted.addFault .numberClash).channelOff .a).channelOff .b

/-! ### Arrivals -/

/-- The receiver is collecting a frame, and the station is not sending one itself (R155, R161). -/
abbrev State.collecting (s : State) : Prop :=
  (s.line.receiver = .inFrame true ∨ s.line.receiver = .inFrame false) ∧ s.line.flight = none

/-- Reception of a frame ends at the end of its last byte cell: the receiver is IDLE and the quiet time begins
(R153, R155). -/
def State.endReception (s : State) : State :=
  { s with line := { s.line with receiver := .idle, quietSince := some s.now } }

/-- An intact frame arrives (R157): the watches test it, then the clash check acts on one bearing the own number,
and any other is handed on. -/
def State.arrive (s : State) (f : WireFrame) (handOn : State → State) : State :=
  if s.collecting then
    let tested := s.endReception.runWatches f
    if stationOf f.source = s.number then tested.numberClash else handOn tested
  else s

/-- PUBLISH_FRAME (R4). -/
def execPublishFrame (t : Nat) (source : Byte) (samples : List RawSample) (s : State) : Out :=
  s.event t fun s =>
    if 1 ≤ samples.length ∧ samples.length ≤ 4 then
      s.arrive (publishWire source samples) fun s =>
        if s.atWork then s.acceptAll (stationOf source) samples else s
    else s

/-- HALT_FRAME (R141). -/
def execHaltFrame (t : Nat) (source cause detail : Byte) (s : State) : Out :=
  s.event t fun s => s.arrive (haltWire source cause detail) fun s => s.takeHalt (stationOf source) cause detail

/-- RELEASE_FRAME (R142). -/
def execReleaseFrame (t : Nat) (source : Byte) (s : State) : Out :=
  s.event t fun s => s.arrive (releaseWire source) fun s => s.takeRelease (stationOf source)

/-- STATUS_FRAME (R152). -/
def execStatusFrame (t : Nat) (source : Byte) (payload : Vector Byte 20) (s : State) : Out :=
  s.event t fun s => s.arrive (statusWire source payload.toList) id

/-- SERVICE_REPLY_FRAME (R157). -/
def execServiceReplyFrame (t : Nat) (source status row : Byte) (data : Option Row) (s : State) : Out :=
  s.event t fun s => s.arrive (replyWire source status row (rowBytes data)) id

/-! ### The receiver -/

/-- RECEIVER_IDLE (R155): the quiet time exceeds 8 bit times. -/
def execReceiverIdle (t : Nat) (s : State) : Out :=
  s.event t fun s =>
    match s.line.receiver, s.line.quietSince with
    | .waiting, some q =>
      if q + Config.gapLimit < s.now then { s with line := { s.line with receiver := .idle } } else s
    | _, _ => s

/-- A byte cell begins while the receiver is WAITING (R155): it is not collected, and the line is quiet again from its
end. While an earlier cell is still on the line none begins. -/
def Line.passCell (l : Line) (now : Nat) : Line :=
  match l.quietSince with
  | some q => if q ≤ now then { l with quietSince := some (now + Config.cellTime), yielding := false } else l
  | none => l

/-- FRAME_START_HEARD (R160, R155): another station's frame begins, or a byte cell passes a WAITING receiver
(assumption 12). -/
def execFrameStartHeard (t : Nat) (s : State) : Out :=
  s.event t fun s =>
    if s.line.flight ≠ none then s
    else match s.line.receiver with
      | .idle => { s with line := { s.line with receiver := .inFrame false, quietSince := none, yielding := false } }
      | .waiting => { s with line := s.line.passCell s.now }
      | .stopped | .inFrame _ => s

/-- A dropped frame counts unless the station drove its first byte cell (R156). -/
def Line.countError (l : Line) : Line :=
  if l.receiver = .inFrame true then l else { l with errors := saturate l.errors 1 }

/-- FRAME_BROKEN (R156): the gap passes 8 bit times; this is the first whole µs of which that is so (assumption 11). -/
def execFrameBroken (t : Nat) (s : State) : Out :=
  s.event t fun s =>
    if s.collecting then
      { s with line := { s.line.countError with receiver := .waiting, quietSince := some (s.now - (Config.gapLimit + 1)) } }
    else s

/-- FRAME_DROPPED (R156): at once before the frame's end, or at its arrival; either way at the end of a byte cell, from
which the line is quiet until the next one begins (R153). Which of the two a bad stop bit of the last cell is, is
assumption 34, the model's choice. -/
def execFrameDropped (t : Nat) (cells : List ByteCell) (s : State) : Out :=
  s.event t fun s =>
    if s.collecting then
      match judgeCells cells with
      | .droppedEarly => { s with line := { s.line.countError with receiver := .waiting, quietSince := some s.now } }
      | .droppedAtArrival => { s with line := { s.line.countError with receiver := .idle, quietSince := some s.now } }
      | .incomplete | .intact => s
    else s

end Sys2Proof.Machine
end

