-- ==== Sys2Proof/Machine/Panel.lean ====
section
/-! DEFINITION. Discrete inputs (3.6) and the panel functions (4.8). -/

namespace Sys2Proof.Machine

/-! ### Panel values and their entries -/

/-- An action value: serial × 256 + code (4.8). -/
def PanelAction.value (a : PanelAction) : Int := a.serial.toNat * 256 + a.code.toNat

/-- The load hold as its entry carries it: 1 or 0 (4.8). -/
def holdValue (hold : Bool) : Int := if hold then 1 else 0

def State.deliverLeft (s : State) (p : PanelValues) : State :=
  s.deliver ⟨s.number, Config.depthTarget, 0⟩ .good (some p.left)

def State.deliverRight (s : State) (p : PanelValues) : State :=
  s.deliver ⟨s.number, Config.depthTarget, 1⟩ .good (some p.right)

def State.deliverAction (s : State) (p : PanelValues) : State :=
  s.deliver ⟨s.number, Config.depthAction, 3⟩ .good (some p.action.value)

def State.deliverMode (s : State) (p : PanelValues) : State :=
  s.deliver ⟨s.number, Config.modeRequest, 3⟩ .good (some p.mode.value)

def State.deliverHold (s : State) (p : PanelValues) : State :=
  s.deliver ⟨s.number, Config.loadHold, 2⟩ .good (some (holdValue p.hold))

/-- Every panel value is delivered to its entry with quality GOOD (R87). -/
def State.deliverPanel (s : State) (p : PanelValues) : State :=
  ((((s.deliverLeft p).deliverRight p).deliverAction p).deliverMode p).deliverHold p

/-- Set the panel values. -/
def State.setPanel (s : State) (p : PanelValues) : State := { s with panel := some p }

/-- The load hold of the TRUCK_HOLD input's debounced level, 0 without such an input (R87). -/
def State.truckHeld (s : State) (st : Settings) : Bool :=
  match st.inputOf .truckHold with
  | some i => s.inputs[i].level
  | none => false

/-- The initial panel values (R87). -/
def State.initialPanel (s : State) (st : Settings) (d : PanelDef) : PanelValues :=
  { left := d.left, right := d.right, action := ⟨0, 255⟩, mode := ⟨0, 255⟩, hold := s.truckHeld st,
    timer := some (after s.clock d.refresh) }

/-- PANEL_REFRESH (R87). -/
def execPanelRefresh (t : Nat) (s : State) : Out :=
  s.event t fun s =>
    s.withSettings fun st =>
      match st.panel, s.panel with
      | some d, some p =>
        match expired p.timer s.clock with
        | some expiry =>
          let p := { p with timer := some (after expiry d.refresh) }
          (s.setPanel p).deliverPanel p
        | none => s
      | _, _ => s

/-! ### Presses and level changes -/

/-- A step press (R88): up reduces the depth. -/
def State.pressStep (s : State) (d : PanelDef) (p : PanelValues) (left up : Bool) : State :=
  let move (v : Int) := clamp (if up then v - d.step else v + d.step) d.lo d.hi
  let p := if left then { p with left := move p.left } else { p with right := move p.right }
  if left then (s.setPanel p).deliverLeft p else (s.setPanel p).deliverRight p

/-- The next action value of a press: serial + 1 modulo 128, and the code (R89). -/
def PanelAction.press (a : PanelAction) (code : Byte) : PanelAction := ⟨a.serial + 1, code⟩

def State.pressAction (s : State) (p : PanelValues) (code : Byte) : State :=
  let p := { p with action := p.action.press code }
  (s.setPanel p).deliverAction p

def State.pressMode (s : State) (p : PanelValues) (code : Byte) : State :=
  let p := { p with mode := p.mode.press code }
  (s.setPanel p).deliverMode p

/-- A press handed to the panel functions, taken in RUNNING only (R88, R89). -/
def State.panelPress (s : State) (f : InputFunction) (d : PanelDef) (p : PanelValues) : State :=
  if s.station ≠ .running then s
  else match f with
    | .stepUpL => s.pressStep d p true true
    | .stepDownL => s.pressStep d p true false
    | .stepUpR => s.pressStep d p false true
    | .stepDownR => s.pressStep d p false false
    | .liftAll => s.pressAction p 1
    | .returnAll => s.pressAction p 2
    | .autoAll => s.pressMode p 2
    | .manualAll => s.pressMode p 1
    | .offAll => s.pressMode p 0
    | .none | .haltButton | .releaseButton | .truckHold => s

/-- A TRUCK_HOLD level change (R90). -/
def State.truckHold (s : State) (p : PanelValues) (level : Bool) : State :=
  let p := { p with hold := level }
  (s.setPanel p).deliverHold p

/-- The hand-over of a level change by the input's function (R65). -/
def State.levelChange (s : State) (st : Settings) (input : Fin 6) (level : Bool) : State :=
  let f := st.functions[input]
  match f with
  | .none => s
  | .haltButton => s.haltButton input level
  | .releaseButton => if level then s.pressRelease else s
  | .truckHold =>
    match s.panel with
    | some p => s.truckHold p level
    | none => s
  | _ =>
    match st.panel, s.panel with
    | some d, some p => if level then s.panelPress f d p else s
    | _, _ => s

/-! ### Debouncing -/

/-- Write a discrete input. -/
def State.setInput (s : State) (i : Fin 6) (d : DiscreteInput) : State := { s with inputs := s.inputs.set i d }

/-- DISCRETE_PIN_CHANGE (R64). The pin follows in every state of the station; it is watched in LISTENING and RUNNING
alone (R46). -/
def execDiscretePinChange (t : Nat) (input : Fin 6) (level : Bool) (s : State) : Out :=
  let s := if s.runs then s.tick t else s
  let d := s.inputs[input]
  if d.pin = level then .next s
  else if s.runs ∧ s.atWork then
    .next (s.setInput input
      { d with pin := level, timer := if level ≠ d.level then some (after s.clock Config.debounceTime) else none })
  else .next (s.setInput input { d with pin := level })

/-- DEBOUNCE_EXPIRY (R64, R65). -/
def execDebounceExpiry (t : Nat) (input : Fin 6) (s : State) : Out :=
  s.event t fun s =>
    s.withSettings fun st =>
      let d := s.inputs[input]
      match expired d.timer s.clock with
      | some _ => (s.setInput input { d with level := d.pin, timer := none }).levelChange st input d.pin
      | none => s

end Sys2Proof.Machine
end

