-- ==== Sys2Proof/Machine/Start.lean ====
section
/-! DEFINITION. Start, LOADING and the entries to LISTENING, RUNNING, SAFE and COMMISSIONING (9.2 to 9.4). -/

namespace Sys2Proof.Machine

/-! ### The start (R167, 9.4) -/

/-- What an abandoned operation leaves in the store (R178). -/
def Store.abandon (s : Store) : Store :=
  match s.op with
  | some op =>
    match op.command with
    | .writeRow _ | .eraseRow => { cells := Memory.eraseRow s.cells op.row.toNat, locked := s.locked, op := none }
    | .eraseAll => { cells := [], locked := false, op := none }
    | .blankCheck => { s with op := none }
  | none => s

/-- The debounce state of a start: the pins stand as they are, no timer runs (R46, assumption 7). -/
def DiscreteInput.restart (d : DiscreteInput) : DiscreteInput := ⟨d.pin, false, none⟩

/-- A start (R167): the clock begins again at 0, every block takes its start state, the straps are read, and the
station state becomes LOADING. The store, the pins, the supply and the queue stay. -/
def State.start (s : State) (straps : Straps) : State :=
  { State.reset with
    supply := s.supply
    resetHeld := s.resetHeld
    number := straps.number
    commission := straps.commission
    inputs := #v[s.inputs[0].restart, s.inputs[1].restart, s.inputs[2].restart, s.inputs[3].restart,
      s.inputs[4].restart, s.inputs[5].restart]
    store := s.store.abandon
    pending := s.pending }

/-- A coil pair de-energised, its output 0 (R167, assumption 9). -/
def Channel.deEnergise (ch : Channel) : Channel := { ch with out := 0, coil := .none, current := 0 }

/-- The station stops running (R167): coils de-energised, the line neither driven nor received. -/
def State.stop (s : State) : State :=
  { s with
    chanA := s.chanA.deEnergise
    chanB := s.chanB.deEnergise
    line := { s.line with receiver := .stopped, quietSince := none, flight := none } }

/-- POWER_ON (R167, R178). With RESET held the station stays still until the release (assumption 9). -/
def execPowerOn (straps : Straps) (s : State) : Out :=
  .next (if s.supply = true then s
    else
      let s := { s with supply := true }
      if s.resetHeld = false then s.start straps else s)

/-- POWER_LOSS (R167). -/
def execPowerLoss (s : State) : Out :=
  .next (if s.supply = true then { s with supply := false }.stop else s)

/-- RESET_ASSERT (R167). -/
def execResetAssert (s : State) : Out :=
  .next (if s.resetHeld = false then { s with resetHeld := true }.stop else s)

/-- RESET_RELEASE (R167, R178). -/
def execResetRelease (straps : Straps) (s : State) : Out :=
  .next (if s.resetHeld = true then
      let s := { s with resetHeld := false }
      if s.supply = true then s.start straps else s
    else s)

/-! ### The end of LOADING -/

/-- The line interface begins receiving: WAITING, the quiet time counted from now (R153, R155). -/
def State.beginReceiving (s : State) : State :=
  { s with line := { s.line with receiver := .waiting, quietSince := some s.now } }

/-- The bus of a numbered station becomes ACTIVE at the entry to RUNNING, SAFE or COMMISSIONING (R159). -/
def State.activateBus (s : State) : State :=
  if s.number ≠ 0 ∧ s.line.bus = .receiveOnly then { s with line := { s.line with bus := .active } } else s

/-- The status timer starts and STATUS is marked (R151). -/
def State.startStatus (s : State) : State :=
  { s with statusTimer := some (after s.clock Config.statusPeriod) }.markStatus

/-- Entry to SAFE (R171) or COMMISSIONING (R172). -/
def State.enterIdle (s : State) (station : Station) : State :=
  ({ s with station := station }.activateBus).startStatus

/-- A defined group when the settings are taken (R28, R29). -/
def startGroup (clock : Clock) (g : Option GroupDef) : Option GroupRun :=
  g.map fun g => ⟨⟨.vacant, none, none⟩, some (after clock g.period)⟩

/-- A channel when the settings are taken: its target record, and its update timer unless its role is NONE
(R73, R92). -/
def ChannelDef.start (cd : ChannelDef) (clock : Clock) : Channel :=
  { Channel.atStart with
    target := cd.targetAtStart
    updateTimer := if cd.role = .none then none else some (after clock cd.period) }

/-- The converter when LISTENING begins; an empty scan list starts no scans (R45, R46). -/
def startConverter (st : Settings) (clock : Clock) : Converter :=
  { Converter.atStart with scanTimer := if st.scanList = [] then none else some (after clock st.scanPeriod) }

/-- The serial port's timers when LISTENING begins (R46, R56). -/
def startPort (st : Settings) (clock : Clock) : SerialPort :=
  match st.sources.findSome? fun x => match x.kind with
      | .serial take exchange => some (take, exchange)
      | _ => none with
  | some (take, exchange) =>
    { SerialPort.atStart with takeTimer := some (after clock take), exchangeTimer := some (after clock exchange) }
  | none => .atStart

/-- A pulse input's update timer when LISTENING begins (R46). -/
def startPulse (st : Settings) (clock : Clock) (input : PulseInput) : PulseState :=
  match st.sources.findSome? fun x => match x.kind with
      | .pulse j _ _ update => if j = input then some update else none
      | _ => none with
  | some update => { PulseState.atStart with updateTimer := some (after clock update) }
  | none => .atStart

/-- Every block takes its settings; LISTENING's timers start (R2, R28, R29, R46, R73, R92, R118, R170). -/
def State.takeSettings (s : State) (st : Settings) : State :=
  { s with
    station := .listening
    settings := some st
    table := { PeerTable.empty with entries := pinnedEntries s.number st }
    groups := #v[startGroup s.clock st.groups[0], startGroup s.clock st.groups[1], startGroup s.clock st.groups[2],
      startGroup s.clock st.groups[3]]
    converter := startConverter st s.clock
    smoothing := st.sources.map fun _ => none
    port := startPort st s.clock
    pulse0 := startPulse st s.clock .pls0
    pulse1 := startPulse st s.clock .pls1
    publications := st.publications.map fun p => ⟨p.code, p.inst, none, 0⟩
    chanA := st.chanA.start s.clock
    chanB := st.chanB.start s.clock
    conveyor := st.conveyor.map fun _ => .atStart }

/-- The panel values take their initial values and are delivered (R87). -/
def State.startPanel (s : State) (st : Settings) : State :=
  match st.panel with
  | some d => (s.setPanel (s.initialPanel st d)).deliverPanel (s.initialPanel st d)
  | none => s

/-- A halt button held through the start raises HALT_INPUT (R139). -/
def State.startHalt (s : State) (st : Settings) : State :=
  match s.haltHeld st with
  | some i => s.raiseCause haltInputCause (BitVec.ofNat 8 i.val)
  | none => s

/-- Entry to LISTENING (R170). -/
def State.enterListening (s : State) (st : Settings) : State :=
  ((s.takeSettings st).startPanel st).startHalt st

/-- The debounced levels become the pin levels read at the end of LOADING (R46). -/
def State.readPins (s : State) : State :=
  let read (d : DiscreteInput) : DiscreteInput := ⟨d.pin, d.pin, none⟩
  { s with inputs := #v[read s.inputs[0], read s.inputs[1], read s.inputs[2], read s.inputs[3], read s.inputs[4],
      read s.inputs[5]] }

/-- Leaving LOADING (R167, R168). -/
def State.endLoading (s : State) : State :=
  let s := s.readPins.beginReceiving
  if s.commission then s.enterIdle .commissioning
  else match loadImage s.number s.store.cells with
    | .ok st => s.enterListening st
    | .error f => (s.addFault f).enterIdle .safe

/-- END_OF_LOADING (R168): at clock 6. -/
def execEndOfLoading (t : Nat) (s : State) : Out :=
  s.event t fun s =>
    if s.station = .loading ∧ Config.loadingEnd ≤ s.clock.toNat then s.endLoading else s

/-- ENTRY_TO_RUNNING (R170): at clock 1006 the publication timers, the status timer and the bus follow. -/
def State.enterRunning (s : State) (st : Settings) : State :=
  let runs := s.publications.map fun p =>
    match st.publications.find? fun d => d.code == p.code && d.inst == p.inst with
    | some d => { p with timer := some (after s.clock d.period) }
    | none => p
  ({ s with station := .running, publications := runs }.activateBus).startStatus

/-- ENTRY_TO_RUNNING (R170). -/
def execEntryToRunning (t : Nat) (s : State) : Out :=
  s.event t fun s =>
    s.withSettings fun st =>
      if s.station = .listening ∧ Config.listeningEnd ≤ s.clock.toNat then s.enterRunning st else s

end Sys2Proof.Machine
end

