-- ==== Sys2Proof/Machine/Service.lean ====
section
/-! DEFINITION. COMMISSIONING: the service commands and the image store's operations (9.5). -/

namespace Sys2Proof.Machine

/-- Place a SERVICE_REPLY, replacing any pending (R173). -/
def State.placeReply (s : State) (r : Reply) : State :=
  { s with line := { s.line with control := { s.line.control with reply := some r } } }

/-- A reply without data. -/
def State.replyStatus (s : State) (status row : Byte) : State := s.placeReply ⟨status, row, []⟩

/-- The image store takes a SERVICE frame (R172): in COMMISSIONING, addressed to the own number 1–15, not after a
clash. -/
abbrev State.takesService (s : State) (h : ServiceHeader) : Prop :=
  s.station = .commissioning ∧ h.target = sourceByte s.number ∧ s.number ≠ 0 ∧ s.line.bus ≠ .mutedClash

/-- What a service command needs before it is performed (R173): a row within the store, an unlocked cell, a blank
row. -/
structure ServiceNeeds where
  row : Bool
  unlocked : Bool
  blank : Bool
  deriving DecidableEq, Repr

/-- The first condition of R173 that refuses a command of a known code and a fitting length. -/
def Store.refusal (s : Store) (row : Byte) (needs : ServiceNeeds) : Option Byte :=
  if s.op.isSome then some busyStatus
  else if needs.row ∧ 63 < row.toNat then some badRowStatus
  else if needs.unlocked ∧ s.locked then some lockedStatus
  else if needs.blank ∧ Memory.rowBlank s.cells row.toNat = false then some notBlankStatus
  else none

/-- A SERVICE frame that arrives intact (R157, R172, R173): refused with a status, or performed. -/
def State.service (s : State) (h : ServiceHeader) (code : Byte) (data : List Byte) (needs : ServiceNeeds)
    (perform : State → State) : State :=
  s.arrive (serviceWire h code data) fun s =>
    if s.takesService h then
      match s.store.refusal h.row needs with
      | some status => s.replyStatus status h.row
      | none => perform s
    else s

/-- Begin an operation with a duration: the store is BUSY until its completion (9.5). -/
def State.beginOp (s : State) (command : StoreCommand) (row : Byte) (duration : Nat) : State :=
  { s with store := { s.store with op := some ⟨command, row, after s.clock duration⟩ } }

/-- The frame's data bytes go into the named row (R175). -/
def State.writeBytes (s : State) (row : Byte) (bytes : List Byte) : State :=
  { s with store := { s.store with cells := Memory.setRow s.store.cells row.toNat bytes } }

/-- READ_ROW (R174). -/
def execReadRow (t : Nat) (header : ServiceHeader) (s : State) : Out :=
  s.event t fun s => s.service header readRowCode [] ⟨true, false, false⟩ fun s =>
    s.placeReply ⟨okStatus, header.row, Memory.row s.store.cells header.row.toNat⟩

/-- WRITE_ROW (R175): the row is written as the operation begins. -/
def execWriteRow (t : Nat) (header : ServiceHeader) (data : Row) (s : State) : Out :=
  s.event t fun s => s.service header writeRowCode data.toList ⟨true, true, true⟩ fun s =>
    (s.writeBytes header.row data.toList).beginOp (.writeRow data.toList) header.row Config.writeTime

/-- ERASE_ROW (R176). -/
def execEraseRow (t : Nat) (header : ServiceHeader) (s : State) : Out :=
  s.event t fun s => s.service header eraseRowCode [] ⟨true, true, false⟩ fun s =>
    s.beginOp .eraseRow header.row Config.eraseRowTime

/-- ERASE_ALL (R176). -/
def execEraseAll (t : Nat) (header : ServiceHeader) (s : State) : Out :=
  s.event t fun s => s.service header eraseAllCode [] ⟨false, false, false⟩ fun s =>
    s.beginOp .eraseAll header.row Config.eraseAllTime

/-- BLANK_CHECK (R174). -/
def execBlankCheck (t : Nat) (header : ServiceHeader) (s : State) : Out :=
  s.event t fun s => s.service header blankCheckCode [] ⟨true, false, false⟩ fun s =>
    s.beginOp .blankCheck header.row Config.blankCheckTime

/-- LOCK (R174). -/
def execLock (t : Nat) (header : ServiceHeader) (s : State) : Out :=
  s.event t fun s => s.service header lockCode [] ⟨false, false, false⟩ fun s =>
    ({ s with store := { s.store with locked := true } }).replyStatus okStatus header.row

/-- RESTART (R177). -/
def execRestart (t : Nat) (header : ServiceHeader) (straps : Straps) (s : State) : Out :=
  s.event t fun s => s.service header restartCode [] ⟨false, false, false⟩ fun s => s.start straps

/-- SERVICE_BAD_COMMAND (R173): BUSY goes before BAD_COMMAND. -/
def execServiceBadCommand (t : Nat) (header : ServiceHeader) (code : Byte) (data : Option Row) (s : State) : Out :=
  s.event t fun s =>
    if badCommand code data then
      s.service header code (rowBytes data) ⟨false, false, false⟩ fun s => s.replyStatus badCommandStatus header.row
    else s

/-! ### Completions -/

/-- The operation in flight whose completion time is reached. -/
def State.finishedOp (s : State) : Option StoreOp :=
  match s.store.op with
  | some op => if reached s.clock op.done then some op else none
  | none => none

/-- The store becomes IDLE with these contents. -/
def State.endOp (s : State) (cells : Memory) (locked : Bool) : State := { s with store := ⟨cells, locked, none⟩ }

/-- WRITE_ROW_COMPLETE (R175): the row keeps what is read back, and the reply compares it with the data
(assumption 22). A failed write read back as all 0xFF leaves the row blank by its contents (assumption 32, the model's
choice). -/
def execWriteRowComplete (t : Nat) (readBack : Row) (s : State) : Out :=
  s.event t fun s =>
    match s.finishedOp with
    | some op =>
      match op.command with
      | .writeRow data =>
        (s.endOp (Memory.setRow s.store.cells op.row.toNat readBack.toList) s.store.locked).placeReply
          (if readBack.toList = data then ⟨okStatus, op.row, []⟩ else ⟨writeFailedStatus, op.row, readBack.toList⟩)
      | _ => s
    | none => s

/-- ERASE_ROW_COMPLETE (R176). -/
def execEraseRowComplete (t : Nat) (s : State) : Out :=
  s.event t fun s =>
    match s.finishedOp with
    | some op =>
      match op.command with
      | .eraseRow =>
        (s.endOp (Memory.eraseRow s.store.cells op.row.toNat) s.store.locked).replyStatus okStatus op.row
      | _ => s
    | none => s

/-- ERASE_ALL_COMPLETE (R176). -/
def execEraseAllComplete (t : Nat) (s : State) : Out :=
  s.event t fun s =>
    match s.finishedOp with
    | some op =>
      match op.command with
      | .eraseAll => (s.endOp [] false).replyStatus okStatus op.row
      | _ => s
    | none => s

/-- BLANK_CHECK_COMPLETE (R174). -/
def execBlankCheckComplete (t : Nat) (s : State) : Out :=
  s.event t fun s =>
    match s.finishedOp with
    | some op =>
      match op.command with
      | .blankCheck =>
        (s.endOp s.store.cells s.store.locked).replyStatus
          (if Memory.rowBlank s.store.cells op.row.toNat then blankStatus else notBlankStatus) op.row
      | _ => s
    | none => s

end Sys2Proof.Machine
end

