-- ==== Sys2Proof/Machine/Flags.lean ====
section
/-! DEFINITION. The condition of the station as STATUS carries it: state codes, flags and fault codes (R150, 10.1). -/

namespace Sys2Proof.Machine

/-- The fault codes of section 7.6. -/
def FaultCode.code : FaultCode → Byte
  | .imageCheckword => 1
  | .imageFormat => 2
  | .imageLimits => 3
  | .imageReference => 4
  | .numberClash => 5
  | .echoMute => 6
  | .scanOverrun => 7
  | .portLost => 8
  | .coilOpenA => 9
  | .coilShortA => 10
  | .coilOpenB => 11
  | .coilShortB => 12
  | .refLostA => 13
  | .refLostB => 14
  | .beltStall => 15

/-- The role codes of the header (10.2). -/
def Role.code : Role → Nat
  | .legDepth => 1
  | .legAttitude => 2
  | .conveyor => 3
  | .sensor => 4
  | .panel => 5

/-- The side codes (5.2). -/
def Side.code : Side → Nat
  | .left => 0
  | .right => 1
  | .centre => 2

/-- STATUS byte 1. -/
def Station.code : Station → Byte
  | .loading => 0
  | .listening => 1
  | .running => 2
  | .safe => 3
  | .commissioning => 4

def ChannelState.code : ChannelState → Nat
  | .off => 0
  | .manual => 1
  | .auto => 2
  | .held => 3
  | .fault => 4

def HeldCause.code : HeldCause → Nat
  | .latch => 0
  | .refLost => 1

def Saturation.code : Saturation → Nat
  | .none => 0
  | .high => 1
  | .low => 2

/-- A channel's byte of STATUS: bits 2–0 state, bit 3 HELD cause, bits 5–4 saturation, bit 6 in-deadband. -/
def Channel.statusByte (ch : Channel) : Byte :=
  let cause := match ch.cause with | some c => c.code | none => 0
  BitVec.ofNat 8 (ch.state.code + 8 * cause + 16 * ch.sat.code + 64 * ch.inDeadband.toNat)

/-- STATUS byte 0: role × 16 + side, or the no-role code. -/
def roleByte (settings : Option Settings) : Byte :=
  match settings with
  | some st => BitVec.ofNat 8 (st.role.code * 16 + st.side.code)
  | none => 0xFF

/-- The cause and origin bytes of STATUS; 0 when CLEAR. -/
def latchBytes : Option LatchRecord → List Byte
  | some r => [1, r.cause, sourceByte r.origin]
  | none => [0, 0, 0]

/-- The first six fault codes by onset, 0 beyond the count. -/
def faultBytes (faults : List FaultCode) : List Byte :=
  (faults.map FaultCode.code ++ List.replicate 6 0).take 6

/-- The twenty payload bytes of a STATUS built now (R150). -/
def State.statusPayload (s : State) : List Byte :=
  [roleByte s.settings, s.station.code] ++ latchBytes s.latch
    ++ [s.chanA.statusByte, s.chanB.statusByte, BitVec.ofNat 8 s.faults.length] ++ faultBytes s.faults
    ++ totalBytes s.line.errors ++ totalBytes s.table.refusals ++ totalBytes s.table.gaps

end Sys2Proof.Machine
end

