-- ==== Sys2Proof/Machine/Publication.lean ====
section
/-! DEFINITION. The publication scheduler (3.7): the producers it reads and the pending sample queue it feeds. -/

namespace Sys2Proof.Machine

/-- The sample a peer-table entry gives (R68). -/
def Entry.published (e : Entry) : Option (Quality × Int) :=
  match e.state, e.quality, e.value with
  | .vacant, _, _ => none
  | _, some .failed, some v => some (.failed, v)
  | _, some .failed, none => some (.failed, -32768)
  | .fresh, some q, some v => some (q, v)
  | _, some .good, some v => some (.held, v)
  | _, some q, some v => some (q, v)
  | _, _, _ => none

/-- The sample a channel gives (R69): GOOD in AUTO and MANUAL, HELD otherwise. -/
def Channel.published (ch : Channel) : Quality × Int :=
  (if ch.state = .auto ∨ ch.state = .manual then .good else .held, ch.out)

/-- The chamber fill, per-mille of the chamber maximum (R131). -/
def chamberFill (content xmax : Int) : Int := roundDiv (content * 1000) xmax

/-- The sample a published key's producer gives as it now stands (section 3.7, R68, R69). -/
def State.produce (s : State) (st : Settings) (code : BitVec 6) (inst : BitVec 2) : Option (Quality × Int) :=
  if code = Config.channelOutput then some (s.channel (if inst = 0 then .a else .b)).published
  else if code = Config.chamberFill then
    match st.conveyor, s.conveyor with
    | some cv, some k => some (.good, chamberFill k.content cv.xmax)
    | _, _ => none
  else (s.table.find ⟨s.number, code, inst⟩).bind Entry.published

/-- Two queued samples of one key. -/
def QueuedSample.sameKey (x y : QueuedSample) : Bool := x.code == y.code && x.inst == y.inst

/-- A formed sample joins the queue, or replaces the queued one of its key in place (R70). -/
def enqueue (queue : List QueuedSample) (x : QueuedSample) : List QueuedSample :=
  if queue.any (·.sameKey x) then queue.map fun y => if y.sameKey x then x else y else queue ++ [x]

/-- The run of a published key. -/
def findPublication (runs : List PublicationRun) (code : BitVec 6) (inst : BitVec 2) : Option PublicationRun :=
  runs.find? fun p => p.code == code && p.inst == inst

/-- Change the run of a published key. -/
def updatePublication (runs : List PublicationRun) (code : BitVec 6) (inst : BitVec 2)
    (change : PublicationRun → PublicationRun) : List PublicationRun :=
  runs.map fun p => if p.code = code ∧ p.inst = inst then change p else p

/-- The definition of a published key. -/
def Settings.publication (st : Settings) (code : BitVec 6) (inst : BitVec 2) : Option PublicationDef :=
  st.publications.find? fun p => p.code == code && p.inst == inst

/-- Hand a sample to the pending sample queue (R70). -/
def State.queueSample (s : State) (x : QueuedSample) : State :=
  { s with line := { s.line with queue := enqueue s.line.queue x } }

/-- PUBLICATION_EVENT (R67). -/
def execPublicationEvent (t : Nat) (code : BitVec 6) (inst : BitVec 2) (s : State) : Out :=
  s.event t fun s =>
    s.withSettings fun st =>
      match st.publication code inst, findPublication s.publications code inst with
      | some d, some run =>
        match expired run.timer s.clock with
        | some expiry =>
          let armed := { s with publications := updatePublication s.publications code inst fun p =>
            { p with timer := some (after expiry d.period) } }
          match armed.produce st code inst with
          | some (quality, value) => armed.queueSample ⟨code, inst, quality, value⟩
          | none => armed
        | none => s
      | _, _ => s

end Sys2Proof.Machine
end

