-- ==== Sys2Proof/Machine/Transmit.lean ====
section
/-! DEFINITION. Sending (8.4 to 8.6): access to the line, choosing and building a frame, completion, contention loss,
echo faults and the timed mute. -/

namespace Sys2Proof.Machine

/-! ### Access -/

/-- The access wait in bit times (R159, R160). -/
def accessWait (number : BitVec 4) (yielding : Bool) : Nat :=
  Config.accessBase + Config.accessPerStation * number.toNat + (if yielding then Config.yieldBits else 0)

/-- Whether the station state allows HALT, RELEASE and PUBLISH (R159). -/
def Station.sendsAll (st : Station) : Bool := st == .running

/-- Whether the station state allows SERVICE_REPLY (R159). -/
def Station.sendsReply (st : Station) : Bool := st == .running || st == .commissioning

/-- Whether the station state allows STATUS (R159). -/
def Station.sendsStatus (st : Station) : Bool := st == .running || st == .safe || st == .commissioning

/-- A queued sample stamped with its key's counter as it stands (R71). -/
def State.stamp (s : State) (x : QueuedSample) : StampedSample :=
  match findPublication s.publications x.code x.inst with
  | some run => ⟨x, run.seq⟩
  | none => ⟨x, 0⟩

/-- Take control set and queue apart at a beginning: the frame chosen and built, and what stays (R163, R164). -/
def State.chooseFrame (s : State) : Option (OwnFrame × ControlSet × List QueuedSample) :=
  let l := s.line
  let k := l.control
  match (if s.station.sendsAll then k.halt else none), s.station.sendsAll && k.release,
      (if s.station.sendsReply then k.reply else none), s.station.sendsStatus && k.status with
  | some (cause, detail), _, _, _ => some (.halt cause detail, { k with halt := none }, l.queue)
  | none, true, _, _ => some (.release, { k with release := false }, l.queue)
  | none, false, some r, _ => some (.reply r, { k with reply := none }, l.queue)
  | none, false, none, true => some (.status s.statusPayload, { k with status := false }, l.queue)
  | none, false, none, false =>
    if s.station.sendsAll ∧ l.queue ≠ [] then
      some (.publish ((l.queue.take Config.publishLimit).map s.stamp), k, l.queue.drop Config.publishLimit)
    else none

/-- The quiet time has reached the access wait (R159). -/
def State.mayBegin (s : State) : Bool :=
  s.line.bus == .active && s.line.flight.isNone &&
  match s.line.quietSince with
  | some q => decide (q + Config.bitTime * accessWait s.number s.line.yielding ≤ s.now)
  | none => false

/-- FRAME_BEGIN (R159). -/
def execFrameBegin (t : Nat) (s : State) : Out :=
  s.event t fun s =>
    if s.mayBegin then
      match s.chooseFrame with
      | some (frame, control, queue) =>
        { s with line := { s.line with
            control, queue, flight := some ⟨frame, s.now, false⟩, receiver := .inFrame true, quietSince := none } }
      | none => s
    else s

/-! ### Completion -/

/-- The counters of a completed PUBLISH's keys step by 1 modulo 256 (R71, R165). -/
def stepCounters (runs : List PublicationRun) : OwnFrame → List PublicationRun
  | .publish samples =>
    samples.foldl (fun runs x => updatePublication runs x.sample.code x.sample.inst fun p => { p with seq := p.seq + 1 })
      runs
  | _ => runs

/-- FRAME_COMPLETE (R165). -/
def execFrameComplete (t : Nat) (s : State) : Out :=
  s.event t fun s =>
    match s.line.flight with
    | some f =>
      if f.began + (f.frame.wire s.number).duration ≤ s.now then
        { s with
          line := { s.line with flight := none, echoRun := 0, yielding := true, receiver := .idle, quietSince := some s.now }
          publications := stepCounters s.publications f.frame }
      else s
    | none => s

/-! ### The echo check (R153, R161, R162) -/

/-- What a difference at a moment is, by the bit the frame in flight drives then; nothing once the last one is over
(assumption 24). -/
def Flight.differs (f : Flight) (number : BitVec 4) (now : Nat) : Echo :=
  let i := (now - f.began) / Config.bitTime
  match (f.frame.wire number).levels[i]? with
  | some driven => judgeBit i driven driven.other
  | none => .same

/-! ### Stopping a frame -/

/-- The value a returning sample goes back with: that of the same key queued meanwhile, if any (R164). -/
def renewed (queue : List QueuedSample) (x : QueuedSample) : QueuedSample :=
  match queue.find? (·.sameKey x) with
  | some y => y
  | none => x

/-- The carried samples go back to the head of the queue in their order (R164). -/
def returnSamples (samples : List StampedSample) (queue : List QueuedSample) : List QueuedSample :=
  samples.map (fun x => renewed queue x.sample) ++ queue.filter fun y => !samples.any fun x => y.sameKey x.sample

/-- A stopped control frame goes back unless discarded or replaced meanwhile (R163). -/
def returnControl (k : ControlSet) (frame : OwnFrame) (discarded : Bool) : ControlSet :=
  match frame with
  | .halt cause detail => if k.halt = none ∧ discarded = false then { k with halt := some (cause, detail) } else k
  | .release => if discarded = false then { k with release := true } else k
  | .reply r => if k.reply = none then { k with reply := some r } else k
  | .status _ => { k with status := true }
  | .publish _ => k

/-- The station stops driving and its frame goes back (R161 to R164); it goes on receiving what is on the line, whose
first byte cell it drove itself, and no longer yields (R160). -/
def Line.stopFrame (l : Line) (f : Flight) : Line :=
  { l with
    flight := none
    yielding := false
    control := returnControl l.control f.frame f.discarded
    queue := match f.frame with
      | .publish samples => returnSamples samples l.queue
      | _ => l.queue }

/-- CONTENTION_LOSS (R161): the bit driven now is recessive, in the byte cells of SYNC, TYPE and SOURCE. -/
def execContentionLoss (t : Nat) (s : State) : Out :=
  s.event t fun s =>
    match s.line.flight with
    | some f =>
      if f.differs s.number s.now = .contentionLoss then { s with line := s.line.stopFrame f } else s
    | none => s

/-- The eighth echo fault in a row mutes the bus (R162). -/
def State.beginMute (s : State) : State :=
  { s with line := { s.line with
      bus := .mutedTimed, muteTimer := some (after s.clock Config.muteTime) } }.addFault .echoMute

/-- The echo-fault run grows (R162). -/
def State.countEcho (s : State) : State :=
  if s.line.echoRun + 1 < Config.muteRun then { s with line := { s.line with echoRun := s.line.echoRun + 1 } }
  else s.beginMute

/-- ECHO_FAULT (R162): the bit driven now is one whose difference is no contention loss. -/
def execEchoFault (t : Nat) (s : State) : Out :=
  s.event t fun s =>
    match s.line.flight with
    | some f =>
      if f.differs s.number s.now = .echoFault then { s with line := s.line.stopFrame f }.countEcho else s
    | none => s

/-- MUTE_EXPIRY (R162). -/
def execMuteExpiry (t : Nat) (s : State) : Out :=
  s.event t fun s =>
    if s.line.bus = .mutedTimed then
      match expired s.line.muteTimer s.clock with
      | some _ => s.endMute .active
      | none => s
    else s

/-- STATUS_TIMER (R151). -/
def execStatusTimer (t : Nat) (s : State) : Out :=
  s.event t fun s =>
    match expired s.statusTimer s.clock with
    | some expiry => { s with statusTimer := some (after expiry Config.statusPeriod) }.markStatus
    | none => s

end Sys2Proof.Machine
end

