-- ==== Sys2Proof/Machine/Dispatch.lean ====
section
/-! DEFINITION. The dispatch: one arm per command, each one call of its meaning. -/

namespace Sys2Proof.Machine

def exec (i : Instr) (s : State) : Host.Outcome State Fault Refusal :=
  match i with
  | .powerOn straps => Sys2Proof.Machine.execPowerOn straps s
  | .resetAssert => Sys2Proof.Machine.execResetAssert s
  | .resetRelease straps => Sys2Proof.Machine.execResetRelease straps s
  | .endOfLoading t => Sys2Proof.Machine.execEndOfLoading t s
  | .entryToRunning t => Sys2Proof.Machine.execEntryToRunning t s
  | .receiverIdle t => Sys2Proof.Machine.execReceiverIdle t s
  | .frameStartHeard t => Sys2Proof.Machine.execFrameStartHeard t s
  | .frameBroken t => Sys2Proof.Machine.execFrameBroken t s
  | .frameDropped t cells => Sys2Proof.Machine.execFrameDropped t cells s
  | .publishFrame t source samples => Sys2Proof.Machine.execPublishFrame t source samples s
  | .haltFrame t source cause detail => Sys2Proof.Machine.execHaltFrame t source cause detail s
  | .releaseFrame t source => Sys2Proof.Machine.execReleaseFrame t source s
  | .statusFrame t source payload => Sys2Proof.Machine.execStatusFrame t source payload s
  | .serviceReplyFrame t source status row data => Sys2Proof.Machine.execServiceReplyFrame t source status row data s
  | .readRow t header => Sys2Proof.Machine.execReadRow t header s
  | .writeRow t header data => Sys2Proof.Machine.execWriteRow t header data s
  | .eraseRow t header => Sys2Proof.Machine.execEraseRow t header s
  | .eraseAll t header => Sys2Proof.Machine.execEraseAll t header s
  | .blankCheck t header => Sys2Proof.Machine.execBlankCheck t header s
  | .lock t header => Sys2Proof.Machine.execLock t header s
  | .restart t header straps => Sys2Proof.Machine.execRestart t header straps s
  | .serviceBadCommand t header code data => Sys2Proof.Machine.execServiceBadCommand t header code data s
  | .writeRowComplete t readBack => Sys2Proof.Machine.execWriteRowComplete t readBack s
  | .eraseRowComplete t => Sys2Proof.Machine.execEraseRowComplete t s
  | .eraseAllComplete t => Sys2Proof.Machine.execEraseAllComplete t s
  | .blankCheckComplete t => Sys2Proof.Machine.execBlankCheckComplete t s
  | .freshToAged t key => Sys2Proof.Machine.execFreshToAged t key s
  | .agedToExpired t key => Sys2Proof.Machine.execAgedToExpired t key s
  | .groupEvaluation t group => Sys2Proof.Machine.execGroupEvaluation t group s
  | .scanStart t => Sys2Proof.Machine.execScanStart t s
  | .overrunClear t => Sys2Proof.Machine.execOverrunClear t s
  | .conversionComplete t raw => Sys2Proof.Machine.execConversionComplete t raw s
  | .serialExchangeBegin t => Sys2Proof.Machine.execSerialExchangeBegin t s
  | .serialExchangeComplete t status high low check => Sys2Proof.Machine.execSerialExchangeComplete t status high low check s
  | .serialTake t => Sys2Proof.Machine.execSerialTake t s
  | .pulseEdge t input => Sys2Proof.Machine.execPulseEdge t input s
  | .pulseStopped t input => Sys2Proof.Machine.execPulseStopped t input s
  | .pulseUpdate t input => Sys2Proof.Machine.execPulseUpdate t input s
  | .discretePinChange t input level => Sys2Proof.Machine.execDiscretePinChange t input level s
  | .debounceExpiry t input => Sys2Proof.Machine.execDebounceExpiry t input s
  | .panelRefresh t => Sys2Proof.Machine.execPanelRefresh t s
  | .publicationEvent t code inst => Sys2Proof.Machine.execPublicationEvent t code inst s
  | .channelUpdate t channel => Sys2Proof.Machine.execChannelUpdate t channel s
  | .resumeWindowExpiry t channel => Sys2Proof.Machine.execResumeWindowExpiry t channel s
  | .conveyorHoldExpiry t => Sys2Proof.Machine.execConveyorHoldExpiry t s
  | .beltHoldExpiry t => Sys2Proof.Machine.execBeltHoldExpiry t s
  | .statusTimer t => Sys2Proof.Machine.execStatusTimer t s
  | .frameBegin t => Sys2Proof.Machine.execFrameBegin t s
  | .frameComplete t => Sys2Proof.Machine.execFrameComplete t s
  | .contentionLoss t => Sys2Proof.Machine.execContentionLoss t s
  | .echoFault t => Sys2Proof.Machine.execEchoFault t s
  | .muteExpiry t => Sys2Proof.Machine.execMuteExpiry t s
  | .powerLoss => Sys2Proof.Machine.execPowerLoss s

end Sys2Proof.Machine
end

