-- ==== Sys2Proof/Safety.lean ====
section
/-! DEFINITION. What must never go wrong: the invariants of the state that the statements speak of, and the classes of
commands they name. -/

namespace Sys2Proof

/-- The commands that act only on a running station; the others are the supply, the RESET pin and the discrete pins. -/
def Instr.needsRunning : Instr → Bool
  | .powerOn _ | .powerLoss | .resetAssert | .resetRelease _ | .discretePinChange _ _ _ => false
  | _ => true

/-- The commands that may begin a start (R167). -/
def Instr.mayStart : Instr → Bool
  | .powerOn _ | .resetRelease _ | .restart _ _ _ => true
  | _ => false

/-- The commands that may change a row or the lock cell (R166, R174 to R176, R178). -/
def Instr.mayChangeStore : Instr → Bool
  | .powerOn _ | .resetRelease _ | .writeRow _ _ _ | .lock _ _ | .writeRowComplete _ _ | .eraseRowComplete _
  | .eraseAllComplete _ => true
  | _ => false

/-- The commands that may clear the hold latch: a start, a RELEASE frame, a release press (R136, R142, R143). -/
def Instr.mayClearLatch : Instr → Bool
  | .powerOn _ | .resetRelease _ | .restart _ _ _ | .releaseFrame _ _ | .debounceExpiry _ _ => true
  | _ => false

/-- The key of a sample of this source. -/
def RawSample.keyFrom (r : RawSample) (source : BitVec 4) : Key := ⟨source, r.code, r.inst⟩

/-- The frame bearing this SOURCE byte that a command brings, if it brings an intact one. -/
def Instr.frameSource : Instr → Option Byte
  | .publishFrame _ source _ | .haltFrame _ source _ _ | .releaseFrame _ source | .statusFrame _ source _
  | .serviceReplyFrame _ source _ _ _ => some source
  | .readRow _ h | .writeRow _ h _ | .eraseRow _ h | .eraseAll _ h | .blankCheck _ h | .lock _ h | .restart _ h _
  | .serviceBadCommand _ h _ _ => some h.source
  | _ => none

namespace Machine

/-! ### The peer table (R1, R22) -/

/-- Ascending key order with no key twice, at most 32 entries, totals within 0..65535. -/
def PeerTable.Wf (p : PeerTable) : Prop :=
  p.entries.Pairwise (fun x y => keyRank x.key < keyRank y.key) ∧ p.entries.length ≤ Config.tableSize
    ∧ p.refusals ≤ Config.totalLimit ∧ p.gaps ≤ Config.totalLimit

/-! ### The outputs (R98, R109, R136, R137, R171) -/

/-- In OFF, HELD and FAULT the output is 0, HELD has a cause, and the coils follow the output's sign. -/
def Channel.Still (ch : Channel) : Prop :=
  (ch.state = .off ∨ ch.state = .held ∨ ch.state = .fault → ch.out = 0) ∧ (ch.state = .held → ch.cause ≠ none) ∧
  (0 < ch.out → ch.coil = .down) ∧ (ch.out < 0 → ch.coil = .up) ∧ (ch.out = 0 → ch.coil = .none ∧ ch.current = 0)

/-- A channel of a halted station is in OFF, in FAULT or in HELD with cause LATCH. -/
def Channel.Halted (ch : Channel) : Prop :=
  ch.state = .off ∨ ch.state = .fault ∨ (ch.state = .held ∧ ch.cause = some .latch)

/-- A channel under a latch that is LATCHED or CLEAR, on a station that is RUNNING or not. -/
def Channel.SafeUnder (ch : Channel) (latch : Option LatchRecord) (station : Station) : Prop :=
  ch.Still ∧ (latch ≠ none → ch.Halted) ∧ (latch = none → ch.state = .held → ch.cause ≠ some .latch)
    ∧ (station ≠ .running → ch.state = .off)

/-- Outputs are at rest where the latch or the station state asks for it, and the latch is CLEAR outside LISTENING and
RUNNING. -/
def State.SafeOutputs (s : State) : Prop :=
  s.chanA.SafeUnder s.latch s.station ∧ s.chanB.SafeUnder s.latch s.station ∧ (s.latch ≠ none → s.atWork)

/-- Without channel A in AUTO the conveyor has no substate, no command and no stall start (R128, R134). -/
def State.BeltIdle (s : State) : Prop :=
  s.chanA.state ≠ .auto → ∀ k, s.conveyor = some k → k.substate = none ∧ k.command = none ∧ k.stallStart = none

/-! ### The fault collection (R149) -/

def State.FaultsWf (s : State) : Prop := s.faults.Nodup

/-- A channel has a coil fault exactly in FAULT, and of its coil codes the collection holds exactly that fault's (R95 to
R97, R112, R116). -/
def State.CoilFaultsWf (s : State) : Prop :=
  ∀ c, ((s.channel c).fault ≠ none ↔ (s.channel c).state = .fault) ∧
    ∀ f, coilCode c f ∈ s.faults ↔ (s.channel c).fault = some f

/-! ### The bus (R158, R159, R162) -/

/-- Only an ACTIVE bus carries a frame of the station's own; the mute timer runs and ECHO_MUTE stands exactly in
MUTED_TIMED; NUMBER_CLASH stands exactly in MUTED_CLASH. -/
def State.BusWf (s : State) : Prop :=
  (s.line.bus ≠ .active → s.line.flight = none) ∧ (s.line.bus = .mutedTimed ↔ s.line.muteTimer ≠ none)
    ∧ (.echoMute ∈ s.faults ↔ s.line.bus = .mutedTimed) ∧ (.numberClash ∈ s.faults ↔ s.line.bus = .mutedClash)

/-! ### The line (R156, R162, R164) -/

/-- The keys of queued samples. -/
def queueKeys (queue : List QueuedSample) : List (BitVec 6 × BitVec 2) := queue.map fun x => (x.code, x.inst)

/-- The keys of the samples a frame in flight carries. -/
def flightKeys (flight : Option Flight) : List (BitVec 6 × BitVec 2) :=
  match flight with
  | some ⟨.publish samples, _, _⟩ => samples.map fun x => (x.sample.code, x.sample.inst)
  | _ => []

/-- The published keys are at most 16; queue and flight each hold each of them at most once, and none before the
settings are taken; the run and the error total stay in their ranges. -/
def State.LineWf (s : State) : Prop :=
  s.publications.length ≤ Config.queueSize
    ∧ (queueKeys s.line.queue).Nodup ∧ (flightKeys s.line.flight).Nodup
    ∧ (∀ k ∈ queueKeys s.line.queue, k ∈ s.publications.map fun p => (p.code, p.inst))
    ∧ (∀ k ∈ flightKeys s.line.flight, k ∈ s.publications.map fun p => (p.code, p.inst))
    ∧ (s.station = .loading → s.publications = [] ∧ s.line.queue = [] ∧ s.line.flight = none)
    ∧ s.line.echoRun < Config.muteRun ∧ s.line.errors ≤ Config.totalLimit

/-! ### The image store (9.1) -/

/-- The store's cells are in canonical form, every address is one of its 1024 bytes, and a command in flight that
names a row names one of its 64 rows. -/
def Store.Wf (s : Store) : Prop :=
  Memory.wf s.cells ∧ (∀ x ∈ s.cells, x.1 < 1024) ∧
  match s.op with
  | some op => op.command ≠ .eraseAll → op.row.toNat < 64
  | none => True

/-! ### Settings, targets and channels (R74, R80, R82, R107) -/

/-- A channel's limits are the right way round, and a fixed value lies within its target range (R72, R91). -/
def ChannelDef.Sane (cd : ChannelDef) : Prop :=
  (cd.role ≠ .none → 0 ≤ cd.umax ∧ 0 ≤ cd.slew) ∧
  (cd.controls → cd.lo ≤ cd.hi ∧ cd.lo ≤ cd.firstTarget ∧ cd.firstTarget ≤ cd.hi)

/-- The effective target, an OPERATOR channel's commanded target and every stacked value lie within the target range,
and the stack holds at most four (R74, R80, R82). -/
def TargetRecord.Within (r : TargetRecord) (cd : ChannelDef) : Prop :=
  (cd.lo ≤ r.effective ∧ r.effective ≤ cd.hi) ∧ (cd.lo ≤ r.commanded ∧ r.commanded ≤ cd.hi) ∧
  match r.stack with
  | some st => st.length ≤ Config.stackSize ∧ ∀ v ∈ st, cd.lo ≤ v ∧ v ≤ cd.hi
  | none => True

/-- A channel is within the limits of its settings (R80, R91, R107). -/
def Channel.Within (ch : Channel) (cd : ChannelDef) : Prop :=
  (cd.role = .none → ch.state = .off ∧ ch.out = 0 ∧ ch.target = none) ∧
  (cd.role ≠ .none → cd.lowest ≤ ch.out ∧ ch.out ≤ cd.umax) ∧
  (∀ r, ch.target = some r → cd.controls ∧ r.Within cd)

/-- The conveyor's content and milled rate are within their ranges (R123, R130). -/
def Conveyor.Within (k : Conveyor) (cv : ConveyorDef) : Prop :=
  0 ≤ k.content ∧ k.content ≤ cv.xmax ∧ 0 ≤ k.milled ∧ k.milled ≤ Config.rateLimit

/-- Channels and conveyor keep the limits of the settings; without settings there is no target record, no conveyor
block and no channel that is not OFF. -/
def State.Limits (s : State) : Prop :=
  match s.settings with
  | some st => st.chanA.Sane ∧ st.chanB.Sane ∧ s.chanA.Within st.chanA ∧ s.chanB.Within st.chanB ∧
      (match st.conveyor, s.conveyor with
        | some cv, some k => 0 ≤ cv.xmax ∧ k.Within cv
        | none, none => True
        | _, _ => False)
  | none => s.chanA.target = none ∧ s.chanB.target = none ∧ s.conveyor = none
      ∧ s.chanA.state = .off ∧ s.chanB.state = .off ∧ s.chanA.out = 0 ∧ s.chanB.out = 0

/-! ### Beginning of work -/

/-- What a start leaves in every block (9.4), with the straps as read. -/
def State.Started (s : State) (straps : Straps) : Prop :=
  s.now = 0 ∧ s.station = .loading ∧ s.number = straps.number ∧ s.commission = straps.commission ∧ s.settings = none
    ∧ s.table = ⟨[], 0, 0⟩ ∧ s.groups = #v[none, none, none, none]
    ∧ s.converter = ⟨none, none, none, none, none, none⟩ ∧ s.smoothing = []
    ∧ s.port = ⟨.syncing, 0, none, none, none, none⟩ ∧ s.pulse0 = ⟨none, [], none, none⟩ ∧ s.pulse1 = ⟨none, [], none, none⟩
    ∧ s.publications = [] ∧ s.conveyor = none ∧ s.panel = none
    ∧ (∀ c, (s.channel c).state = .off ∧ (s.channel c).out = 0 ∧ (s.channel c).coil = .none ∧ (s.channel c).current = 0
        ∧ (s.channel c).sat = .none ∧ (s.channel c).inDeadband = false ∧ (s.channel c).openRun = 0
        ∧ (s.channel c).fault = none ∧ (s.channel c).cause = none ∧ (s.channel c).resumeTimer = none
        ∧ (s.channel c).ref = ⟨none, none⟩)
    ∧ (∀ i : Fin 6, s.inputs[i].level = false ∧ s.inputs[i].timer = none)
    ∧ s.latch = none ∧ s.beltHold = none ∧ s.faults = [] ∧ s.statusTimer = none
    ∧ s.line = ⟨.receiveOnly, .stopped, none, 0, none, false, 0, ⟨none, false, none, false⟩, [], none⟩
    ∧ s.store.op = none

/-! ### Words of the statements -/

/-- A frame of another station can arrive intact. -/
def State.hears (s : State) (source : Byte) : Prop := s.runs ∧ s.collecting ∧ stationOf source ≠ s.number

/-- The state once a frame has arrived at t, before anything is done with it (R155). -/
def State.heard (s : State) (t : Nat) : State :=
  { s with now := max s.now t, line := { s.line with receiver := .idle, quietSince := some (max s.now t) } }

/-- No watch of the station acts on the frame (R146 to R148). -/
def State.unwatched (s : State) (f : WireFrame) : Prop :=
  ∀ st, s.settings = some st → ∀ n : Fin 4, st.watches[n].action = .none ∨ st.watches[n].fits f.window = false

/-- A running station has a timer whose expiry is reached at t. -/
def State.due (s : State) (t : Nat) (timer : Option Clock) (expiry : Clock) : Prop :=
  s.runs ∧ timer = some expiry ∧ reached (s.tick t).clock expiry = true

/-- A sample passes the first stages of acceptance (R5, R6): the settings, and the definition of its quantity. -/
def State.admits (s : State) (source : BitVec 4) (r : RawSample) (st : Settings) (d : QuantityDef) : Prop :=
  s.settings = some st ∧ inSet st.listen source = true ∧ st.quantity r.code = some d

/-- How far a sample's sequence lies from the entry's last one, modulo 256 (R12). -/
def sequenceDistance (r : RawSample) (last : Byte) : Nat := (r.seq - last).toNat

/-- A key without an entry finds a place: there is room, or an entry to evict (R9, R10). -/
def State.hasPlace (s : State) : Prop :=
  s.table.entries.length < 32 ∨ ∃ e ∈ s.table.entries, e.pinned = false ∧ e.state = .expired

/-- The line with STATUS marked and nothing else moved (R151). -/
def Line.statusMarked (l : Line) : Line := { l with control := { l.control with status := true } }

/-- STATUS is marked exactly where the fault collection has changed, and nothing else moves on the line (R149, R151). -/
def State.MarksFaults (s u : State) : Prop := u.line = if u.faults = s.faults then s.line else s.line.statusMarked

/-- The frame in flight once a HALT or a RELEASE is discarded: one of that type will not return (R144, R163). -/
def Line.flightWithout (l : Line) (halt release : Bool) : Option Flight :=
  l.flight.map fun f => { f with discarded := f.discarded || match f.frame with
    | .halt _ _ => halt
    | .release => release
    | _ => false }

/-- The line once a cause is raised on a CLEAR latch (R138, R144, R151): the HALT placed, a RELEASE discarded, STATUS
marked. -/
def Line.halting (l : Line) (cause detail : Byte) : Line :=
  { l with
    control := { l.control with halt := some (cause, detail), release := false, status := true }
    flight := l.flightWithout false true }

/-- The fault collection once a channel has left FAULT (R95 to R97, R116): without its coil fault's code. -/
def State.faultsWithoutCoil (s : State) (c : ChannelId) : List FaultCode :=
  match (s.channel c).fault with
  | some f => s.faults.filter (· != coilCode c f)
  | none => s.faults

/-- A channel's waiting coil-check request (R49). -/
def Converter.request (k : Converter) : ChannelId → Option Int
  | .a => k.requestA
  | .b => k.requestB

/-- The converter with this as a channel's waiting request (R49). -/
def Converter.withRequest (k : Converter) (c : ChannelId) (request : Option Int) : Converter :=
  match c with
  | .a => { k with requestA := request }
  | .b => { k with requestB := request }

/-- What the arbiter begins at a conversion's end, of a scan list of this length (R50): channel A's check, channel B's
check, the scan's next position, or nothing. -/
def Converter.arbitrated (k : Converter) (positions now : Nat) : Converter :=
  match k.requestA, k.requestB, k.scan with
  | some target, _, _ => { k with running := some ⟨.check .a target, now⟩, requestA := none }
  | none, some target, _ => { k with running := some ⟨.check .b target, now⟩, requestB := none }
  | none, none, some codes => { k with running := if codes.length < positions then some ⟨.scan, now⟩ else none }
  | none, none, none => { k with running := none }

/-- The coils and the current target that an output asks for (R109). -/
def Channel.DrivenBy (ch : Channel) (cd : ChannelDef) : Prop :=
  (0 < ch.out → ch.coil = .down ∧ ch.current = cd.imin + roundDiv (ch.out * (cd.imax - cd.imin)) 1000) ∧
  (ch.out < 0 → ch.coil = .up ∧ ch.current = cd.imin + roundDiv (-ch.out * (cd.imax - cd.imin)) 1000) ∧
  (ch.out = 0 → ch.coil = .none ∧ ch.current = 0)

/-- What an update asks of the converter (R49, R109): at output 0 the channel's waiting request is withdrawn; else a
check begins at once on an idle converter, and waits behind a running conversion. -/
def CheckAsked (before after : Converter) (now : Nat) (c : ChannelId) (ch : Channel) : Prop :=
  after = if ch.out = 0 then before.withRequest c none
    else if before.running = none then { before with running := some ⟨.check c ch.current, now⟩ }
    else before.withRequest c (some ch.current)

/-- What the output and the coil step of an update leave of a channel (R104 to R109): this output, these flags, the coils
that follow the output, and an open run ended by output 0 (R111). -/
def Channel.PutsOut (before : Channel) (cd : ChannelDef) (out : Int) (sat : Saturation) (inDeadband : Bool)
    (ch : Channel) : Prop :=
  ch.DrivenBy cd ∧ ch = { before with
    out := out, sat := sat, inDeadband := inDeadband, coil := ch.coil, current := ch.current
    openRun := if out = 0 then 0 else before.openRun }

/-- A channel once an event has forced its output to 0 (R95, R98, R100, R112). -/
def Channel.forced (ch : Channel) : Channel :=
  { ch with out := 0, coil := .none, current := 0, sat := .none, inDeadband := false, openRun := 0 }

/-- A DEPTH or ATTITUDE channel as the first two steps of any of its updates leave it, whatever its state (R42, R43, R76,
R79): the reference state settled, a change of group adopted, the target ramped on; and its timer set to expire one
period after this expiry (R92). -/
def State.settled (s : State) (cd : ChannelDef) (ch : Channel) (expiry : Clock) : Channel :=
  { ch with
    updateTimer := some (after expiry cd.period)
    ref := match s.activeGroup cd.refs with
      | some (g, m) => ⟨some g, some ⟨g, m⟩⟩
      | none => ⟨none, ch.ref.last⟩
    target := ch.target.map fun x =>
      let offset := match s.activeGroup cd.refs, ch.ref.last with
        | some (g, m), some l =>
          if l.group = g then x.offset else clamp (x.offset + (m - l.measured)) (-32767) 32767
        | _, _ => x.offset
      let commanded := match s.derivedValue cd with
        | some v => clamp v cd.lo cd.hi
        | none => x.commanded
      let ramped := ramp x.ramped commanded cd.ramp
      { x with
        commanded := commanded, ramped := ramped, offset := offset, effective := clamp (ramped + offset) cd.lo cd.hi } }

/-- The conveyor block from one state to the next (R118, R128): it stands, but for the substate, the command and the stall
start, which are gone where channel A has left AUTO. -/
def State.KeepsConveyor (s u : State) : Prop :=
  u.conveyor = if s.chanA.state = .auto ∧ u.chanA.state ≠ .auto then
      s.conveyor.map fun k => { k with substate := none, command := none, stallStart := none }
    else s.conveyor

/-- A channel enters a state by a mode request (R94 to R97, R115, R128): it becomes this one, its waiting check and the
fault collection become these, STATUS is marked, and of the conveyor only what channel A's leaving AUTO takes goes. -/
def State.Enters (s : State) (c : ChannelId) (ch : Channel) (request : Option Int) (faults : List FaultCode) (u : State) :
    Prop :=
  s.KeepsConveyor u ∧ u = { s.setChannel c ch with
    converter := s.converter.withRequest c request, faults := faults, line := s.line.statusMarked, conveyor := u.conveyor }

/-- The conveyor block after the rate part of an update (R123, R124). -/
def State.rated (s : State) (cv : ConveyorDef) (k : Conveyor) (clock : Clock) : Conveyor :=
  match s.validResult cv.depthGroup, s.validResult cv.advanceGroup with
  | some d, some v =>
    { k with rate := .computed, milled := milledRate cv d v, loose := looseRate cv (milledRate cv d v), holdTimer := none }
  | _, _ => if k.rate = .computed then { k with rate := .holding, holdTimer := some (after clock 2000) } else k

/-- What a latch newly LATCHED does to the channels (R98, R137): those in MANUAL, AUTO and HELD by REF_LOST go to HELD with
cause LATCH at rest, their waiting checks withdrawn; those in OFF and FAULT stand. -/
def State.ChannelsHalt (s u : State) : Prop :=
  ∀ c, ((s.channel c).state = .manual ∨ (s.channel c).state = .auto ∨
      ((s.channel c).state = .held ∧ (s.channel c).cause = some .refLost) →
    u.channel c = { (s.channel c).forced with
      state := .held, cause := some .latch, fault := none, resumeTimer := none } ∧
    u.converter.request c = none) ∧
  ((s.channel c).state = .off ∨ (s.channel c).state = .fault →
    u.channel c = s.channel c ∧ u.converter.request c = s.converter.request c)

/-- What a latch that becomes CLEAR does to the channels (R99, R137): those in HELD with cause LATCH go to MANUAL at rest;
the others stand. -/
def State.ChannelsResume (s u : State) : Prop :=
  ∀ c, u.channel c = if (s.channel c).state = .held ∧ (s.channel c).cause = some .latch then
      { (s.channel c).forced with state := .manual, cause := none }
    else s.channel c

/-- A channel at rest: output 0, no coil, no flag (R95, R98, R100, R112). -/
def Channel.AtRest (ch : Channel) : Prop :=
  ch.out = 0 ∧ ch.coil = .none ∧ ch.current = 0 ∧ ch.sat = .none ∧ ch.inDeadband = false

end Machine
end Sys2Proof
end

