-- ==== Sys2Proof/WellFormed.lean ====
section
/-! DEFINITION. Which terms of Instr spell a step of the table: an intact PUBLISH carries 1 to 4 samples (R156),
a dropped frame fails a receive check (R156), a refused SERVICE frame has an unknown code or a wrong length (R173). -/

namespace Sys2Proof

/-- The check. Constructors whose operands' types leave nothing to check are well formed. -/
def Instr.wellFormed : Instr → Bool
  | .publishFrame _ _ samples => decide (1 ≤ samples.length ∧ samples.length ≤ 4)
  | .frameDropped _ cells =>
    Machine.judgeCells cells == .droppedEarly || Machine.judgeCells cells == .droppedAtArrival
  | .serviceBadCommand _ _ code data => Machine.badCommand code data
  | .powerOn _ | .resetAssert | .resetRelease _ | .endOfLoading _ | .entryToRunning _ | .receiverIdle _
  | .frameStartHeard _ | .frameBroken _ | .haltFrame _ _ _ _ | .releaseFrame _ _ | .statusFrame _ _ _
  | .serviceReplyFrame _ _ _ _ _ | .readRow _ _ | .writeRow _ _ _ | .eraseRow _ _ | .eraseAll _ _
  | .blankCheck _ _ | .lock _ _ | .restart _ _ _ | .writeRowComplete _ _ | .eraseRowComplete _
  | .eraseAllComplete _ | .blankCheckComplete _ | .freshToAged _ _ | .agedToExpired _ _ | .groupEvaluation _ _
  | .scanStart _ | .overrunClear _ | .conversionComplete _ _ | .serialExchangeBegin _
  | .serialExchangeComplete _ _ _ _ _ | .serialTake _ | .pulseEdge _ _ | .pulseStopped _ _ | .pulseUpdate _ _
  | .discretePinChange _ _ _ | .debounceExpiry _ _ | .panelRefresh _ | .publicationEvent _ _ _
  | .channelUpdate _ _ | .resumeWindowExpiry _ _ | .conveyorHoldExpiry _ | .beltHoldExpiry _ | .statusTimer _
  | .frameBegin _ | .frameComplete _ | .contentionLoss _ | .echoFault _ | .muteExpiry _ | .powerLoss => true

end Sys2Proof
end

