-- ==== Sys2Proof/Certificates/Slice0/Obligations.lean ====
section
/-! DEFINITION. The statements about the station, from the rules of the spec. Every `exec … = .next …` on its left has
the command and the state as they are before, so each such statement also says that the command completes there.
The moment of a command is `max s.now t`, and a timer's expiry is taken from its moment on (assumptions 1 and 3, the
model's choices). -/

open Sys2Proof Sys2Proof.Machine

/-! ### The machine -/

/-- Step is exec of the command at the front of the queue; an empty queue idles (assumption 2, the model's choice). -/
def Obligations.StepTakesTheFrontCommand : Prop :=
  (∀ (c : Instr) (s : State), step { s with pending := c :: s.pending } = exec c s) ∧
  ∀ s : State, s.pending = [] → step s = .next s

/-- No command faults or is refused, and none touches the queue's rest. -/
def Obligations.EveryCommandAnswersANextState : Prop :=
  ∀ (c : Instr) (s : State), ∃ u, exec c s = .next u ∧ u.pending = s.pending

/-- Reset is what a start leaves (9.4) and meets every invariant below; the straps at 0, the supply, the erased and
unlocked store and the low pins are the model's choices (assumptions 5, 6, 7). -/
def Obligations.ResetIsAStart : Prop :=
  (State.reset.Started ⟨0, false⟩ ∧ State.reset.runs ∧ State.reset.pending = [] ∧
  (∀ a, Memory.read State.reset.store.cells a = 0xFF) ∧ State.reset.store.locked = false ∧
  ∀ i : Fin 6, State.reset.inputs[i].pin = false) ∧
  (State.reset.table.Wf ∧ State.reset.SafeOutputs ∧ State.reset.FaultsWf ∧ State.reset.LineWf ∧ State.reset.BusWf ∧
  State.reset.store.Wf ∧ State.reset.Limits ∧ State.reset.BeltIdle ∧ State.reset.CoilFaultsWf)

/-- Power-on, the release of RESET and RESTART each begin a start (R167, R177, 9.4): every block takes its start state
and the straps are read; store and queue stand. The model's choices in it: the straps come as operands (assumption 5),
the pins stand with the debounced levels low until LOADING ends (assumption 7), and the blocks whose extent the image
decides are absent until then (assumption 8). -/
def Obligations.EveryStartGivesTheStartState : Prop :=
  (∀ (s : State) (x : Straps), s.supply = false → s.resetHeld = false →
    ∃ u, exec (.powerOn x) s = .next u ∧ u.Started x ∧ u.runs ∧ (∀ i : Fin 6, u.inputs[i].pin = s.inputs[i].pin) ∧
      (s.store.op = none → u.store = s.store) ∧ u.pending = s.pending) ∧
  (∀ (s : State) (x : Straps), s.supply = true → s.resetHeld = true →
    ∃ u, exec (.resetRelease x) s = .next u ∧ u.Started x ∧ u.runs ∧ (∀ i : Fin 6, u.inputs[i].pin = s.inputs[i].pin) ∧
      (s.store.op = none → u.store = s.store) ∧ u.pending = s.pending) ∧
  (∀ (s : State) (t : Nat) (h : ServiceHeader) (x : Straps), s.hears h.source → s.takesService h → s.store.op = none →
    ∃ u, exec (.restart t h x) s = .next u ∧ u.Started x ∧ u.runs ∧ (∀ i : Fin 6, u.inputs[i].pin = s.inputs[i].pin) ∧
      u.store = s.store ∧ u.pending = s.pending)

/-- R178: what a start at power-on or at the RESET pin leaves of an operation in flight, without a reply; between
operations the store stands. -/
def Obligations.StartAbandonsTheStoreOperation : Prop :=
  ∀ (s : State) (x : Straps) (c : Instr),
    (c = .powerOn x ∧ s.supply = false ∧ s.resetHeld = false) ∨
      (c = .resetRelease x ∧ s.supply = true ∧ s.resetHeld = true) →
    Memory.wf s.store.cells →
    ∃ u, exec c s = .next u ∧ u.store.op = none ∧ u.line.control.reply = none ∧
      (s.store.op = none → u.store = s.store) ∧
      ∀ op, s.store.op = some op →
        match op.command with
        | .writeRow _ | .eraseRow => u.store.locked = s.store.locked ∧ ∀ a, Memory.read u.store.cells a =
            if 16 * op.row.toNat ≤ a ∧ a < 16 * op.row.toNat + 16 then 0xFF else Memory.read s.store.cells a
        | .eraseAll => u.store.locked = false ∧ ∀ a, Memory.read u.store.cells a = 0xFF
        | .blankCheck => u.store.locked = s.store.locked ∧ u.store.cells = s.store.cells

/-- Loss of supply and RESET stop the station at once (R167): both outputs 0 with their coils de-energised, the line
neither driven nor received; and a station without supply or with RESET held does nothing: only the supply, the RESET
pin and the discrete pins move anything. The rest standing still until the start, and a supply that returns under
RESET waiting for its release, are assumption 9. -/
def Obligations.StoppedStationsAreSafeAndInert : Prop :=
  ((∀ s : State, s.supply = true → exec .powerLoss s = .next { s with
    supply := false
    chanA := { s.chanA with out := 0, coil := .none, current := 0 }
    chanB := { s.chanB with out := 0, coil := .none, current := 0 }
    line := { s.line with receiver := .stopped, quietSince := none, flight := none } }) ∧
  (∀ s : State, s.resetHeld = false → exec .resetAssert s = .next { s with
    resetHeld := true
    chanA := { s.chanA with out := 0, coil := .none, current := 0 }
    chanB := { s.chanB with out := 0, coil := .none, current := 0 }
    line := { s.line with receiver := .stopped, quietSince := none, flight := none } }) ∧
  (∀ (s : State) (x : Straps), s.supply = false → s.resetHeld = true →
    exec (.powerOn x) s = .next { s with supply := true } ∧ exec (.resetRelease x) s = .next { s with resetHeld := false })) ∧
  (∀ (c : Instr) (s : State), c.needsRunning = true → ¬ s.runs → exec c s = .next s)

/-! ### LOADING and the entries -/

/-- The loading checks in their order, an erased store failing the first (R168); at clock 6 LOADING ends for
COMMISSIONING under the strap, else for SAFE with the image fault found (R171, R172); at clock 1006 LISTENING gives
way to RUNNING, each publication timer expiring one period later (R67, R170). At all three entries a numbered
RECEIVE_ONLY bus becomes ACTIVE, the status timer starts and STATUS is marked (R151, R159). -/
def Obligations.LoadingEndsAndRunningBegins : Prop :=
  (∀ (number : BitVec 4) (m : Memory),
    (wordSum m ≠ 0x5A3C → loadImage number m = .error .imageCheckword) ∧
    (wordSum m = 0x5A3C → u16 m 0 ≠ 1 → loadImage number m = .error .imageFormat) ∧
    (wordSum m = 0x5A3C → u16 m 0 = 1 →
      byteLimits m = false ∨ 24 < (pinnedEntries number (settingsOf m)).length →
      loadImage number m = .error .imageLimits) ∧
    (wordSum m = 0x5A3C → u16 m 0 = 1 → byteLimits m = true → (pinnedEntries number (settingsOf m)).length ≤ 24 →
      loadImage number m =
        if referencesHold number (settingsOf m) then .ok (settingsOf m) else .error .imageReference) ∧
    loadImage number [] = .error .imageCheckword) ∧
  (∀ (s : State) (t : Nat) (next : Station) (faults : List FaultCode), s.runs → s.station = .loading →
    6 ≤ (s.tick t).clock.toNat →
    (s.commission = true ∧ next = .commissioning ∧ faults = s.faults) ∨
      (s.commission = false ∧ next = .safe ∧ ∃ f, loadImage s.number s.store.cells = .error f ∧ f ∉ s.faults ∧
        faults = s.faults ++ [f]) →
    ∃ u, exec (.endOfLoading t) s = .next u ∧ (∀ i : Fin 6, u.inputs[i] = ⟨s.inputs[i].pin, s.inputs[i].pin, none⟩) ∧
      u = { s.tick t with
        station := next
        faults := faults
        inputs := u.inputs
        statusTimer := some (after (s.tick t).clock 500)
        line := { s.line with
          receiver := .waiting
          quietSince := some (max s.now t)
          bus := if s.number ≠ 0 ∧ s.line.bus = .receiveOnly then .active else s.line.bus
          control := { s.line.control with status := true } } }) ∧
  (∀ (s : State) (t : Nat) (st : Settings), s.runs → s.settings = some st → s.station = .listening →
    1006 ≤ (s.tick t).clock.toNat →
    exec (.entryToRunning t) s = .next { s.tick t with
      station := .running
      publications := s.publications.map fun p => match st.publication p.code p.inst with
        | some d => { p with timer := some (after (s.tick t).clock d.period) }
        | none => p
      statusTimer := some (after (s.tick t).clock 500)
      line := { s.line with
        bus := if s.number ≠ 0 ∧ s.line.bus = .receiveOnly then .active else s.line.bus
        control := { s.line.control with status := true } } })

/-- A loaded image ends LOADING in LISTENING (R2, R28, R29, R46, R71, R73, R87, R92, R118, R139, R170): the pinned
entries stand; the converter idle with nothing scanned or waiting, the groups, those that are not defined without a
record, the serial port, the pulse inputs, the smoothing states, the published keys, the channels, OFF with their
first targets, and the conveyor have their start state with their timers running; the debounced levels are the pins',
and a halt button held through the start latches. A panel station sets its initial panel values, starts the refresh
timer and delivers each value GOOD to its pinned entry. That these blocks come to be at this event is assumption 8. -/
def Obligations.LoadedImageEntersListening : Prop :=
  ∀ (s : State) (t : Nat) (st : Settings), s.runs → s.station = .loading → 6 ≤ (s.tick t).clock.toNat →
    s.commission = false → loadImage s.number s.store.cells = .ok st →
    let receiving : Line := { s.line with receiver := .waiting, quietSince := some (max s.now t) }
    ∃ u, exec (.endOfLoading t) s = .next u ∧
      (u.station = .listening ∧ u.settings = some st ∧
      u.table.entries.map Entry.key = (pinnedEntries s.number st).map Entry.key ∧
      u.table.refusals = 0 ∧ u.table.gaps = 0 ∧
      (st.panel = none → u.table = ⟨pinnedEntries s.number st, 0, 0⟩) ∧
      (∀ (n : Fin 4) (g : GroupDef), st.groups[n] = some g →
        u.groups[n] = some ⟨⟨.vacant, none, none⟩, some (after (s.tick t).clock g.period)⟩) ∧
      (∀ n : Fin 4, st.groups[n] = none → u.groups[n] = none) ∧
      u.converter = ⟨none, none, none, none,
        if st.scanList = [] then none else some (after (s.tick t).clock st.scanPeriod), none⟩ ∧
      (∀ c, let cd := st.channel c
        let first := match cd.target with
          | .fixed v => v
          | _ => cd.lo
        let operator := match cd.target with
          | .operator _ _ _ => true
          | _ => false
        u.channel c = {
          state := .off, cause := none, out := 0, coil := .none, current := 0, sat := .none, inDeadband := false
          openRun := 0, fault := none, resumeTimer := none, ref := ⟨none, none⟩
          updateTimer := if cd.role = .none then none else some (after (s.tick t).clock cd.period)
          target := if cd.role = .depth ∨ cd.role = .attitude then some {
              commanded := first, taken := if operator then some false else none, ramped := first, offset := 0
              effective := first, stack := if operator && cd.role == .depth then some [] else none }
            else none }) ∧
      (∀ i : Fin 6, u.inputs[i] = ⟨s.inputs[i].pin, s.inputs[i].pin, none⟩) ∧
      (∀ i, st.inputOf .haltButton = some i → s.inputs[i].pin = true → s.latch = none →
        u.latch = some ⟨1, s.number, BitVec.ofNat 8 i.val⟩ ∧ u.line = receiving.halting 1 (BitVec.ofNat 8 i.val)) ∧
      ((∀ i, st.inputOf .haltButton = some i → s.inputs[i].pin = false) → u.latch = s.latch ∧ u.line = receiving) ∧
      u.faults = s.faults ∧ u.store = s.store ∧ u.number = s.number ∧ u.beltHold = s.beltHold ∧
      u.statusTimer = s.statusTimer) ∧
      (u.conveyor = st.conveyor.map (fun _ => ⟨.fallback, 0, 0, none, 0, false, none, none, none⟩) ∧
      u.smoothing = st.sources.map (fun _ => none) ∧
      u.publications = st.publications.map (fun d => ⟨d.code, d.inst, none, 0⟩) ∧
      (∀ i x take exchange, st.serialSource = some (i, x, take, exchange) →
        u.port = ⟨.syncing, 0, none, none, some (after (s.tick t).clock exchange), some (after (s.tick t).clock take)⟩) ∧
      (st.serialSource = none → u.port = ⟨.syncing, 0, none, none, none, none⟩) ∧
      (∀ input i x constant timeout update, st.pulseSource input = some (i, x, constant, timeout, update) →
        u.pulse input = ⟨none, [], none, some (after (s.tick t).clock update)⟩) ∧
      ∀ input, st.pulseSource input = none → u.pulse input = ⟨none, [], none, none⟩) ∧
      (st.panel = none → u.panel = none) ∧
      ∀ d, st.panel = some d →
        let held := match st.inputOf .truckHold with
          | some i => s.inputs[i].pin
          | none => false
        let values : List (Key × Int) := [(⟨s.number, 8, 0⟩, d.left), (⟨s.number, 8, 1⟩, d.right), (⟨s.number, 10, 3⟩, 255),
          (⟨s.number, 11, 3⟩, 255), (⟨s.number, 17, 2⟩, if held then 1 else 0)]
        u.panel = some ⟨d.left, d.right, ⟨0, 255⟩, ⟨0, 255⟩, held, some (after (s.tick t).clock d.refresh)⟩ ∧
        (∀ x ∈ values, ∀ q, st.quantity x.1.code = some q →
          u.table.find x.1 = some ((pinnedEntry s.number x.1).take q .good (some x.2) (s.tick t).clock)) ∧
        ∀ k, k ∉ values.map Prod.fst →
          u.table.find k = PeerTable.find ⟨pinnedEntries s.number st, 0, 0⟩ k

/-! ### Receiving -/

/-- The receiver's moves (R153, R155, R156, R160). WAITING ends once the quiet time exceeds 8 bit times, and not
before; a byte cell that begins in WAITING is not collected and the quiet time counts again from its end. The first
byte cell of another station's frame begins IN_FRAME from IDLE and ends the station's yielding. A gap breaks a frame
off; a failing receive check drops it, before its end to WAITING and at its arrival to IDLE, the line quiet from that
byte cell's end; and each is counted unless the station drove its first byte cell. That FRAME_BROKEN is the first
whole µs past the gap's 8 bit times, so that the quiet began 33 µs before, is assumption 11; that a cell in WAITING
comes as FRAME_START_HEARD is assumption 12; that a bad stop bit of the last cell is a drop before the end is
assumption 34. -/
def Obligations.ReceiverFollowsTheLine : Prop :=
  ((∀ (s : State) (t q : Nat), s.runs → s.line.receiver = .waiting → s.line.quietSince = some q →
    (q + 32 < max s.now t →
      exec (.receiverIdle t) s = .next { s.tick t with line := { s.line with receiver := .idle } }) ∧
    (max s.now t ≤ q + 32 → exec (.receiverIdle t) s = .next (s.tick t))) ∧
  (∀ (s : State) (t q : Nat), s.runs → s.line.flight = none → s.line.receiver = .waiting →
    s.line.quietSince = some q → q ≤ max s.now t →
    exec (.frameStartHeard t) s = .next { s.tick t with line := { s.line with
      quietSince := some (max s.now t + 40), yielding := false } }) ∧
  (∀ (s : State) (t : Nat), s.runs → s.line.flight = none → s.line.receiver = .idle →
    exec (.frameStartHeard t) s = .next { s.tick t with line := { s.line with
      receiver := .inFrame false, quietSince := none, yielding := false } }) ∧
  (∀ (s : State) (t : Nat), s.runs → s.line.flight = none → s.line.receiver = .inFrame false →
    exec (.frameBroken t) s = .next { s.tick t with line := { s.line with
      receiver := .waiting, quietSince := some (max s.now t - 33), errors := min (s.line.errors + 1) 65535 } }) ∧
  (∀ (s : State) (t : Nat), s.runs → s.line.flight = none → s.line.receiver = .inFrame true →
    exec (.frameBroken t) s = .next { s.tick t with line := { s.line with
      receiver := .waiting, quietSince := some (max s.now t - 33) } })) ∧
  (∀ (s : State) (t : Nat) (cells : List ByteCell) (own : Bool), s.runs → s.line.flight = none →
    s.line.receiver = .inFrame own →
    (judgeCells cells = .droppedEarly → exec (.frameDropped t cells) s = .next { s.tick t with line := { s.line with
      receiver := .waiting, quietSince := some (max s.now t)
      errors := if own then s.line.errors else min (s.line.errors + 1) 65535 } }) ∧
    (judgeCells cells = .droppedAtArrival → exec (.frameDropped t cells) s = .next { s.tick t with line := { s.line with
      receiver := .idle, quietSince := some (max s.now t)
      errors := if own then s.line.errors else min (s.line.errors + 1) 65535 } }))

/-- The receive checks (R154 to R156). At a byte cell a frame is dropped where the first cell is not SYNC, the LENGTH
is above 20, or a stop bit within the frame reads dominant, that of the last cell among them, which is the model's
choice (assumption 34); at its arrival, at cell 6 + LENGTH, where the remainder over TYPE through CRC is not 0, the
type is 0 or above 6, a type other than PUBLISH has a nonzero low half, a PUBLISH has a count of 0 or above 4, or the
LENGTH is not one the type allows; and it is intact otherwise. Each byte is fed to the remainder most significant bit
first. A frame is SYNC, TYPE, SOURCE, LENGTH, payload and the CRC, high byte first; every frame the station builds,
sent whole with sound stop bits, is intact (10.1). A byte's ten bits on the line are a dominant start bit, the data
bits least significant first (1 recessive, 0 dominant) and a recessive stop bit, and a receiver reads the byte back
from them (R153); a bit that two senders drive is dominant where either is. -/
def Obligations.BuiltFramesPassTheReceiveChecks : Prop :=
  (∀ (number : BitVec 4) (f : OwnFrame),
    (match f with
      | .halt _ _ | .release => True
      | .reply r => r.data.length = 0 ∨ r.data.length = 16
      | .status payload => payload.length = 20
      | .publish samples => 1 ≤ samples.length ∧ samples.length ≤ 4) →
    judgeCells ((f.wire number).bytes.map fun b => ⟨b, true⟩) = .intact) ∧
  (∀ f : WireFrame, f.covered = f.typ :: f.source :: BitVec.ofNat 8 f.payload.length :: f.payload ∧
    f.bytes = 0xA7 :: f.covered ++ [(crc f.covered).extractLsb' 8 8, (crc f.covered).extractLsb' 0 8]) ∧
  (crc [] = 0xFFFF ∧ ∀ (bytes : List Byte) (b : Byte), crc (bytes ++ [b]) =
    [7, 6, 5, 4, 3, 2, 1, 0].foldl (fun (r : Word16) i =>
      if r.getLsbD 15 ≠ b.getLsbD i then r <<< 1 ^^^ 0x1021 else r <<< 1) (crc bytes)) ∧
  (∀ cells : List ByteCell, judgeCells cells = .droppedEarly ↔
    (∃ c, cells[0]? = some c ∧ c.byte ≠ 0xA7) ∨ (∃ l, cells[3]? = some l ∧ 20 < l.byte.toNat) ∨
    ∃ (i : Nat) (c : ByteCell), cells[i]? = some c ∧ c.stop = false ∧
      ∀ l, cells[3]? = some l → i < 6 + l.byte.toNat) ∧
  (∀ cells : List ByteCell, judgeCells cells ≠ .droppedEarly →
    (cells.length < 4 → judgeCells cells = .incomplete) ∧
    ∀ sync typ source length rest, cells = sync :: typ :: source :: length :: rest →
      let size := length.byte.toNat
      let kind := typ.byte.toNat / 16
      let count := typ.byte.toNat % 16
      let sound := crc (((cells.take (6 + size)).drop 1).map (·.byte)) = 0 ∧ 1 ≤ kind ∧ kind ≤ 6 ∧
        (kind = 1 → 1 ≤ count ∧ count ≤ 4 ∧ size = 5 * count) ∧ (kind ≠ 1 → count = 0) ∧ (kind = 2 → size = 20) ∧
        (kind = 3 → size = 2) ∧ (kind = 4 → size = 0) ∧ (kind = 5 → size = 3 ∨ size = 19) ∧
        (kind = 6 → size = 2 ∨ size = 18)
      (cells.length < 6 + size → judgeCells cells = .incomplete) ∧
      (6 + size ≤ cells.length → sound → judgeCells cells = .intact) ∧
      (6 + size ≤ cells.length → ¬ sound → judgeCells cells = .droppedAtArrival)) ∧
  (∀ b : Byte, (cellLevels b).length = 10 ∧ (cellLevels b)[0]? = some .dominant ∧ (cellLevels b)[9]? = some .recessive ∧
    (∀ i < 8, (cellLevels b)[i + 1]? = some (if b.getLsbD i then .recessive else .dominant)) ∧
    readCell (cellLevels b) = some ⟨b, true⟩) ∧
  ∀ x y : Level, lineLevel x y = .dominant ↔ x = .dominant ∨ y = .dominant

/-- STATUS and SERVICE_REPLY frames of other stations reach the watches and nothing else (R152, R157). A watch matches
where every position with a nonzero mask byte lies within the frame and agrees under the mask, position 0 being TYPE,
1 SOURCE, 2 LENGTH and 3 to 11 the payload (R146). A matching watch (R147, R148): LATCH latches a CLEAR latch with
code 4 + n, the own number and the frame's source, places a HALT and discards a RELEASE, MANUAL, AUTO and REF_LOST
channels going to HELD; under a LATCHED latch it changes nothing and places no HALT (R136, R138); BELT_HOLD opens the
window from the clock of the match, the last matching watch deciding. The watches run in LISTENING and RUNNING. -/
def Obligations.WatchesAloneSeeStatusFrames : Prop :=
  ((∀ (s : State) (t : Nat) (source : Byte) (payload : Vector Byte 20), s.hears source →
    s.unwatched (statusWire source payload.toList) →
    exec (.statusFrame t source payload) s = .next (s.heard t)) ∧
  (∀ (s : State) (t : Nat) (source status row : Byte) (data : Option Row), s.hears source →
    s.unwatched (replyWire source status row (rowBytes data)) →
    exec (.serviceReplyFrame t source status row data) s = .next (s.heard t))) ∧
  (∀ (s : State) (t : Nat) (source : Byte) (payload : Vector Byte 20), s.hears source →
    (¬ s.atWork → exec (.statusFrame t source payload) s = .next (s.heard t)) ∧
    (s.latch ≠ none → ∃ u, exec (.statusFrame t source payload) s = .next u ∧
      u = { s.heard t with beltHold := u.beltHold })) ∧
  (∀ (s : State) (t : Nat) (source : Byte) (payload : Vector Byte 20) (st : Settings) (n : Fin 4), s.hears source →
    s.atWork → s.settings = some st → st.watches[n].fits (statusWire source payload.toList).window = true →
    (st.watches[n].action = .latch → s.latch = none →
      (∀ m : Fin 4, m < n → st.watches[m].action = .latch →
        st.watches[m].fits (statusWire source payload.toList).window = false) →
      ∃ u, exec (.statusFrame t source payload) s = .next u ∧
        u.latch = some ⟨BitVec.ofNat 8 (4 + n.val), s.number, sourceByte (stationOf source)⟩ ∧
        s.KeepsConveyor u ∧ s.ChannelsHalt u ∧
        u = { s.heard t with
          latch := u.latch, chanA := u.chanA, chanB := u.chanB, conveyor := u.conveyor, beltHold := u.beltHold
          converter := { s.converter with requestA := u.converter.requestA, requestB := u.converter.requestB }
          line := (s.heard t).line.halting (BitVec.ofNat 8 (4 + n.val)) (sourceByte (stationOf source)) }) ∧
    (∀ window, st.watches[n].action = .beltHold window →
      (∀ m : Fin 4, n < m → ∀ x, st.watches[m].action = .beltHold x →
        st.watches[m].fits (statusWire source payload.toList).window = false) →
      ∃ u, exec (.statusFrame t source payload) s = .next u ∧
        u.beltHold = some (after (s.tick t).clock window) ∧ u.table = s.table)) ∧
  (∀ (w : Watch) (window : List Byte), w.fits window = true ↔
    ∀ (i : Nat) (mask pattern : Byte), w.mask[i]? = some mask → w.pattern[i]? = some pattern → mask ≠ 0 →
      ∃ b, window[i]? = some b ∧ b &&& mask = pattern &&& mask) ∧
  (∀ f : WireFrame, f.window[0]? = some f.typ ∧ f.window[1]? = some f.source ∧
    f.window[2]? = some (BitVec.ofNat 8 f.payload.length) ∧ ∀ i, f.window[3 + i]? = f.payload[i]?) ∧
  ∀ (m : Memory) (n : Fin 4), (settingsOf m).watches[n].mask.length = 12 ∧ (settingsOf m).watches[n].pattern.length = 12

/-- An intact frame bearing the own number is a clash (R116, R158), whatever its type: the bus is MUTED_CLASH,
NUMBER_CLASH stands, a timed mute is over with the echo-fault run 0. Every channel that is not OFF goes to OFF: output
0, coils de-energised, flags and open run reset, HELD cause and resume window gone, its waiting check withdrawn, and its
coil fault and its code gone; so with the codes in the channels' agreement the collection loses ECHO_MUTE in a timed
mute and every coil code, and gains NUMBER_CLASH. Table, target records and store stand, and of the conveyor only what
channel A's leaving AUTO takes (R118, R128) goes. The clash leaves the latch: one LATCHED before stays as it is, and one
CLEAR before stays CLEAR unless a watch of the station latched it at this frame. -/
def Obligations.OwnNumberOnTheLineIsAClash : Prop :=
  ∀ (s : State) (c : Instr) (source : Byte), c.frameSource = some source → c.wellFormed = true → s.runs → s.collecting →
    stationOf source = s.number → s.line.bus ≠ .mutedClash →
    ∃ u, exec c s = .next u ∧ u.line.bus = .mutedClash ∧ .numberClash ∈ u.faults ∧
      (s.line.bus = .mutedTimed → u.line.muteTimer = none ∧ u.line.echoRun = 0 ∧ .echoMute ∉ u.faults) ∧
      (s.CoilFaultsWf →
        let standing := if s.line.bus = .mutedTimed then s.faults.filter (· != .echoMute) else s.faults
        u.faults = (if .numberClash ∈ s.faults then standing else standing ++ [.numberClash]).filter fun f =>
          decide (f ∉ [FaultCode.coilOpenA, .coilShortA, .coilOpenB, .coilShortB])) ∧
      (∀ x, (s.channel x).state = .off →
        u.channel x = s.channel x ∧ u.converter.request x = s.converter.request x) ∧
      (∀ x, (s.channel x).state ≠ .off → u.converter.request x = none ∧ u.line.control.status = true ∧
        u.channel x = { (s.channel x).forced with state := .off, cause := none, fault := none, resumeTimer := none }) ∧
      u.converter = { s.converter with requestA := u.converter.requestA, requestB := u.converter.requestB } ∧
      (¬ s.atWork → u.latch = s.latch) ∧ (∀ r, s.latch = some r → u.latch = some r) ∧
      (s.latch = none → u.latch = none ∨
        ∃ n : Fin 4, u.latch = some ⟨BitVec.ofNat 8 (4 + n.val), s.number, sourceByte (stationOf source)⟩) ∧
      u.table = s.table ∧ u.store = s.store ∧ u.station = s.station ∧ s.KeepsConveyor u

/-! ### Acceptance -/

/-- A PUBLISH frame of another station passes its samples through acceptance one at a time in payload order, in
LISTENING and RUNNING (R4, R157); elsewhere it goes nowhere. -/
def Obligations.PublishFramesAreAcceptedInPayloadOrder : Prop :=
  ∀ (s : State) (t : Nat) (source : Byte) (samples : List RawSample), s.hears source →
    1 ≤ samples.length → samples.length ≤ 4 → s.unwatched (publishWire source samples) →
    (s.atWork → exec (.publishFrame t source samples) s =
      .next (samples.foldl (fun w r => w.acceptSample (stationOf source) r) (s.heard t))) ∧
    (¬ s.atWork → exec (.publishFrame t source samples) s = .next (s.heard t))

/-- R6: a code without a definition ends a sample's acceptance, whatever wants it; and no pinned entry of a loaded
image has such a code. -/
def Obligations.UndefinedCodesAreIgnored : Prop :=
  (∀ (s : State) (source : BitVec 4) (r : RawSample) (st : Settings), s.settings = some st → st.quantity r.code = none →
    s.acceptSample source r = s) ∧
  ∀ (number : BitVec 4) (m : Memory) (st : Settings), loadImage number m = .ok st →
    ∀ e ∈ pinnedEntries number st, st.quantity e.key.code ≠ none

/-- A source outside the listen set ends a sample's acceptance without a trace, and so does a key that has no entry
and that nothing wants (R5, R8). A wanted sample without an entry makes one while there is room (R9): it takes the
sample with stale run 0; every other entry and the totals stand. A value for a target may reach the channels' records,
and nothing else moves. -/
def Obligations.WantedSamplesCreateAnEntry : Prop :=
  ((∀ (s : State) (source : BitVec 4) (r : RawSample) (st : Settings), s.settings = some st →
    source = 0 ∨ st.listen.getLsbD source.toNat = false → s.acceptSample source r = s) ∧
  ∀ (s : State) (source : BitVec 4) (r : RawSample) (st : Settings), s.settings = some st →
    s.table.find (r.keyFrom source) = none → st.wants (r.keyFrom source) = false → s.acceptSample source r = s) ∧
  (∀ (s : State) (source : BitVec 4) (r : RawSample) (st : Settings) (d : QuantityDef), s.admits source r st d →
    s.table.find (r.keyFrom source) = none → st.wants (r.keyFrom source) = true → s.table.entries.length < 32 →
    ∃ u e, s.acceptSample source r = u ∧ u.table.find (r.keyFrom source) = some e ∧
      e = (remoteEntry (r.keyFrom source)).takeRemote d r s.clock ∧
      (∀ k, k ≠ r.keyFrom source → u.table.find k = s.table.find k) ∧
      u.table.refusals = s.table.refusals ∧ u.table.gaps = s.table.gaps ∧
      (∀ c, (u.channel c).state = (s.channel c).state ∧ (u.channel c).out = (s.channel c).out) ∧
      u = { s with table := u.table, chanA := u.chanA, chanB := u.chanB })

/-- R7: the effective quality and the carried value of a sample; the value field of a FAILED one is used nowhere; and
the sequence is read as sent. -/
def Obligations.EffectiveQualityOfASample : Prop :=
  (∀ r : RawSample,
    (r.value = 0x8000#16 → RawSample.effective r = (.failed, none)) ∧
    (r.value ≠ 0x8000#16 → r.quality = 0 → RawSample.effective r = (.good, some r.value.toInt)) ∧
    (r.value ≠ 0x8000#16 → r.quality = 1 → RawSample.effective r = (.held, some r.value.toInt)) ∧
    (r.value ≠ 0x8000#16 → r.quality = 2 → RawSample.effective r = (.suspect, some r.value.toInt)) ∧
    (2 < r.quality.toNat → RawSample.effective r = (.failed, none)) ∧
    ∀ q v, RawSample.effective r = (q, some v) → q ≠ .failed ∧ -32767 ≤ v ∧ v ≤ 32767) ∧
  (∀ (s : State) (source : BitVec 4) (r r' : RawSample), r.code = r'.code → r.inst = r'.inst → r.seq = r'.seq →
    RawSample.effective r = (.failed, none) → RawSample.effective r' = (.failed, none) →
    s.acceptSample source r = s.acceptSample source r') ∧
  ∀ (e : Entry) (d : QuantityDef) (r : RawSample) (clock : Clock), (e.takeRemote d r clock).lastSeq = some r.seq

/-- Taking a sample (R14, R11, R12): the plausible clamp marks a GOOD or HELD value it changed SUSPECT, a FAILED
sample leaves the value, the arrival is the clock, the state FRESH, the last sequence the sample's, the stale run 0.
-/
def Obligations.TakingASample : Prop :=
  ∀ (e : Entry) (d : QuantityDef) (r : RawSample) (clock : Clock),
    let u := e.takeRemote d r clock
    u.key = e.key ∧ u.origin = e.origin ∧ u.pinned = e.pinned ∧ u.state = .fresh ∧ u.arrival = some clock ∧
    u.lastSeq = some r.seq ∧ u.staleRun = some 0 ∧ u.expiredSince = none ∧
    (RawSample.effective r = (.failed, none) → u.quality = some .failed ∧ u.value = e.value) ∧
    ∀ q v, RawSample.effective r = (q, some v) →
      u.value = some (clamp v d.lo d.hi) ∧
      u.quality = some (if clamp v d.lo d.hi ≠ v ∧ q ≠ .suspect then .suspect else q)

/-- A full table makes room by eviction or refuses (R9, R10): the victim is an unpinned EXPIRED entry, none of them
has been expired longer, and of those as long expired it has the lowest key; without one the refusal total grows. -/
def Obligations.FullTableEvictsTheLongestExpired : Prop :=
  ∀ (s : State) (source : BitVec 4) (r : RawSample) (st : Settings) (d : QuantityDef), s.admits source r st d →
    s.table.find (r.keyFrom source) = none → st.wants (r.keyFrom source) = true → s.table.entries.length = 32 →
    s.table.Wf →
    ((∀ e ∈ s.table.entries, e.pinned = true ∨ e.state ≠ .expired) →
      s.acceptSample source r = { s with table := { s.table with refusals := min (s.table.refusals + 1) 65535 } }) ∧
    ((∃ e ∈ s.table.entries, e.pinned = false ∧ e.state = .expired) →
      ∃ u v, s.acceptSample source r = u ∧ v ∈ s.table.entries ∧ v.pinned = false ∧ v.state = .expired ∧
        (∀ e ∈ s.table.entries, e.pinned = false → e.state = .expired → e ≠ v →
          e.expiredFor s.clock < v.expiredFor s.clock ∨
            (e.expiredFor s.clock = v.expiredFor s.clock ∧ keyRank v.key < keyRank e.key)) ∧
        u.table.find v.key = none ∧
        u.table.find (r.keyFrom source) = some ((remoteEntry (r.keyFrom source)).takeRemote d r s.clock) ∧
        (∀ k, k ≠ r.keyFrom source → k ≠ v.key → u.table.find k = s.table.find k) ∧
        u.table.refusals = s.table.refusals ∧ u.table.entries.length = 32)

/-- The sequence judgement of a FRESH or AGED entry (R12, R13, R22), and the resync of a VACANT or EXPIRED one (R11):
a duplicate changes nothing; 1 to 127 is taken and counts the gap; 128 to 255 is stale, and at the third in a row a
resync without a gap. No other entry moves. -/
def Obligations.SequenceJudgement : Prop :=
  ∀ (s : State) (source : BitVec 4) (r : RawSample) (st : Settings) (d : QuantityDef) (e : Entry),
    s.admits source r st d → s.table.find (r.keyFrom source) = some e →
    (∀ k, k ≠ r.keyFrom source → (s.acceptSample source r).table.find k = s.table.find k) ∧
    (e.state = .vacant ∨ e.state = .expired →
      (s.acceptSample source r).table.find (r.keyFrom source) = some (e.takeRemote d r s.clock) ∧
      (s.acceptSample source r).table.gaps = s.table.gaps) ∧
    ∀ last, e.state = .fresh ∨ e.state = .aged → e.lastSeq = some last →
      (sequenceDistance r last = 0 → s.acceptSample source r = s) ∧
      (1 ≤ sequenceDistance r last → sequenceDistance r last ≤ 127 →
        (s.acceptSample source r).table.find (r.keyFrom source) = some (e.takeRemote d r s.clock) ∧
        (s.acceptSample source r).table.gaps = min (s.table.gaps + (sequenceDistance r last - 1)) 65535) ∧
      (128 ≤ sequenceDistance r last → e.staleRun = some 2 →
        (s.acceptSample source r).table.find (r.keyFrom source) = some (e.takeRemote d r s.clock) ∧
        (s.acceptSample source r).table.gaps = s.table.gaps) ∧
      (∀ n, 128 ≤ sequenceDistance r last → e.staleRun = some n → n ≠ 2 →
        (s.acceptSample source r).table.find (r.keyFrom source) = some { e with staleRun := some (n + 1) } ∧
        s.acceptSample source r = { s with table := (s.acceptSample source r).table })

/-- A target value of the station's side or instance 3 reaches an OPERATOR channel of its role at the arrival (R15,
R74): a changed value taken by sequence, and any value taken at a creation, with room or by eviction (R10), from
VACANT or EXPIRED, or at the third stale judgement (R9, R11, R13; that an old value is handed over there too is
assumption 15). It is held within max step of the commanded target once one was taken, then within the range, and the
switch offset becomes 0; ramped target, effective target and stack stand. An unchanged value taken by sequence reaches
none. -/
def Obligations.NewTargetsReachOperatorChannels : Prop :=
  ∀ (s : State) (source : BitVec 4) (r : RawSample) (st : Settings) (d : QuantityDef) (q : Quality) (v : Int)
    (c : ChannelId) (key : Option Key) (maxStep height : Int) (x : TargetRecord),
    s.admits source r st d → RawSample.effective r = (q, some v) → r.inst = st.side.inst ∨ r.inst = 3 →
    (r.code = Config.depthTarget ∧ (st.channel c).role = .depth) ∨
      (r.code = Config.pitchTarget ∧ (st.channel c).role = .attitude) →
    (st.channel c).target = .operator key maxStep height → (s.channel c).target = some x →
    let reaches := (s.acceptSample source r).channel c = { s.channel c with target := some { x with
      commanded :=
        if x.taken = some true then
          clamp (clamp (clamp v d.lo d.hi) (x.commanded - maxStep) (x.commanded + maxStep)) (st.channel c).lo
            (st.channel c).hi
        else clamp (clamp v d.lo d.hi) (st.channel c).lo (st.channel c).hi
      taken := some true
      offset := 0 } }
    (∀ (e : Entry) (last : Byte), s.table.find (r.keyFrom source) = some e → e.state = .fresh ∨ e.state = .aged →
      e.lastSeq = some last → 1 ≤ sequenceDistance r last → sequenceDistance r last ≤ 127 →
      (e.value = some (clamp v d.lo d.hi) → (s.acceptSample source r).channel c = s.channel c) ∧
      (e.value ≠ some (clamp v d.lo d.hi) → reaches)) ∧
    (∀ e, s.table.find (r.keyFrom source) = some e → e.state = .vacant ∨ e.state = .expired → reaches) ∧
    (∀ (e : Entry) (last : Byte), s.table.find (r.keyFrom source) = some e → e.state = .fresh ∨ e.state = .aged →
      e.lastSeq = some last → 128 ≤ sequenceDistance r last → e.staleRun = some 2 → reaches) ∧
    (s.table.find (r.keyFrom source) = none → st.wants (r.keyFrom source) = true → s.hasPlace → reaches)

/-- A DEPTH_ACTION acts once per serial (R16, R83 to R85): its value is serial × 256 + code; a new serial taken by
sequence lifts or returns an OPERATOR DEPTH channel, and the acted serial again does nothing. Without an acted serial,
at a creation, with room or by eviction (R10), from VACANT or EXPIRED, and at the third stale judgement (R9, R11, R13)
the serial is recorded without acting. The action is read from the value the sample carries, before the plausible
clamp (assumption 16). -/
def Obligations.DepthActionsActOncePerSerial : Prop :=
  ∀ (s : State) (source : BitVec 4) (r : RawSample) (st : Settings) (d : QuantityDef) (q : Quality)
    (serial : BitVec 7) (code : Byte) (c : ChannelId) (key : Option Key) (maxStep height : Int) (x : TargetRecord),
    s.admits source r st d → RawSample.effective r = (q, some (serial.toNat * 256 + code.toNat : Int)) →
    r.inst = st.side.inst ∨ r.inst = 3 → r.code = Config.depthAction →
    (st.channel c).role = .depth → (st.channel c).target = .operator key maxStep height →
    (s.channel c).target = some x →
    let recorded := ∃ u, (s.acceptSample source r).table.find (r.keyFrom source) = some u ∧ u.acted = some serial
    let stands := (s.acceptSample source r).channel c = s.channel c
    (∀ e, s.table.find (r.keyFrom source) = some e → e.state = .vacant ∨ e.state = .expired → stands ∧ recorded) ∧
    (s.table.find (r.keyFrom source) = none → st.wants (r.keyFrom source) = true → s.hasPlace → stands ∧ recorded) ∧
    ∀ (e : Entry) (last : Byte), s.table.find (r.keyFrom source) = some e → e.state = .fresh ∨ e.state = .aged →
      e.lastSeq = some last →
      (128 ≤ sequenceDistance r last → e.staleRun = some 2 → stands ∧ recorded) ∧
      (1 ≤ sequenceDistance r last → sequenceDistance r last ≤ 127 →
        recorded ∧ (e.acted = none → stands) ∧
        ∀ acted, e.acted = some acted →
          (serial = acted → stands) ∧
          (serial ≠ acted → code = 1 →
            (s.acceptSample source r).channel c = { s.channel c with target := some (x.lift (st.channel c) height) }) ∧
          (serial ≠ acted → code = 2 →
            (s.acceptSample source r).channel c = { s.channel c with target := some x.recall }) ∧
          (code ≠ 1 → code ≠ 2 → stands))

/-- LIFT and RETURN on the record (R83, R84): a LIFT pushes the commanded target, the fifth value pushing the oldest
out, and raises by the lift height within the range; a RETURN takes the top whole and clears the offset; a RETURN on
an empty stack does nothing; a RETURN after a LIFT brings the commanded target back. -/
def Obligations.LiftAndReturn : Prop :=
  ∀ (x : TargetRecord) (cd : ChannelDef) (height : Int) (st : List Int), x.stack = some st →
    x.lift cd height = { x with
      stack := some (x.commanded :: st.take 3), commanded := clamp (x.commanded - height) cd.lo cd.hi } ∧
    (st = [] → x.recall = x) ∧
    (∀ top rest, st = top :: rest →
      x.recall = { x with stack := some rest, commanded := top, offset := 0, taken := some true }) ∧
    (x.lift cd height).recall.commanded = x.commanded ∧ (x.lift cd height).recall.stack = some (st.take 3)

/-- Mode requests (R94 to R97). OFF in OFF changes nothing; from any other state it forces the output to 0 with coils,
flags, open run, HELD cause and resume window gone and the waiting check withdrawn. MANUAL needs a CLEAR latch, changes
nothing in MANUAL, keeps the output and the waiting check, and takes flags, HELD cause and resume window away. AUTO from
OFF, MANUAL or FAULT needs a CLEAR latch and a reference, which a BELT channel does without; it keeps output and waiting
check, clears flags and switch offset and removes REF_LOST; in AUTO and HELD it changes nothing. Leaving FAULT removes
the coil fault and its code and sets the open run to 0. Each entry marks STATUS, and of the conveyor goes no more than
channel A's leaving AUTO takes (R128). A refused request, one outside RUNNING or after a clash, another code, and one at
a channel of role NONE change nothing. A MODE_REQUEST sample of the station's side or instance 3 whose new serial is
taken by sequence hands its code to channel A and then to channel B (R16); the acted serial again, an entry without one,
a creation, with room or by eviction (R10), a resync and the third stale judgement (R9, R11, R13) record the serial and
hand nothing over; its value is serial × 256 + code, read before the plausible clamp (assumption 16). -/
def Obligations.ModeRequests : Prop :=
  (∀ (s : State) (st : Settings) (c : ChannelId) (code : Byte),
    let ch := s.channel c
    let openRun := if ch.state = .fault then 0 else ch.openRun
    (s.station ≠ .running ∨ s.line.bus = .mutedClash ∨ (st.channel c).role = .none → s.modeRequest st c code = s) ∧
    (s.station = .running → s.line.bus ≠ .mutedClash → (st.channel c).role ≠ .none →
      (ch.state = .off → s.modeRequest st c 0 = s) ∧
      (ch.state ≠ .off → s.Enters c
        { ch.forced with state := .off, cause := none, fault := none, resumeTimer := none } none (s.faultsWithoutCoil c)
        (s.modeRequest st c 0)) ∧
      (s.latch ≠ none ∨ ch.state = .manual → s.modeRequest st c 1 = s) ∧
      (s.latch = none → ch.state ≠ .manual → s.Enters c
        { ch with
          state := .manual, cause := none, sat := .none, inDeadband := false, resumeTimer := none, fault := none
          openRun := openRun } (s.converter.request c) (s.faultsWithoutCoil c) (s.modeRequest st c 1)) ∧
      (s.latch ≠ none ∨ ch.state = .auto ∨ ch.state = .held ∨ s.hasReference (st.channel c) = false →
        s.modeRequest st c 2 = s) ∧
      (s.latch = none → s.hasReference (st.channel c) = true →
        ch.state = .off ∨ ch.state = .manual ∨ ch.state = .fault → s.Enters c
        { ch with
          state := .auto, sat := .none, inDeadband := false, fault := none, openRun := openRun
          target := ch.target.map fun x => { x with offset := 0 } } (s.converter.request c)
        ((s.faultsWithoutCoil c).filter (· != refLostCode c)) (s.modeRequest st c 2)) ∧
      (2 < code.toNat → s.modeRequest st c code = s))) ∧
  (∀ (s : State) (cd : ChannelDef), s.hasReference cd = true ↔ cd.role = .belt ∨ s.activeGroup cd.refs ≠ none) ∧
  ∀ (s : State) (source : BitVec 4) (r : RawSample) (st : Settings) (d : QuantityDef) (q : Quality)
    (serial : BitVec 7) (code : Byte),
    s.admits source r st d → RawSample.effective r = (q, some (serial.toNat * 256 + code.toNat : Int)) →
    r.inst = st.side.inst ∨ r.inst = 3 → r.code = Config.modeRequest →
    let taken := { s with table := (s.acceptSample source r).table }
    let recorded := ∃ u, (s.acceptSample source r).table.find (r.keyFrom source) = some u ∧ u.acted = some serial
    let quiet := s.acceptSample source r = taken ∧ recorded
    (∀ e, s.table.find (r.keyFrom source) = some e → e.state = .vacant ∨ e.state = .expired → quiet) ∧
    (s.table.find (r.keyFrom source) = none → st.wants (r.keyFrom source) = true → s.hasPlace → quiet) ∧
    ∀ (e : Entry) (last : Byte), s.table.find (r.keyFrom source) = some e → e.state = .fresh ∨ e.state = .aged →
      e.lastSeq = some last →
      (128 ≤ sequenceDistance r last → e.staleRun = some 2 → quiet) ∧
      (1 ≤ sequenceDistance r last → sequenceDistance r last ≤ 127 →
        (e.acted = none ∨ e.acted = some serial → quiet) ∧
        ∀ acted, e.acted = some acted → acted ≠ serial →
          s.acceptSample source r = (taken.modeRequest st .a code).modeRequest st .b code ∧ recorded)

/-! ### The hold latch -/

/-- A HALT of another station (R98, R137, R141): in LISTENING and RUNNING a CLEAR latch takes its cause, source and
detail; MANUAL, AUTO and REF_LOST channels go to HELD with cause LATCH at rest, their waiting checks withdrawn, others
stay, and of the conveyor only what channel A's leaving AUTO takes (R128) goes; nothing is sent for it. A LATCHED
latch, and a station elsewhere, changes nothing. -/
def Obligations.HaltFramesLatch : Prop :=
  ∀ (s : State) (t : Nat) (source cause detail : Byte), s.hears source → s.unwatched (haltWire source cause detail) →
    (¬ s.atWork ∨ s.latch ≠ none → exec (.haltFrame t source cause detail) s = .next (s.heard t)) ∧
    (s.atWork → s.latch = none →
      ∃ u, exec (.haltFrame t source cause detail) s = .next u ∧ u.latch = some ⟨cause, stationOf source, detail⟩ ∧
        s.ChannelsHalt u ∧
        s.KeepsConveyor u ∧
        u = { s.heard t with
          latch := u.latch, chanA := u.chanA, chanB := u.chanB, conveyor := u.conveyor
          converter := { s.converter with requestA := u.converter.requestA, requestB := u.converter.requestB }
          line := (s.heard t).line.statusMarked })

/-- R142: a RELEASE from the release set clears a LATCHED latch, discards a pending HALT, removes BELT_STALL, marks
STATUS and moves HELD LATCH channels to MANUAL at output 0, other channels standing (R137); a persisting cause latches
again at once with a HALT of its own. A RELEASE from elsewhere, or on a CLEAR latch, or outside LISTENING and RUNNING,
changes nothing. The persisting cause active now (R140) is HALT_INPUT, code 1 with the input as detail, while the halt
button's debounced level is high; else CHAMBER_FULL, code 2 with the alarm level clamped to 0..255 (R132), while
chamber full is set; else there is none. -/
def Obligations.ReleaseFramesClearTheLatch : Prop :=
  (∀ (s : State) (t : Nat) (source : Byte) (st : Settings), s.hears source → s.settings = some st →
    s.unwatched (releaseWire source) →
    (¬ s.atWork ∨ stationOf source = 0 ∨ st.release.getLsbD (stationOf source).toNat = false ∨ s.latch = none →
      exec (.releaseFrame t source) s = .next (s.heard t)) ∧
    (s.atWork → stationOf source ≠ 0 → st.release.getLsbD (stationOf source).toNat = true → s.latch ≠ none →
      ∃ u, exec (.releaseFrame t source) s = .next u ∧ u.faults = s.faults.filter (· != .beltStall) ∧
        u.line.control.status = true ∧
        u.table = s.table ∧ u.groups = s.groups ∧ s.KeepsConveyor u ∧
        (s.persistingCause = none → s.ChannelsResume u ∧ u = { s.heard t with
          latch := none, chanA := u.chanA, chanB := u.chanB, faults := u.faults
          line := { (s.heard t).line with
            control := { s.line.control with halt := none, status := true }, flight := s.line.flightWithout true false } }) ∧
        ∀ cause detail, s.persistingCause = some (cause, detail) →
          u.latch = some ⟨cause, s.number, detail⟩ ∧ u.line = Line.halting { (s.heard t).line with
            control := { s.line.control with halt := none }, flight := s.line.flightWithout true false } cause detail ∧
          ∀ c, (s.channel c).state = .held → (s.channel c).cause = some .latch →
            (u.channel c).state = .held ∧ (u.channel c).cause = some .latch ∧ (u.channel c).AtRest)) ∧
  ∀ s : State, (s.settings = none → s.persistingCause = none) ∧ ∀ st, s.settings = some st →
    (∀ i : Fin 6, st.functions[i] = .haltButton → (∀ j : Fin 6, j < i → st.functions[j] ≠ .haltButton) →
      s.inputs[i].level = true → s.persistingCause = some (1, BitVec.ofNat 8 i.val)) ∧
    ((∀ i : Fin 6, st.functions[i] = .haltButton → s.inputs[i].level = false) →
      (∀ k cv, s.conveyor = some k → st.conveyor = some cv → k.full = true →
        s.persistingCause = some (2, BitVec.ofInt 8 (clamp cv.alarm 0 255))) ∧
      ((∀ k, s.conveyor = some k → k.full = false) → s.persistingCause = none))

/-! ### Service commands and the image store -/

/-- A SERVICE command that nothing refuses (R172 to R176): READ_ROW answers with the row's sixteen bytes and LOCK sets
the lock cell, both at the arrival; WRITE_ROW, ERASE_ROW, ERASE_ALL and BLANK_CHECK make the store BUSY for 3, 20, 60
and 2 ms, with nothing answered yet. WRITE_ROW writes the sixteen bytes into the named row and no other byte; the
other three move no byte yet. -/
def Obligations.ServiceCommandsArePerformed : Prop :=
  (∀ (s : State) (t : Nat) (h : ServiceHeader), s.hears h.source → s.takesService h → s.store.op = none →
    (h.row.toNat < 64 → exec (.readRow t h) s =
      .next ((s.heard t).placeReply ⟨0, h.row, (List.range 16).map fun i =>
        Memory.read s.store.cells (16 * h.row.toNat + i)⟩)) ∧
    exec (.lock t h) s =
      .next { (s.heard t).placeReply ⟨0, h.row, []⟩ with store := { s.store with locked := true } }) ∧
  (∀ (s : State) (t : Nat) (h : ServiceHeader), s.hears h.source → s.takesService h → s.store.op = none →
    (∀ data : Row, h.row.toNat < 64 → s.store.locked = false → Memory.rowBlank s.store.cells h.row.toNat = true →
      ∃ u, exec (.writeRow t h data) s = .next u ∧ u.store.locked = s.store.locked ∧
        u.store.op = some ⟨.writeRow data.toList, h.row, after (s.tick t).clock 3⟩ ∧
        (Memory.wf s.store.cells → ∀ a, Memory.read u.store.cells a =
          if 16 * h.row.toNat ≤ a ∧ a < 16 * h.row.toNat + 16
          then data.toList[a - 16 * h.row.toNat]?.getD 0xFF else Memory.read s.store.cells a) ∧
        u = { s.heard t with store := u.store }) ∧
    (h.row.toNat < 64 → s.store.locked = false →
      exec (.eraseRow t h) s = .next { s.heard t with store := { s.store with
        op := some ⟨.eraseRow, h.row, after (s.tick t).clock 20⟩ } }) ∧
    exec (.eraseAll t h) s = .next { s.heard t with store := { s.store with
      op := some ⟨.eraseAll, h.row, after (s.tick t).clock 60⟩ } } ∧
    (h.row.toNat < 64 →
      exec (.blankCheck t h) s = .next { s.heard t with store := { s.store with
        op := some ⟨.blankCheck, h.row, after (s.tick t).clock 2⟩ } }))

/-- The refusals of a taken SERVICE frame in their order (R172, R173): BUSY, BAD_COMMAND, BAD_ROW, LOCKED, NOT_BLANK;
and a frame for another station, or for a station not in COMMISSIONING, is not taken. In LISTENING and RUNNING a
SERVICE frame meets the frame watches and goes nowhere else (R157; that they test it there is assumption 14). -/
def Obligations.ServiceRefusalsInOrder : Prop :=
  ∀ (s : State) (t : Nat) (h : ServiceHeader) (data : Row) (x : Straps) (code : Byte) (more : Option Row),
    s.hears h.source → badCommand code more = true →
    let refuses (c : Instr) (status : Byte) := exec c s = .next ((s.heard t).placeReply ⟨status, h.row, []⟩)
    let all : List Instr := [.readRow t h, .writeRow t h data, .eraseRow t h, .eraseAll t h, .blankCheck t h, .lock t h,
      .restart t h x, .serviceBadCommand t h code more]
    (s.takesService h →
      (s.store.op ≠ none → ∀ c ∈ all, refuses c 1) ∧
      (s.store.op = none →
        refuses (.serviceBadCommand t h code more) 6 ∧
        (63 < h.row.toNat → refuses (.readRow t h) 5 ∧ refuses (.writeRow t h data) 5 ∧ refuses (.eraseRow t h) 5 ∧
          refuses (.blankCheck t h) 5) ∧
        (h.row.toNat ≤ 63 → s.store.locked = true → refuses (.writeRow t h data) 2 ∧ refuses (.eraseRow t h) 2) ∧
        (h.row.toNat ≤ 63 → s.store.locked = false → Memory.rowBlank s.store.cells h.row.toNat = false →
          refuses (.writeRow t h data) 3))) ∧
    (¬ s.takesService h → ¬ s.atWork → ∀ c ∈ all, exec c s = .next (s.heard t)) ∧
    let framed : List (Instr × WireFrame) := [(.readRow t h, serviceWire h 1 []), (.writeRow t h data, serviceWire h 2 data.toList),
      (.eraseRow t h, serviceWire h 3 []), (.eraseAll t h, serviceWire h 4 []), (.blankCheck t h, serviceWire h 5 []),
      (.lock t h, serviceWire h 6 []), (.restart t h x, serviceWire h 7 []),
      (.serviceBadCommand t h code more, serviceWire h code (rowBytes more))]
    s.atWork → ∀ p ∈ framed, exec p.1 s = .next ((s.heard t).runWatches p.2) ∧
      (s.unwatched p.2 → exec p.1 s = .next (s.heard t))

/-- The completions (R174 to R176). WRITE_ROW: the row holds the bytes read back, every other byte stands, and the
reply compares them with the data (that the read-back is the event's operand is assumption 22). ERASE_ROW: the row
reads 0xFF and no other byte moves. ERASE_ALL erases every byte and unlocks. BLANK_CHECK reports and changes nothing.
The store is IDLE and the reply is placed. -/
def Obligations.StoreOperationsComplete : Prop :=
  (∀ (s : State) (t : Nat) (readBack : Row) (op : StoreOp) (data : List Byte), s.store.op = some op →
    op.command = .writeRow data → s.due t (some op.done) op.done → Memory.wf s.store.cells →
    ∃ u, exec (.writeRowComplete t readBack) s = .next u ∧ u.store.op = none ∧ u.store.locked = s.store.locked ∧
      (∀ a, Memory.read u.store.cells a = if 16 * op.row.toNat ≤ a ∧ a < 16 * op.row.toNat + 16
        then readBack.toList[a - 16 * op.row.toNat]?.getD 0xFF else Memory.read s.store.cells a) ∧
      u.line.control.reply = some (if readBack.toList = data then ⟨0, op.row, []⟩ else ⟨4, op.row, readBack.toList⟩) ∧
      u = { (s.tick t).placeReply (if readBack.toList = data then ⟨0, op.row, []⟩ else ⟨4, op.row, readBack.toList⟩) with
        store := u.store }) ∧
  (∀ (s : State) (t : Nat) (op : StoreOp), s.store.op = some op → s.due t (some op.done) op.done →
    Memory.wf s.store.cells →
    (op.command = .eraseRow → ∃ u, exec (.eraseRowComplete t) s = .next u ∧ u.store.op = none ∧
      u.store.locked = s.store.locked ∧
      (∀ a, Memory.read u.store.cells a = if 16 * op.row.toNat ≤ a ∧ a < 16 * op.row.toNat + 16 then 0xFF
        else Memory.read s.store.cells a) ∧
      u.line.control = { s.line.control with reply := some ⟨0, op.row, []⟩ } ∧
      u = { s.tick t with store := u.store, line := { s.line with control := u.line.control } }) ∧
    (op.command = .eraseAll → exec (.eraseAllComplete t) s =
      .next { (s.tick t).placeReply ⟨0, op.row, []⟩ with store := ⟨[], false, none⟩ }) ∧
    (op.command = .blankCheck → exec (.blankCheckComplete t) s =
      .next { (s.tick t).placeReply ⟨if Memory.rowBlank s.store.cells op.row.toNat then 7 else 3, op.row, []⟩ with
        store := { s.store with op := none } }))

/-! ### Ageing, groups -/

/-- The ages of an entry (R18): FRESH becomes AGED when its age exceeds the fresh limit, AGED becomes EXPIRED when it
exceeds the expiry limit, the moment kept as expired-since; at the limit itself nothing happens; value, quality and
every other entry stand. -/
def Obligations.EntriesAge : Prop :=
  ∀ (s : State) (t : Nat) (st : Settings) (k : Key) (e : Entry) (d : QuantityDef) (arrival : Clock), s.runs →
    s.settings = some st → s.table.find k = some e → st.quantity k.code = some d → e.arrival = some arrival →
    (e.state = .fresh → d.fresh < since (s.tick t).clock arrival →
      ∃ u, exec (.freshToAged t k) s = .next u ∧ u.table.find k = some { e with state := .aged } ∧
        (∀ j, j ≠ k → u.table.find j = s.table.find j) ∧ u.table.refusals = s.table.refusals ∧
        u.table.gaps = s.table.gaps ∧ u = { s.tick t with table := u.table }) ∧
    (e.state = .fresh → since (s.tick t).clock arrival ≤ d.fresh →
      ∃ u, exec (.freshToAged t k) s = .next u ∧ ∀ j, u.table.find j = s.table.find j) ∧
    (e.state = .aged → d.expiry < since (s.tick t).clock arrival →
      ∃ u, exec (.agedToExpired t k) s = .next u ∧
        u.table.find k = some { e with state := .expired, expiredSince := some (s.tick t).clock } ∧
        (∀ j, j ≠ k → u.table.find j = s.table.find j) ∧ u.table.refusals = s.table.refusals ∧
        u.table.gaps = s.table.gaps ∧ u = { s.tick t with table := u.table }) ∧
    (e.state = .aged → since (s.tick t).clock arrival ≤ d.expiry →
      ∃ u, exec (.agedToExpired t k) s = .next u ∧ ∀ j, u.table.find j = s.table.find j)

/-- A group's evaluation (R28, R37 to R39): a valid result replaces the record and is delivered to the result entry
under its quality; an INVALID one keeps the record's value and delivers FAILED without a value if there was one
before, else nothing; the timer runs on from its own expiry. The result is the MEAN's, or the SLOPE's (R34 to R36):
BASE claims its first usable entry in key order and SLOPE its first other one; without both there is no result, with
both it is the base term plus the rounded rise over the arm, clamped, and SUSPECT where an entry is SUSPECT or AGED or
a clamp changed something. -/
def Obligations.GroupEvaluationRecordsAndDelivers : Prop :=
  (∀ (s : State) (t : Nat) (n : Fin 4) (st : Settings) (g : GroupDef) (run : GroupRun) (expiry : Clock) (x : Entry)
    (d : QuantityDef), s.settings = some st → st.groups[n] = some g → s.groups[n] = some run →
    s.due t run.timer expiry → s.table.find (g.key s.number st.side) = some x →
    st.quantity (g.key s.number st.side).code = some d →
    ∃ u, exec (.groupEvaluation t n) s = .next u ∧ u = { s.tick t with groups := u.groups, table := u.table } ∧
      (∀ m : Fin 4, m ≠ n → u.groups[m] = s.groups[m]) ∧
      (∀ k, k ≠ g.key s.number st.side → u.table.find k = s.table.find k) ∧
      (∀ v q, g.evaluate (g.key s.number st.side) s.table.entries = some (v, q) →
        u.groups[n] = some ⟨⟨.evaluated, some q, some v⟩, some (after expiry g.period)⟩ ∧
        u.table.find (g.key s.number st.side) = some (x.take d q.delivered (some v) (s.tick t).clock)) ∧
      (g.evaluate (g.key s.number st.side) s.table.entries = none →
        u.groups[n] = some ⟨⟨.evaluated, some .invalid, run.record.value⟩, some (after expiry g.period)⟩ ∧
        u.table.find (g.key s.number st.side) = some
          (if run.record.value.isSome then x.take d .failed none (s.tick t).clock else x))) ∧
  (∀ (g : GroupDef) (own : Key) (entries : List Entry), g.mode = .mean → g.evaluate own entries = g.mean own entries) ∧
  ∀ (g : GroupDef) (own : Key) (entries : List Entry) (base slope : Pattern), g.mode = .slope →
    g.patterns = [base, slope] → g.minimum ≤ 2 → entries.Pairwise (fun x y => keyRank x.key < keyRank y.key) →
    let usable (p : Pattern) (e : Entry) (v : Int) := e ∈ entries ∧ p.fits e.key = true ∧ e.key ≠ own ∧ e.value = some v ∧
      (e.state = .fresh ∨ (e.state = .aged ∧ g.acceptAged = true)) ∧
      (e.quality = some .good ∨ e.quality = some .held ∨ e.quality = some .suspect)
    let marks (e : Entry) := e.quality = some .suspect ∨ e.state = .aged
    ((∀ e v, ¬ usable base e v) → g.evaluate own entries = none) ∧
    ∀ b vb, usable base b vb → (∀ e v, usable base e v → keyRank b.key ≤ keyRank e.key) →
      ((∀ e v, usable slope e v → e.key = b.key) → g.evaluate own entries = none) ∧
      ∀ x vx, usable slope x vx → x.key ≠ b.key →
        (∀ e v, usable slope e v → e.key ≠ b.key → keyRank x.key ≤ keyRank e.key) →
        let tb := clamp (vb + base.offset) (-32767) 32767
        let tx := clamp (vx + slope.offset) (-32767) 32767
        let exact := tb + roundDiv (tx * g.arm) 10000
        let result := clamp exact (-32767) 32767
        (marks b ∨ marks x ∨ tb ≠ vb + base.offset ∨ tx ≠ vx + slope.offset ∨ result ≠ exact →
          g.evaluate own entries = some (result, .suspect)) ∧
        (¬ (marks b ∨ marks x ∨ tb ≠ vb + base.offset ∨ tx ≠ vx + slope.offset ∨ result ≠ exact) →
          g.evaluate own entries = some (result, .good))

/-- The contributions of a MEAN group (R26, R30, R31): at most six, no key twice, each from an entry that its pattern
matches, that is FRESH, or AGED where the group accepts it, of quality GOOD, HELD or SUSPECT with a value, and that is
not the group's own result entry; and every such entry that a pattern matches contributes under that pattern or an
earlier one, unless six that come before it, by pattern and then by key, contribute already. The result is INVALID
exactly when a required pattern has claimed nothing or the contributions are fewer than the minimum (R32). A valid one
is the rounded weighted mean of the terms, lies between the least and the greatest of them (R33), and is SUSPECT
exactly when a contribution is SUSPECT or AGED or the clamp changed a term (R36). -/
def Obligations.MeanIsOfUsableEntriesAndBetweenTerms : Prop :=
  (∀ (g : GroupDef) (own : Key) (entries : List Entry),
    (g.meanClaims own entries).length ≤ 6 ∧ ((g.meanClaims own entries).map Claim.key).Nodup ∧
    ∀ c ∈ g.meanClaims own entries, ∃ e ∈ entries, ∃ p, g.patterns[c.pattern]? = some p ∧ c.key = e.key ∧ e.key ≠ own ∧
      p.fits e.key = true ∧
      (e.state = .fresh ∨ (e.state = .aged ∧ g.acceptAged = true)) ∧
      (e.quality = some .good ∨ e.quality = some .held ∨ e.quality = some .suspect) ∧ e.value = some c.value ∧
      c.weight = p.weight ∧ c.offset = p.offset ∧ (c.doubtful = true ↔ e.quality = some .suspect ∨ e.state = .aged)) ∧
  (∀ (g : GroupDef) (own : Key) (entries : List Entry) (i : Nat) (p : Pattern) (e : Entry) (v : Int),
    entries.Pairwise (fun x y => keyRank x.key < keyRank y.key) → g.patterns[i]? = some p → e ∈ entries →
    p.fits e.key = true → e.key ≠ own → e.value = some v →
    e.state = .fresh ∨ (e.state = .aged ∧ g.acceptAged = true) →
    e.quality = some .good ∨ e.quality = some .held ∨ e.quality = some .suspect →
    (∃ c ∈ g.meanClaims own entries, c.key = e.key ∧ c.pattern ≤ i) ∨
      ((g.meanClaims own entries).length = 6 ∧
        ∀ c ∈ g.meanClaims own entries, c.pattern < i ∨ (c.pattern = i ∧ keyRank c.key < keyRank e.key))) ∧
  (∀ (g : GroupDef) (own : Key) (entries : List Entry), g.mean own entries = none ↔
    (∃ i p, g.patterns[i]? = some p ∧ p.required = true ∧ ∀ c ∈ g.meanClaims own entries, c.pattern ≠ i) ∨
      (g.meanClaims own entries).length < g.minimum) ∧
  (∀ (g : GroupDef) (own : Key) (entries : List Entry) (v : Int) (q : ResultQuality), g.mean own entries = some (v, q) →
    q = if ∃ c ∈ g.meanClaims own entries, c.doubtful = true ∨ clamp (c.value + c.offset) (-32767) 32767 ≠ c.value + c.offset
      then .suspect else .good) ∧
  (∀ (g : GroupDef) (own : Key) (entries : List Entry) (v : Int) (q : ResultQuality), 1 ≤ g.minimum →
    (∀ p ∈ g.patterns, 1 ≤ p.weight) → g.mean own entries = some (v, q) →
    v = roundDiv ((g.meanClaims own entries).map fun c => (c.weight : Int) * clamp (c.value + c.offset) (-32767) 32767).sum
      ((g.meanClaims own entries).map fun c => (c.weight : Int)).sum ∧
    (∃ c ∈ g.meanClaims own entries, clamp (c.value + c.offset) (-32767) 32767 ≤ v) ∧
    ∃ c ∈ g.meanClaims own entries, v ≤ clamp (c.value + c.offset) (-32767) 32767)

/-! ### Local acquisition -/

/-- The scan timer and the overrun clear timer (R48, R51): a scan starts and, on an idle converter, its first
conversion; a scan still in flight is left alone, SCAN_OVERRUN is added, STATUS marked where it was absent (R149,
R151), and the clear timer set anew to 1000 ms; its expiry removes the fault. -/
def Obligations.ScansStartAndOverrun : Prop :=
  (∀ (s : State) (t : Nat) (st : Settings) (expiry : Clock), s.settings = some st → s.due t s.converter.scanTimer expiry →
    s.converter.scan = none →
    exec (.scanStart t) s = .next { s.tick t with converter := { s.converter with
      scan := some []
      scanTimer := some (after expiry st.scanPeriod)
      running := if s.converter.running = none then some ⟨.scan, max s.now t⟩ else s.converter.running } }) ∧
  (∀ (s : State) (t : Nat) (st : Settings) (expiry : Clock) (codes : List Nat), s.settings = some st →
    s.due t s.converter.scanTimer expiry → s.converter.scan = some codes →
    ∃ u, exec (.scanStart t) s = .next u ∧
      u.faults = (if .scanOverrun ∈ s.faults then s.faults else s.faults ++ [.scanOverrun]) ∧
      u.converter = { s.converter with
        scanTimer := some (after expiry st.scanPeriod), overrunTimer := some (after (s.tick t).clock 1000) } ∧
      s.MarksFaults u ∧ u = { s.tick t with converter := u.converter, faults := u.faults, line := u.line }) ∧
  (∀ (s : State) (t : Nat) (expiry : Clock), s.due t s.converter.overrunTimer expiry → .scanOverrun ∈ s.faults →
    exec (.overrunClear t) s = .next { s.tick t with
      converter := { s.converter with overrunTimer := none }
      faults := s.faults.filter (· != .scanOverrun)
      line := { s.line with control := { s.line.control with status := true } } })

/-- A scan's conversion completes after 25 µs (R47, R48, R50): before the last position its code joins the scan and
the arbiter goes on with channel A's check, channel B's check, or the next position. The last position completes the
scan, the arbiter going on with a waiting check or standing idle and both timers running on, and (R52 to R55) every
ANALOG source, each with a key of its own, delivers once, its raw the rounded mean of the codes at its positions:
outside 40..4055 it delivers FAILED without a value and its smoothing ends, else it keeps the scaled and smoothed
value and delivers it GOOD; every other entry stands. -/
def Obligations.ScanConversionsComplete : Prop :=
  (∀ (s : State) (t began : Nat) (raw : BitVec 12) (st : Settings) (codes : List Nat), s.runs → s.settings = some st →
    s.converter.running = some ⟨.scan, began⟩ → began + 25 ≤ max s.now t → s.converter.scan = some codes →
    codes.length + 1 < st.scanList.length →
    exec (.conversionComplete t raw) s = .next { s.tick t with converter := { s.converter with
      scan := some (codes ++ [raw.toNat])
      running := match s.converter.requestA, s.converter.requestB with
        | some target, _ => some ⟨.check .a target, max s.now t⟩
        | none, some target => some ⟨.check .b target, max s.now t⟩
        | none, none => some ⟨.scan, max s.now t⟩
      requestA := none
      requestB := if s.converter.requestA.isSome then s.converter.requestB else none } }) ∧
  (∀ (s : State) (t began : Nat) (raw : BitVec 12) (st : Settings) (codes : List Nat), s.runs → s.settings = some st →
    s.converter.running = some ⟨.scan, began⟩ → began + 25 ≤ max s.now t → s.converter.scan = some codes →
    codes.length + 1 = st.scanList.length → s.smoothing.length = st.sources.length →
    (st.sources.map fun x => x.key s.number).Nodup →
    ∃ u, exec (.conversionComplete t raw) s = .next u ∧
      u.converter = ({ s.converter with scan := none } : Converter).arbitrated st.scanList.length (max s.now t) ∧
      u = { s.tick t with converter := u.converter, smoothing := u.smoothing, table := u.table } ∧
      (∀ (i : Nat) (x : SourceDef), st.sources[i]? = some x → (∀ positions, x.kind ≠ .analog positions) →
        u.smoothing[i]? = s.smoothing[i]?) ∧
      (∀ k, (∀ x ∈ st.sources, ∀ positions, x.kind = .analog positions → x.key s.number ≠ k) →
        u.table.find k = s.table.find k) ∧
      ∀ (i : Nat) (x : SourceDef) (positions : List Nat) (e : Entry) (d : QuantityDef), st.sources[i]? = some x →
        x.kind = .analog positions → s.table.find (x.key s.number) = some e → st.quantity x.code = some d →
        let value := roundDiv (positions.map fun p => (((codes ++ [raw.toNat])[p]?.getD 0 : Nat) : Int)).sum positions.length
        let y := x.smooth (s.smoothed i) (clampValue (roundDiv (value * x.gain) 4096 + x.offset))
        (value < 40 ∨ 4055 < value → u.smoothing[i]? = some none ∧
          u.table.find (x.key s.number) = some (e.take d .failed none (s.tick t).clock)) ∧
        (40 ≤ value → value ≤ 4055 → u.smoothing[i]? = some (some y) ∧
          u.table.find (x.key s.number) = some (e.take d .good (some y) (s.tick t).clock))) ∧
  ∀ (x : SourceDef) (v : Int), x.smooth none v = v ∧ ∀ y, x.smooth (some y) v = y + roundDiv (v - y) (2 ^ x.shift)

/-- A coil check's result (R110 to R112), of a channel in MANUAL or AUTO with an output: above 150 % of the target or
2600 mA a short, below 25 % open, the third open in a row a fault; a fault moves the channel to FAULT at rest,
withdraws its waiting check, adds its code and marks STATUS, and takes from the conveyor what channel A's leaving AUTO
takes (R128); a sound current ends the open run; without an output the result is discarded. The arbiter goes on (R50).
-/
def Obligations.CoilChecksAreJudged : Prop :=
  ∀ (s : State) (t began : Nat) (raw : BitVec 12) (st : Settings) (c : ChannelId) (target : Int), s.runs →
    s.settings = some st → s.converter.running = some ⟨.check c target, began⟩ → began + 25 ≤ max s.now t →
    let measured := roundDiv (raw.toNat * 3000) 4095
    let driven := ((s.channel c).state = .manual ∨ (s.channel c).state = .auto) ∧ (s.channel c).out ≠ 0
    let judged (ch : Channel) (faults : List FaultCode) (converter : Converter) (line : Line) := ∃ u,
      exec (.conversionComplete t raw) s = .next u ∧ s.KeepsConveyor u ∧ u = { (s.tick t).setChannel c ch with
        converter := converter.arbitrated st.scanList.length (max s.now t)
        faults := faults, line := line, conveyor := u.conveyor }
    let faulted (f : CoilFault) := judged
      { (s.channel c).forced with state := .fault, cause := none, fault := some f, resumeTimer := none }
      (if coilCode c f ∈ s.faults then s.faults else s.faults ++ [coilCode c f]) (s.converter.withRequest c none)
      s.line.statusMarked
    (¬ driven → judged (s.channel c) s.faults s.converter s.line) ∧
    (driven → 3 * target < 2 * measured ∨ 2600 < measured → faulted .coilShort) ∧
    (driven → 2 * measured ≤ 3 * target → measured ≤ 2600 → 4 * measured < target → 2 ≤ (s.channel c).openRun →
      faulted .coilOpen) ∧
    (driven → 2 * measured ≤ 3 * target → measured ≤ 2600 → 4 * measured < target → (s.channel c).openRun < 2 →
      judged { s.channel c with openRun := (s.channel c).openRun + 1 } s.faults s.converter s.line) ∧
    (driven → 2 * measured ≤ 3 * target → measured ≤ 2600 → target ≤ 4 * measured →
      judged { s.channel c with openRun := 0 } s.faults s.converter s.line)

/-- R57: a reply completed while SYNCING is discarded unjudged, whatever its bytes; the port is TRACKING with error
run 0, the buffer and the faults stand. -/
def Obligations.RepliesWhileSyncingAreDiscarded : Prop :=
  ∀ (s : State) (t : Nat) (x : SerialExchange) (status high low check : Byte), s.runs → s.port.state = .syncing →
    s.port.exchange = some x → x.began + 64 ≤ max s.now t →
    exec (.serialExchangeComplete t status high low check) s = .next { s.tick t with port := { s.port with
      exchange := none, state := .tracking, errorRun := 0 } }

/-- An exchange begins at each expiry of its timer and sends 0x01, 0x00, 0x00, 0x00, most significant bit first at 500
kHz while SSEL is active (R56). A reply while TRACKING (R58, R59): a good check with status 0 or 1 gives an outcome
that an empty buffer takes, ends the error run and removes PORT_LOST; anything else is an error, and the third in a
row places LOST, adds PORT_LOST and returns the port to SYNCING. A change of the fault collection marks STATUS and no
other of these does (R149, R151). -/
def Obligations.SerialExchanges : Prop :=
  (∀ (s : State) (t i : Nat) (st : Settings) (x : SourceDef) (take period : Nat) (expiry : Clock), s.settings = some st →
    st.serialSource = some (i, x, take, period) → s.due t s.port.exchangeTimer expiry →
    exec (.serialExchangeBegin t) s = .next { s.tick t with port := { s.port with
      exchange := some ⟨max s.now t, [1, 0, 0, 0]⟩, exchangeTimer := some (after expiry period) } }) ∧
  (∀ (p : SerialPort), (p.selected = true ↔ p.exchange ≠ none) ∧ (p.exchange = none → ∀ now, p.sdo now = none) ∧
    ∀ began, p.exchange = some ⟨began, [1, 0, 0, 0]⟩ → ∀ now, began ≤ now →
      p.sdo now = if now < began + 64 then some (decide (began + 14 ≤ now ∧ now < began + 16)) else none) ∧
  ∀ (s : State) (t : Nat) (x : SerialExchange) (status high low check : Byte), s.runs → s.port.state = .tracking →
    s.port.exchange = some x → x.began + 64 ≤ max s.now t →
    ∃ u, exec (.serialExchangeComplete t status high low check) s = .next u ∧
      s.MarksFaults u ∧ u = { s.tick t with port := u.port, faults := u.faults, line := u.line } ∧
      let sound := check = status ^^^ high ^^^ low ^^^ 0x5A
      (∀ o, (sound ∧ status = 0 ∧ o = .value (high ++ low).toInt) ∨ (sound ∧ status = 1 ∧ o = .notReady) →
        u.port = { s.port with
          exchange := none, errorRun := 0
          buffer := if s.port.buffer = none then some o else s.port.buffer } ∧
        u.faults = s.faults.filter (· != .portLost)) ∧
      (¬ (sound ∧ (status = 0 ∨ status = 1)) → s.port.errorRun < 2 →
        u.port = { s.port with exchange := none, errorRun := s.port.errorRun + 1 } ∧ u.faults = s.faults) ∧
      (¬ (sound ∧ (status = 0 ∨ status = 1)) → 2 ≤ s.port.errorRun →
        u.port = { s.port with
          exchange := none, errorRun := 0, state := .syncing
          buffer := if s.port.buffer = none then some .lost else s.port.buffer } ∧
        u.faults = if .portLost ∈ s.faults then s.faults else s.faults ++ [.portLost])

/-- The SERIAL source takes the buffer at each expiry of its take timer (R60): a VALUE is scaled, smoothed and
delivered GOOD, NOT_READY delivers the smoothed value as HELD if there is one, LOST delivers FAILED and ends the
smoothing, and an empty buffer delivers nothing. -/
def Obligations.SerialTakes : Prop :=
  ∀ (s : State) (t i : Nat) (st : Settings) (x : SourceDef) (take period : Nat) (expiry : Clock) (e : Entry)
    (d : QuantityDef), s.settings = some st → st.serialSource = some (i, x, take, period) →
    s.due t s.port.takeTimer expiry → s.table.find (x.key s.number) = some e → st.quantity x.code = some d →
    i < s.smoothing.length →
    ∃ u, exec (.serialTake t) s = .next u ∧
      u.port = { s.port with buffer := none, takeTimer := some (after expiry take) } ∧
      u = { s.tick t with port := u.port, smoothing := u.smoothing, table := u.table } ∧
      (∀ k, k ≠ x.key s.number → u.table.find k = s.table.find k) ∧
      (s.port.buffer = none → u.table = s.table ∧ u.smoothing = s.smoothing) ∧
      (∀ raw, s.port.buffer = some (.value raw) →
        let y := x.smooth (s.smoothed i) (clampValue (roundDiv (raw * x.gain) 4096 + x.offset))
        u.smoothing = s.smoothing.set i (some y) ∧
        u.table.find (x.key s.number) = some (e.take d .good (some y) (s.tick t).clock)) ∧
      (∀ y, s.port.buffer = some .notReady → s.smoothed i = some y → u.smoothing = s.smoothing ∧
        u.table.find (x.key s.number) = some (e.take d .held (some y) (s.tick t).clock)) ∧
      (s.port.buffer = some .notReady → s.smoothed i = none → u.table = s.table ∧ u.smoothing = s.smoothing) ∧
      (s.port.buffer = some .lost → u.smoothing = s.smoothing.set i none ∧
        u.table.find (x.key s.number) = some (e.take d .failed none (s.tick t).clock))

/-- A rising edge (R61): the first is accepted without a period, one within 50 µs of the last is a glitch and changes
nothing, any other records its period, the oldest of four dropping out; an accepted edge restarts the edge timer. The
timer's expiry stops the input (R62): ring empty, last edge and timer absent; the next edge is accepted without a
period; an edge taken before the expiry at the same moment restarts the timer, and the expiry is then gone. That so
the second edge after a stop records the first period is R61's row, not R62's aside (assumption 27). -/
def Obligations.PulseInputsCapture : Prop :=
  (∀ (s : State) (t i : Nat) (input : PulseInput) (st : Settings) (x : SourceDef) (constant timeout update : Nat), s.runs →
    s.settings = some st → st.pulseSource input = some (i, x, constant, timeout, update) →
    let p := s.pulse input
    let moment := BitVec.ofNat 32 (max s.now t)
    let expiry := after (s.tick t).clock timeout
    (p.lastEdge = none → exec (.pulseEdge t input) s = .next ((s.tick t).setPulse input { p with
      lastEdge := some moment, edgeTimer := some expiry })) ∧
    (∀ last, p.lastEdge = some last → (moment - last).toNat < 50 → exec (.pulseEdge t input) s = .next (s.tick t)) ∧
    (∀ last, p.lastEdge = some last → 50 ≤ (moment - last).toNat →
      exec (.pulseEdge t input) s = .next ((s.tick t).setPulse input { p with
        lastEdge := some moment
        ring := (if p.ring.length < 4 then p.ring else p.ring.drop 1) ++ [moment - last]
        edgeTimer := some expiry }))) ∧
  (∀ (s : State) (t i : Nat) (input : PulseInput) (st : Settings) (x : SourceDef) (constant timeout update : Nat)
    (expiry : Clock), s.settings = some st → st.pulseSource input = some (i, x, constant, timeout, update) →
    s.due t (s.pulse input).edgeTimer expiry →
    ∃ u, exec (.pulseStopped t input) s = .next u ∧
      u = (s.tick t).setPulse input { s.pulse input with lastEdge := none, ring := [], edgeTimer := none } ∧
      (∀ t', exec (.pulseEdge t' input) u = .next ((u.tick t').setPulse input { u.pulse input with
        lastEdge := some (BitVec.ofNat 32 (max u.now t')), ring := []
        edgeTimer := some (after (u.tick t').clock timeout) })) ∧
      ∀ last, (s.pulse input).lastEdge = some last → 50 ≤ (BitVec.ofNat 32 (max s.now t) - last).toNat → 0 < timeout →
        timeout < 2 ^ 31 → ∃ v, exec (.pulseEdge t input) s = .next v ∧
          (v.pulse input).edgeTimer = some (after (s.tick t).clock timeout) ∧
          (v.pulse input).ring = (if (s.pulse input).ring.length < 4 then (s.pulse input).ring
            else (s.pulse input).ring.drop 1) ++ [BitVec.ofNat 32 (max s.now t) - last] ∧
          exec (.pulseStopped t input) v = .next (v.tick t))

/-- A PULSE source's update (R63): the pulse constant over the rounded mean period, 0 for an empty ring, is scaled,
smoothed and delivered GOOD; the ring stands. -/
def Obligations.PulseSourcesDeliverTheSpeed : Prop :=
  ∀ (s : State) (t i : Nat) (input : PulseInput) (st : Settings) (x : SourceDef) (constant timeout period : Nat)
    (expiry : Clock) (e : Entry) (d : QuantityDef), s.settings = some st →
    st.pulseSource input = some (i, x, constant, timeout, period) → s.due t (s.pulse input).updateTimer expiry →
    s.table.find (x.key s.number) = some e → st.quantity x.code = some d → i < s.smoothing.length →
    let periods := (s.pulse input).ring.map fun p => (p.toNat : Int)
    let speed := if (s.pulse input).ring = [] then 0 else roundDiv constant (roundDiv periods.sum periods.length)
    let y := x.smooth (s.smoothed i) (clampValue (roundDiv (speed * x.gain) 4096 + x.offset))
    ∃ u, exec (.pulseUpdate t input) s = .next u ∧
      u.pulse input = { s.pulse input with updateTimer := some (after expiry period) } ∧
      u.smoothing = s.smoothing.set i (some y) ∧
      u.table.find (x.key s.number) = some (e.take d .good (some y) (s.tick t).clock) ∧
      (∀ k, k ≠ x.key s.number → u.table.find k = s.table.find k) ∧
      u = { (s.tick t).setPulse input (u.pulse input) with smoothing := u.smoothing, table := u.table }

/-! ### Discrete inputs and the panel -/

/-- A pin change (R64): a level other than the debounced one sets the timer to 20 ms, the debounced level again takes
it away; outside LISTENING and RUNNING the pin moves and no timer starts (R46). The timer's expiry (R64, R65, R139):
the debounced level becomes the pin's, the timer is gone; an input without a function hands nothing over, and the halt
button going high latches a CLEAR latch with HALT_INPUT, places the HALT and discards a pending RELEASE, the channels
going to HELD (R137, R138); under a LATCHED latch, and outside LISTENING and RUNNING, it changes nothing more (R136). A
release press (R143, R144) with no persisting cause active discards a pending HALT and places a RELEASE, and where it
clears the latch it removes BELT_STALL, marks STATUS and moves HELD LATCH channels to MANUAL at output 0, the others
standing (R137); with one active, and outside LISTENING and RUNNING, nothing happens, and the button's release hands
nothing over. -/
def Obligations.DiscreteInputsAreDebounced : Prop :=
  (∀ (s : State) (t : Nat) (i : Fin 6) (level : Bool), s.runs → s.inputs[i].pin ≠ level →
    (s.atWork → exec (.discretePinChange t i level) s = .next ((s.tick t).setInput i { s.inputs[i] with
      pin := level
      timer := if level = s.inputs[i].level then none else some (after (s.tick t).clock 20) })) ∧
    (¬ s.atWork → exec (.discretePinChange t i level) s = .next ((s.tick t).setInput i { s.inputs[i] with pin := level }))) ∧
  (∀ (s : State) (t : Nat) (i : Fin 6) (st : Settings) (expiry : Clock), s.settings = some st →
    s.due t s.inputs[i].timer expiry →
    (st.functions[i] = .none → exec (.debounceExpiry t i) s =
      .next ((s.tick t).setInput i ⟨s.inputs[i].pin, s.inputs[i].pin, none⟩)) ∧
    (st.functions[i] = .haltButton → s.inputs[i].pin = true → s.atWork → s.latch = none →
      ∃ u, exec (.debounceExpiry t i) s = .next u ∧ u.inputs[i] = ⟨true, true, none⟩ ∧
        u.latch = some ⟨1, s.number, BitVec.ofNat 8 i.val⟩ ∧ s.KeepsConveyor u ∧ s.ChannelsHalt u ∧
        u = { (s.tick t).setInput i u.inputs[i] with
          latch := u.latch, chanA := u.chanA, chanB := u.chanB, conveyor := u.conveyor
          converter := { s.converter with requestA := u.converter.requestA, requestB := u.converter.requestB }
          line := s.line.halting 1 (BitVec.ofNat 8 i.val) }) ∧
    (st.functions[i] = .haltButton → s.inputs[i].pin = true → ¬ s.atWork ∨ s.latch ≠ none →
      exec (.debounceExpiry t i) s = .next ((s.tick t).setInput i ⟨true, true, none⟩)) ∧
    (st.functions[i] = .haltButton → s.inputs[i].pin = false → exec (.debounceExpiry t i) s =
      .next ((s.tick t).setInput i ⟨false, false, none⟩))) ∧
  (∀ (s : State) (t : Nat) (i : Fin 6) (st : Settings) (expiry : Clock), s.settings = some st →
    s.due t s.inputs[i].timer expiry → st.functions[i] = .releaseButton →
    let released := (s.tick t).setInput i ⟨true, true, none⟩
    let line := { s.line with
      control := { s.line.control with halt := none, release := true }, flight := s.line.flightWithout true false }
    (s.inputs[i].pin = false → exec (.debounceExpiry t i) s = .next ((s.tick t).setInput i ⟨false, false, none⟩)) ∧
    (s.inputs[i].pin = true → s.atWork → s.persistingCause = none → s.latch = none →
      exec (.debounceExpiry t i) s = .next { released with line := line }) ∧
    (s.inputs[i].pin = true → s.atWork → s.persistingCause = none → s.latch ≠ none →
      ∃ u, exec (.debounceExpiry t i) s = .next u ∧ s.ChannelsResume u ∧ u = { released with
        latch := none, chanA := u.chanA, chanB := u.chanB, faults := s.faults.filter (· != .beltStall)
        line := line.statusMarked }) ∧
    (s.inputs[i].pin = true → ¬ s.atWork ∨ s.persistingCause ≠ none →
      exec (.debounceExpiry t i) s = .next released))

/-- Presses on a panel in RUNNING and the truck hold (R88 to R90): a step moves one side's target within the panel's
range, an action steps its serial modulo 128 and sets its code, the truck hold follows its level; each is delivered
GOOD to its own entry, and no other panel value moves. The truck hold follows both levels, in LISTENING and RUNNING
(R90); a panel press in LISTENING, and the release of any button, do nothing. The refresh (R87): at each expiry every
panel value is delivered GOOD to its entry, and no value moves. -/
def Obligations.PanelValuesAreSetAndDelivered : Prop :=
  (∀ (s : State) (t : Nat) (i : Fin 6) (st : Settings) (expiry : Clock) (d : PanelDef) (p : PanelValues),
    s.settings = some st → s.station = .running → s.due t s.inputs[i].timer expiry → st.panel = some d →
    s.panel = some p → s.inputs[i].pin = true →
    let sets (p' : PanelValues) (code : BitVec 6) (inst : BitVec 2) (v : Int) := ∃ u,
      exec (.debounceExpiry t i) s = .next u ∧ u.panel = some p' ∧ u.inputs[i] = ⟨true, true, none⟩ ∧
      (∀ k, k ≠ ⟨s.number, code, inst⟩ → u.table.find k = s.table.find k) ∧
      (∀ e q, s.table.find ⟨s.number, code, inst⟩ = some e → st.quantity code = some q →
        u.table.find ⟨s.number, code, inst⟩ = some (e.take q .good (some v) (s.tick t).clock)) ∧
      u = { s.tick t with panel := u.panel, inputs := u.inputs, table := u.table }
    (st.functions[i] = .stepUpL → sets { p with left := clamp (p.left - d.step) d.lo d.hi } Config.depthTarget 0
      (clamp (p.left - d.step) d.lo d.hi)) ∧
    (st.functions[i] = .stepDownL → sets { p with left := clamp (p.left + d.step) d.lo d.hi } Config.depthTarget 0
      (clamp (p.left + d.step) d.lo d.hi)) ∧
    (st.functions[i] = .stepUpR → sets { p with right := clamp (p.right - d.step) d.lo d.hi } Config.depthTarget 1
      (clamp (p.right - d.step) d.lo d.hi)) ∧
    (st.functions[i] = .stepDownR → sets { p with right := clamp (p.right + d.step) d.lo d.hi } Config.depthTarget 1
      (clamp (p.right + d.step) d.lo d.hi)) ∧
    (st.functions[i] = .liftAll → sets { p with action := ⟨p.action.serial + 1, 1⟩ } Config.depthAction 3
      ((p.action.serial + 1).toNat * 256 + 1)) ∧
    (st.functions[i] = .returnAll → sets { p with action := ⟨p.action.serial + 1, 2⟩ } Config.depthAction 3
      ((p.action.serial + 1).toNat * 256 + 2)) ∧
    (st.functions[i] = .autoAll → sets { p with mode := ⟨p.mode.serial + 1, 2⟩ } Config.modeRequest 3
      ((p.mode.serial + 1).toNat * 256 + 2)) ∧
    (st.functions[i] = .manualAll → sets { p with mode := ⟨p.mode.serial + 1, 1⟩ } Config.modeRequest 3
      ((p.mode.serial + 1).toNat * 256 + 1)) ∧
    (st.functions[i] = .offAll → sets { p with mode := ⟨p.mode.serial + 1, 0⟩ } Config.modeRequest 3
      ((p.mode.serial + 1).toNat * 256)) ∧
    (st.functions[i] = .truckHold → sets { p with hold := true } Config.loadHold 2 1)) ∧
  (∀ (s : State) (t : Nat) (st : Settings) (expiry : Clock) (d : PanelDef) (p : PanelValues), s.settings = some st →
    st.panel = some d → s.panel = some p → s.due t p.timer expiry →
    ∃ u, exec (.panelRefresh t) s = .next u ∧ u.panel = some { p with timer := some (after expiry d.refresh) } ∧
      u = { s.tick t with panel := u.panel, table := u.table } ∧
      ∀ (k : Key) (v : Int),
          (k = ⟨s.number, Config.depthTarget, 0⟩ ∧ v = p.left) ∨ (k = ⟨s.number, Config.depthTarget, 1⟩ ∧ v = p.right) ∨
          (k = ⟨s.number, Config.depthAction, 3⟩ ∧ v = p.action.serial.toNat * 256 + p.action.code.toNat) ∨
          (k = ⟨s.number, Config.modeRequest, 3⟩ ∧ v = p.mode.serial.toNat * 256 + p.mode.code.toNat) ∨
          (k = ⟨s.number, Config.loadHold, 2⟩ ∧ v = if p.hold then 1 else 0) →
        ∀ e q, s.table.find k = some e → st.quantity k.code = some q →
          u.table.find k = some (e.take q .good (some v) (s.tick t).clock)) ∧
  (∀ (s : State) (t : Nat) (i : Fin 6) (st : Settings) (expiry : Clock) (p : PanelValues), s.settings = some st →
    s.atWork → s.due t s.inputs[i].timer expiry → s.panel = some p → st.functions[i] = .truckHold →
    let level := s.inputs[i].pin
    ∃ u, exec (.debounceExpiry t i) s = .next u ∧ u.panel = some { p with hold := level } ∧
      u.inputs[i] = ⟨level, level, none⟩ ∧ (∀ k, k ≠ ⟨s.number, Config.loadHold, 2⟩ → u.table.find k = s.table.find k) ∧
      (∀ e q, s.table.find ⟨s.number, Config.loadHold, 2⟩ = some e → st.quantity Config.loadHold = some q →
        u.table.find ⟨s.number, Config.loadHold, 2⟩ =
          some (e.take q .good (some (if level then 1 else 0)) (s.tick t).clock)) ∧
      u = { s.tick t with panel := u.panel, inputs := u.inputs, table := u.table }) ∧
  ∀ (s : State) (t : Nat) (i : Fin 6) (st : Settings) (expiry : Clock), s.settings = some st →
    s.due t s.inputs[i].timer expiry →
    (s.station = .listening ∧ st.functions[i] ∉ [InputFunction.haltButton, .releaseButton, .truckHold]) ∨
      (s.inputs[i].pin = false ∧ st.functions[i] ≠ .truckHold) →
    exec (.debounceExpiry t i) s = .next ((s.tick t).setInput i ⟨s.inputs[i].pin, s.inputs[i].pin, none⟩)

/-! ### Publication -/

/-- A publication event (R67, R70): the key's timer runs on from its own expiry, and the sample its producer gives
joins the queue at its end or replaces the queued one of its key in place; without a sample the queue stands. What a
producer gives (R68, R69, R114, R131): a source, a group or a panel value what its own entry of the table gives; a
VACANT entry nothing; a FAILED one its value, or the no-value marker without one; a FRESH one its quality; an AGED or
EXPIRED GOOD one HELD; a channel its output, GOOD in AUTO and MANUAL and HELD else; the chamber its fill in per-mille.
-/
def Obligations.PublicationEventsQueueASample : Prop :=
  (∀ (s : State) (t : Nat) (code : BitVec 6) (inst : BitVec 2) (st : Settings) (d : PublicationDef) (run : PublicationRun)
    (expiry : Clock), s.settings = some st → st.publication code inst = some d →
    findPublication s.publications code inst = some run → s.due t run.timer expiry →
    ∃ u, exec (.publicationEvent t code inst) s = .next u ∧
      findPublication u.publications code inst = some { run with timer := some (after expiry d.period) } ∧
      (∀ c j, (c, j) ≠ (code, inst) → findPublication u.publications c j = findPublication s.publications c j) ∧
      u = { s.tick t with publications := u.publications, line := { s.line with queue := u.line.queue } } ∧
      (s.produce st code inst = none → u.line.queue = s.line.queue) ∧
      ∀ q v, s.produce st code inst = some (q, v) →
        ((∀ y ∈ s.line.queue, (y.code, y.inst) ≠ (code, inst)) → u.line.queue = s.line.queue ++ [⟨code, inst, q, v⟩]) ∧
        ((∃ y ∈ s.line.queue, (y.code, y.inst) = (code, inst)) → u.line.queue = s.line.queue.map fun y =>
          if (y.code, y.inst) = (code, inst) then ⟨code, inst, q, v⟩ else y)) ∧
  (∀ (s : State) (st : Settings) (code : BitVec 6) (inst : BitVec 2), code ≠ Config.channelOutput →
    code ≠ Config.chamberFill → s.produce st code inst = (s.table.find ⟨s.number, code, inst⟩).bind Entry.published) ∧
  ((∀ e : Entry, e.state = .vacant → e.published = none) ∧
  (∀ (e : Entry) (v : Int), e.state ≠ .vacant → e.quality = some .failed → e.value = some v →
    e.published = some (.failed, v)) ∧
  (∀ e : Entry, e.state ≠ .vacant → e.quality = some .failed → e.value = none → e.published = some (.failed, -32768)) ∧
  (∀ (e : Entry) (q : Quality) (v : Int), e.state = .fresh → e.quality = some q → q ≠ .failed → e.value = some v →
    e.published = some (q, v)) ∧
  (∀ (e : Entry) (q : Quality) (v : Int), e.state = .aged ∨ e.state = .expired → e.quality = some q → q ≠ .failed →
    e.value = some v → e.published = some (if q = .good then .held else q, v)) ∧
  (∀ (s : State) (st : Settings) (inst : BitVec 2), inst = 0 ∨ inst = 1 →
    let ch := s.channel (if inst = 0 then .a else .b)
    s.produce st Config.channelOutput inst =
      some (if ch.state = .auto ∨ ch.state = .manual then .good else .held, ch.out)) ∧
  ∀ (s : State) (st : Settings) (inst : BitVec 2) (cv : ConveyorDef) (k : Conveyor), st.conveyor = some cv →
    s.conveyor = some k → s.produce st Config.chamberFill inst = some (.good, roundDiv (k.content * 1000) cv.xmax))

/-! ### Channels -/

/-- The output chain on numbers (R104 to R107): the deadband subtracts, the gain rounds, the minimum flow follows the
demand's sign, the plunge limit bounds a downward demand under load or without a valid record, the slew bounds the
change, and the flag records what the output limit did. The ramp moves by at most its rate (R79), a DERIVED target is
the value its group's record holds (R76), and the active group is the first of the list with a valid record (R29,
R42). The conveyor's (R123, R126, R127, R129, R130, R132): milled rate, loose rate, the substate table, the belt
demand with trim, the belt output, and the chamber's content and alarm. Its inputs: the measured belt speed is the
value of the own BELT_SPEED entry, at least 0, and 0 without a value or at FAILED (R120); the trim is that of the
BELT_TRIM entries within -300..300 (R121); the hold condition is an open belt-hold window, or a LOAD_HOLD entry of the
side or of instance 3 that is FRESH or AGED, of sound quality and not 0 (R122; remote entries only, assumption 17);
and the stall condition is AUTO with an output of at least 200, a command present, and ten times the measured speed
below it (R134). -/
def Obligations.ControlFormulas : Prop :=
  ((∀ (cd : ChannelDef) (m target : Int), 0 ≤ cd.deadband →
    let e := clamp (target - m) (-32767) 32767
    (|e| ≤ cd.deadband → shrunkError cd m target = 0) ∧
    (cd.deadband < e → shrunkError cd m target = e - cd.deadband) ∧
    (e < -cd.deadband → shrunkError cd m target = e + cd.deadband)) ∧
  (∀ (cd : ChannelDef) (e : Int),
    let p := roundDiv (e * cd.gain) 256
    (0 < p → flowDemand cd e = p + cd.umin) ∧ (p < 0 → flowDemand cd e = p - cd.umin) ∧
    (p = 0 → flowDemand cd e = 0)) ∧
  (∀ (p : PlungeDef) (result : Option Int) (u : Int),
    (u ≤ 0 → plungeLimit (some p) result u = u) ∧
    (0 < u → result = none → plungeLimit (some p) result u = min u p.output) ∧
    (∀ v, 0 < u → result = some v → plungeLimit (some p) result u = if p.limit ≤ v then min u p.output else u) ∧
    plungeLimit none result u = u) ∧
  ∀ (ch : Channel) (cd : ChannelDef) (u : Int) (b : Bool), 0 ≤ cd.umax → 0 ≤ cd.slew → cd.role ≠ .belt →
    let u' := ch.drive cd u b
    |u'.out - ch.out| ≤ cd.slew ∧
    u'.out = clamp (clamp u (-cd.umax) cd.umax) (ch.out - cd.slew) (ch.out + cd.slew) ∧
    u'.sat = if cd.umax < u then .high else if u < -cd.umax then .low else .none) ∧
  ((∀ r c rate : Int, 0 ≤ rate →
    (|c - r| ≤ rate → ramp r c rate = c) ∧ (rate < c - r → ramp r c rate = r + rate) ∧
    (rate < r - c → ramp r c rate = r - rate)) ∧
  (∀ (s : State) (cd : ChannelDef), ((∀ g, cd.target ≠ .derived g) → s.derivedValue cd = none) ∧
    ∀ g, cd.target = .derived g →
      (∀ run : GroupRun, s.groups[g]? = some (some run) → s.derivedValue cd = run.record.value) ∧
      ((∀ run : GroupRun, s.groups[g]? ≠ some (some run)) → s.derivedValue cd = none)) ∧
  (∀ (s : State) (g : Nat) (v : Int), s.validResult g = some v ↔ ∃ run : GroupRun, s.groups[g]? = some (some run) ∧
    run.record.state = .evaluated ∧ (run.record.quality = some .good ∨ run.record.quality = some .suspect) ∧
    run.record.value = some v) ∧
  ∀ (s : State) (refs : List Nat), (s.activeGroup refs = none ↔ ∀ g ∈ refs, s.validResult g = none) ∧
    ∀ g v, s.activeGroup refs = some (g, v) ↔
      ∃ before rest, refs = before ++ g :: rest ∧ s.validResult g = some v ∧ ∀ h ∈ before, s.validResult h = none) ∧
  ((∀ (cv : ConveyorDef) (q : Int), looseRate cv q = roundDiv (q * cv.bulking) 1000) ∧
  (∀ (cv : ConveyorDef) (d v : Int), milledRate cv d v =
    clamp (roundDiv (max d 0 * cv.width * max v 0) 60000) 0 4000000) ∧
  (∀ (cv : ConveyorDef) (k : Conveyor) (trim : Int),
    chooseSubstate cv k true trim = (.truckWait, 0) ∧
    (k.rate = .fallback → chooseSubstate cv k false trim = (.feed, cv.sfallback)) ∧
    (k.rate ≠ .fallback → 0 < k.loose → chooseSubstate cv k false trim = (.feed,
      clamp (roundDiv (roundDiv (k.loose * 1000) cv.load * (1000 + trim)) 1000) cv.smin cv.smax)) ∧
    (k.rate ≠ .fallback → k.loose ≤ 0 → 0 < k.content → chooseSubstate cv k false trim = (.clear, cv.sclear)) ∧
    (k.rate ≠ .fallback → k.loose ≤ 0 → k.content ≤ 0 → chooseSubstate cv k false trim = (.idle, cv.smin))) ∧
  (∀ (cv : ConveyorDef) (command speed : Int), beltOutput cv command speed =
    roundDiv (command * 1000) cv.smax + roundDiv (cv.gain * (command - speed)) 256) ∧
  (∀ (cv : ConveyorDef) (content loose speed : Int) (period : Nat), integrate cv content loose speed period =
    clamp (content + roundDiv ((loose - roundDiv (speed * cv.capacity) 1000) * period) 1000) 0 cv.xmax) ∧
  ∀ (k : Conveyor) (cv : ConveyorDef),
    (k.full = false → (k.judgeFull cv).full = decide (roundDiv (cv.alarm * cv.xmax) 1000 ≤ k.content)) ∧
    (k.full = true → (k.judgeFull cv).full = decide (roundDiv (cv.resume * cv.xmax) 1000 ≤ k.content)) ∧
    cv.alarmContent = roundDiv (cv.alarm * cv.xmax) 1000 ∧ cv.resumeContent = roundDiv (cv.resume * cv.xmax) 1000) ∧
  (∀ (s : State) (cv : ConveyorDef),
    let found := s.table.find ⟨s.number, 14, cv.speedInst⟩
    (∀ e v, found = some e → e.quality ≠ some .failed → e.value = some v → s.beltSpeed cv = max v 0) ∧
    (∀ e, found = some e → e.quality = some .failed ∨ e.value = none → s.beltSpeed cv = 0) ∧
    (found = none → s.beltSpeed cv = 0)) ∧
  (∀ (s : State) (st : Settings), s.trim st = clamp (s.latestCommand st 16) (-300) 300) ∧
  (∀ (s : State) (st : Settings), s.holdCondition st = true ↔ s.beltHold ≠ none ∨
    ∃ e ∈ s.table.entries, e.origin = .remote ∧ e.key.code = 17 ∧ (e.key.inst = st.side.inst ∨ e.key.inst = 3) ∧
      (e.state = .fresh ∨ e.state = .aged) ∧
      (e.quality = some .good ∨ e.quality = some .held ∨ e.quality = some .suspect) ∧ ∃ v, e.value = some v ∧ v ≠ 0) ∧
  ∀ (before : Channel) (command : Option Int) (speed : Int), stallCondition before command speed = true ↔
    before.state = .auto ∧ 200 ≤ before.out ∧ ∃ cmd, command = some cmd ∧ 10 * speed < cmd

/-- The update of a DEPTH or ATTITUDE channel in AUTO with an active group (R42, R43, R79, R93, R104 to R107, R109):
reference state and last measured become the group's, a change of group adopts the difference into the switch offset,
the target is ramped and clamped, the output is the chain's, the coils follow it, output 0 ends the open run (R111)
and the coil check is asked for; the timer runs on from its own expiry (R92). The rest of the station stands. -/
def Obligations.AutoUpdateDrivesTheChannel : Prop :=
  ∀ (s : State) (t : Nat) (c : ChannelId) (st : Settings) (expiry : Clock) (g : Nat) (m : Int) (x : TargetRecord),
    s.settings = some st → (st.channel c).controls → s.due t (s.channel c).updateTimer expiry →
    (s.channel c).state = .auto → s.activeGroup (st.channel c).refs = some (g, m) → (s.channel c).target = some x →
    let cd := st.channel c
    let adopted := match (s.channel c).ref.last with
      | some l => if l.group ≠ g then { x with offset := clamp (x.offset + (m - l.measured)) (-32767) 32767 } else x
      | none => x
    let commanded := match s.derivedValue cd with
      | some v => clamp v cd.lo cd.hi
      | none => x.commanded
    let ramped := ramp x.ramped commanded cd.ramp
    let effective := clamp (ramped + adopted.offset) cd.lo cd.hi
    let e := shrunkError cd m effective
    let u₀ := plungeLimit cd.plunge (s.plungeResult cd) (flowDemand cd e)
    ∃ u, exec (.channelUpdate t c) s = .next u ∧
      (u.channel c).state = .auto ∧ (u.channel c).cause = (s.channel c).cause ∧
      (u.channel c).ref = ⟨some g, some ⟨g, m⟩⟩ ∧
      (u.channel c).target = some { adopted with commanded := commanded, ramped := ramped, effective := effective } ∧
      (u.channel c).out = clamp (clamp u₀ cd.lowest cd.umax) ((s.channel c).out - cd.slew) ((s.channel c).out + cd.slew) ∧
      (u.channel c).sat = saturationOf u₀ cd.lowest cd.umax ∧ (u.channel c).inDeadband = decide (e = 0) ∧
      (u.channel c).updateTimer = some (after expiry cd.period) ∧ (u.channel c).DrivenBy cd ∧
      (u.channel c).resumeTimer = (s.channel c).resumeTimer ∧ (u.channel c).fault = (s.channel c).fault ∧
      (u.channel c).openRun = (if (u.channel c).out = 0 then 0 else (s.channel c).openRun) ∧
      CheckAsked s.converter u.converter (max s.now t) c (u.channel c) ∧
      u = { (s.tick t).setChannel c (u.channel c) with converter := u.converter }

/-- An AUTO update without an active group (R100): the channel goes to HELD with cause REF_LOST, forced to output 0,
its resume window running and its waiting check withdrawn; with a window of 0 it goes straight on to MANUAL with
REF_LOST added, and this update's output is MANUAL's, slewing from 0 (assumption 18). A later update that finds a
group before the window has passed (R101) returns the channel to AUTO and drives it by R104 to R107; one that finds
none leaves it waiting (R100), and so does one past the window (that the clock decides whether it has passed is
assumption 23). The window's expiry moves it to MANUAL at rest and adds REF_LOST (R102). Every one of these updates
settles reference state and target, a change of group adopted, and runs its timer on (R42, R43, R79, R92). -/
def Obligations.LostReferencesHoldAndResume : Prop :=
  (∀ (s : State) (t : Nat) (c : ChannelId) (st : Settings) (expiry : Clock), s.settings = some st →
    (st.channel c).controls → s.due t (s.channel c).updateTimer expiry → (s.channel c).state = .auto →
    s.activeGroup (st.channel c).refs = none →
    let cd := st.channel c
    let lost := (s.settled cd (s.channel c) expiry).forced
    (cd.window ≠ 0 → ∃ u, exec (.channelUpdate t c) s = .next u ∧
      u.channel c = { lost with
        state := .held, cause := some .refLost, fault := none
        resumeTimer := some (after (s.tick t).clock cd.window) } ∧
      s.KeepsConveyor u ∧ u = { (s.tick t).setChannel c (u.channel c) with
        conveyor := u.conveyor, converter := s.converter.withRequest c none, line := s.line.statusMarked }) ∧
    (cd.window = 0 → ∃ u, exec (.channelUpdate t c) s = .next u ∧
      ({ lost with state := .manual, cause := none, fault := none, resumeTimer := none } : Channel).PutsOut cd
        (clamp (clamp ((s.tick t).latestCommand st (jogCode c)) (-cd.umax) cd.umax) (-cd.slew) cd.slew) .none false
        (u.channel c) ∧
      CheckAsked (s.converter.withRequest c none) u.converter (max s.now t) c (u.channel c) ∧
      u.faults = (if refLostCode c ∈ s.faults then s.faults else s.faults ++ [refLostCode c]) ∧
      s.KeepsConveyor u ∧ u = { (s.tick t).setChannel c (u.channel c) with
        conveyor := u.conveyor, converter := u.converter, faults := u.faults, line := s.line.statusMarked })) ∧
  (∀ (s : State) (t : Nat) (c : ChannelId) (st : Settings) (expiry : Clock), s.settings = some st →
    (st.channel c).controls → s.due t (s.channel c).updateTimer expiry → (s.channel c).state = .held →
    (s.channel c).cause = some .refLost →
    let cd := st.channel c
    let settled := s.settled cd (s.channel c) expiry
    (∀ (window : Clock) (g : Nat) (m : Int) (y : TargetRecord), (s.channel c).resumeTimer = some window →
      passed (s.tick t).clock window = false → s.activeGroup cd.refs = some (g, m) → settled.target = some y →
      let e := shrunkError cd m y.effective
      let u₀ := plungeLimit cd.plunge (s.plungeResult cd) (flowDemand cd e)
      ∃ u, exec (.channelUpdate t c) s = .next u ∧
        ({ settled with state := .auto, cause := none, resumeTimer := none } : Channel).PutsOut cd
          (clamp (clamp u₀ (-cd.umax) cd.umax) ((s.channel c).out - cd.slew) ((s.channel c).out + cd.slew))
          (saturationOf u₀ (-cd.umax) cd.umax) (decide (e = 0)) (u.channel c) ∧
        CheckAsked s.converter u.converter (max s.now t) c (u.channel c) ∧
        u = { (s.tick t).setChannel c (u.channel c) with
          converter := u.converter, line := s.line.statusMarked }) ∧
    (s.activeGroup cd.refs = none ∨
        (∃ window, (s.channel c).resumeTimer = some window ∧ passed (s.tick t).clock window = true) →
      ∃ u, exec (.channelUpdate t c) s = .next u ∧
        settled.PutsOut cd 0 (s.channel c).sat (s.channel c).inDeadband (u.channel c) ∧
        u = { (s.tick t).setChannel c (u.channel c) with converter := s.converter.withRequest c none })) ∧
  ∀ (s : State) (t : Nat) (c : ChannelId) (window : Clock), (s.channel c).state = .held →
    (s.channel c).cause = some .refLost → s.due t (s.channel c).resumeTimer window →
    ∃ u, exec (.resumeWindowExpiry t c) s = .next u ∧
      u.channel c = { (s.channel c).forced with state := .manual, cause := none, resumeTimer := none } ∧
      u.faults = (if refLostCode c ∈ s.faults then s.faults else s.faults ++ [refLostCode c]) ∧
      u = { (s.tick t).setChannel c (u.channel c) with faults := u.faults, line := s.line.statusMarked }

/-- The MANUAL update (R93, R108, R109): whatever the groups say, the output slews toward the jog within the output
limit, the flags are clear, the coils follow and the check is asked for. An update in OFF, in FAULT or in HELD with
cause LATCH puts out 0 with the coils de-energised, withdraws a waiting check and keeps state and flags (R92, R98,
R112). In all of them a DEPTH or ATTITUDE channel settles reference state and target, a change of group adopted, and
the timer runs on from its own expiry (R42, R43, R79, R92). The jog, and the trim (R108, R121), is 0 without a FRESH
sound remote entry of its code under the station's side or instance 3; else the value of such an entry that no other
of them has arrived later than. That only remote entries are read is assumption 17. -/
def Obligations.ManualAndRestingUpdates : Prop :=
  (∀ (s : State) (t : Nat) (c : ChannelId) (st : Settings) (expiry : Clock), s.settings = some st →
    (st.channel c).controls → s.due t (s.channel c).updateTimer expiry → (s.channel c).state = .manual →
    let cd := st.channel c
    ∃ u, exec (.channelUpdate t c) s = .next u ∧
      (s.settled cd (s.channel c) expiry).PutsOut cd
        (clamp (clamp ((s.tick t).latestCommand st (jogCode c)) (-cd.umax) cd.umax) ((s.channel c).out - cd.slew)
          ((s.channel c).out + cd.slew)) .none false (u.channel c) ∧
      CheckAsked s.converter u.converter (max s.now t) c (u.channel c) ∧
      u = { (s.tick t).setChannel c (u.channel c) with converter := u.converter }) ∧
  (∀ (s : State) (t : Nat) (c : ChannelId) (st : Settings) (expiry : Clock), s.settings = some st →
    (st.channel c).role ≠ .none → s.due t (s.channel c).updateTimer expiry →
    (s.channel c).state = .off ∨ (s.channel c).state = .fault ∨
      ((s.channel c).state = .held ∧ (s.channel c).cause = some .latch) →
    ((st.channel c).role = .belt → s.station ≠ .running) →
    let cd := st.channel c
    let begun := if cd.role = .belt then { s.channel c with updateTimer := some (after expiry cd.period) }
      else s.settled cd (s.channel c) expiry
    ∃ u, exec (.channelUpdate t c) s = .next u ∧
      begun.PutsOut cd 0 (s.channel c).sat (s.channel c).inDeadband (u.channel c) ∧
      (cd.role ≠ .belt → u.conveyor = s.conveyor) ∧
      u = { (s.tick t).setChannel c (u.channel c) with
        conveyor := u.conveyor, converter := s.converter.withRequest c none }) ∧
  (∀ (s : State) (st : Settings) (code : BitVec 6),
    let qualifies (e : Entry) := e ∈ s.table.entries ∧ e.origin = .remote ∧ e.key.code = code ∧
      (e.key.inst = st.side.inst ∨ e.key.inst = 3) ∧ e.state = .fresh ∧
      (e.quality = some .good ∨ e.quality = some .held ∨ e.quality = some .suspect)
    ((∀ e, ¬ qualifies e) → s.latestCommand st code = 0) ∧
    ((∃ e, qualifies e) → ∃ e, qualifies e ∧ s.latestCommand st code = e.value.getD 0 ∧
      ∀ e', qualifies e' → e.ageAt s.clock ≤ e'.ageAt s.clock))

/-! ### The conveyor -/

/-- The update of a BELT channel. In AUTO in RUNNING, where it raises neither cause (R119, R123, R124, R127, R129,
R130, R132): rate, content, chamber full, substate and command are the formulas', and the output drives the belt
between 0 and its maximum; the stall start begins with the stall condition, stands while the condition holds short of
1500 ms, and is gone without it (R134). Every update runs the rate part (R123, R124), whatever else it does: without a
valid record of both groups both rates stand and COMPUTED becomes HOLDING with the hold timer at 2000 ms. In MANUAL,
OFF, HELD and FAULT no substate or command is chosen; in RUNNING the chamber model runs on and a stall start is gone
(R128), in LISTENING the rate part alone runs (R118); MANUAL follows the jog (R108), the others give 0. The timer of
channel A runs on from its own expiry (R92). -/
def Obligations.BeltUpdateInAuto : Prop :=
  (∀ (s : State) (t : Nat) (st : Settings) (cv : ConveyorDef) (k : Conveyor) (expiry : Clock),
    s.settings = some st → st.chanA.role = .belt → st.conveyor = some cv → s.conveyor = some k →
    s.station = .running → s.due t s.chanA.updateTimer expiry → s.chanA.state = .auto →
    let speed := s.beltSpeed cv
    let clock := (s.tick t).clock
    let r := s.rated cv k clock
    let content := integrate cv k.content r.loose speed st.chanA.period
    let stalls := stallCondition s.chanA k.command speed
    k.full = true ∨ content < cv.alarmContent →
    (∀ start, stalls = true → k.stallStart = some start → since clock start < 1500) →
    let k' : Conveyor := { r with
      content := content, full := k.full && decide (cv.resumeContent ≤ content)
      stallStart := if stalls then some (k.stallStart.getD clock) else none }
    let chosen := chooseSubstate cv k' ((s.tick t).holdCondition st) ((s.tick t).trim st)
    let u₀ := beltOutput cv chosen.2 speed
    ∃ u, exec (.channelUpdate t .a) s = .next u ∧
      u.conveyor = some { k' with substate := some chosen.1, command := some chosen.2 } ∧
      ({ s.chanA with updateTimer := some (after expiry st.chanA.period) } : Channel).PutsOut st.chanA
        (clamp (clamp u₀ 0 st.chanA.umax) (s.chanA.out - st.chanA.slew) (s.chanA.out + st.chanA.slew))
        (saturationOf u₀ 0 st.chanA.umax) false u.chanA ∧
      CheckAsked s.converter u.converter (max s.now t) .a u.chanA ∧
      u = { s.tick t with conveyor := u.conveyor, chanA := u.chanA, converter := u.converter }) ∧
  (∀ (s : State) (t : Nat) (st : Settings) (cv : ConveyorDef) (k : Conveyor) (expiry : Clock), s.settings = some st →
    st.chanA.role = .belt → st.conveyor = some cv → s.conveyor = some k → s.due t s.chanA.updateTimer expiry →
    let r := s.rated cv k (s.tick t).clock
    ∃ u k', exec (.channelUpdate t .a) s = .next u ∧ u.conveyor = some k' ∧ k'.rate = r.rate ∧ k'.milled = r.milled ∧
      k'.loose = r.loose ∧ k'.holdTimer = r.holdTimer ∧ u.chanA.updateTimer = some (after expiry st.chanA.period)) ∧
  ∀ (s : State) (t : Nat) (st : Settings) (cv : ConveyorDef) (k : Conveyor) (expiry : Clock), s.settings = some st →
    st.chanA.role = .belt → st.conveyor = some cv → s.conveyor = some k → s.due t s.chanA.updateTimer expiry →
    s.chanA.state ≠ .auto →
    let r := s.rated cv k (s.tick t).clock
    let content := integrate cv k.content r.loose (s.beltSpeed cv) st.chanA.period
    (s.station = .running → k.full = true ∨ content < cv.alarmContent ∨ s.latch ≠ none) →
    let begun : Channel := { s.chanA with updateTimer := some (after expiry st.chanA.period) }
    ∃ u, exec (.channelUpdate t .a) s = .next u ∧
      (s.station = .running → u.conveyor = some { r with
        content := content, stallStart := none
        full := decide ((if k.full then cv.resumeContent else cv.alarmContent) ≤ content) }) ∧
      (s.station ≠ .running → u.conveyor = some r) ∧
      (s.chanA.state = .manual → begun.PutsOut st.chanA
        (clamp (clamp ((s.tick t).latestCommand st Config.jogA) 0 st.chanA.umax) (s.chanA.out - st.chanA.slew)
          (s.chanA.out + st.chanA.slew)) .none false u.chanA) ∧
      (s.chanA.state ≠ .manual → begun.PutsOut st.chanA 0 s.chanA.sat s.chanA.inDeadband u.chanA) ∧
      CheckAsked s.converter u.converter (max s.now t) .a u.chanA ∧
      u = { s.tick t with conveyor := u.conveyor, chanA := u.chanA, converter := u.converter }

/-- The chamber's alarm and the stall (R128, R130, R132, R134, R135, R138) at a BELT update in RUNNING that finds the
latch CLEAR. In whatever state of channel A, a content that reaches the alarm with chamber full clear sets chamber
full and latches CHAMBER_FULL, code 2 with the alarm level as detail. In AUTO, a stall condition that has stood for
1500 ms adds BELT_STALL; short of the alarm it latches it, code 3 with the measured speed as detail, and at the alarm
the latch is CHAMBER_FULL's and the fault is added all the same (assumption 19). Either places its HALT and discards a
RELEASE (R138); channels in MANUAL and AUTO go to HELD with cause LATCH at rest, channel A in OFF and FAULT stays
there with output 0, the stall start is gone, and with AUTO the substate and the command. The latch comes before the
output step (assumption 31). -/
def Obligations.BeltCausesLatch : Prop :=
  ∀ (s : State) (t : Nat) (st : Settings) (cv : ConveyorDef) (k : Conveyor) (expiry : Clock), s.settings = some st →
    st.chanA.role = .belt → st.conveyor = some cv → s.conveyor = some k → s.station = .running →
    s.due t s.chanA.updateTimer expiry → s.latch = none →
    let speed := s.beltSpeed cv
    let clock := (s.tick t).clock
    let r := s.rated cv k clock
    let content := integrate cv k.content r.loose speed st.chanA.period
    let stall := stallCondition s.chanA k.command speed = true ∧ ∃ start, k.stallStart = some start ∧
      1500 ≤ since clock start
    let latches (cause detail : Byte) (full : Bool) := ∃ u, exec (.channelUpdate t .a) s = .next u ∧
      u.latch = some ⟨cause, s.number, detail⟩ ∧
      u.conveyor = some { r with
        content := content, full := full, stallStart := none
        substate := if s.chanA.state = .auto then none else k.substate
        command := if s.chanA.state = .auto then none else k.command } ∧
      (∀ c, (s.channel c).state = .manual ∨ (s.channel c).state = .auto →
        (u.channel c).state = .held ∧ (u.channel c).cause = some .latch ∧ (u.channel c).AtRest) ∧
      (s.chanA.state = .off ∨ s.chanA.state = .fault →
        u.chanA.state = s.chanA.state ∧ u.chanA.out = 0 ∧ u.chanA.coil = .none ∧ u.chanA.current = 0) ∧
      (s.chanB.state = .off ∨ s.chanB.state = .fault → u.chanB = s.chanB) ∧
      u.chanA.updateTimer = some (after expiry st.chanA.period) ∧ u.converter.request .a = none ∧
      u.converter.running = s.converter.running ∧
      (stall → u.faults = if .beltStall ∈ s.faults then s.faults else s.faults ++ [.beltStall]) ∧
      (¬ stall → u.faults = s.faults) ∧
      u = { s.tick t with
        latch := u.latch, conveyor := u.conveyor, chanA := u.chanA, chanB := u.chanB, converter := u.converter
        faults := u.faults
        line := s.line.halting cause detail }
    (k.full = false → cv.alarmContent ≤ content → latches 2 (BitVec.ofInt 8 (clamp cv.alarm 0 255)) true) ∧
    (k.full = true ∨ content < cv.alarmContent → stall →
      latches 3 (BitVec.ofInt 8 (clamp speed 0 255)) (k.full && decide (cv.resumeContent ≤ content)))

/-- The conveyor's hold timer and the belt-hold window run out (R125, R148): the rate state becomes FALLBACK with the
rates kept; the window becomes inactive. The timed mute ends at its expiry (R162), and the status timer marks STATUS
every 500 ms from its own expiries (R151). -/
def Obligations.RemainingTimersExpire : Prop :=
  ((∀ (s : State) (t : Nat) (k : Conveyor) (expiry : Clock), s.conveyor = some k → s.due t k.holdTimer expiry →
    exec (.conveyorHoldExpiry t) s =
      .next { s.tick t with conveyor := some { k with rate := .fallback, holdTimer := none } }) ∧
  ∀ (s : State) (t : Nat) (expiry : Clock), s.due t s.beltHold expiry →
    exec (.beltHoldExpiry t) s = .next { s.tick t with beltHold := none }) ∧
  ((∀ (s : State) (t : Nat) (expiry : Clock), s.line.bus = .mutedTimed → s.due t s.line.muteTimer expiry →
    .echoMute ∈ s.faults →
    exec (.muteExpiry t) s = .next { s.tick t with
      faults := s.faults.filter (· != .echoMute)
      line := { s.line with
        bus := .active, muteTimer := none, echoRun := 0, control := { s.line.control with status := true } } }) ∧
  ∀ (s : State) (t : Nat) (expiry : Clock), s.due t s.statusTimer expiry →
    exec (.statusTimer t) s = .next { s.tick t with
      statusTimer := some (after expiry 500)
      line := { s.line with control := { s.line.control with status := true } } })

/-! ### Sending -/

/-- The station begins a frame once the quiet time has reached 20 + 4 × number bit times, 100 more while yielding
(R159, R160), on an ACTIVE bus without a frame in flight: the first pending of HALT, RELEASE, SERVICE_REPLY, STATUS
and the queue's samples that the station state allows (R163, R164); a STATUS is built now (R150). Without an ACTIVE
bus or short of the access wait it begins none. -/
def Obligations.FramesBeginInTheirOrder : Prop :=
  (∀ (s : State) (t q : Nat), s.runs → s.line.bus = .active → s.line.flight = none → s.line.quietSince = some q →
    q + 4 * (20 + 4 * s.number.toNat + if s.line.yielding then 100 else 0) ≤ max s.now t →
    let k := s.line.control
    let begins (frame : OwnFrame) (control : ControlSet) (queue : List QueuedSample) :=
      exec (.frameBegin t) s = .next { s.tick t with line := { s.line with
        control := control, queue := queue, flight := some ⟨frame, max s.now t, false⟩
        receiver := .inFrame true, quietSince := none } }
    (s.station = .running →
      (∀ cause detail, k.halt = some (cause, detail) → begins (.halt cause detail) { k with halt := none } s.line.queue) ∧
      (k.halt = none → k.release = true → begins .release { k with release := false } s.line.queue) ∧
      (∀ r, k.halt = none → k.release = false → k.reply = some r →
        begins (.reply r) { k with reply := none } s.line.queue) ∧
      (k.halt = none → k.release = false → k.reply = none → k.status = true →
        begins (.status s.statusPayload) { k with status := false } s.line.queue) ∧
      (k.halt = none → k.release = false → k.reply = none → k.status = false → s.line.queue ≠ [] →
        begins (.publish ((s.line.queue.take 4).map fun x =>
          ⟨x, ((findPublication s.publications x.code x.inst).map PublicationRun.seq).getD 0⟩)) k (s.line.queue.drop 4))) ∧
    (s.station = .commissioning →
      (∀ r, k.reply = some r → begins (.reply r) { k with reply := none } s.line.queue) ∧
      (k.reply = none → k.status = true → begins (.status s.statusPayload) { k with status := false } s.line.queue)) ∧
    (s.station = .safe → k.status = true → begins (.status s.statusPayload) { k with status := false } s.line.queue) ∧
    (s.station = .loading ∨ s.station = .listening → exec (.frameBegin t) s = .next (s.tick t))) ∧
  (∀ (s : State) (t : Nat), s.runs →
    s.line.bus ≠ .active ∨ s.line.quietSince = none ∨
      (∃ q, s.line.quietSince = some q ∧
        max s.now t < q + 4 * (20 + 4 * s.number.toNat + if s.line.yielding then 100 else 0)) →
    exec (.frameBegin t) s = .next (s.tick t))

/-- The condition a STATUS carries (R115, R150, 10.1): twenty bytes, with role and side, station state, latch record,
channel bytes, the number of faults and the first six by onset, and the three totals high byte first; the codes of
roles, sides, station states and faults, and the bits of a channel byte, are those of 10.1 and 7.6. -/
def Obligations.StatusCarriesTheCondition : Prop :=
  (∀ s : State, s.statusPayload.length = 20 ∧
    (s.settings = none → s.statusPayload[0]? = some 0xFF) ∧
    (∀ st, s.settings = some st → s.statusPayload[0]? = some (BitVec.ofNat 8 (st.role.code * 16 + st.side.code))) ∧
    s.statusPayload[1]? = some s.station.code ∧
    (s.latch = none → (s.statusPayload.drop 2).take 3 = [0, 0, 0]) ∧
    (∀ r, s.latch = some r → (s.statusPayload.drop 2).take 3 = [1, r.cause, sourceByte r.origin]) ∧
    s.statusPayload[5]? = some s.chanA.statusByte ∧ s.statusPayload[6]? = some s.chanB.statusByte ∧
    s.statusPayload[7]? = some (BitVec.ofNat 8 s.faults.length) ∧
    (∀ i : Fin 6, s.statusPayload[8 + i.val]? = some ((s.faults[i.val]?.map FaultCode.code).getD 0)) ∧
    s.statusPayload.drop 14 = [highByte (BitVec.ofNat 16 s.line.errors), lowByte (BitVec.ofNat 16 s.line.errors),
      highByte (BitVec.ofNat 16 s.table.refusals), lowByte (BitVec.ofNat 16 s.table.refusals),
      highByte (BitVec.ofNat 16 s.table.gaps), lowByte (BitVec.ofNat 16 s.table.gaps)]) ∧
  ([Role.legDepth, .legAttitude, .conveyor, .sensor, .panel].map Role.code = [1, 2, 3, 4, 5] ∧
  [Side.left, .right, .centre].map Side.code = [0, 1, 2] ∧
  [Station.loading, .listening, .running, .safe, .commissioning].map Station.code = [0, 1, 2, 3, 4] ∧
  [FaultCode.imageCheckword, .imageFormat, .imageLimits, .imageReference, .numberClash, .echoMute, .scanOverrun, .portLost,
    .coilOpenA, .coilShortA, .coilOpenB, .coilShortB, .refLostA, .refLostB, .beltStall].map FaultCode.code =
    [1, 2, 3, 4, 5, 6, 7, 8, 9, 10, 11, 12, 13, 14, 15]) ∧
  ∀ ch : Channel, ch.statusByte.toNat % 8 = (match ch.state with
      | .off => 0 | .manual => 1 | .auto => 2 | .held => 3 | .fault => 4) ∧
    (ch.statusByte.getLsbD 3 = true ↔ ch.cause = some .refLost) ∧
    ch.statusByte.toNat / 16 % 4 = (match ch.sat with
      | .none => 0 | .high => 1 | .low => 2) ∧
    ch.statusByte.getLsbD 6 = ch.inDeadband ∧ ch.statusByte.getLsbD 7 = false

/-- A frame completes (R71, R160, R165): run 0, yielding, the line quiet from now, and for a PUBLISH of distinct keys
each carried key's counter steps by 1 modulo 256 and no other moves. The moment it can complete at the earliest is the
end of its last bit (assumption 24). -/
def Obligations.FramesComplete : Prop :=
  ∀ (s : State) (t : Nat) (f : Flight), s.runs → s.line.flight = some f →
    f.began + 40 * (6 + (f.frame.wire s.number).payload.length) ≤ max s.now t →
    ∃ u, exec (.frameComplete t) s = .next u ∧
      u = { s.tick t with publications := u.publications, line := { s.line with
        flight := none, echoRun := 0, yielding := true, receiver := .idle, quietSince := some (max s.now t) } } ∧
      ((∀ samples, f.frame ≠ .publish samples) → u.publications = s.publications) ∧
      ∀ samples, f.frame = .publish samples → (flightKeys s.line.flight).Nodup →
        u.publications = s.publications.map fun p =>
          if (p.code, p.inst) ∈ flightKeys s.line.flight then { p with seq := p.seq + 1 } else p

/-- A stopped frame goes back (R153, R161 to R164). Where the bit driven now is recessive, in the thirty bits of SYNC,
TYPE and SOURCE, a difference is a contention loss, which leaves the echo-fault run; at a dominant bit, or from LENGTH
on, it is an echo fault, which grows the run, and the eighth in a row mutes the bus for 1000 ms with ECHO_MUTE;
neither comes at the other's bits. Yielding ends and no counter steps. A HALT, RELEASE or SERVICE_REPLY goes back with
its contents, unless its type was discarded during the flight or one of its type has been placed meanwhile; a STATUS
is marked again. The carried samples return to the head of the queue in their order, a queued sample of the same key
giving its quality and value to the returning one and leaving its place, and the others follow. That a difference
comes within the bit's four µs is assumption 24. -/
def Obligations.StoppedFramesGoBack : Prop :=
  ∀ (s : State) (t i : Nat) (f : Flight) (driven : Level), s.runs → s.line.flight = some f →
    (f.frame.wire s.number).levels[i]? = some driven → f.began + 4 * i ≤ max s.now t → max s.now t < f.began + 4 * (i + 1) →
    let lost := i < 30 ∧ driven = .recessive
    let k := s.line.control
    let stops (control : ControlSet) (queue : List QueuedSample) :=
      let line := { s.line with flight := none, yielding := false, control := control, queue := queue }
      (lost → exec (.contentionLoss t) s = .next { s.tick t with line := line }) ∧
      (¬ lost → s.line.echoRun < 7 → exec (.echoFault t) s =
        .next { s.tick t with line := { line with echoRun := s.line.echoRun + 1 } }) ∧
      (¬ lost → 7 ≤ s.line.echoRun → .echoMute ∉ s.faults → exec (.echoFault t) s = .next { s.tick t with
        faults := s.faults ++ [.echoMute]
        line := { line with
          bus := .mutedTimed, muteTimer := some (after (s.tick t).clock 1000)
          control := { line.control with status := true } } })
    ((¬ lost → exec (.contentionLoss t) s = .next (s.tick t)) ∧ (lost → exec (.echoFault t) s = .next (s.tick t))) ∧
    (∀ cause detail, f.frame = .halt cause detail →
      (f.discarded = false → k.halt = none → stops { k with halt := some (cause, detail) } s.line.queue) ∧
      (f.discarded = true ∨ k.halt ≠ none → stops k s.line.queue)) ∧
    (f.frame = .release →
      (f.discarded = false → k.release = false → stops { k with release := true } s.line.queue) ∧
      (f.discarded = true ∨ k.release = true → stops k s.line.queue)) ∧
    (∀ r, f.frame = .reply r →
      (k.reply = none → stops { k with reply := some r } s.line.queue) ∧ (k.reply ≠ none → stops k s.line.queue)) ∧
    (∀ payload, f.frame = .status payload → stops { k with status := true } s.line.queue) ∧
    ∀ samples, f.frame = .publish samples → (queueKeys s.line.queue).Nodup →
      ∃ head, head.length = samples.length ∧
        stops k (head ++ s.line.queue.filter fun y => decide ((y.code, y.inst) ∉ flightKeys s.line.flight)) ∧
        ∀ (n : Nat) (x : StampedSample) (y : QueuedSample), samples[n]? = some x → head[n]? = some y →
          ((∀ z ∈ s.line.queue, (z.code, z.inst) ≠ (x.sample.code, x.sample.inst)) → y = x.sample) ∧
          ∀ z ∈ s.line.queue, (z.code, z.inst) = (x.sample.code, x.sample.inst) → y = z

/-! ### What every step keeps -/

/-- The peer table stays in key order with no key twice and at most 32 entries, its totals within 0..65535 (R1, R22).
-/
def Obligations.EveryStepKeepsThePeerTable : Prop :=
  ∀ s u : State, s.table.Wf → step s = .next u → u.table.Wf

/-- Outputs stay safe (R92, R98, R109, R136, R137, R171): in OFF, HELD and FAULT a channel puts out 0; HELD has a
cause, and the cause LATCH only while the latch is LATCHED; the coils follow the sign of the output; with the latch
LATCHED every channel is OFF, in FAULT or HELD with cause LATCH; outside RUNNING every channel is OFF; and the latch
is CLEAR outside LISTENING and RUNNING. Without channel A in AUTO the conveyor has no substate, no belt speed command
and no stall start (R128, R134). -/
def Obligations.EveryStepKeepsOutputsSafe : Prop :=
  (∀ s u : State, s.SafeOutputs → step s = .next u → u.SafeOutputs) ∧
  ∀ s u : State, s.BeltIdle → step s = .next u → u.BeltIdle

/-- The fault collection holds no code twice (R149). With outputs safe, a channel has a coil fault exactly in FAULT,
and the collection holds exactly its code of the channel's coil codes (R95 to R97, R112, R116). The bus and its faults
agree (R158, R159, R162): a bus that is not ACTIVE carries no frame of the station, the mute timer and ECHO_MUTE stand
exactly in MUTED_TIMED, and NUMBER_CLASH exactly in MUTED_CLASH. -/
def Obligations.EveryStepKeepsBusAndFaults : Prop :=
  (∀ s u : State, s.FaultsWf → step s = .next u → u.FaultsWf) ∧
  (∀ s u : State, s.SafeOutputs → s.CoilFaultsWf → step s = .next u → u.CoilFaultsWf) ∧
  (∀ s u : State, s.BusWf → step s = .next u → u.BusWf)

/-- Queue and flight hold no key twice and only published keys, of which there are at most 16 (R164); the echo-fault
run stays below 8 and the error total within 0..65535 (R156, R162). -/
def Obligations.EveryStepKeepsTheLine : Prop :=
  ∀ s u : State, s.LineWf → step s = .next u → u.LineWf

/-- The store's memory keeps its canonical form within its 1024 bytes, and a row in work is one of the 64 (9.1, R173).
-/
def Obligations.EveryStepKeepsTheStore : Prop :=
  ∀ s u : State, s.store.Wf → step s = .next u → u.store.Wf

/-- Settings' limits hold (R74, R80, R82, R92, R107, R123, R130): effective, commanded and stacked targets lie in the
target range, the stack holds at most four, outputs lie in the output range, the content in 0..Xmax and the milled
rate in 0..4,000,000. -/
def Obligations.EveryStepKeepsTheLimits : Prop :=
  ∀ s u : State, s.Limits → step s = .next u → u.Limits

/-- What stands (R136, R158, R166): without a start, a loaded station keeps its settings, its totals never sink and a
MUTED_CLASH bus stays so; the store's rows and lock change only by the store's own commands and at starts that abandon
an operation; and the latch record stands until a start, a RELEASE frame or a release press. -/
def Obligations.WhatStandsWithoutItsCommand : Prop :=
  ∀ (c : Instr) (s u : State), exec c s = .next u →
    (c.mayStart = false → s.station ≠ .loading → u.settings = s.settings ∧ u.number = s.number ∧
      (s.table.Wf → s.table.refusals ≤ u.table.refusals ∧
        s.table.gaps ≤ u.table.gaps) ∧ (s.line.errors ≤ 65535 → s.line.errors ≤ u.line.errors)) ∧
    (c.mayStart = false → s.BusWf → s.line.bus = .mutedClash → u.line.bus = .mutedClash) ∧
    (c.mayChangeStore = false → u.store.cells = s.store.cells ∧ u.store.locked = s.store.locked) ∧
    (c.mayClearLatch = false → ∀ r, s.latch = some r → u.latch = some r)
end

