-- ==== Sys2Proof/Laws/State.lean ====
section
/-! SUPPORT. The shared updates of the state, field by field: what each leaves as it was, and the fields it writes. -/

namespace Sys2Proof.Machine

/-! ### Time and line marks -/

/-- An event on a running station is its effect at its moment. -/
theorem State.event_run {s : State} {t : Nat} {effect : State → State} (h : s.runs) :
    s.event t effect = .next (effect (s.tick t)) := by
  unfold State.event
  rw [if_pos h]

/-- An event on a station that does not run changes nothing (R167). -/
theorem State.event_rest {s : State} {t : Nat} {effect : State → State} (h : ¬ s.runs) : s.event t effect = .next s := by
  unfold State.event
  rw [if_neg h]

@[simp] theorem State.tick_fields (s : State) (t : Nat) :
    (s.tick t).supply = s.supply ∧ (s.tick t).resetHeld = s.resetHeld ∧ (s.tick t).station = s.station ∧
    (s.tick t).number = s.number ∧ (s.tick t).commission = s.commission ∧ (s.tick t).settings = s.settings ∧
    (s.tick t).table = s.table ∧ (s.tick t).groups = s.groups ∧ (s.tick t).converter = s.converter ∧
    (s.tick t).smoothing = s.smoothing ∧ (s.tick t).port = s.port ∧ (s.tick t).pulse0 = s.pulse0 ∧
    (s.tick t).pulse1 = s.pulse1 ∧ (s.tick t).inputs = s.inputs ∧ (s.tick t).publications = s.publications ∧
    (s.tick t).chanA = s.chanA ∧ (s.tick t).chanB = s.chanB ∧ (s.tick t).conveyor = s.conveyor ∧
    (s.tick t).panel = s.panel ∧ (s.tick t).latch = s.latch ∧ (s.tick t).beltHold = s.beltHold ∧
    (s.tick t).faults = s.faults ∧ (s.tick t).statusTimer = s.statusTimer ∧ (s.tick t).line = s.line ∧
    (s.tick t).store = s.store ∧ (s.tick t).pending = s.pending := by
  (repeat' apply And.intro) <;> (simp [State.tick])

@[simp] theorem State.tick_now (s : State) (t : Nat) : (s.tick t).now = max s.now t := rfl

@[simp] theorem State.tick_runs (s : State) (t : Nat) : (s.tick t).runs ↔ s.runs := Iff.rfl

@[simp] theorem State.markStatus_fields (s : State) :
    (s.markStatus).now = s.now ∧ (s.markStatus).supply = s.supply ∧ (s.markStatus).resetHeld = s.resetHeld ∧
    (s.markStatus).station = s.station ∧ (s.markStatus).number = s.number ∧ (s.markStatus).commission = s.commission ∧
    (s.markStatus).settings = s.settings ∧ (s.markStatus).table = s.table ∧ (s.markStatus).groups = s.groups ∧
    (s.markStatus).converter = s.converter ∧ (s.markStatus).smoothing = s.smoothing ∧ (s.markStatus).port = s.port ∧
    (s.markStatus).pulse0 = s.pulse0 ∧ (s.markStatus).pulse1 = s.pulse1 ∧ (s.markStatus).inputs = s.inputs ∧
    (s.markStatus).publications = s.publications ∧ (s.markStatus).chanA = s.chanA ∧ (s.markStatus).chanB = s.chanB ∧
    (s.markStatus).conveyor = s.conveyor ∧ (s.markStatus).panel = s.panel ∧ (s.markStatus).latch = s.latch ∧
    (s.markStatus).beltHold = s.beltHold ∧ (s.markStatus).faults = s.faults ∧
    (s.markStatus).statusTimer = s.statusTimer ∧ (s.markStatus).store = s.store ∧ (s.markStatus).pending = s.pending := by
  (repeat' apply And.intro) <;> (simp [State.markStatus])

@[simp] theorem State.markStatus_line (s : State) :
    s.markStatus.line = { s.line with control := { s.line.control with status := true } } := rfl

@[simp] theorem State.endReception_fields (s : State) :
    (s.endReception).now = s.now ∧ (s.endReception).supply = s.supply ∧ (s.endReception).resetHeld = s.resetHeld ∧
    (s.endReception).station = s.station ∧ (s.endReception).number = s.number ∧
    (s.endReception).commission = s.commission ∧ (s.endReception).settings = s.settings ∧
    (s.endReception).table = s.table ∧ (s.endReception).groups = s.groups ∧ (s.endReception).converter = s.converter ∧
    (s.endReception).smoothing = s.smoothing ∧ (s.endReception).port = s.port ∧ (s.endReception).pulse0 = s.pulse0 ∧
    (s.endReception).pulse1 = s.pulse1 ∧ (s.endReception).inputs = s.inputs ∧
    (s.endReception).publications = s.publications ∧ (s.endReception).chanA = s.chanA ∧
    (s.endReception).chanB = s.chanB ∧ (s.endReception).conveyor = s.conveyor ∧ (s.endReception).panel = s.panel ∧
    (s.endReception).latch = s.latch ∧ (s.endReception).beltHold = s.beltHold ∧ (s.endReception).faults = s.faults ∧
    (s.endReception).statusTimer = s.statusTimer ∧ (s.endReception).store = s.store ∧
    (s.endReception).pending = s.pending := by
  (repeat' apply And.intro) <;> (simp [State.endReception])

@[simp] theorem State.endReception_line (s : State) :
    s.endReception.line = { s.line with receiver := .idle, quietSince := some s.now } := rfl

@[simp] theorem State.queueSample_fields (s : State) (x : QueuedSample) :
    (s.queueSample x).now = s.now ∧ (s.queueSample x).supply = s.supply ∧ (s.queueSample x).resetHeld = s.resetHeld ∧
    (s.queueSample x).station = s.station ∧ (s.queueSample x).number = s.number ∧
    (s.queueSample x).commission = s.commission ∧ (s.queueSample x).settings = s.settings ∧
    (s.queueSample x).table = s.table ∧ (s.queueSample x).groups = s.groups ∧
    (s.queueSample x).converter = s.converter ∧ (s.queueSample x).smoothing = s.smoothing ∧
    (s.queueSample x).port = s.port ∧ (s.queueSample x).pulse0 = s.pulse0 ∧ (s.queueSample x).pulse1 = s.pulse1 ∧
    (s.queueSample x).inputs = s.inputs ∧ (s.queueSample x).publications = s.publications ∧
    (s.queueSample x).chanA = s.chanA ∧ (s.queueSample x).chanB = s.chanB ∧ (s.queueSample x).conveyor = s.conveyor ∧
    (s.queueSample x).panel = s.panel ∧ (s.queueSample x).latch = s.latch ∧ (s.queueSample x).beltHold = s.beltHold ∧
    (s.queueSample x).faults = s.faults ∧ (s.queueSample x).statusTimer = s.statusTimer ∧
    (s.queueSample x).store = s.store ∧ (s.queueSample x).pending = s.pending := by
  (repeat' apply And.intro) <;> (simp [State.queueSample])

@[simp] theorem State.placeReply_fields (s : State) (r : Reply) :
    (s.placeReply r).now = s.now ∧ (s.placeReply r).supply = s.supply ∧ (s.placeReply r).resetHeld = s.resetHeld ∧
    (s.placeReply r).station = s.station ∧ (s.placeReply r).number = s.number ∧
    (s.placeReply r).commission = s.commission ∧ (s.placeReply r).settings = s.settings ∧
    (s.placeReply r).table = s.table ∧ (s.placeReply r).groups = s.groups ∧ (s.placeReply r).converter = s.converter ∧
    (s.placeReply r).smoothing = s.smoothing ∧ (s.placeReply r).port = s.port ∧ (s.placeReply r).pulse0 = s.pulse0 ∧
    (s.placeReply r).pulse1 = s.pulse1 ∧ (s.placeReply r).inputs = s.inputs ∧
    (s.placeReply r).publications = s.publications ∧ (s.placeReply r).chanA = s.chanA ∧
    (s.placeReply r).chanB = s.chanB ∧ (s.placeReply r).conveyor = s.conveyor ∧ (s.placeReply r).panel = s.panel ∧
    (s.placeReply r).latch = s.latch ∧ (s.placeReply r).beltHold = s.beltHold ∧ (s.placeReply r).faults = s.faults ∧
    (s.placeReply r).statusTimer = s.statusTimer ∧ (s.placeReply r).store = s.store ∧
    (s.placeReply r).pending = s.pending := by
  (repeat' apply And.intro) <;> (simp [State.placeReply])

@[simp] theorem State.placeReply_line (s : State) (r : Reply) :
    (s.placeReply r).line = { s.line with control := { s.line.control with reply := some r } } := rfl

/-! ### The fault collection -/

@[simp] theorem State.addFault_fields (s : State) (f : FaultCode) :
    (s.addFault f).now = s.now ∧ (s.addFault f).supply = s.supply ∧ (s.addFault f).resetHeld = s.resetHeld ∧
    (s.addFault f).station = s.station ∧ (s.addFault f).number = s.number ∧ (s.addFault f).commission = s.commission ∧
    (s.addFault f).settings = s.settings ∧ (s.addFault f).table = s.table ∧ (s.addFault f).groups = s.groups ∧
    (s.addFault f).converter = s.converter ∧ (s.addFault f).smoothing = s.smoothing ∧ (s.addFault f).port = s.port ∧
    (s.addFault f).pulse0 = s.pulse0 ∧ (s.addFault f).pulse1 = s.pulse1 ∧ (s.addFault f).inputs = s.inputs ∧
    (s.addFault f).publications = s.publications ∧ (s.addFault f).chanA = s.chanA ∧ (s.addFault f).chanB = s.chanB ∧
    (s.addFault f).conveyor = s.conveyor ∧ (s.addFault f).panel = s.panel ∧ (s.addFault f).latch = s.latch ∧
    (s.addFault f).beltHold = s.beltHold ∧ (s.addFault f).statusTimer = s.statusTimer ∧
    (s.addFault f).store = s.store ∧ (s.addFault f).pending = s.pending := by
  (repeat' apply And.intro) <;> (unfold State.addFault; split <;> simp)

@[simp] theorem State.removeFault_fields (s : State) (f : FaultCode) :
    (s.removeFault f).now = s.now ∧ (s.removeFault f).supply = s.supply ∧ (s.removeFault f).resetHeld = s.resetHeld ∧
    (s.removeFault f).station = s.station ∧ (s.removeFault f).number = s.number ∧
    (s.removeFault f).commission = s.commission ∧ (s.removeFault f).settings = s.settings ∧
    (s.removeFault f).table = s.table ∧ (s.removeFault f).groups = s.groups ∧
    (s.removeFault f).converter = s.converter ∧ (s.removeFault f).smoothing = s.smoothing ∧
    (s.removeFault f).port = s.port ∧ (s.removeFault f).pulse0 = s.pulse0 ∧ (s.removeFault f).pulse1 = s.pulse1 ∧
    (s.removeFault f).inputs = s.inputs ∧ (s.removeFault f).publications = s.publications ∧
    (s.removeFault f).chanA = s.chanA ∧ (s.removeFault f).chanB = s.chanB ∧ (s.removeFault f).conveyor = s.conveyor ∧
    (s.removeFault f).panel = s.panel ∧ (s.removeFault f).latch = s.latch ∧ (s.removeFault f).beltHold = s.beltHold ∧
    (s.removeFault f).statusTimer = s.statusTimer ∧ (s.removeFault f).store = s.store ∧
    (s.removeFault f).pending = s.pending := by
  (repeat' apply And.intro) <;> (unfold State.removeFault; split <;> simp)

/-- R149: an addition of a code that is present changes nothing; another goes to the end. -/
theorem State.addFault_faults (s : State) (f : FaultCode) :
    (s.addFault f).faults = if f ∈ s.faults then s.faults else s.faults ++ [f] := by
  unfold State.addFault; split <;> simp_all

/-- R149: a removal takes the code out; the others keep their order. -/
theorem State.removeFault_faults (s : State) (f : FaultCode) : (s.removeFault f).faults = s.faults.filter (· != f) := by
  unfold State.removeFault
  split
  · simp
  · rename_i h
    exact (List.filter_eq_self.mpr fun g hg => by simp only [bne_iff_ne, ne_eq]; rintro rfl; exact h hg).symm

/-- An addition touches only STATUS's mark of the line. -/
theorem State.addFault_line (s : State) (f : FaultCode) :
    (s.addFault f).line = { s.line with control := { s.line.control with status :=
      if f ∈ s.faults then s.line.control.status else true } } := by
  unfold State.addFault; split <;> simp

/-- A removal touches only STATUS's mark of the line. -/
theorem State.removeFault_line (s : State) (f : FaultCode) :
    (s.removeFault f).line = { s.line with control := { s.line.control with status :=
      if f ∈ s.faults then true else s.line.control.status } } := by
  unfold State.removeFault; split <;> simp

/-! ### Channels, the converter, the other blocks -/

@[simp] theorem State.setChannel_fields (s : State) (c : ChannelId) (ch : Channel) :
    (s.setChannel c ch).now = s.now ∧ (s.setChannel c ch).supply = s.supply ∧
    (s.setChannel c ch).resetHeld = s.resetHeld ∧ (s.setChannel c ch).station = s.station ∧
    (s.setChannel c ch).number = s.number ∧ (s.setChannel c ch).commission = s.commission ∧
    (s.setChannel c ch).settings = s.settings ∧ (s.setChannel c ch).table = s.table ∧
    (s.setChannel c ch).groups = s.groups ∧ (s.setChannel c ch).converter = s.converter ∧
    (s.setChannel c ch).smoothing = s.smoothing ∧ (s.setChannel c ch).port = s.port ∧
    (s.setChannel c ch).pulse0 = s.pulse0 ∧ (s.setChannel c ch).pulse1 = s.pulse1 ∧
    (s.setChannel c ch).inputs = s.inputs ∧ (s.setChannel c ch).publications = s.publications ∧
    (s.setChannel c ch).conveyor = s.conveyor ∧ (s.setChannel c ch).panel = s.panel ∧
    (s.setChannel c ch).latch = s.latch ∧ (s.setChannel c ch).beltHold = s.beltHold ∧
    (s.setChannel c ch).faults = s.faults ∧ (s.setChannel c ch).statusTimer = s.statusTimer ∧
    (s.setChannel c ch).line = s.line ∧ (s.setChannel c ch).store = s.store ∧
    (s.setChannel c ch).pending = s.pending := by
  (repeat' apply And.intro) <;> (cases c <;> simp [State.setChannel])

@[simp] theorem State.setChannel_same (s : State) (c : ChannelId) (ch : Channel) : (s.setChannel c ch).channel c = ch := by
  cases c <;> rfl

theorem State.setChannel_other (s : State) {c d : ChannelId} (h : d ≠ c) (ch : Channel) :
    (s.setChannel c ch).channel d = s.channel d := by
  cases c <;> cases d <;> first | rfl | exact absurd rfl h

@[simp] theorem State.withdrawCheck_fields (s : State) (c : ChannelId) :
    (s.withdrawCheck c).now = s.now ∧ (s.withdrawCheck c).supply = s.supply ∧
    (s.withdrawCheck c).resetHeld = s.resetHeld ∧ (s.withdrawCheck c).station = s.station ∧
    (s.withdrawCheck c).number = s.number ∧ (s.withdrawCheck c).commission = s.commission ∧
    (s.withdrawCheck c).settings = s.settings ∧ (s.withdrawCheck c).table = s.table ∧
    (s.withdrawCheck c).groups = s.groups ∧ (s.withdrawCheck c).smoothing = s.smoothing ∧
    (s.withdrawCheck c).port = s.port ∧ (s.withdrawCheck c).pulse0 = s.pulse0 ∧
    (s.withdrawCheck c).pulse1 = s.pulse1 ∧ (s.withdrawCheck c).inputs = s.inputs ∧
    (s.withdrawCheck c).publications = s.publications ∧ (s.withdrawCheck c).chanA = s.chanA ∧
    (s.withdrawCheck c).chanB = s.chanB ∧ (s.withdrawCheck c).conveyor = s.conveyor ∧
    (s.withdrawCheck c).panel = s.panel ∧ (s.withdrawCheck c).latch = s.latch ∧
    (s.withdrawCheck c).beltHold = s.beltHold ∧ (s.withdrawCheck c).faults = s.faults ∧
    (s.withdrawCheck c).statusTimer = s.statusTimer ∧ (s.withdrawCheck c).line = s.line ∧
    (s.withdrawCheck c).store = s.store ∧ (s.withdrawCheck c).pending = s.pending := by
  (repeat' apply And.intro) <;> (simp [State.withdrawCheck])

@[simp] theorem State.withdrawCheck_channel (s : State) (c d : ChannelId) : (s.withdrawCheck c).channel d = s.channel d := by
  cases d <;> rfl

@[simp] theorem State.startConversion_fields (s : State) (u : ConversionUser) :
    (s.startConversion u).now = s.now ∧ (s.startConversion u).supply = s.supply ∧
    (s.startConversion u).resetHeld = s.resetHeld ∧ (s.startConversion u).station = s.station ∧
    (s.startConversion u).number = s.number ∧ (s.startConversion u).commission = s.commission ∧
    (s.startConversion u).settings = s.settings ∧ (s.startConversion u).table = s.table ∧
    (s.startConversion u).groups = s.groups ∧ (s.startConversion u).smoothing = s.smoothing ∧
    (s.startConversion u).port = s.port ∧ (s.startConversion u).pulse0 = s.pulse0 ∧
    (s.startConversion u).pulse1 = s.pulse1 ∧ (s.startConversion u).inputs = s.inputs ∧
    (s.startConversion u).publications = s.publications ∧ (s.startConversion u).chanA = s.chanA ∧
    (s.startConversion u).chanB = s.chanB ∧ (s.startConversion u).conveyor = s.conveyor ∧
    (s.startConversion u).panel = s.panel ∧ (s.startConversion u).latch = s.latch ∧
    (s.startConversion u).beltHold = s.beltHold ∧ (s.startConversion u).faults = s.faults ∧
    (s.startConversion u).statusTimer = s.statusTimer ∧ (s.startConversion u).line = s.line ∧
    (s.startConversion u).store = s.store ∧ (s.startConversion u).pending = s.pending := by
  (repeat' apply And.intro) <;> (simp [State.startConversion])

@[simp] theorem State.requestCheck_fields (s : State) (c : ChannelId) (i : Int) :
    (s.requestCheck c i).now = s.now ∧ (s.requestCheck c i).supply = s.supply ∧
    (s.requestCheck c i).resetHeld = s.resetHeld ∧ (s.requestCheck c i).station = s.station ∧
    (s.requestCheck c i).number = s.number ∧ (s.requestCheck c i).commission = s.commission ∧
    (s.requestCheck c i).settings = s.settings ∧ (s.requestCheck c i).table = s.table ∧
    (s.requestCheck c i).groups = s.groups ∧ (s.requestCheck c i).smoothing = s.smoothing ∧
    (s.requestCheck c i).port = s.port ∧ (s.requestCheck c i).pulse0 = s.pulse0 ∧
    (s.requestCheck c i).pulse1 = s.pulse1 ∧ (s.requestCheck c i).inputs = s.inputs ∧
    (s.requestCheck c i).publications = s.publications ∧ (s.requestCheck c i).chanA = s.chanA ∧
    (s.requestCheck c i).chanB = s.chanB ∧ (s.requestCheck c i).conveyor = s.conveyor ∧
    (s.requestCheck c i).panel = s.panel ∧ (s.requestCheck c i).latch = s.latch ∧
    (s.requestCheck c i).beltHold = s.beltHold ∧ (s.requestCheck c i).faults = s.faults ∧
    (s.requestCheck c i).statusTimer = s.statusTimer ∧ (s.requestCheck c i).line = s.line ∧
    (s.requestCheck c i).store = s.store ∧ (s.requestCheck c i).pending = s.pending := by
  (repeat' apply And.intro) <;> (unfold State.requestCheck; split <;> simp)

@[simp] theorem State.setGroup_fields (s : State) (n : Fin 4) (g : GroupRun) :
    (s.setGroup n g).now = s.now ∧ (s.setGroup n g).supply = s.supply ∧ (s.setGroup n g).resetHeld = s.resetHeld ∧
    (s.setGroup n g).station = s.station ∧ (s.setGroup n g).number = s.number ∧
    (s.setGroup n g).commission = s.commission ∧ (s.setGroup n g).settings = s.settings ∧
    (s.setGroup n g).table = s.table ∧ (s.setGroup n g).converter = s.converter ∧
    (s.setGroup n g).smoothing = s.smoothing ∧ (s.setGroup n g).port = s.port ∧ (s.setGroup n g).pulse0 = s.pulse0 ∧
    (s.setGroup n g).pulse1 = s.pulse1 ∧ (s.setGroup n g).inputs = s.inputs ∧
    (s.setGroup n g).publications = s.publications ∧ (s.setGroup n g).chanA = s.chanA ∧
    (s.setGroup n g).chanB = s.chanB ∧ (s.setGroup n g).conveyor = s.conveyor ∧ (s.setGroup n g).panel = s.panel ∧
    (s.setGroup n g).latch = s.latch ∧ (s.setGroup n g).beltHold = s.beltHold ∧ (s.setGroup n g).faults = s.faults ∧
    (s.setGroup n g).statusTimer = s.statusTimer ∧ (s.setGroup n g).line = s.line ∧ (s.setGroup n g).store = s.store ∧
    (s.setGroup n g).pending = s.pending := by
  (repeat' apply And.intro) <;> (simp [State.setGroup])

@[simp] theorem State.setConveyor_fields (s : State) (k : Conveyor) :
    (s.setConveyor k).now = s.now ∧ (s.setConveyor k).supply = s.supply ∧ (s.setConveyor k).resetHeld = s.resetHeld ∧
    (s.setConveyor k).station = s.station ∧ (s.setConveyor k).number = s.number ∧
    (s.setConveyor k).commission = s.commission ∧ (s.setConveyor k).settings = s.settings ∧
    (s.setConveyor k).table = s.table ∧ (s.setConveyor k).groups = s.groups ∧
    (s.setConveyor k).converter = s.converter ∧ (s.setConveyor k).smoothing = s.smoothing ∧
    (s.setConveyor k).port = s.port ∧ (s.setConveyor k).pulse0 = s.pulse0 ∧ (s.setConveyor k).pulse1 = s.pulse1 ∧
    (s.setConveyor k).inputs = s.inputs ∧ (s.setConveyor k).publications = s.publications ∧
    (s.setConveyor k).chanA = s.chanA ∧ (s.setConveyor k).chanB = s.chanB ∧ (s.setConveyor k).panel = s.panel ∧
    (s.setConveyor k).latch = s.latch ∧ (s.setConveyor k).beltHold = s.beltHold ∧
    (s.setConveyor k).faults = s.faults ∧ (s.setConveyor k).statusTimer = s.statusTimer ∧
    (s.setConveyor k).line = s.line ∧ (s.setConveyor k).store = s.store ∧ (s.setConveyor k).pending = s.pending := by
  (repeat' apply And.intro) <;> (simp [State.setConveyor])

@[simp] theorem State.setConveyor_conveyor (s : State) (k : Conveyor) : (s.setConveyor k).conveyor = some k := rfl

@[simp] theorem State.setPanel_fields (s : State) (p : PanelValues) :
    (s.setPanel p).now = s.now ∧ (s.setPanel p).supply = s.supply ∧ (s.setPanel p).resetHeld = s.resetHeld ∧
    (s.setPanel p).station = s.station ∧ (s.setPanel p).number = s.number ∧ (s.setPanel p).commission = s.commission ∧
    (s.setPanel p).settings = s.settings ∧ (s.setPanel p).table = s.table ∧ (s.setPanel p).groups = s.groups ∧
    (s.setPanel p).converter = s.converter ∧ (s.setPanel p).smoothing = s.smoothing ∧ (s.setPanel p).port = s.port ∧
    (s.setPanel p).pulse0 = s.pulse0 ∧ (s.setPanel p).pulse1 = s.pulse1 ∧ (s.setPanel p).inputs = s.inputs ∧
    (s.setPanel p).publications = s.publications ∧ (s.setPanel p).chanA = s.chanA ∧ (s.setPanel p).chanB = s.chanB ∧
    (s.setPanel p).conveyor = s.conveyor ∧ (s.setPanel p).latch = s.latch ∧ (s.setPanel p).beltHold = s.beltHold ∧
    (s.setPanel p).faults = s.faults ∧ (s.setPanel p).statusTimer = s.statusTimer ∧ (s.setPanel p).line = s.line ∧
    (s.setPanel p).store = s.store ∧ (s.setPanel p).pending = s.pending := by
  (repeat' apply And.intro) <;> (simp [State.setPanel])

@[simp] theorem State.setInput_fields (s : State) (i : Fin 6) (d : DiscreteInput) :
    (s.setInput i d).now = s.now ∧ (s.setInput i d).supply = s.supply ∧ (s.setInput i d).resetHeld = s.resetHeld ∧
    (s.setInput i d).station = s.station ∧ (s.setInput i d).number = s.number ∧
    (s.setInput i d).commission = s.commission ∧ (s.setInput i d).settings = s.settings ∧
    (s.setInput i d).table = s.table ∧ (s.setInput i d).groups = s.groups ∧ (s.setInput i d).converter = s.converter ∧
    (s.setInput i d).smoothing = s.smoothing ∧ (s.setInput i d).port = s.port ∧ (s.setInput i d).pulse0 = s.pulse0 ∧
    (s.setInput i d).pulse1 = s.pulse1 ∧ (s.setInput i d).publications = s.publications ∧
    (s.setInput i d).chanA = s.chanA ∧ (s.setInput i d).chanB = s.chanB ∧ (s.setInput i d).conveyor = s.conveyor ∧
    (s.setInput i d).panel = s.panel ∧ (s.setInput i d).latch = s.latch ∧ (s.setInput i d).beltHold = s.beltHold ∧
    (s.setInput i d).faults = s.faults ∧ (s.setInput i d).statusTimer = s.statusTimer ∧
    (s.setInput i d).line = s.line ∧ (s.setInput i d).store = s.store ∧ (s.setInput i d).pending = s.pending := by
  (repeat' apply And.intro) <;> (simp [State.setInput])

@[simp] theorem State.setPulse_fields (s : State) (i : PulseInput) (p : PulseState) :
    (s.setPulse i p).now = s.now ∧ (s.setPulse i p).supply = s.supply ∧ (s.setPulse i p).resetHeld = s.resetHeld ∧
    (s.setPulse i p).station = s.station ∧ (s.setPulse i p).number = s.number ∧
    (s.setPulse i p).commission = s.commission ∧ (s.setPulse i p).settings = s.settings ∧
    (s.setPulse i p).table = s.table ∧ (s.setPulse i p).groups = s.groups ∧ (s.setPulse i p).converter = s.converter ∧
    (s.setPulse i p).smoothing = s.smoothing ∧ (s.setPulse i p).port = s.port ∧ (s.setPulse i p).inputs = s.inputs ∧
    (s.setPulse i p).publications = s.publications ∧ (s.setPulse i p).chanA = s.chanA ∧
    (s.setPulse i p).chanB = s.chanB ∧ (s.setPulse i p).conveyor = s.conveyor ∧ (s.setPulse i p).panel = s.panel ∧
    (s.setPulse i p).latch = s.latch ∧ (s.setPulse i p).beltHold = s.beltHold ∧ (s.setPulse i p).faults = s.faults ∧
    (s.setPulse i p).statusTimer = s.statusTimer ∧ (s.setPulse i p).line = s.line ∧ (s.setPulse i p).store = s.store ∧
    (s.setPulse i p).pending = s.pending := by
  (repeat' apply And.intro) <;> (cases i <;> simp [State.setPulse])

@[simp] theorem State.updateEntry_fields (s : State) (k : Key) (f : Entry → Entry) :
    (s.updateEntry k f).now = s.now ∧ (s.updateEntry k f).supply = s.supply ∧
    (s.updateEntry k f).resetHeld = s.resetHeld ∧ (s.updateEntry k f).station = s.station ∧
    (s.updateEntry k f).number = s.number ∧ (s.updateEntry k f).commission = s.commission ∧
    (s.updateEntry k f).settings = s.settings ∧ (s.updateEntry k f).groups = s.groups ∧
    (s.updateEntry k f).converter = s.converter ∧ (s.updateEntry k f).smoothing = s.smoothing ∧
    (s.updateEntry k f).port = s.port ∧ (s.updateEntry k f).pulse0 = s.pulse0 ∧
    (s.updateEntry k f).pulse1 = s.pulse1 ∧ (s.updateEntry k f).inputs = s.inputs ∧
    (s.updateEntry k f).publications = s.publications ∧ (s.updateEntry k f).chanA = s.chanA ∧
    (s.updateEntry k f).chanB = s.chanB ∧ (s.updateEntry k f).conveyor = s.conveyor ∧
    (s.updateEntry k f).panel = s.panel ∧ (s.updateEntry k f).latch = s.latch ∧
    (s.updateEntry k f).beltHold = s.beltHold ∧ (s.updateEntry k f).faults = s.faults ∧
    (s.updateEntry k f).statusTimer = s.statusTimer ∧ (s.updateEntry k f).line = s.line ∧
    (s.updateEntry k f).store = s.store ∧ (s.updateEntry k f).pending = s.pending := by
  (repeat' apply And.intro) <;> (simp [State.updateEntry])

@[simp] theorem State.deliver_fields (s : State) (k : Key) (q : Quality) (v : Option Int) :
    (s.deliver k q v).now = s.now ∧ (s.deliver k q v).supply = s.supply ∧ (s.deliver k q v).resetHeld = s.resetHeld ∧
    (s.deliver k q v).station = s.station ∧ (s.deliver k q v).number = s.number ∧
    (s.deliver k q v).commission = s.commission ∧ (s.deliver k q v).settings = s.settings ∧
    (s.deliver k q v).groups = s.groups ∧ (s.deliver k q v).converter = s.converter ∧
    (s.deliver k q v).smoothing = s.smoothing ∧ (s.deliver k q v).port = s.port ∧
    (s.deliver k q v).pulse0 = s.pulse0 ∧ (s.deliver k q v).pulse1 = s.pulse1 ∧ (s.deliver k q v).inputs = s.inputs ∧
    (s.deliver k q v).publications = s.publications ∧ (s.deliver k q v).chanA = s.chanA ∧
    (s.deliver k q v).chanB = s.chanB ∧ (s.deliver k q v).conveyor = s.conveyor ∧ (s.deliver k q v).panel = s.panel ∧
    (s.deliver k q v).latch = s.latch ∧ (s.deliver k q v).beltHold = s.beltHold ∧
    (s.deliver k q v).faults = s.faults ∧ (s.deliver k q v).statusTimer = s.statusTimer ∧
    (s.deliver k q v).line = s.line ∧ (s.deliver k q v).store = s.store ∧ (s.deliver k q v).pending = s.pending := by
  (repeat' apply And.intro) <;> (simp only [State.deliver, State.withSettings]; (repeat' split) <;> simp)

@[simp] theorem State.writeBytes_fields (s : State) (r : Byte) (bytes : List Byte) :
    (s.writeBytes r bytes).now = s.now ∧ (s.writeBytes r bytes).supply = s.supply ∧ (s.writeBytes r bytes).resetHeld = s.resetHeld ∧
    (s.writeBytes r bytes).station = s.station ∧ (s.writeBytes r bytes).number = s.number ∧
    (s.writeBytes r bytes).commission = s.commission ∧ (s.writeBytes r bytes).settings = s.settings ∧
    (s.writeBytes r bytes).table = s.table ∧ (s.writeBytes r bytes).groups = s.groups ∧
    (s.writeBytes r bytes).converter = s.converter ∧ (s.writeBytes r bytes).smoothing = s.smoothing ∧
    (s.writeBytes r bytes).port = s.port ∧ (s.writeBytes r bytes).pulse0 = s.pulse0 ∧ (s.writeBytes r bytes).pulse1 = s.pulse1 ∧
    (s.writeBytes r bytes).inputs = s.inputs ∧ (s.writeBytes r bytes).publications = s.publications ∧
    (s.writeBytes r bytes).chanA = s.chanA ∧ (s.writeBytes r bytes).chanB = s.chanB ∧ (s.writeBytes r bytes).conveyor = s.conveyor ∧
    (s.writeBytes r bytes).panel = s.panel ∧ (s.writeBytes r bytes).latch = s.latch ∧ (s.writeBytes r bytes).beltHold = s.beltHold ∧
    (s.writeBytes r bytes).faults = s.faults ∧ (s.writeBytes r bytes).statusTimer = s.statusTimer ∧
    (s.writeBytes r bytes).line = s.line ∧ (s.writeBytes r bytes).pending = s.pending := by
  (repeat' apply And.intro) <;> (simp [State.writeBytes])

@[simp] theorem State.beginOp_fields (s : State) (c : StoreCommand) (r : Byte) (d : Nat) :
    (s.beginOp c r d).now = s.now ∧ (s.beginOp c r d).supply = s.supply ∧ (s.beginOp c r d).resetHeld = s.resetHeld ∧
    (s.beginOp c r d).station = s.station ∧ (s.beginOp c r d).number = s.number ∧
    (s.beginOp c r d).commission = s.commission ∧ (s.beginOp c r d).settings = s.settings ∧
    (s.beginOp c r d).table = s.table ∧ (s.beginOp c r d).groups = s.groups ∧
    (s.beginOp c r d).converter = s.converter ∧ (s.beginOp c r d).smoothing = s.smoothing ∧
    (s.beginOp c r d).port = s.port ∧ (s.beginOp c r d).pulse0 = s.pulse0 ∧ (s.beginOp c r d).pulse1 = s.pulse1 ∧
    (s.beginOp c r d).inputs = s.inputs ∧ (s.beginOp c r d).publications = s.publications ∧
    (s.beginOp c r d).chanA = s.chanA ∧ (s.beginOp c r d).chanB = s.chanB ∧ (s.beginOp c r d).conveyor = s.conveyor ∧
    (s.beginOp c r d).panel = s.panel ∧ (s.beginOp c r d).latch = s.latch ∧ (s.beginOp c r d).beltHold = s.beltHold ∧
    (s.beginOp c r d).faults = s.faults ∧ (s.beginOp c r d).statusTimer = s.statusTimer ∧
    (s.beginOp c r d).line = s.line ∧ (s.beginOp c r d).pending = s.pending := by
  (repeat' apply And.intro) <;> (simp [State.beginOp])

@[simp] theorem State.endOp_fields (s : State) (m : Memory) (l : Bool) :
    (s.endOp m l).now = s.now ∧ (s.endOp m l).supply = s.supply ∧ (s.endOp m l).resetHeld = s.resetHeld ∧
    (s.endOp m l).station = s.station ∧ (s.endOp m l).number = s.number ∧ (s.endOp m l).commission = s.commission ∧
    (s.endOp m l).settings = s.settings ∧ (s.endOp m l).table = s.table ∧ (s.endOp m l).groups = s.groups ∧
    (s.endOp m l).converter = s.converter ∧ (s.endOp m l).smoothing = s.smoothing ∧ (s.endOp m l).port = s.port ∧
    (s.endOp m l).pulse0 = s.pulse0 ∧ (s.endOp m l).pulse1 = s.pulse1 ∧ (s.endOp m l).inputs = s.inputs ∧
    (s.endOp m l).publications = s.publications ∧ (s.endOp m l).chanA = s.chanA ∧ (s.endOp m l).chanB = s.chanB ∧
    (s.endOp m l).conveyor = s.conveyor ∧ (s.endOp m l).panel = s.panel ∧ (s.endOp m l).latch = s.latch ∧
    (s.endOp m l).beltHold = s.beltHold ∧ (s.endOp m l).faults = s.faults ∧
    (s.endOp m l).statusTimer = s.statusTimer ∧ (s.endOp m l).line = s.line ∧ (s.endOp m l).pending = s.pending := by
  (repeat' apply And.intro) <;> (simp [State.endOp])

@[simp] theorem State.endOp_store (s : State) (m : Memory) (l : Bool) : (s.endOp m l).store = ⟨m, l, none⟩ := rfl

end Sys2Proof.Machine
end

