-- ==== Sys2Proof/Laws/Frames.lean ====
section
/-! SUPPORT. The composed operations, field by field: every field that is not listed here may change. -/

namespace Sys2Proof.Machine

/-- A field that every step of a fold keeps is kept by the fold. -/
theorem foldl_keeps {α β γ : Type} (p : α → γ) (f : α → β → α) (h : ∀ a b, p (f a b) = p a) (l : List β) (a : α) :
    p (l.foldl f a) = p a := by
  induction l generalizing a with
  | nil => rfl
  | cons b l ih => simp only [List.foldl_cons, ih, h]

@[simp] theorem State.putChannel_fields (s : State) (c : ChannelId) (ch : Channel) :
    (s.putChannel c ch).now = s.now ∧ (s.putChannel c ch).supply = s.supply ∧
    (s.putChannel c ch).resetHeld = s.resetHeld ∧ (s.putChannel c ch).station = s.station ∧
    (s.putChannel c ch).number = s.number ∧ (s.putChannel c ch).commission = s.commission ∧
    (s.putChannel c ch).settings = s.settings ∧ (s.putChannel c ch).table = s.table ∧
    (s.putChannel c ch).groups = s.groups ∧ (s.putChannel c ch).converter = s.converter ∧
    (s.putChannel c ch).smoothing = s.smoothing ∧ (s.putChannel c ch).port = s.port ∧
    (s.putChannel c ch).pulse0 = s.pulse0 ∧ (s.putChannel c ch).pulse1 = s.pulse1 ∧
    (s.putChannel c ch).inputs = s.inputs ∧ (s.putChannel c ch).publications = s.publications ∧
    (s.putChannel c ch).panel = s.panel ∧ (s.putChannel c ch).latch = s.latch ∧
    (s.putChannel c ch).beltHold = s.beltHold ∧ (s.putChannel c ch).faults = s.faults ∧
    (s.putChannel c ch).statusTimer = s.statusTimer ∧ (s.putChannel c ch).store = s.store ∧
    (s.putChannel c ch).pending = s.pending := by
  (repeat' apply And.intro) <;> (simp only [State.putChannel]; (repeat' split) <;> simp)

@[simp] theorem State.dropCoilCode_fields (s : State) (c : ChannelId) :
    (s.dropCoilCode c).now = s.now ∧ (s.dropCoilCode c).supply = s.supply ∧
    (s.dropCoilCode c).resetHeld = s.resetHeld ∧ (s.dropCoilCode c).station = s.station ∧
    (s.dropCoilCode c).number = s.number ∧ (s.dropCoilCode c).commission = s.commission ∧
    (s.dropCoilCode c).settings = s.settings ∧ (s.dropCoilCode c).table = s.table ∧
    (s.dropCoilCode c).groups = s.groups ∧ (s.dropCoilCode c).converter = s.converter ∧
    (s.dropCoilCode c).smoothing = s.smoothing ∧ (s.dropCoilCode c).port = s.port ∧
    (s.dropCoilCode c).pulse0 = s.pulse0 ∧ (s.dropCoilCode c).pulse1 = s.pulse1 ∧
    (s.dropCoilCode c).inputs = s.inputs ∧ (s.dropCoilCode c).publications = s.publications ∧
    (s.dropCoilCode c).chanA = s.chanA ∧ (s.dropCoilCode c).chanB = s.chanB ∧
    (s.dropCoilCode c).conveyor = s.conveyor ∧ (s.dropCoilCode c).panel = s.panel ∧
    (s.dropCoilCode c).latch = s.latch ∧ (s.dropCoilCode c).beltHold = s.beltHold ∧
    (s.dropCoilCode c).statusTimer = s.statusTimer ∧ (s.dropCoilCode c).store = s.store ∧
    (s.dropCoilCode c).pending = s.pending := by
  (repeat' apply And.intro) <;> (simp only [State.dropCoilCode]; (repeat' split) <;> simp)

@[simp] theorem State.forceChannel_fields (s : State) (c : ChannelId) (st : ChannelState) (h : Option HeldCause) (f : Option CoilFault) (r : Option Clock) :
    (s.forceChannel c st h f r).now = s.now ∧ (s.forceChannel c st h f r).supply = s.supply ∧
    (s.forceChannel c st h f r).resetHeld = s.resetHeld ∧ (s.forceChannel c st h f r).station = s.station ∧
    (s.forceChannel c st h f r).number = s.number ∧ (s.forceChannel c st h f r).commission = s.commission ∧
    (s.forceChannel c st h f r).settings = s.settings ∧ (s.forceChannel c st h f r).table = s.table ∧
    (s.forceChannel c st h f r).groups = s.groups ∧ (s.forceChannel c st h f r).smoothing = s.smoothing ∧
    (s.forceChannel c st h f r).port = s.port ∧ (s.forceChannel c st h f r).pulse0 = s.pulse0 ∧
    (s.forceChannel c st h f r).pulse1 = s.pulse1 ∧ (s.forceChannel c st h f r).inputs = s.inputs ∧
    (s.forceChannel c st h f r).publications = s.publications ∧ (s.forceChannel c st h f r).panel = s.panel ∧
    (s.forceChannel c st h f r).latch = s.latch ∧ (s.forceChannel c st h f r).beltHold = s.beltHold ∧
    (s.forceChannel c st h f r).faults = s.faults ∧ (s.forceChannel c st h f r).statusTimer = s.statusTimer ∧
    (s.forceChannel c st h f r).store = s.store ∧ (s.forceChannel c st h f r).pending = s.pending := by
  (repeat' apply And.intro) <;> (simp [State.forceChannel])

@[simp] theorem State.channelOff_fields (s : State) (c : ChannelId) :
    (s.channelOff c).now = s.now ∧ (s.channelOff c).supply = s.supply ∧ (s.channelOff c).resetHeld = s.resetHeld ∧
    (s.channelOff c).station = s.station ∧ (s.channelOff c).number = s.number ∧
    (s.channelOff c).commission = s.commission ∧ (s.channelOff c).settings = s.settings ∧
    (s.channelOff c).table = s.table ∧ (s.channelOff c).groups = s.groups ∧ (s.channelOff c).smoothing = s.smoothing ∧
    (s.channelOff c).port = s.port ∧ (s.channelOff c).pulse0 = s.pulse0 ∧ (s.channelOff c).pulse1 = s.pulse1 ∧
    (s.channelOff c).inputs = s.inputs ∧ (s.channelOff c).publications = s.publications ∧
    (s.channelOff c).panel = s.panel ∧ (s.channelOff c).latch = s.latch ∧ (s.channelOff c).beltHold = s.beltHold ∧
    (s.channelOff c).statusTimer = s.statusTimer ∧ (s.channelOff c).store = s.store ∧
    (s.channelOff c).pending = s.pending := by
  (repeat' apply And.intro) <;> (simp only [State.channelOff]; (repeat' split) <;> simp)

/-! ### The latch -/

@[simp] theorem State.latchChannel_fields (s : State) (c : ChannelId) :
    (s.latchChannel c).now = s.now ∧ (s.latchChannel c).supply = s.supply ∧
    (s.latchChannel c).resetHeld = s.resetHeld ∧ (s.latchChannel c).station = s.station ∧
    (s.latchChannel c).number = s.number ∧ (s.latchChannel c).commission = s.commission ∧
    (s.latchChannel c).settings = s.settings ∧ (s.latchChannel c).table = s.table ∧
    (s.latchChannel c).groups = s.groups ∧ (s.latchChannel c).smoothing = s.smoothing ∧
    (s.latchChannel c).port = s.port ∧ (s.latchChannel c).pulse0 = s.pulse0 ∧ (s.latchChannel c).pulse1 = s.pulse1 ∧
    (s.latchChannel c).inputs = s.inputs ∧ (s.latchChannel c).publications = s.publications ∧
    (s.latchChannel c).panel = s.panel ∧ (s.latchChannel c).latch = s.latch ∧
    (s.latchChannel c).beltHold = s.beltHold ∧ (s.latchChannel c).faults = s.faults ∧
    (s.latchChannel c).statusTimer = s.statusTimer ∧ (s.latchChannel c).store = s.store ∧
    (s.latchChannel c).pending = s.pending := by
  (repeat' apply And.intro) <;> (simp only [State.latchChannel]; (repeat' split) <;> simp)

@[simp] theorem State.unlatchChannel_fields (s : State) (c : ChannelId) :
    (s.unlatchChannel c).now = s.now ∧ (s.unlatchChannel c).supply = s.supply ∧
    (s.unlatchChannel c).resetHeld = s.resetHeld ∧ (s.unlatchChannel c).station = s.station ∧
    (s.unlatchChannel c).number = s.number ∧ (s.unlatchChannel c).commission = s.commission ∧
    (s.unlatchChannel c).settings = s.settings ∧ (s.unlatchChannel c).table = s.table ∧
    (s.unlatchChannel c).groups = s.groups ∧ (s.unlatchChannel c).converter = s.converter ∧
    (s.unlatchChannel c).smoothing = s.smoothing ∧ (s.unlatchChannel c).port = s.port ∧
    (s.unlatchChannel c).pulse0 = s.pulse0 ∧ (s.unlatchChannel c).pulse1 = s.pulse1 ∧
    (s.unlatchChannel c).inputs = s.inputs ∧ (s.unlatchChannel c).publications = s.publications ∧
    (s.unlatchChannel c).panel = s.panel ∧ (s.unlatchChannel c).latch = s.latch ∧
    (s.unlatchChannel c).beltHold = s.beltHold ∧ (s.unlatchChannel c).faults = s.faults ∧
    (s.unlatchChannel c).statusTimer = s.statusTimer ∧ (s.unlatchChannel c).store = s.store ∧
    (s.unlatchChannel c).pending = s.pending := by
  (repeat' apply And.intro) <;> (simp only [State.unlatchChannel]; (repeat' split) <;> simp)

@[simp] theorem State.setLatch_fields (s : State) (r : LatchRecord) :
    (s.setLatch r).now = s.now ∧ (s.setLatch r).supply = s.supply ∧ (s.setLatch r).resetHeld = s.resetHeld ∧
    (s.setLatch r).station = s.station ∧ (s.setLatch r).number = s.number ∧ (s.setLatch r).commission = s.commission ∧
    (s.setLatch r).settings = s.settings ∧ (s.setLatch r).table = s.table ∧ (s.setLatch r).groups = s.groups ∧
    (s.setLatch r).smoothing = s.smoothing ∧ (s.setLatch r).port = s.port ∧ (s.setLatch r).pulse0 = s.pulse0 ∧
    (s.setLatch r).pulse1 = s.pulse1 ∧ (s.setLatch r).inputs = s.inputs ∧
    (s.setLatch r).publications = s.publications ∧ (s.setLatch r).panel = s.panel ∧
    (s.setLatch r).beltHold = s.beltHold ∧ (s.setLatch r).faults = s.faults ∧
    (s.setLatch r).statusTimer = s.statusTimer ∧ (s.setLatch r).store = s.store ∧ (s.setLatch r).pending = s.pending := by
  (repeat' apply And.intro) <;> (simp [State.setLatch])

@[simp] theorem State.clearLatch_fields (s : State) :
    (s.clearLatch).now = s.now ∧ (s.clearLatch).supply = s.supply ∧ (s.clearLatch).resetHeld = s.resetHeld ∧
    (s.clearLatch).station = s.station ∧ (s.clearLatch).number = s.number ∧ (s.clearLatch).commission = s.commission ∧
    (s.clearLatch).settings = s.settings ∧ (s.clearLatch).table = s.table ∧ (s.clearLatch).groups = s.groups ∧
    (s.clearLatch).converter = s.converter ∧ (s.clearLatch).smoothing = s.smoothing ∧ (s.clearLatch).port = s.port ∧
    (s.clearLatch).pulse0 = s.pulse0 ∧ (s.clearLatch).pulse1 = s.pulse1 ∧ (s.clearLatch).inputs = s.inputs ∧
    (s.clearLatch).publications = s.publications ∧ (s.clearLatch).panel = s.panel ∧
    (s.clearLatch).beltHold = s.beltHold ∧ (s.clearLatch).statusTimer = s.statusTimer ∧
    (s.clearLatch).store = s.store ∧ (s.clearLatch).pending = s.pending := by
  (repeat' apply And.intro) <;> (simp [State.clearLatch])

@[simp] theorem State.raiseCause_fields (s : State) (k d : Byte) :
    (s.raiseCause k d).now = s.now ∧ (s.raiseCause k d).supply = s.supply ∧
    (s.raiseCause k d).resetHeld = s.resetHeld ∧ (s.raiseCause k d).station = s.station ∧
    (s.raiseCause k d).number = s.number ∧ (s.raiseCause k d).commission = s.commission ∧
    (s.raiseCause k d).settings = s.settings ∧ (s.raiseCause k d).table = s.table ∧
    (s.raiseCause k d).groups = s.groups ∧ (s.raiseCause k d).smoothing = s.smoothing ∧
    (s.raiseCause k d).port = s.port ∧ (s.raiseCause k d).pulse0 = s.pulse0 ∧ (s.raiseCause k d).pulse1 = s.pulse1 ∧
    (s.raiseCause k d).inputs = s.inputs ∧ (s.raiseCause k d).publications = s.publications ∧
    (s.raiseCause k d).panel = s.panel ∧ (s.raiseCause k d).beltHold = s.beltHold ∧
    (s.raiseCause k d).faults = s.faults ∧ (s.raiseCause k d).statusTimer = s.statusTimer ∧
    (s.raiseCause k d).store = s.store ∧ (s.raiseCause k d).pending = s.pending := by
  (repeat' apply And.intro) <;> (simp only [State.raiseCause]; (repeat' split) <;> simp)

@[simp] theorem State.takeHalt_fields (s : State) (n : BitVec 4) (k d : Byte) :
    (s.takeHalt n k d).now = s.now ∧ (s.takeHalt n k d).supply = s.supply ∧
    (s.takeHalt n k d).resetHeld = s.resetHeld ∧ (s.takeHalt n k d).station = s.station ∧
    (s.takeHalt n k d).number = s.number ∧ (s.takeHalt n k d).commission = s.commission ∧
    (s.takeHalt n k d).settings = s.settings ∧ (s.takeHalt n k d).table = s.table ∧
    (s.takeHalt n k d).groups = s.groups ∧ (s.takeHalt n k d).smoothing = s.smoothing ∧
    (s.takeHalt n k d).port = s.port ∧ (s.takeHalt n k d).pulse0 = s.pulse0 ∧ (s.takeHalt n k d).pulse1 = s.pulse1 ∧
    (s.takeHalt n k d).inputs = s.inputs ∧ (s.takeHalt n k d).publications = s.publications ∧
    (s.takeHalt n k d).panel = s.panel ∧ (s.takeHalt n k d).beltHold = s.beltHold ∧
    (s.takeHalt n k d).faults = s.faults ∧ (s.takeHalt n k d).statusTimer = s.statusTimer ∧
    (s.takeHalt n k d).store = s.store ∧ (s.takeHalt n k d).pending = s.pending := by
  (repeat' apply And.intro) <;> (simp only [State.takeHalt]; (repeat' split) <;> simp)

@[simp] theorem State.takeRelease_fields (s : State) (n : BitVec 4) :
    (s.takeRelease n).now = s.now ∧ (s.takeRelease n).supply = s.supply ∧ (s.takeRelease n).resetHeld = s.resetHeld ∧
    (s.takeRelease n).station = s.station ∧ (s.takeRelease n).number = s.number ∧
    (s.takeRelease n).commission = s.commission ∧ (s.takeRelease n).settings = s.settings ∧
    (s.takeRelease n).table = s.table ∧ (s.takeRelease n).groups = s.groups ∧
    (s.takeRelease n).smoothing = s.smoothing ∧ (s.takeRelease n).port = s.port ∧
    (s.takeRelease n).pulse0 = s.pulse0 ∧ (s.takeRelease n).pulse1 = s.pulse1 ∧ (s.takeRelease n).inputs = s.inputs ∧
    (s.takeRelease n).publications = s.publications ∧ (s.takeRelease n).panel = s.panel ∧
    (s.takeRelease n).beltHold = s.beltHold ∧ (s.takeRelease n).statusTimer = s.statusTimer ∧
    (s.takeRelease n).store = s.store ∧ (s.takeRelease n).pending = s.pending := by
  (repeat' apply And.intro) <;> (simp only [State.takeRelease, State.withSettings]; (repeat' split) <;> simp)

@[simp] theorem State.pressRelease_fields (s : State) :
    (s.pressRelease).now = s.now ∧ (s.pressRelease).supply = s.supply ∧ (s.pressRelease).resetHeld = s.resetHeld ∧
    (s.pressRelease).station = s.station ∧ (s.pressRelease).number = s.number ∧
    (s.pressRelease).commission = s.commission ∧ (s.pressRelease).settings = s.settings ∧
    (s.pressRelease).table = s.table ∧ (s.pressRelease).groups = s.groups ∧ (s.pressRelease).smoothing = s.smoothing ∧
    (s.pressRelease).port = s.port ∧ (s.pressRelease).pulse0 = s.pulse0 ∧ (s.pressRelease).pulse1 = s.pulse1 ∧
    (s.pressRelease).inputs = s.inputs ∧ (s.pressRelease).publications = s.publications ∧
    (s.pressRelease).panel = s.panel ∧ (s.pressRelease).beltHold = s.beltHold ∧
    (s.pressRelease).statusTimer = s.statusTimer ∧ (s.pressRelease).store = s.store ∧
    (s.pressRelease).pending = s.pending := by
  (repeat' apply And.intro) <;> (simp only [State.pressRelease]; (repeat' split) <;> simp)

@[simp] theorem State.haltButton_fields (s : State) (i : Fin 6) (l : Bool) :
    (s.haltButton i l).now = s.now ∧ (s.haltButton i l).supply = s.supply ∧
    (s.haltButton i l).resetHeld = s.resetHeld ∧ (s.haltButton i l).station = s.station ∧
    (s.haltButton i l).number = s.number ∧ (s.haltButton i l).commission = s.commission ∧
    (s.haltButton i l).settings = s.settings ∧ (s.haltButton i l).table = s.table ∧
    (s.haltButton i l).groups = s.groups ∧ (s.haltButton i l).smoothing = s.smoothing ∧
    (s.haltButton i l).port = s.port ∧ (s.haltButton i l).pulse0 = s.pulse0 ∧ (s.haltButton i l).pulse1 = s.pulse1 ∧
    (s.haltButton i l).inputs = s.inputs ∧ (s.haltButton i l).publications = s.publications ∧
    (s.haltButton i l).panel = s.panel ∧ (s.haltButton i l).beltHold = s.beltHold ∧
    (s.haltButton i l).faults = s.faults ∧ (s.haltButton i l).statusTimer = s.statusTimer ∧
    (s.haltButton i l).store = s.store ∧ (s.haltButton i l).pending = s.pending := by
  (repeat' apply And.intro) <;> (simp only [State.haltButton]; (repeat' split) <;> simp)

/-! ### Targets, mode requests, acceptance -/

@[simp] theorem State.mapTarget_fields (s : State) (c : ChannelId) (f : TargetRecord → TargetRecord) :
    (s.mapTarget c f).now = s.now ∧ (s.mapTarget c f).supply = s.supply ∧ (s.mapTarget c f).resetHeld = s.resetHeld ∧
    (s.mapTarget c f).station = s.station ∧ (s.mapTarget c f).number = s.number ∧
    (s.mapTarget c f).commission = s.commission ∧ (s.mapTarget c f).settings = s.settings ∧
    (s.mapTarget c f).table = s.table ∧ (s.mapTarget c f).groups = s.groups ∧
    (s.mapTarget c f).converter = s.converter ∧ (s.mapTarget c f).smoothing = s.smoothing ∧
    (s.mapTarget c f).port = s.port ∧ (s.mapTarget c f).pulse0 = s.pulse0 ∧ (s.mapTarget c f).pulse1 = s.pulse1 ∧
    (s.mapTarget c f).inputs = s.inputs ∧ (s.mapTarget c f).publications = s.publications ∧
    (s.mapTarget c f).conveyor = s.conveyor ∧ (s.mapTarget c f).panel = s.panel ∧ (s.mapTarget c f).latch = s.latch ∧
    (s.mapTarget c f).beltHold = s.beltHold ∧ (s.mapTarget c f).faults = s.faults ∧
    (s.mapTarget c f).statusTimer = s.statusTimer ∧ (s.mapTarget c f).line = s.line ∧
    (s.mapTarget c f).store = s.store ∧ (s.mapTarget c f).pending = s.pending := by
  (repeat' apply And.intro) <;> (simp [State.mapTarget])

@[simp] theorem State.handTarget_fields (s : State) (st : Settings) (c : ChannelId) (q : BitVec 6) (v : Int) :
    (s.handTarget st c q v).now = s.now ∧ (s.handTarget st c q v).supply = s.supply ∧
    (s.handTarget st c q v).resetHeld = s.resetHeld ∧ (s.handTarget st c q v).station = s.station ∧
    (s.handTarget st c q v).number = s.number ∧ (s.handTarget st c q v).commission = s.commission ∧
    (s.handTarget st c q v).settings = s.settings ∧ (s.handTarget st c q v).table = s.table ∧
    (s.handTarget st c q v).groups = s.groups ∧ (s.handTarget st c q v).converter = s.converter ∧
    (s.handTarget st c q v).smoothing = s.smoothing ∧ (s.handTarget st c q v).port = s.port ∧
    (s.handTarget st c q v).pulse0 = s.pulse0 ∧ (s.handTarget st c q v).pulse1 = s.pulse1 ∧
    (s.handTarget st c q v).inputs = s.inputs ∧ (s.handTarget st c q v).publications = s.publications ∧
    (s.handTarget st c q v).conveyor = s.conveyor ∧ (s.handTarget st c q v).panel = s.panel ∧
    (s.handTarget st c q v).latch = s.latch ∧ (s.handTarget st c q v).beltHold = s.beltHold ∧
    (s.handTarget st c q v).faults = s.faults ∧ (s.handTarget st c q v).statusTimer = s.statusTimer ∧
    (s.handTarget st c q v).line = s.line ∧ (s.handTarget st c q v).store = s.store ∧
    (s.handTarget st c q v).pending = s.pending := by
  (repeat' apply And.intro) <;> (simp only [State.handTarget]; (repeat' split) <;> simp)

@[simp] theorem State.handAction_fields (s : State) (st : Settings) (c : ChannelId) (k : Byte) :
    (s.handAction st c k).now = s.now ∧ (s.handAction st c k).supply = s.supply ∧
    (s.handAction st c k).resetHeld = s.resetHeld ∧ (s.handAction st c k).station = s.station ∧
    (s.handAction st c k).number = s.number ∧ (s.handAction st c k).commission = s.commission ∧
    (s.handAction st c k).settings = s.settings ∧ (s.handAction st c k).table = s.table ∧
    (s.handAction st c k).groups = s.groups ∧ (s.handAction st c k).converter = s.converter ∧
    (s.handAction st c k).smoothing = s.smoothing ∧ (s.handAction st c k).port = s.port ∧
    (s.handAction st c k).pulse0 = s.pulse0 ∧ (s.handAction st c k).pulse1 = s.pulse1 ∧
    (s.handAction st c k).inputs = s.inputs ∧ (s.handAction st c k).publications = s.publications ∧
    (s.handAction st c k).conveyor = s.conveyor ∧ (s.handAction st c k).panel = s.panel ∧
    (s.handAction st c k).latch = s.latch ∧ (s.handAction st c k).beltHold = s.beltHold ∧
    (s.handAction st c k).faults = s.faults ∧ (s.handAction st c k).statusTimer = s.statusTimer ∧
    (s.handAction st c k).line = s.line ∧ (s.handAction st c k).store = s.store ∧
    (s.handAction st c k).pending = s.pending := by
  (repeat' apply And.intro) <;> (simp only [State.handAction]; (repeat' split) <;> simp)

@[simp] theorem State.requestManual_fields (s : State) (c : ChannelId) :
    (s.requestManual c).now = s.now ∧ (s.requestManual c).supply = s.supply ∧
    (s.requestManual c).resetHeld = s.resetHeld ∧ (s.requestManual c).station = s.station ∧
    (s.requestManual c).number = s.number ∧ (s.requestManual c).commission = s.commission ∧
    (s.requestManual c).settings = s.settings ∧ (s.requestManual c).table = s.table ∧
    (s.requestManual c).groups = s.groups ∧ (s.requestManual c).converter = s.converter ∧
    (s.requestManual c).smoothing = s.smoothing ∧ (s.requestManual c).port = s.port ∧
    (s.requestManual c).pulse0 = s.pulse0 ∧ (s.requestManual c).pulse1 = s.pulse1 ∧
    (s.requestManual c).inputs = s.inputs ∧ (s.requestManual c).publications = s.publications ∧
    (s.requestManual c).panel = s.panel ∧ (s.requestManual c).latch = s.latch ∧
    (s.requestManual c).beltHold = s.beltHold ∧ (s.requestManual c).statusTimer = s.statusTimer ∧
    (s.requestManual c).store = s.store ∧ (s.requestManual c).pending = s.pending := by
  (repeat' apply And.intro) <;> (simp only [State.requestManual]; (repeat' split) <;> simp)

@[simp] theorem State.enterAuto_fields (s : State) (c : ChannelId) :
    (s.enterAuto c).now = s.now ∧ (s.enterAuto c).supply = s.supply ∧ (s.enterAuto c).resetHeld = s.resetHeld ∧
    (s.enterAuto c).station = s.station ∧ (s.enterAuto c).number = s.number ∧
    (s.enterAuto c).commission = s.commission ∧ (s.enterAuto c).settings = s.settings ∧
    (s.enterAuto c).table = s.table ∧ (s.enterAuto c).groups = s.groups ∧ (s.enterAuto c).converter = s.converter ∧
    (s.enterAuto c).smoothing = s.smoothing ∧ (s.enterAuto c).port = s.port ∧ (s.enterAuto c).pulse0 = s.pulse0 ∧
    (s.enterAuto c).pulse1 = s.pulse1 ∧ (s.enterAuto c).inputs = s.inputs ∧
    (s.enterAuto c).publications = s.publications ∧ (s.enterAuto c).panel = s.panel ∧
    (s.enterAuto c).latch = s.latch ∧ (s.enterAuto c).beltHold = s.beltHold ∧
    (s.enterAuto c).statusTimer = s.statusTimer ∧ (s.enterAuto c).store = s.store ∧
    (s.enterAuto c).pending = s.pending := by
  (repeat' apply And.intro) <;> (simp only [State.enterAuto]; (repeat' split) <;> simp)

@[simp] theorem State.requestAuto_fields (s : State) (cd : ChannelDef) (c : ChannelId) :
    (s.requestAuto cd c).now = s.now ∧ (s.requestAuto cd c).supply = s.supply ∧
    (s.requestAuto cd c).resetHeld = s.resetHeld ∧ (s.requestAuto cd c).station = s.station ∧
    (s.requestAuto cd c).number = s.number ∧ (s.requestAuto cd c).commission = s.commission ∧
    (s.requestAuto cd c).settings = s.settings ∧ (s.requestAuto cd c).table = s.table ∧
    (s.requestAuto cd c).groups = s.groups ∧ (s.requestAuto cd c).converter = s.converter ∧
    (s.requestAuto cd c).smoothing = s.smoothing ∧ (s.requestAuto cd c).port = s.port ∧
    (s.requestAuto cd c).pulse0 = s.pulse0 ∧ (s.requestAuto cd c).pulse1 = s.pulse1 ∧
    (s.requestAuto cd c).inputs = s.inputs ∧ (s.requestAuto cd c).publications = s.publications ∧
    (s.requestAuto cd c).panel = s.panel ∧ (s.requestAuto cd c).latch = s.latch ∧
    (s.requestAuto cd c).beltHold = s.beltHold ∧ (s.requestAuto cd c).statusTimer = s.statusTimer ∧
    (s.requestAuto cd c).store = s.store ∧ (s.requestAuto cd c).pending = s.pending := by
  (repeat' apply And.intro) <;> (simp only [State.requestAuto]; (repeat' split) <;> simp)

@[simp] theorem State.modeRequest_fields (s : State) (st : Settings) (c : ChannelId) (k : Byte) :
    (s.modeRequest st c k).now = s.now ∧ (s.modeRequest st c k).supply = s.supply ∧
    (s.modeRequest st c k).resetHeld = s.resetHeld ∧ (s.modeRequest st c k).station = s.station ∧
    (s.modeRequest st c k).number = s.number ∧ (s.modeRequest st c k).commission = s.commission ∧
    (s.modeRequest st c k).settings = s.settings ∧ (s.modeRequest st c k).table = s.table ∧
    (s.modeRequest st c k).groups = s.groups ∧ (s.modeRequest st c k).smoothing = s.smoothing ∧
    (s.modeRequest st c k).port = s.port ∧ (s.modeRequest st c k).pulse0 = s.pulse0 ∧
    (s.modeRequest st c k).pulse1 = s.pulse1 ∧ (s.modeRequest st c k).inputs = s.inputs ∧
    (s.modeRequest st c k).publications = s.publications ∧ (s.modeRequest st c k).panel = s.panel ∧
    (s.modeRequest st c k).latch = s.latch ∧ (s.modeRequest st c k).beltHold = s.beltHold ∧
    (s.modeRequest st c k).statusTimer = s.statusTimer ∧ (s.modeRequest st c k).store = s.store ∧
    (s.modeRequest st c k).pending = s.pending := by
  (repeat' apply And.intro) <;> (simp only [State.modeRequest]; (repeat' split) <;> simp)

@[simp] theorem State.handTargets_fields (s : State) (st : Settings) (d : QuantityDef) (e : Entry) (b : Bool) (q : BitVec 6) (v : Option Int) :
    (s.handTargets st d e b q v).now = s.now ∧ (s.handTargets st d e b q v).supply = s.supply ∧
    (s.handTargets st d e b q v).resetHeld = s.resetHeld ∧ (s.handTargets st d e b q v).station = s.station ∧
    (s.handTargets st d e b q v).number = s.number ∧ (s.handTargets st d e b q v).commission = s.commission ∧
    (s.handTargets st d e b q v).settings = s.settings ∧ (s.handTargets st d e b q v).table = s.table ∧
    (s.handTargets st d e b q v).groups = s.groups ∧ (s.handTargets st d e b q v).converter = s.converter ∧
    (s.handTargets st d e b q v).smoothing = s.smoothing ∧ (s.handTargets st d e b q v).port = s.port ∧
    (s.handTargets st d e b q v).pulse0 = s.pulse0 ∧ (s.handTargets st d e b q v).pulse1 = s.pulse1 ∧
    (s.handTargets st d e b q v).inputs = s.inputs ∧ (s.handTargets st d e b q v).publications = s.publications ∧
    (s.handTargets st d e b q v).conveyor = s.conveyor ∧ (s.handTargets st d e b q v).panel = s.panel ∧
    (s.handTargets st d e b q v).latch = s.latch ∧ (s.handTargets st d e b q v).beltHold = s.beltHold ∧
    (s.handTargets st d e b q v).faults = s.faults ∧ (s.handTargets st d e b q v).statusTimer = s.statusTimer ∧
    (s.handTargets st d e b q v).line = s.line ∧ (s.handTargets st d e b q v).store = s.store ∧
    (s.handTargets st d e b q v).pending = s.pending := by
  (repeat' apply And.intro) <;> (simp only [State.handTargets]; (repeat' split) <;> simp)

@[simp] theorem State.handActions_fields (s : State) (st : Settings) (e : Entry) (b : Bool) (q : BitVec 6) (v : Option Int) :
    (s.handActions st e b q v).now = s.now ∧ (s.handActions st e b q v).supply = s.supply ∧
    (s.handActions st e b q v).resetHeld = s.resetHeld ∧ (s.handActions st e b q v).station = s.station ∧
    (s.handActions st e b q v).number = s.number ∧ (s.handActions st e b q v).commission = s.commission ∧
    (s.handActions st e b q v).settings = s.settings ∧ (s.handActions st e b q v).table = s.table ∧
    (s.handActions st e b q v).groups = s.groups ∧ (s.handActions st e b q v).smoothing = s.smoothing ∧
    (s.handActions st e b q v).port = s.port ∧ (s.handActions st e b q v).pulse0 = s.pulse0 ∧
    (s.handActions st e b q v).pulse1 = s.pulse1 ∧ (s.handActions st e b q v).inputs = s.inputs ∧
    (s.handActions st e b q v).publications = s.publications ∧ (s.handActions st e b q v).panel = s.panel ∧
    (s.handActions st e b q v).latch = s.latch ∧ (s.handActions st e b q v).beltHold = s.beltHold ∧
    (s.handActions st e b q v).statusTimer = s.statusTimer ∧ (s.handActions st e b q v).store = s.store ∧
    (s.handActions st e b q v).pending = s.pending := by
  (repeat' apply And.intro) <;> (simp only [State.handActions]; (repeat' split) <;> simp)

@[simp] theorem State.handOver_fields (s : State) (st : Settings) (d : QuantityDef) (e : Entry) (b : Bool) (r : RawSample) :
    (s.handOver st d e b r).now = s.now ∧ (s.handOver st d e b r).supply = s.supply ∧
    (s.handOver st d e b r).resetHeld = s.resetHeld ∧ (s.handOver st d e b r).station = s.station ∧
    (s.handOver st d e b r).number = s.number ∧ (s.handOver st d e b r).commission = s.commission ∧
    (s.handOver st d e b r).settings = s.settings ∧ (s.handOver st d e b r).table = s.table ∧
    (s.handOver st d e b r).groups = s.groups ∧ (s.handOver st d e b r).smoothing = s.smoothing ∧
    (s.handOver st d e b r).port = s.port ∧ (s.handOver st d e b r).pulse0 = s.pulse0 ∧
    (s.handOver st d e b r).pulse1 = s.pulse1 ∧ (s.handOver st d e b r).inputs = s.inputs ∧
    (s.handOver st d e b r).publications = s.publications ∧ (s.handOver st d e b r).panel = s.panel ∧
    (s.handOver st d e b r).latch = s.latch ∧ (s.handOver st d e b r).beltHold = s.beltHold ∧
    (s.handOver st d e b r).statusTimer = s.statusTimer ∧ (s.handOver st d e b r).store = s.store ∧
    (s.handOver st d e b r).pending = s.pending := by
  (repeat' apply And.intro) <;> (simp only [State.handOver]; (repeat' split) <;> simp)

@[simp] theorem State.takeSample_fields (s : State) (st : Settings) (d : QuantityDef) (e : Entry) (b : Bool) (r : RawSample) :
    (s.takeSample st d e b r).now = s.now ∧ (s.takeSample st d e b r).supply = s.supply ∧
    (s.takeSample st d e b r).resetHeld = s.resetHeld ∧ (s.takeSample st d e b r).station = s.station ∧
    (s.takeSample st d e b r).number = s.number ∧ (s.takeSample st d e b r).commission = s.commission ∧
    (s.takeSample st d e b r).settings = s.settings ∧ (s.takeSample st d e b r).groups = s.groups ∧
    (s.takeSample st d e b r).smoothing = s.smoothing ∧ (s.takeSample st d e b r).port = s.port ∧
    (s.takeSample st d e b r).pulse0 = s.pulse0 ∧ (s.takeSample st d e b r).pulse1 = s.pulse1 ∧
    (s.takeSample st d e b r).inputs = s.inputs ∧ (s.takeSample st d e b r).publications = s.publications ∧
    (s.takeSample st d e b r).panel = s.panel ∧ (s.takeSample st d e b r).latch = s.latch ∧
    (s.takeSample st d e b r).beltHold = s.beltHold ∧ (s.takeSample st d e b r).statusTimer = s.statusTimer ∧
    (s.takeSample st d e b r).store = s.store ∧ (s.takeSample st d e b r).pending = s.pending := by
  (repeat' apply And.intro) <;> (simp [State.takeSample])

@[simp] theorem State.createEntry_fields (s : State) (st : Settings) (d : QuantityDef) (k : Key) (r : RawSample) :
    (s.createEntry st d k r).now = s.now ∧ (s.createEntry st d k r).supply = s.supply ∧
    (s.createEntry st d k r).resetHeld = s.resetHeld ∧ (s.createEntry st d k r).station = s.station ∧
    (s.createEntry st d k r).number = s.number ∧ (s.createEntry st d k r).commission = s.commission ∧
    (s.createEntry st d k r).settings = s.settings ∧ (s.createEntry st d k r).groups = s.groups ∧
    (s.createEntry st d k r).smoothing = s.smoothing ∧ (s.createEntry st d k r).port = s.port ∧
    (s.createEntry st d k r).pulse0 = s.pulse0 ∧ (s.createEntry st d k r).pulse1 = s.pulse1 ∧
    (s.createEntry st d k r).inputs = s.inputs ∧ (s.createEntry st d k r).publications = s.publications ∧
    (s.createEntry st d k r).panel = s.panel ∧ (s.createEntry st d k r).latch = s.latch ∧
    (s.createEntry st d k r).beltHold = s.beltHold ∧ (s.createEntry st d k r).statusTimer = s.statusTimer ∧
    (s.createEntry st d k r).store = s.store ∧ (s.createEntry st d k r).pending = s.pending := by
  (repeat' apply And.intro) <;> (simp only [State.createEntry]; (repeat' split) <;> simp)

@[simp] theorem State.updatePath_fields (s : State) (st : Settings) (d : QuantityDef) (e : Entry) (r : RawSample) :
    (s.updatePath st d e r).now = s.now ∧ (s.updatePath st d e r).supply = s.supply ∧
    (s.updatePath st d e r).resetHeld = s.resetHeld ∧ (s.updatePath st d e r).station = s.station ∧
    (s.updatePath st d e r).number = s.number ∧ (s.updatePath st d e r).commission = s.commission ∧
    (s.updatePath st d e r).settings = s.settings ∧ (s.updatePath st d e r).groups = s.groups ∧
    (s.updatePath st d e r).smoothing = s.smoothing ∧ (s.updatePath st d e r).port = s.port ∧
    (s.updatePath st d e r).pulse0 = s.pulse0 ∧ (s.updatePath st d e r).pulse1 = s.pulse1 ∧
    (s.updatePath st d e r).inputs = s.inputs ∧ (s.updatePath st d e r).publications = s.publications ∧
    (s.updatePath st d e r).panel = s.panel ∧ (s.updatePath st d e r).latch = s.latch ∧
    (s.updatePath st d e r).beltHold = s.beltHold ∧ (s.updatePath st d e r).statusTimer = s.statusTimer ∧
    (s.updatePath st d e r).store = s.store ∧ (s.updatePath st d e r).pending = s.pending := by
  (repeat' apply And.intro) <;> (simp only [State.updatePath]; (repeat' split) <;> simp)

@[simp] theorem State.acceptSample_fields (s : State) (n : BitVec 4) (r : RawSample) :
    (s.acceptSample n r).now = s.now ∧ (s.acceptSample n r).supply = s.supply ∧
    (s.acceptSample n r).resetHeld = s.resetHeld ∧ (s.acceptSample n r).station = s.station ∧
    (s.acceptSample n r).number = s.number ∧ (s.acceptSample n r).commission = s.commission ∧
    (s.acceptSample n r).settings = s.settings ∧ (s.acceptSample n r).groups = s.groups ∧
    (s.acceptSample n r).smoothing = s.smoothing ∧ (s.acceptSample n r).port = s.port ∧
    (s.acceptSample n r).pulse0 = s.pulse0 ∧ (s.acceptSample n r).pulse1 = s.pulse1 ∧
    (s.acceptSample n r).inputs = s.inputs ∧ (s.acceptSample n r).publications = s.publications ∧
    (s.acceptSample n r).panel = s.panel ∧ (s.acceptSample n r).latch = s.latch ∧
    (s.acceptSample n r).beltHold = s.beltHold ∧ (s.acceptSample n r).statusTimer = s.statusTimer ∧
    (s.acceptSample n r).store = s.store ∧ (s.acceptSample n r).pending = s.pending := by
  (repeat' apply And.intro) <;> (simp only [State.acceptSample, State.withSettings]; (repeat' split) <;> simp)

@[simp] theorem State.acceptAll_fields (s : State) (n : BitVec 4) (l : List RawSample) :
    (s.acceptAll n l).now = s.now ∧ (s.acceptAll n l).supply = s.supply ∧ (s.acceptAll n l).resetHeld = s.resetHeld ∧
    (s.acceptAll n l).station = s.station ∧ (s.acceptAll n l).number = s.number ∧
    (s.acceptAll n l).commission = s.commission ∧ (s.acceptAll n l).settings = s.settings ∧
    (s.acceptAll n l).groups = s.groups ∧ (s.acceptAll n l).smoothing = s.smoothing ∧
    (s.acceptAll n l).port = s.port ∧ (s.acceptAll n l).pulse0 = s.pulse0 ∧ (s.acceptAll n l).pulse1 = s.pulse1 ∧
    (s.acceptAll n l).inputs = s.inputs ∧ (s.acceptAll n l).publications = s.publications ∧
    (s.acceptAll n l).panel = s.panel ∧ (s.acceptAll n l).latch = s.latch ∧ (s.acceptAll n l).beltHold = s.beltHold ∧
    (s.acceptAll n l).statusTimer = s.statusTimer ∧ (s.acceptAll n l).store = s.store ∧
    (s.acceptAll n l).pending = s.pending := by
  (repeat' apply And.intro) <;> (exact foldl_keeps _ _ (fun _ _ => by simp) _ _)

@[simp] theorem State.age_fields (s : State) (k : Key) (f : Entry → QuantityDef → Clock → Entry) :
    (s.age k f).now = s.now ∧ (s.age k f).supply = s.supply ∧ (s.age k f).resetHeld = s.resetHeld ∧
    (s.age k f).station = s.station ∧ (s.age k f).number = s.number ∧ (s.age k f).commission = s.commission ∧
    (s.age k f).settings = s.settings ∧ (s.age k f).groups = s.groups ∧ (s.age k f).converter = s.converter ∧
    (s.age k f).smoothing = s.smoothing ∧ (s.age k f).port = s.port ∧ (s.age k f).pulse0 = s.pulse0 ∧
    (s.age k f).pulse1 = s.pulse1 ∧ (s.age k f).inputs = s.inputs ∧ (s.age k f).publications = s.publications ∧
    (s.age k f).chanA = s.chanA ∧ (s.age k f).chanB = s.chanB ∧ (s.age k f).conveyor = s.conveyor ∧
    (s.age k f).panel = s.panel ∧ (s.age k f).latch = s.latch ∧ (s.age k f).beltHold = s.beltHold ∧
    (s.age k f).faults = s.faults ∧ (s.age k f).statusTimer = s.statusTimer ∧ (s.age k f).line = s.line ∧
    (s.age k f).store = s.store ∧ (s.age k f).pending = s.pending := by
  (repeat' apply And.intro) <;> (simp only [State.age, State.withSettings]; (repeat' split) <;> simp)

/-! ### Receiving -/

@[simp] theorem State.runWatch_fields (s : State) (n : Fin 4) (w : Watch) (f : WireFrame) :
    (s.runWatch n w f).now = s.now ∧ (s.runWatch n w f).supply = s.supply ∧
    (s.runWatch n w f).resetHeld = s.resetHeld ∧ (s.runWatch n w f).station = s.station ∧
    (s.runWatch n w f).number = s.number ∧ (s.runWatch n w f).commission = s.commission ∧
    (s.runWatch n w f).settings = s.settings ∧ (s.runWatch n w f).table = s.table ∧
    (s.runWatch n w f).groups = s.groups ∧ (s.runWatch n w f).smoothing = s.smoothing ∧
    (s.runWatch n w f).port = s.port ∧ (s.runWatch n w f).pulse0 = s.pulse0 ∧ (s.runWatch n w f).pulse1 = s.pulse1 ∧
    (s.runWatch n w f).inputs = s.inputs ∧ (s.runWatch n w f).publications = s.publications ∧
    (s.runWatch n w f).panel = s.panel ∧ (s.runWatch n w f).faults = s.faults ∧
    (s.runWatch n w f).statusTimer = s.statusTimer ∧ (s.runWatch n w f).store = s.store ∧
    (s.runWatch n w f).pending = s.pending := by
  (repeat' apply And.intro) <;> (simp only [State.runWatch]; (repeat' split) <;> simp)

@[simp] theorem State.runWatches_fields (s : State) (f : WireFrame) :
    (s.runWatches f).now = s.now ∧ (s.runWatches f).supply = s.supply ∧ (s.runWatches f).resetHeld = s.resetHeld ∧
    (s.runWatches f).station = s.station ∧ (s.runWatches f).number = s.number ∧
    (s.runWatches f).commission = s.commission ∧ (s.runWatches f).settings = s.settings ∧
    (s.runWatches f).table = s.table ∧ (s.runWatches f).groups = s.groups ∧ (s.runWatches f).smoothing = s.smoothing ∧
    (s.runWatches f).port = s.port ∧ (s.runWatches f).pulse0 = s.pulse0 ∧ (s.runWatches f).pulse1 = s.pulse1 ∧
    (s.runWatches f).inputs = s.inputs ∧ (s.runWatches f).publications = s.publications ∧
    (s.runWatches f).panel = s.panel ∧ (s.runWatches f).faults = s.faults ∧
    (s.runWatches f).statusTimer = s.statusTimer ∧ (s.runWatches f).store = s.store ∧
    (s.runWatches f).pending = s.pending := by
  (repeat' apply And.intro) <;> (simp only [State.runWatches, State.withSettings]; (repeat' split) <;> simp)

@[simp] theorem State.endMute_fields (s : State) (b : BusState) :
    (s.endMute b).now = s.now ∧ (s.endMute b).supply = s.supply ∧ (s.endMute b).resetHeld = s.resetHeld ∧
    (s.endMute b).station = s.station ∧ (s.endMute b).number = s.number ∧ (s.endMute b).commission = s.commission ∧
    (s.endMute b).settings = s.settings ∧ (s.endMute b).table = s.table ∧ (s.endMute b).groups = s.groups ∧
    (s.endMute b).converter = s.converter ∧ (s.endMute b).smoothing = s.smoothing ∧ (s.endMute b).port = s.port ∧
    (s.endMute b).pulse0 = s.pulse0 ∧ (s.endMute b).pulse1 = s.pulse1 ∧ (s.endMute b).inputs = s.inputs ∧
    (s.endMute b).publications = s.publications ∧ (s.endMute b).chanA = s.chanA ∧ (s.endMute b).chanB = s.chanB ∧
    (s.endMute b).conveyor = s.conveyor ∧ (s.endMute b).panel = s.panel ∧ (s.endMute b).latch = s.latch ∧
    (s.endMute b).beltHold = s.beltHold ∧ (s.endMute b).statusTimer = s.statusTimer ∧ (s.endMute b).store = s.store ∧
    (s.endMute b).pending = s.pending := by
  (repeat' apply And.intro) <;> (simp [State.endMute])

@[simp] theorem State.numberClash_fields (s : State) :
    (s.numberClash).now = s.now ∧ (s.numberClash).supply = s.supply ∧ (s.numberClash).resetHeld = s.resetHeld ∧
    (s.numberClash).station = s.station ∧ (s.numberClash).number = s.number ∧
    (s.numberClash).commission = s.commission ∧ (s.numberClash).settings = s.settings ∧
    (s.numberClash).table = s.table ∧ (s.numberClash).groups = s.groups ∧ (s.numberClash).smoothing = s.smoothing ∧
    (s.numberClash).port = s.port ∧ (s.numberClash).pulse0 = s.pulse0 ∧ (s.numberClash).pulse1 = s.pulse1 ∧
    (s.numberClash).inputs = s.inputs ∧ (s.numberClash).publications = s.publications ∧
    (s.numberClash).panel = s.panel ∧ (s.numberClash).latch = s.latch ∧ (s.numberClash).beltHold = s.beltHold ∧
    (s.numberClash).statusTimer = s.statusTimer ∧ (s.numberClash).store = s.store ∧
    (s.numberClash).pending = s.pending := by
  (repeat' apply And.intro) <;> (simp only [State.numberClash]; (repeat' split) <;> simp)

/-! ### Groups and acquisition -/

@[simp] theorem State.deliverResult_fields (s : State) (k : Key) (r : ResultRecord) (v : Option (Int × ResultQuality)) :
    (s.deliverResult k r v).now = s.now ∧ (s.deliverResult k r v).supply = s.supply ∧
    (s.deliverResult k r v).resetHeld = s.resetHeld ∧ (s.deliverResult k r v).station = s.station ∧
    (s.deliverResult k r v).number = s.number ∧ (s.deliverResult k r v).commission = s.commission ∧
    (s.deliverResult k r v).settings = s.settings ∧ (s.deliverResult k r v).groups = s.groups ∧
    (s.deliverResult k r v).converter = s.converter ∧ (s.deliverResult k r v).smoothing = s.smoothing ∧
    (s.deliverResult k r v).port = s.port ∧ (s.deliverResult k r v).pulse0 = s.pulse0 ∧
    (s.deliverResult k r v).pulse1 = s.pulse1 ∧ (s.deliverResult k r v).inputs = s.inputs ∧
    (s.deliverResult k r v).publications = s.publications ∧ (s.deliverResult k r v).chanA = s.chanA ∧
    (s.deliverResult k r v).chanB = s.chanB ∧ (s.deliverResult k r v).conveyor = s.conveyor ∧
    (s.deliverResult k r v).panel = s.panel ∧ (s.deliverResult k r v).latch = s.latch ∧
    (s.deliverResult k r v).beltHold = s.beltHold ∧ (s.deliverResult k r v).faults = s.faults ∧
    (s.deliverResult k r v).statusTimer = s.statusTimer ∧ (s.deliverResult k r v).line = s.line ∧
    (s.deliverResult k r v).store = s.store ∧ (s.deliverResult k r v).pending = s.pending := by
  (repeat' apply And.intro) <;> (simp only [State.deliverResult]; (repeat' split) <;> simp)

@[simp] theorem State.evaluateGroup_fields (s : State) (n : Fin 4) (g : GroupDef) (k : Key) (r : GroupRun) (e : Clock) :
    (s.evaluateGroup n g k r e).now = s.now ∧ (s.evaluateGroup n g k r e).supply = s.supply ∧
    (s.evaluateGroup n g k r e).resetHeld = s.resetHeld ∧ (s.evaluateGroup n g k r e).station = s.station ∧
    (s.evaluateGroup n g k r e).number = s.number ∧ (s.evaluateGroup n g k r e).commission = s.commission ∧
    (s.evaluateGroup n g k r e).settings = s.settings ∧ (s.evaluateGroup n g k r e).converter = s.converter ∧
    (s.evaluateGroup n g k r e).smoothing = s.smoothing ∧ (s.evaluateGroup n g k r e).port = s.port ∧
    (s.evaluateGroup n g k r e).pulse0 = s.pulse0 ∧ (s.evaluateGroup n g k r e).pulse1 = s.pulse1 ∧
    (s.evaluateGroup n g k r e).inputs = s.inputs ∧ (s.evaluateGroup n g k r e).publications = s.publications ∧
    (s.evaluateGroup n g k r e).chanA = s.chanA ∧ (s.evaluateGroup n g k r e).chanB = s.chanB ∧
    (s.evaluateGroup n g k r e).conveyor = s.conveyor ∧ (s.evaluateGroup n g k r e).panel = s.panel ∧
    (s.evaluateGroup n g k r e).latch = s.latch ∧ (s.evaluateGroup n g k r e).beltHold = s.beltHold ∧
    (s.evaluateGroup n g k r e).faults = s.faults ∧ (s.evaluateGroup n g k r e).statusTimer = s.statusTimer ∧
    (s.evaluateGroup n g k r e).line = s.line ∧ (s.evaluateGroup n g k r e).store = s.store ∧
    (s.evaluateGroup n g k r e).pending = s.pending := by
  (repeat' apply And.intro) <;> (simp [State.evaluateGroup])

@[simp] theorem State.deliverRaw_fields (s : State) (i : Nat) (x : SourceDef) (v : Int) :
    (s.deliverRaw i x v).now = s.now ∧ (s.deliverRaw i x v).supply = s.supply ∧
    (s.deliverRaw i x v).resetHeld = s.resetHeld ∧ (s.deliverRaw i x v).station = s.station ∧
    (s.deliverRaw i x v).number = s.number ∧ (s.deliverRaw i x v).commission = s.commission ∧
    (s.deliverRaw i x v).settings = s.settings ∧ (s.deliverRaw i x v).groups = s.groups ∧
    (s.deliverRaw i x v).converter = s.converter ∧ (s.deliverRaw i x v).port = s.port ∧
    (s.deliverRaw i x v).pulse0 = s.pulse0 ∧ (s.deliverRaw i x v).pulse1 = s.pulse1 ∧
    (s.deliverRaw i x v).inputs = s.inputs ∧ (s.deliverRaw i x v).publications = s.publications ∧
    (s.deliverRaw i x v).chanA = s.chanA ∧ (s.deliverRaw i x v).chanB = s.chanB ∧
    (s.deliverRaw i x v).conveyor = s.conveyor ∧ (s.deliverRaw i x v).panel = s.panel ∧
    (s.deliverRaw i x v).latch = s.latch ∧ (s.deliverRaw i x v).beltHold = s.beltHold ∧
    (s.deliverRaw i x v).faults = s.faults ∧ (s.deliverRaw i x v).statusTimer = s.statusTimer ∧
    (s.deliverRaw i x v).line = s.line ∧ (s.deliverRaw i x v).store = s.store ∧
    (s.deliverRaw i x v).pending = s.pending := by
  (repeat' apply And.intro) <;> (simp [State.deliverRaw])

@[simp] theorem State.deliverFailed_fields (s : State) (i : Nat) (x : SourceDef) :
    (s.deliverFailed i x).now = s.now ∧ (s.deliverFailed i x).supply = s.supply ∧
    (s.deliverFailed i x).resetHeld = s.resetHeld ∧ (s.deliverFailed i x).station = s.station ∧
    (s.deliverFailed i x).number = s.number ∧ (s.deliverFailed i x).commission = s.commission ∧
    (s.deliverFailed i x).settings = s.settings ∧ (s.deliverFailed i x).groups = s.groups ∧
    (s.deliverFailed i x).converter = s.converter ∧ (s.deliverFailed i x).port = s.port ∧
    (s.deliverFailed i x).pulse0 = s.pulse0 ∧ (s.deliverFailed i x).pulse1 = s.pulse1 ∧
    (s.deliverFailed i x).inputs = s.inputs ∧ (s.deliverFailed i x).publications = s.publications ∧
    (s.deliverFailed i x).chanA = s.chanA ∧ (s.deliverFailed i x).chanB = s.chanB ∧
    (s.deliverFailed i x).conveyor = s.conveyor ∧ (s.deliverFailed i x).panel = s.panel ∧
    (s.deliverFailed i x).latch = s.latch ∧ (s.deliverFailed i x).beltHold = s.beltHold ∧
    (s.deliverFailed i x).faults = s.faults ∧ (s.deliverFailed i x).statusTimer = s.statusTimer ∧
    (s.deliverFailed i x).line = s.line ∧ (s.deliverFailed i x).store = s.store ∧
    (s.deliverFailed i x).pending = s.pending := by
  (repeat' apply And.intro) <;> (simp [State.deliverFailed])

@[simp] theorem State.deliverAnalog_fields (s : State) (l : List Nat) (x : SourceDef) (i : Nat) :
    (s.deliverAnalog l x i).now = s.now ∧ (s.deliverAnalog l x i).supply = s.supply ∧
    (s.deliverAnalog l x i).resetHeld = s.resetHeld ∧ (s.deliverAnalog l x i).station = s.station ∧
    (s.deliverAnalog l x i).number = s.number ∧ (s.deliverAnalog l x i).commission = s.commission ∧
    (s.deliverAnalog l x i).settings = s.settings ∧ (s.deliverAnalog l x i).groups = s.groups ∧
    (s.deliverAnalog l x i).converter = s.converter ∧ (s.deliverAnalog l x i).port = s.port ∧
    (s.deliverAnalog l x i).pulse0 = s.pulse0 ∧ (s.deliverAnalog l x i).pulse1 = s.pulse1 ∧
    (s.deliverAnalog l x i).inputs = s.inputs ∧ (s.deliverAnalog l x i).publications = s.publications ∧
    (s.deliverAnalog l x i).chanA = s.chanA ∧ (s.deliverAnalog l x i).chanB = s.chanB ∧
    (s.deliverAnalog l x i).conveyor = s.conveyor ∧ (s.deliverAnalog l x i).panel = s.panel ∧
    (s.deliverAnalog l x i).latch = s.latch ∧ (s.deliverAnalog l x i).beltHold = s.beltHold ∧
    (s.deliverAnalog l x i).faults = s.faults ∧ (s.deliverAnalog l x i).statusTimer = s.statusTimer ∧
    (s.deliverAnalog l x i).line = s.line ∧ (s.deliverAnalog l x i).store = s.store ∧
    (s.deliverAnalog l x i).pending = s.pending := by
  (repeat' apply And.intro) <;> (simp only [State.deliverAnalog]; (repeat' split) <;> simp)

@[simp] theorem State.completeScan_fields (s : State) (st : Settings) (l : List Nat) :
    (s.completeScan st l).now = s.now ∧ (s.completeScan st l).supply = s.supply ∧
    (s.completeScan st l).resetHeld = s.resetHeld ∧ (s.completeScan st l).station = s.station ∧
    (s.completeScan st l).number = s.number ∧ (s.completeScan st l).commission = s.commission ∧
    (s.completeScan st l).settings = s.settings ∧ (s.completeScan st l).groups = s.groups ∧
    (s.completeScan st l).port = s.port ∧ (s.completeScan st l).pulse0 = s.pulse0 ∧
    (s.completeScan st l).pulse1 = s.pulse1 ∧ (s.completeScan st l).inputs = s.inputs ∧
    (s.completeScan st l).publications = s.publications ∧ (s.completeScan st l).chanA = s.chanA ∧
    (s.completeScan st l).chanB = s.chanB ∧ (s.completeScan st l).conveyor = s.conveyor ∧
    (s.completeScan st l).panel = s.panel ∧ (s.completeScan st l).latch = s.latch ∧
    (s.completeScan st l).beltHold = s.beltHold ∧ (s.completeScan st l).faults = s.faults ∧
    (s.completeScan st l).statusTimer = s.statusTimer ∧ (s.completeScan st l).line = s.line ∧
    (s.completeScan st l).store = s.store ∧ (s.completeScan st l).pending = s.pending := by
  (repeat' apply And.intro) <;> (exact foldl_keeps _ _ (fun _ _ => by simp) _ _)

@[simp] theorem State.coilFault_fields (s : State) (c : ChannelId) (f : CoilFault) :
    (s.coilFault c f).now = s.now ∧ (s.coilFault c f).supply = s.supply ∧ (s.coilFault c f).resetHeld = s.resetHeld ∧
    (s.coilFault c f).station = s.station ∧ (s.coilFault c f).number = s.number ∧
    (s.coilFault c f).commission = s.commission ∧ (s.coilFault c f).settings = s.settings ∧
    (s.coilFault c f).table = s.table ∧ (s.coilFault c f).groups = s.groups ∧
    (s.coilFault c f).smoothing = s.smoothing ∧ (s.coilFault c f).port = s.port ∧
    (s.coilFault c f).pulse0 = s.pulse0 ∧ (s.coilFault c f).pulse1 = s.pulse1 ∧ (s.coilFault c f).inputs = s.inputs ∧
    (s.coilFault c f).publications = s.publications ∧ (s.coilFault c f).panel = s.panel ∧
    (s.coilFault c f).latch = s.latch ∧ (s.coilFault c f).beltHold = s.beltHold ∧
    (s.coilFault c f).statusTimer = s.statusTimer ∧ (s.coilFault c f).store = s.store ∧
    (s.coilFault c f).pending = s.pending := by
  (repeat' apply And.intro) <;> (simp [State.coilFault])

@[simp] theorem State.judgeCoil_fields (s : State) (c : ChannelId) (i m : Int) :
    (s.judgeCoil c i m).now = s.now ∧ (s.judgeCoil c i m).supply = s.supply ∧
    (s.judgeCoil c i m).resetHeld = s.resetHeld ∧ (s.judgeCoil c i m).station = s.station ∧
    (s.judgeCoil c i m).number = s.number ∧ (s.judgeCoil c i m).commission = s.commission ∧
    (s.judgeCoil c i m).settings = s.settings ∧ (s.judgeCoil c i m).table = s.table ∧
    (s.judgeCoil c i m).groups = s.groups ∧ (s.judgeCoil c i m).smoothing = s.smoothing ∧
    (s.judgeCoil c i m).port = s.port ∧ (s.judgeCoil c i m).pulse0 = s.pulse0 ∧
    (s.judgeCoil c i m).pulse1 = s.pulse1 ∧ (s.judgeCoil c i m).inputs = s.inputs ∧
    (s.judgeCoil c i m).publications = s.publications ∧ (s.judgeCoil c i m).panel = s.panel ∧
    (s.judgeCoil c i m).latch = s.latch ∧ (s.judgeCoil c i m).beltHold = s.beltHold ∧
    (s.judgeCoil c i m).statusTimer = s.statusTimer ∧ (s.judgeCoil c i m).store = s.store ∧
    (s.judgeCoil c i m).pending = s.pending := by
  (repeat' apply And.intro) <;> (simp only [State.judgeCoil]; (repeat' split) <;> simp)

@[simp] theorem State.deliverConversion_fields (s : State) (st : Settings) (u : ConversionUser) (r : BitVec 12) :
    (s.deliverConversion st u r).now = s.now ∧ (s.deliverConversion st u r).supply = s.supply ∧
    (s.deliverConversion st u r).resetHeld = s.resetHeld ∧ (s.deliverConversion st u r).station = s.station ∧
    (s.deliverConversion st u r).number = s.number ∧ (s.deliverConversion st u r).commission = s.commission ∧
    (s.deliverConversion st u r).settings = s.settings ∧ (s.deliverConversion st u r).groups = s.groups ∧
    (s.deliverConversion st u r).port = s.port ∧ (s.deliverConversion st u r).pulse0 = s.pulse0 ∧
    (s.deliverConversion st u r).pulse1 = s.pulse1 ∧ (s.deliverConversion st u r).inputs = s.inputs ∧
    (s.deliverConversion st u r).publications = s.publications ∧ (s.deliverConversion st u r).panel = s.panel ∧
    (s.deliverConversion st u r).latch = s.latch ∧ (s.deliverConversion st u r).beltHold = s.beltHold ∧
    (s.deliverConversion st u r).statusTimer = s.statusTimer ∧ (s.deliverConversion st u r).store = s.store ∧
    (s.deliverConversion st u r).pending = s.pending := by
  (repeat' apply And.intro) <;> (simp only [State.deliverConversion]; (repeat' split) <;> simp)

@[simp] theorem State.nextConversion_fields (s : State) (n : Nat) :
    (s.nextConversion n).now = s.now ∧ (s.nextConversion n).supply = s.supply ∧
    (s.nextConversion n).resetHeld = s.resetHeld ∧ (s.nextConversion n).station = s.station ∧
    (s.nextConversion n).number = s.number ∧ (s.nextConversion n).commission = s.commission ∧
    (s.nextConversion n).settings = s.settings ∧ (s.nextConversion n).table = s.table ∧
    (s.nextConversion n).groups = s.groups ∧ (s.nextConversion n).smoothing = s.smoothing ∧
    (s.nextConversion n).port = s.port ∧ (s.nextConversion n).pulse0 = s.pulse0 ∧
    (s.nextConversion n).pulse1 = s.pulse1 ∧ (s.nextConversion n).inputs = s.inputs ∧
    (s.nextConversion n).publications = s.publications ∧ (s.nextConversion n).chanA = s.chanA ∧
    (s.nextConversion n).chanB = s.chanB ∧ (s.nextConversion n).conveyor = s.conveyor ∧
    (s.nextConversion n).panel = s.panel ∧ (s.nextConversion n).latch = s.latch ∧
    (s.nextConversion n).beltHold = s.beltHold ∧ (s.nextConversion n).faults = s.faults ∧
    (s.nextConversion n).statusTimer = s.statusTimer ∧ (s.nextConversion n).line = s.line ∧
    (s.nextConversion n).store = s.store ∧ (s.nextConversion n).pending = s.pending := by
  (repeat' apply And.intro) <;> (simp only [State.nextConversion]; (repeat' split) <;> simp)

@[simp] theorem State.scanExpiry_fields (s : State) :
    (s.scanExpiry).now = s.now ∧ (s.scanExpiry).supply = s.supply ∧ (s.scanExpiry).resetHeld = s.resetHeld ∧
    (s.scanExpiry).station = s.station ∧ (s.scanExpiry).number = s.number ∧ (s.scanExpiry).commission = s.commission ∧
    (s.scanExpiry).settings = s.settings ∧ (s.scanExpiry).table = s.table ∧ (s.scanExpiry).groups = s.groups ∧
    (s.scanExpiry).smoothing = s.smoothing ∧ (s.scanExpiry).port = s.port ∧ (s.scanExpiry).pulse0 = s.pulse0 ∧
    (s.scanExpiry).pulse1 = s.pulse1 ∧ (s.scanExpiry).inputs = s.inputs ∧
    (s.scanExpiry).publications = s.publications ∧ (s.scanExpiry).chanA = s.chanA ∧ (s.scanExpiry).chanB = s.chanB ∧
    (s.scanExpiry).conveyor = s.conveyor ∧ (s.scanExpiry).panel = s.panel ∧ (s.scanExpiry).latch = s.latch ∧
    (s.scanExpiry).beltHold = s.beltHold ∧ (s.scanExpiry).statusTimer = s.statusTimer ∧
    (s.scanExpiry).store = s.store ∧ (s.scanExpiry).pending = s.pending := by
  (repeat' apply And.intro) <;> (simp only [State.scanExpiry]; (repeat' split) <;> simp)

@[simp] theorem State.judgeReply_fields (s : State) (o : Option ReplyOutcome) :
    (s.judgeReply o).now = s.now ∧ (s.judgeReply o).supply = s.supply ∧ (s.judgeReply o).resetHeld = s.resetHeld ∧
    (s.judgeReply o).station = s.station ∧ (s.judgeReply o).number = s.number ∧
    (s.judgeReply o).commission = s.commission ∧ (s.judgeReply o).settings = s.settings ∧
    (s.judgeReply o).table = s.table ∧ (s.judgeReply o).groups = s.groups ∧ (s.judgeReply o).converter = s.converter ∧
    (s.judgeReply o).smoothing = s.smoothing ∧ (s.judgeReply o).pulse0 = s.pulse0 ∧
    (s.judgeReply o).pulse1 = s.pulse1 ∧ (s.judgeReply o).inputs = s.inputs ∧
    (s.judgeReply o).publications = s.publications ∧ (s.judgeReply o).chanA = s.chanA ∧
    (s.judgeReply o).chanB = s.chanB ∧ (s.judgeReply o).conveyor = s.conveyor ∧ (s.judgeReply o).panel = s.panel ∧
    (s.judgeReply o).latch = s.latch ∧ (s.judgeReply o).beltHold = s.beltHold ∧
    (s.judgeReply o).statusTimer = s.statusTimer ∧ (s.judgeReply o).store = s.store ∧
    (s.judgeReply o).pending = s.pending := by
  (repeat' apply And.intro) <;> (simp only [State.judgeReply]; (repeat' split) <;> simp)

@[simp] theorem State.takeOutcome_fields (s : State) (i : Nat) (x : SourceDef) (o : ReplyOutcome) :
    (s.takeOutcome i x o).now = s.now ∧ (s.takeOutcome i x o).supply = s.supply ∧
    (s.takeOutcome i x o).resetHeld = s.resetHeld ∧ (s.takeOutcome i x o).station = s.station ∧
    (s.takeOutcome i x o).number = s.number ∧ (s.takeOutcome i x o).commission = s.commission ∧
    (s.takeOutcome i x o).settings = s.settings ∧ (s.takeOutcome i x o).groups = s.groups ∧
    (s.takeOutcome i x o).converter = s.converter ∧ (s.takeOutcome i x o).port = s.port ∧
    (s.takeOutcome i x o).pulse0 = s.pulse0 ∧ (s.takeOutcome i x o).pulse1 = s.pulse1 ∧
    (s.takeOutcome i x o).inputs = s.inputs ∧ (s.takeOutcome i x o).publications = s.publications ∧
    (s.takeOutcome i x o).chanA = s.chanA ∧ (s.takeOutcome i x o).chanB = s.chanB ∧
    (s.takeOutcome i x o).conveyor = s.conveyor ∧ (s.takeOutcome i x o).panel = s.panel ∧
    (s.takeOutcome i x o).latch = s.latch ∧ (s.takeOutcome i x o).beltHold = s.beltHold ∧
    (s.takeOutcome i x o).faults = s.faults ∧ (s.takeOutcome i x o).statusTimer = s.statusTimer ∧
    (s.takeOutcome i x o).line = s.line ∧ (s.takeOutcome i x o).store = s.store ∧
    (s.takeOutcome i x o).pending = s.pending := by
  (repeat' apply And.intro) <;> (simp only [State.takeOutcome]; (repeat' split) <;> simp)

/-! ### The panel and the discrete inputs -/

@[simp] theorem State.deliverLeft_fields (s : State) (p : PanelValues) :
    (s.deliverLeft p).now = s.now ∧ (s.deliverLeft p).supply = s.supply ∧ (s.deliverLeft p).resetHeld = s.resetHeld ∧
    (s.deliverLeft p).station = s.station ∧ (s.deliverLeft p).number = s.number ∧
    (s.deliverLeft p).commission = s.commission ∧ (s.deliverLeft p).settings = s.settings ∧
    (s.deliverLeft p).groups = s.groups ∧ (s.deliverLeft p).converter = s.converter ∧
    (s.deliverLeft p).smoothing = s.smoothing ∧ (s.deliverLeft p).port = s.port ∧
    (s.deliverLeft p).pulse0 = s.pulse0 ∧ (s.deliverLeft p).pulse1 = s.pulse1 ∧ (s.deliverLeft p).inputs = s.inputs ∧
    (s.deliverLeft p).publications = s.publications ∧ (s.deliverLeft p).chanA = s.chanA ∧
    (s.deliverLeft p).chanB = s.chanB ∧ (s.deliverLeft p).conveyor = s.conveyor ∧ (s.deliverLeft p).panel = s.panel ∧
    (s.deliverLeft p).latch = s.latch ∧ (s.deliverLeft p).beltHold = s.beltHold ∧
    (s.deliverLeft p).faults = s.faults ∧ (s.deliverLeft p).statusTimer = s.statusTimer ∧
    (s.deliverLeft p).line = s.line ∧ (s.deliverLeft p).store = s.store ∧ (s.deliverLeft p).pending = s.pending := by
  (repeat' apply And.intro) <;> (simp [State.deliverLeft])

@[simp] theorem State.deliverRight_fields (s : State) (p : PanelValues) :
    (s.deliverRight p).now = s.now ∧ (s.deliverRight p).supply = s.supply ∧
    (s.deliverRight p).resetHeld = s.resetHeld ∧ (s.deliverRight p).station = s.station ∧
    (s.deliverRight p).number = s.number ∧ (s.deliverRight p).commission = s.commission ∧
    (s.deliverRight p).settings = s.settings ∧ (s.deliverRight p).groups = s.groups ∧
    (s.deliverRight p).converter = s.converter ∧ (s.deliverRight p).smoothing = s.smoothing ∧
    (s.deliverRight p).port = s.port ∧ (s.deliverRight p).pulse0 = s.pulse0 ∧ (s.deliverRight p).pulse1 = s.pulse1 ∧
    (s.deliverRight p).inputs = s.inputs ∧ (s.deliverRight p).publications = s.publications ∧
    (s.deliverRight p).chanA = s.chanA ∧ (s.deliverRight p).chanB = s.chanB ∧
    (s.deliverRight p).conveyor = s.conveyor ∧ (s.deliverRight p).panel = s.panel ∧
    (s.deliverRight p).latch = s.latch ∧ (s.deliverRight p).beltHold = s.beltHold ∧
    (s.deliverRight p).faults = s.faults ∧ (s.deliverRight p).statusTimer = s.statusTimer ∧
    (s.deliverRight p).line = s.line ∧ (s.deliverRight p).store = s.store ∧ (s.deliverRight p).pending = s.pending := by
  (repeat' apply And.intro) <;> (simp [State.deliverRight])

@[simp] theorem State.deliverAction_fields (s : State) (p : PanelValues) :
    (s.deliverAction p).now = s.now ∧ (s.deliverAction p).supply = s.supply ∧
    (s.deliverAction p).resetHeld = s.resetHeld ∧ (s.deliverAction p).station = s.station ∧
    (s.deliverAction p).number = s.number ∧ (s.deliverAction p).commission = s.commission ∧
    (s.deliverAction p).settings = s.settings ∧ (s.deliverAction p).groups = s.groups ∧
    (s.deliverAction p).converter = s.converter ∧ (s.deliverAction p).smoothing = s.smoothing ∧
    (s.deliverAction p).port = s.port ∧ (s.deliverAction p).pulse0 = s.pulse0 ∧
    (s.deliverAction p).pulse1 = s.pulse1 ∧ (s.deliverAction p).inputs = s.inputs ∧
    (s.deliverAction p).publications = s.publications ∧ (s.deliverAction p).chanA = s.chanA ∧
    (s.deliverAction p).chanB = s.chanB ∧ (s.deliverAction p).conveyor = s.conveyor ∧
    (s.deliverAction p).panel = s.panel ∧ (s.deliverAction p).latch = s.latch ∧
    (s.deliverAction p).beltHold = s.beltHold ∧ (s.deliverAction p).faults = s.faults ∧
    (s.deliverAction p).statusTimer = s.statusTimer ∧ (s.deliverAction p).line = s.line ∧
    (s.deliverAction p).store = s.store ∧ (s.deliverAction p).pending = s.pending := by
  (repeat' apply And.intro) <;> (simp [State.deliverAction])

@[simp] theorem State.deliverMode_fields (s : State) (p : PanelValues) :
    (s.deliverMode p).now = s.now ∧ (s.deliverMode p).supply = s.supply ∧ (s.deliverMode p).resetHeld = s.resetHeld ∧
    (s.deliverMode p).station = s.station ∧ (s.deliverMode p).number = s.number ∧
    (s.deliverMode p).commission = s.commission ∧ (s.deliverMode p).settings = s.settings ∧
    (s.deliverMode p).groups = s.groups ∧ (s.deliverMode p).converter = s.converter ∧
    (s.deliverMode p).smoothing = s.smoothing ∧ (s.deliverMode p).port = s.port ∧
    (s.deliverMode p).pulse0 = s.pulse0 ∧ (s.deliverMode p).pulse1 = s.pulse1 ∧ (s.deliverMode p).inputs = s.inputs ∧
    (s.deliverMode p).publications = s.publications ∧ (s.deliverMode p).chanA = s.chanA ∧
    (s.deliverMode p).chanB = s.chanB ∧ (s.deliverMode p).conveyor = s.conveyor ∧ (s.deliverMode p).panel = s.panel ∧
    (s.deliverMode p).latch = s.latch ∧ (s.deliverMode p).beltHold = s.beltHold ∧
    (s.deliverMode p).faults = s.faults ∧ (s.deliverMode p).statusTimer = s.statusTimer ∧
    (s.deliverMode p).line = s.line ∧ (s.deliverMode p).store = s.store ∧ (s.deliverMode p).pending = s.pending := by
  (repeat' apply And.intro) <;> (simp [State.deliverMode])

@[simp] theorem State.deliverHold_fields (s : State) (p : PanelValues) :
    (s.deliverHold p).now = s.now ∧ (s.deliverHold p).supply = s.supply ∧ (s.deliverHold p).resetHeld = s.resetHeld ∧
    (s.deliverHold p).station = s.station ∧ (s.deliverHold p).number = s.number ∧
    (s.deliverHold p).commission = s.commission ∧ (s.deliverHold p).settings = s.settings ∧
    (s.deliverHold p).groups = s.groups ∧ (s.deliverHold p).converter = s.converter ∧
    (s.deliverHold p).smoothing = s.smoothing ∧ (s.deliverHold p).port = s.port ∧
    (s.deliverHold p).pulse0 = s.pulse0 ∧ (s.deliverHold p).pulse1 = s.pulse1 ∧ (s.deliverHold p).inputs = s.inputs ∧
    (s.deliverHold p).publications = s.publications ∧ (s.deliverHold p).chanA = s.chanA ∧
    (s.deliverHold p).chanB = s.chanB ∧ (s.deliverHold p).conveyor = s.conveyor ∧ (s.deliverHold p).panel = s.panel ∧
    (s.deliverHold p).latch = s.latch ∧ (s.deliverHold p).beltHold = s.beltHold ∧
    (s.deliverHold p).faults = s.faults ∧ (s.deliverHold p).statusTimer = s.statusTimer ∧
    (s.deliverHold p).line = s.line ∧ (s.deliverHold p).store = s.store ∧ (s.deliverHold p).pending = s.pending := by
  (repeat' apply And.intro) <;> (simp [State.deliverHold])

@[simp] theorem State.deliverPanel_fields (s : State) (p : PanelValues) :
    (s.deliverPanel p).now = s.now ∧ (s.deliverPanel p).supply = s.supply ∧
    (s.deliverPanel p).resetHeld = s.resetHeld ∧ (s.deliverPanel p).station = s.station ∧
    (s.deliverPanel p).number = s.number ∧ (s.deliverPanel p).commission = s.commission ∧
    (s.deliverPanel p).settings = s.settings ∧ (s.deliverPanel p).groups = s.groups ∧
    (s.deliverPanel p).converter = s.converter ∧ (s.deliverPanel p).smoothing = s.smoothing ∧
    (s.deliverPanel p).port = s.port ∧ (s.deliverPanel p).pulse0 = s.pulse0 ∧ (s.deliverPanel p).pulse1 = s.pulse1 ∧
    (s.deliverPanel p).inputs = s.inputs ∧ (s.deliverPanel p).publications = s.publications ∧
    (s.deliverPanel p).chanA = s.chanA ∧ (s.deliverPanel p).chanB = s.chanB ∧
    (s.deliverPanel p).conveyor = s.conveyor ∧ (s.deliverPanel p).panel = s.panel ∧
    (s.deliverPanel p).latch = s.latch ∧ (s.deliverPanel p).beltHold = s.beltHold ∧
    (s.deliverPanel p).faults = s.faults ∧ (s.deliverPanel p).statusTimer = s.statusTimer ∧
    (s.deliverPanel p).line = s.line ∧ (s.deliverPanel p).store = s.store ∧ (s.deliverPanel p).pending = s.pending := by
  (repeat' apply And.intro) <;> (simp [State.deliverPanel])

@[simp] theorem State.pressStep_fields (s : State) (d : PanelDef) (p : PanelValues) (l u : Bool) :
    (s.pressStep d p l u).now = s.now ∧ (s.pressStep d p l u).supply = s.supply ∧
    (s.pressStep d p l u).resetHeld = s.resetHeld ∧ (s.pressStep d p l u).station = s.station ∧
    (s.pressStep d p l u).number = s.number ∧ (s.pressStep d p l u).commission = s.commission ∧
    (s.pressStep d p l u).settings = s.settings ∧ (s.pressStep d p l u).groups = s.groups ∧
    (s.pressStep d p l u).converter = s.converter ∧ (s.pressStep d p l u).smoothing = s.smoothing ∧
    (s.pressStep d p l u).port = s.port ∧ (s.pressStep d p l u).pulse0 = s.pulse0 ∧
    (s.pressStep d p l u).pulse1 = s.pulse1 ∧ (s.pressStep d p l u).inputs = s.inputs ∧
    (s.pressStep d p l u).publications = s.publications ∧ (s.pressStep d p l u).chanA = s.chanA ∧
    (s.pressStep d p l u).chanB = s.chanB ∧ (s.pressStep d p l u).conveyor = s.conveyor ∧
    (s.pressStep d p l u).latch = s.latch ∧ (s.pressStep d p l u).beltHold = s.beltHold ∧
    (s.pressStep d p l u).faults = s.faults ∧ (s.pressStep d p l u).statusTimer = s.statusTimer ∧
    (s.pressStep d p l u).line = s.line ∧ (s.pressStep d p l u).store = s.store ∧
    (s.pressStep d p l u).pending = s.pending := by
  (repeat' apply And.intro) <;> (simp only [State.pressStep]; (repeat' split) <;> simp)

@[simp] theorem State.pressAction_fields (s : State) (p : PanelValues) (k : Byte) :
    (s.pressAction p k).now = s.now ∧ (s.pressAction p k).supply = s.supply ∧
    (s.pressAction p k).resetHeld = s.resetHeld ∧ (s.pressAction p k).station = s.station ∧
    (s.pressAction p k).number = s.number ∧ (s.pressAction p k).commission = s.commission ∧
    (s.pressAction p k).settings = s.settings ∧ (s.pressAction p k).groups = s.groups ∧
    (s.pressAction p k).converter = s.converter ∧ (s.pressAction p k).smoothing = s.smoothing ∧
    (s.pressAction p k).port = s.port ∧ (s.pressAction p k).pulse0 = s.pulse0 ∧
    (s.pressAction p k).pulse1 = s.pulse1 ∧ (s.pressAction p k).inputs = s.inputs ∧
    (s.pressAction p k).publications = s.publications ∧ (s.pressAction p k).chanA = s.chanA ∧
    (s.pressAction p k).chanB = s.chanB ∧ (s.pressAction p k).conveyor = s.conveyor ∧
    (s.pressAction p k).latch = s.latch ∧ (s.pressAction p k).beltHold = s.beltHold ∧
    (s.pressAction p k).faults = s.faults ∧ (s.pressAction p k).statusTimer = s.statusTimer ∧
    (s.pressAction p k).line = s.line ∧ (s.pressAction p k).store = s.store ∧
    (s.pressAction p k).pending = s.pending := by
  (repeat' apply And.intro) <;> (simp [State.pressAction])

@[simp] theorem State.pressMode_fields (s : State) (p : PanelValues) (k : Byte) :
    (s.pressMode p k).now = s.now ∧ (s.pressMode p k).supply = s.supply ∧ (s.pressMode p k).resetHeld = s.resetHeld ∧
    (s.pressMode p k).station = s.station ∧ (s.pressMode p k).number = s.number ∧
    (s.pressMode p k).commission = s.commission ∧ (s.pressMode p k).settings = s.settings ∧
    (s.pressMode p k).groups = s.groups ∧ (s.pressMode p k).converter = s.converter ∧
    (s.pressMode p k).smoothing = s.smoothing ∧ (s.pressMode p k).port = s.port ∧
    (s.pressMode p k).pulse0 = s.pulse0 ∧ (s.pressMode p k).pulse1 = s.pulse1 ∧ (s.pressMode p k).inputs = s.inputs ∧
    (s.pressMode p k).publications = s.publications ∧ (s.pressMode p k).chanA = s.chanA ∧
    (s.pressMode p k).chanB = s.chanB ∧ (s.pressMode p k).conveyor = s.conveyor ∧ (s.pressMode p k).latch = s.latch ∧
    (s.pressMode p k).beltHold = s.beltHold ∧ (s.pressMode p k).faults = s.faults ∧
    (s.pressMode p k).statusTimer = s.statusTimer ∧ (s.pressMode p k).line = s.line ∧
    (s.pressMode p k).store = s.store ∧ (s.pressMode p k).pending = s.pending := by
  (repeat' apply And.intro) <;> (simp [State.pressMode])

@[simp] theorem State.panelPress_fields (s : State) (f : InputFunction) (d : PanelDef) (p : PanelValues) :
    (s.panelPress f d p).now = s.now ∧ (s.panelPress f d p).supply = s.supply ∧
    (s.panelPress f d p).resetHeld = s.resetHeld ∧ (s.panelPress f d p).station = s.station ∧
    (s.panelPress f d p).number = s.number ∧ (s.panelPress f d p).commission = s.commission ∧
    (s.panelPress f d p).settings = s.settings ∧ (s.panelPress f d p).groups = s.groups ∧
    (s.panelPress f d p).converter = s.converter ∧ (s.panelPress f d p).smoothing = s.smoothing ∧
    (s.panelPress f d p).port = s.port ∧ (s.panelPress f d p).pulse0 = s.pulse0 ∧
    (s.panelPress f d p).pulse1 = s.pulse1 ∧ (s.panelPress f d p).inputs = s.inputs ∧
    (s.panelPress f d p).publications = s.publications ∧ (s.panelPress f d p).chanA = s.chanA ∧
    (s.panelPress f d p).chanB = s.chanB ∧ (s.panelPress f d p).conveyor = s.conveyor ∧
    (s.panelPress f d p).latch = s.latch ∧ (s.panelPress f d p).beltHold = s.beltHold ∧
    (s.panelPress f d p).faults = s.faults ∧ (s.panelPress f d p).statusTimer = s.statusTimer ∧
    (s.panelPress f d p).line = s.line ∧ (s.panelPress f d p).store = s.store ∧
    (s.panelPress f d p).pending = s.pending := by
  (repeat' apply And.intro) <;> (simp only [State.panelPress]; (repeat' split) <;> simp)

@[simp] theorem State.truckHold_fields (s : State) (p : PanelValues) (l : Bool) :
    (s.truckHold p l).now = s.now ∧ (s.truckHold p l).supply = s.supply ∧ (s.truckHold p l).resetHeld = s.resetHeld ∧
    (s.truckHold p l).station = s.station ∧ (s.truckHold p l).number = s.number ∧
    (s.truckHold p l).commission = s.commission ∧ (s.truckHold p l).settings = s.settings ∧
    (s.truckHold p l).groups = s.groups ∧ (s.truckHold p l).converter = s.converter ∧
    (s.truckHold p l).smoothing = s.smoothing ∧ (s.truckHold p l).port = s.port ∧
    (s.truckHold p l).pulse0 = s.pulse0 ∧ (s.truckHold p l).pulse1 = s.pulse1 ∧ (s.truckHold p l).inputs = s.inputs ∧
    (s.truckHold p l).publications = s.publications ∧ (s.truckHold p l).chanA = s.chanA ∧
    (s.truckHold p l).chanB = s.chanB ∧ (s.truckHold p l).conveyor = s.conveyor ∧ (s.truckHold p l).latch = s.latch ∧
    (s.truckHold p l).beltHold = s.beltHold ∧ (s.truckHold p l).faults = s.faults ∧
    (s.truckHold p l).statusTimer = s.statusTimer ∧ (s.truckHold p l).line = s.line ∧
    (s.truckHold p l).store = s.store ∧ (s.truckHold p l).pending = s.pending := by
  (repeat' apply And.intro) <;> (simp [State.truckHold])

@[simp] theorem State.levelChange_fields (s : State) (st : Settings) (i : Fin 6) (l : Bool) :
    (s.levelChange st i l).now = s.now ∧ (s.levelChange st i l).supply = s.supply ∧
    (s.levelChange st i l).resetHeld = s.resetHeld ∧ (s.levelChange st i l).station = s.station ∧
    (s.levelChange st i l).number = s.number ∧ (s.levelChange st i l).commission = s.commission ∧
    (s.levelChange st i l).settings = s.settings ∧ (s.levelChange st i l).groups = s.groups ∧
    (s.levelChange st i l).smoothing = s.smoothing ∧ (s.levelChange st i l).port = s.port ∧
    (s.levelChange st i l).pulse0 = s.pulse0 ∧ (s.levelChange st i l).pulse1 = s.pulse1 ∧
    (s.levelChange st i l).inputs = s.inputs ∧ (s.levelChange st i l).publications = s.publications ∧
    (s.levelChange st i l).beltHold = s.beltHold ∧ (s.levelChange st i l).statusTimer = s.statusTimer ∧
    (s.levelChange st i l).store = s.store ∧ (s.levelChange st i l).pending = s.pending := by
  (repeat' apply And.intro) <;> (simp only [State.levelChange]; (repeat' split) <;> simp)

/-! ### Channel updates and the conveyor -/

@[simp] theorem State.judgeBelt_fields (s : State) (st : Settings) (cv : ConveyorDef) (k : Conveyor) (v : Int) :
    (s.judgeBelt st cv k v).now = s.now ∧ (s.judgeBelt st cv k v).supply = s.supply ∧
    (s.judgeBelt st cv k v).resetHeld = s.resetHeld ∧ (s.judgeBelt st cv k v).station = s.station ∧
    (s.judgeBelt st cv k v).number = s.number ∧ (s.judgeBelt st cv k v).commission = s.commission ∧
    (s.judgeBelt st cv k v).settings = s.settings ∧ (s.judgeBelt st cv k v).table = s.table ∧
    (s.judgeBelt st cv k v).groups = s.groups ∧ (s.judgeBelt st cv k v).smoothing = s.smoothing ∧
    (s.judgeBelt st cv k v).port = s.port ∧ (s.judgeBelt st cv k v).pulse0 = s.pulse0 ∧
    (s.judgeBelt st cv k v).pulse1 = s.pulse1 ∧ (s.judgeBelt st cv k v).inputs = s.inputs ∧
    (s.judgeBelt st cv k v).publications = s.publications ∧ (s.judgeBelt st cv k v).panel = s.panel ∧
    (s.judgeBelt st cv k v).beltHold = s.beltHold ∧ (s.judgeBelt st cv k v).statusTimer = s.statusTimer ∧
    (s.judgeBelt st cv k v).store = s.store ∧ (s.judgeBelt st cv k v).pending = s.pending := by
  (repeat' apply And.intro) <;> (simp only [State.judgeBelt]; (repeat' split) <;> simp)

@[simp] theorem State.commandBelt_fields (s : State) (cv : ConveyorDef) (h : Bool) (v : Int) :
    (s.commandBelt cv h v).now = s.now ∧ (s.commandBelt cv h v).supply = s.supply ∧
    (s.commandBelt cv h v).resetHeld = s.resetHeld ∧ (s.commandBelt cv h v).station = s.station ∧
    (s.commandBelt cv h v).number = s.number ∧ (s.commandBelt cv h v).commission = s.commission ∧
    (s.commandBelt cv h v).settings = s.settings ∧ (s.commandBelt cv h v).table = s.table ∧
    (s.commandBelt cv h v).groups = s.groups ∧ (s.commandBelt cv h v).converter = s.converter ∧
    (s.commandBelt cv h v).smoothing = s.smoothing ∧ (s.commandBelt cv h v).port = s.port ∧
    (s.commandBelt cv h v).pulse0 = s.pulse0 ∧ (s.commandBelt cv h v).pulse1 = s.pulse1 ∧
    (s.commandBelt cv h v).inputs = s.inputs ∧ (s.commandBelt cv h v).publications = s.publications ∧
    (s.commandBelt cv h v).chanA = s.chanA ∧ (s.commandBelt cv h v).chanB = s.chanB ∧
    (s.commandBelt cv h v).panel = s.panel ∧ (s.commandBelt cv h v).latch = s.latch ∧
    (s.commandBelt cv h v).beltHold = s.beltHold ∧ (s.commandBelt cv h v).faults = s.faults ∧
    (s.commandBelt cv h v).statusTimer = s.statusTimer ∧ (s.commandBelt cv h v).line = s.line ∧
    (s.commandBelt cv h v).store = s.store ∧ (s.commandBelt cv h v).pending = s.pending := by
  (repeat' apply And.intro) <;> (simp only [State.commandBelt]; (repeat' split) <;> simp)

@[simp] theorem State.conveyorWork_fields (s : State) (st : Settings) :
    (s.conveyorWork st).now = s.now ∧ (s.conveyorWork st).supply = s.supply ∧
    (s.conveyorWork st).resetHeld = s.resetHeld ∧ (s.conveyorWork st).station = s.station ∧
    (s.conveyorWork st).number = s.number ∧ (s.conveyorWork st).commission = s.commission ∧
    (s.conveyorWork st).settings = s.settings ∧ (s.conveyorWork st).table = s.table ∧
    (s.conveyorWork st).groups = s.groups ∧ (s.conveyorWork st).smoothing = s.smoothing ∧
    (s.conveyorWork st).port = s.port ∧ (s.conveyorWork st).pulse0 = s.pulse0 ∧
    (s.conveyorWork st).pulse1 = s.pulse1 ∧ (s.conveyorWork st).inputs = s.inputs ∧
    (s.conveyorWork st).publications = s.publications ∧ (s.conveyorWork st).panel = s.panel ∧
    (s.conveyorWork st).beltHold = s.beltHold ∧ (s.conveyorWork st).statusTimer = s.statusTimer ∧
    (s.conveyorWork st).store = s.store ∧ (s.conveyorWork st).pending = s.pending := by
  (repeat' apply And.intro) <;> (simp only [State.conveyorWork]; (repeat' split) <;> simp)

@[simp] theorem State.settleTarget_fields (s : State) (cd : ChannelDef) (c : ChannelId) :
    (s.settleTarget cd c).now = s.now ∧ (s.settleTarget cd c).supply = s.supply ∧
    (s.settleTarget cd c).resetHeld = s.resetHeld ∧ (s.settleTarget cd c).station = s.station ∧
    (s.settleTarget cd c).number = s.number ∧ (s.settleTarget cd c).commission = s.commission ∧
    (s.settleTarget cd c).settings = s.settings ∧ (s.settleTarget cd c).table = s.table ∧
    (s.settleTarget cd c).groups = s.groups ∧ (s.settleTarget cd c).converter = s.converter ∧
    (s.settleTarget cd c).smoothing = s.smoothing ∧ (s.settleTarget cd c).port = s.port ∧
    (s.settleTarget cd c).pulse0 = s.pulse0 ∧ (s.settleTarget cd c).pulse1 = s.pulse1 ∧
    (s.settleTarget cd c).inputs = s.inputs ∧ (s.settleTarget cd c).publications = s.publications ∧
    (s.settleTarget cd c).conveyor = s.conveyor ∧ (s.settleTarget cd c).panel = s.panel ∧
    (s.settleTarget cd c).latch = s.latch ∧ (s.settleTarget cd c).beltHold = s.beltHold ∧
    (s.settleTarget cd c).faults = s.faults ∧ (s.settleTarget cd c).statusTimer = s.statusTimer ∧
    (s.settleTarget cd c).line = s.line ∧ (s.settleTarget cd c).store = s.store ∧
    (s.settleTarget cd c).pending = s.pending := by
  (repeat' apply And.intro) <;> (simp [State.settleTarget])

@[simp] theorem State.resumeExpired_fields (s : State) (c : ChannelId) :
    (s.resumeExpired c).now = s.now ∧ (s.resumeExpired c).supply = s.supply ∧
    (s.resumeExpired c).resetHeld = s.resetHeld ∧ (s.resumeExpired c).station = s.station ∧
    (s.resumeExpired c).number = s.number ∧ (s.resumeExpired c).commission = s.commission ∧
    (s.resumeExpired c).settings = s.settings ∧ (s.resumeExpired c).table = s.table ∧
    (s.resumeExpired c).groups = s.groups ∧ (s.resumeExpired c).converter = s.converter ∧
    (s.resumeExpired c).smoothing = s.smoothing ∧ (s.resumeExpired c).port = s.port ∧
    (s.resumeExpired c).pulse0 = s.pulse0 ∧ (s.resumeExpired c).pulse1 = s.pulse1 ∧
    (s.resumeExpired c).inputs = s.inputs ∧ (s.resumeExpired c).publications = s.publications ∧
    (s.resumeExpired c).panel = s.panel ∧ (s.resumeExpired c).latch = s.latch ∧
    (s.resumeExpired c).beltHold = s.beltHold ∧ (s.resumeExpired c).statusTimer = s.statusTimer ∧
    (s.resumeExpired c).store = s.store ∧ (s.resumeExpired c).pending = s.pending := by
  (repeat' apply And.intro) <;> (simp [State.resumeExpired])

@[simp] theorem State.loseReference_fields (s : State) (cd : ChannelDef) (c : ChannelId) :
    (s.loseReference cd c).now = s.now ∧ (s.loseReference cd c).supply = s.supply ∧
    (s.loseReference cd c).resetHeld = s.resetHeld ∧ (s.loseReference cd c).station = s.station ∧
    (s.loseReference cd c).number = s.number ∧ (s.loseReference cd c).commission = s.commission ∧
    (s.loseReference cd c).settings = s.settings ∧ (s.loseReference cd c).table = s.table ∧
    (s.loseReference cd c).groups = s.groups ∧ (s.loseReference cd c).smoothing = s.smoothing ∧
    (s.loseReference cd c).port = s.port ∧ (s.loseReference cd c).pulse0 = s.pulse0 ∧
    (s.loseReference cd c).pulse1 = s.pulse1 ∧ (s.loseReference cd c).inputs = s.inputs ∧
    (s.loseReference cd c).publications = s.publications ∧ (s.loseReference cd c).panel = s.panel ∧
    (s.loseReference cd c).latch = s.latch ∧ (s.loseReference cd c).beltHold = s.beltHold ∧
    (s.loseReference cd c).statusTimer = s.statusTimer ∧ (s.loseReference cd c).store = s.store ∧
    (s.loseReference cd c).pending = s.pending := by
  (repeat' apply And.intro) <;> (simp only [State.loseReference]; (repeat' split) <;> simp)

@[simp] theorem State.resumeAuto_fields (s : State) (c : ChannelId) :
    (s.resumeAuto c).now = s.now ∧ (s.resumeAuto c).supply = s.supply ∧ (s.resumeAuto c).resetHeld = s.resetHeld ∧
    (s.resumeAuto c).station = s.station ∧ (s.resumeAuto c).number = s.number ∧
    (s.resumeAuto c).commission = s.commission ∧ (s.resumeAuto c).settings = s.settings ∧
    (s.resumeAuto c).table = s.table ∧ (s.resumeAuto c).groups = s.groups ∧ (s.resumeAuto c).converter = s.converter ∧
    (s.resumeAuto c).smoothing = s.smoothing ∧ (s.resumeAuto c).port = s.port ∧ (s.resumeAuto c).pulse0 = s.pulse0 ∧
    (s.resumeAuto c).pulse1 = s.pulse1 ∧ (s.resumeAuto c).inputs = s.inputs ∧
    (s.resumeAuto c).publications = s.publications ∧ (s.resumeAuto c).panel = s.panel ∧
    (s.resumeAuto c).latch = s.latch ∧ (s.resumeAuto c).beltHold = s.beltHold ∧ (s.resumeAuto c).faults = s.faults ∧
    (s.resumeAuto c).statusTimer = s.statusTimer ∧ (s.resumeAuto c).store = s.store ∧
    (s.resumeAuto c).pending = s.pending := by
  (repeat' apply And.intro) <;> (simp [State.resumeAuto])

@[simp] theorem State.checkReference_fields (s : State) (cd : ChannelDef) (c : ChannelId) :
    (s.checkReference cd c).now = s.now ∧ (s.checkReference cd c).supply = s.supply ∧
    (s.checkReference cd c).resetHeld = s.resetHeld ∧ (s.checkReference cd c).station = s.station ∧
    (s.checkReference cd c).number = s.number ∧ (s.checkReference cd c).commission = s.commission ∧
    (s.checkReference cd c).settings = s.settings ∧ (s.checkReference cd c).table = s.table ∧
    (s.checkReference cd c).groups = s.groups ∧ (s.checkReference cd c).smoothing = s.smoothing ∧
    (s.checkReference cd c).port = s.port ∧ (s.checkReference cd c).pulse0 = s.pulse0 ∧
    (s.checkReference cd c).pulse1 = s.pulse1 ∧ (s.checkReference cd c).inputs = s.inputs ∧
    (s.checkReference cd c).publications = s.publications ∧ (s.checkReference cd c).panel = s.panel ∧
    (s.checkReference cd c).latch = s.latch ∧ (s.checkReference cd c).beltHold = s.beltHold ∧
    (s.checkReference cd c).statusTimer = s.statusTimer ∧ (s.checkReference cd c).store = s.store ∧
    (s.checkReference cd c).pending = s.pending := by
  (repeat' apply And.intro) <;> (simp only [State.checkReference]; (repeat' split) <;> simp)

@[simp] theorem State.driveChannel_fields (s : State) (st : Settings) (cd : ChannelDef) (c : ChannelId) :
    (s.driveChannel st cd c).now = s.now ∧ (s.driveChannel st cd c).supply = s.supply ∧
    (s.driveChannel st cd c).resetHeld = s.resetHeld ∧ (s.driveChannel st cd c).station = s.station ∧
    (s.driveChannel st cd c).number = s.number ∧ (s.driveChannel st cd c).commission = s.commission ∧
    (s.driveChannel st cd c).settings = s.settings ∧ (s.driveChannel st cd c).table = s.table ∧
    (s.driveChannel st cd c).groups = s.groups ∧ (s.driveChannel st cd c).smoothing = s.smoothing ∧
    (s.driveChannel st cd c).port = s.port ∧ (s.driveChannel st cd c).pulse0 = s.pulse0 ∧
    (s.driveChannel st cd c).pulse1 = s.pulse1 ∧ (s.driveChannel st cd c).inputs = s.inputs ∧
    (s.driveChannel st cd c).publications = s.publications ∧ (s.driveChannel st cd c).conveyor = s.conveyor ∧
    (s.driveChannel st cd c).panel = s.panel ∧ (s.driveChannel st cd c).latch = s.latch ∧
    (s.driveChannel st cd c).beltHold = s.beltHold ∧ (s.driveChannel st cd c).faults = s.faults ∧
    (s.driveChannel st cd c).statusTimer = s.statusTimer ∧ (s.driveChannel st cd c).line = s.line ∧
    (s.driveChannel st cd c).store = s.store ∧ (s.driveChannel st cd c).pending = s.pending := by
  (repeat' apply And.intro) <;> (simp only [State.driveChannel]; (repeat' split) <;> simp)

@[simp] theorem State.updateChannel_fields (s : State) (st : Settings) (c : ChannelId) :
    (s.updateChannel st c).now = s.now ∧ (s.updateChannel st c).supply = s.supply ∧
    (s.updateChannel st c).resetHeld = s.resetHeld ∧ (s.updateChannel st c).station = s.station ∧
    (s.updateChannel st c).number = s.number ∧ (s.updateChannel st c).commission = s.commission ∧
    (s.updateChannel st c).settings = s.settings ∧ (s.updateChannel st c).table = s.table ∧
    (s.updateChannel st c).groups = s.groups ∧ (s.updateChannel st c).smoothing = s.smoothing ∧
    (s.updateChannel st c).port = s.port ∧ (s.updateChannel st c).pulse0 = s.pulse0 ∧
    (s.updateChannel st c).pulse1 = s.pulse1 ∧ (s.updateChannel st c).inputs = s.inputs ∧
    (s.updateChannel st c).publications = s.publications ∧ (s.updateChannel st c).panel = s.panel ∧
    (s.updateChannel st c).beltHold = s.beltHold ∧ (s.updateChannel st c).statusTimer = s.statusTimer ∧
    (s.updateChannel st c).store = s.store ∧ (s.updateChannel st c).pending = s.pending := by
  (repeat' apply And.intro) <;> (simp only [State.updateChannel]; (repeat' split) <;> simp)

@[simp] theorem State.armUpdate_fields (s : State) (c : ChannelId) (e : Clock) :
    (s.armUpdate c e).now = s.now ∧ (s.armUpdate c e).supply = s.supply ∧ (s.armUpdate c e).resetHeld = s.resetHeld ∧
    (s.armUpdate c e).station = s.station ∧ (s.armUpdate c e).number = s.number ∧
    (s.armUpdate c e).commission = s.commission ∧ (s.armUpdate c e).settings = s.settings ∧
    (s.armUpdate c e).table = s.table ∧ (s.armUpdate c e).groups = s.groups ∧
    (s.armUpdate c e).converter = s.converter ∧ (s.armUpdate c e).smoothing = s.smoothing ∧
    (s.armUpdate c e).port = s.port ∧ (s.armUpdate c e).pulse0 = s.pulse0 ∧ (s.armUpdate c e).pulse1 = s.pulse1 ∧
    (s.armUpdate c e).inputs = s.inputs ∧ (s.armUpdate c e).publications = s.publications ∧
    (s.armUpdate c e).conveyor = s.conveyor ∧ (s.armUpdate c e).panel = s.panel ∧ (s.armUpdate c e).latch = s.latch ∧
    (s.armUpdate c e).beltHold = s.beltHold ∧ (s.armUpdate c e).faults = s.faults ∧
    (s.armUpdate c e).statusTimer = s.statusTimer ∧ (s.armUpdate c e).line = s.line ∧
    (s.armUpdate c e).store = s.store ∧ (s.armUpdate c e).pending = s.pending := by
  (repeat' apply And.intro) <;> (simp [State.armUpdate])

/-! ### Sending, start and the ends of LOADING and LISTENING -/

@[simp] theorem State.beginMute_fields (s : State) :
    (s.beginMute).now = s.now ∧ (s.beginMute).supply = s.supply ∧ (s.beginMute).resetHeld = s.resetHeld ∧
    (s.beginMute).station = s.station ∧ (s.beginMute).number = s.number ∧ (s.beginMute).commission = s.commission ∧
    (s.beginMute).settings = s.settings ∧ (s.beginMute).table = s.table ∧ (s.beginMute).groups = s.groups ∧
    (s.beginMute).converter = s.converter ∧ (s.beginMute).smoothing = s.smoothing ∧ (s.beginMute).port = s.port ∧
    (s.beginMute).pulse0 = s.pulse0 ∧ (s.beginMute).pulse1 = s.pulse1 ∧ (s.beginMute).inputs = s.inputs ∧
    (s.beginMute).publications = s.publications ∧ (s.beginMute).chanA = s.chanA ∧ (s.beginMute).chanB = s.chanB ∧
    (s.beginMute).conveyor = s.conveyor ∧ (s.beginMute).panel = s.panel ∧ (s.beginMute).latch = s.latch ∧
    (s.beginMute).beltHold = s.beltHold ∧ (s.beginMute).statusTimer = s.statusTimer ∧ (s.beginMute).store = s.store ∧
    (s.beginMute).pending = s.pending := by
  (repeat' apply And.intro) <;> (simp [State.beginMute])

@[simp] theorem State.countEcho_fields (s : State) :
    (s.countEcho).now = s.now ∧ (s.countEcho).supply = s.supply ∧ (s.countEcho).resetHeld = s.resetHeld ∧
    (s.countEcho).station = s.station ∧ (s.countEcho).number = s.number ∧ (s.countEcho).commission = s.commission ∧
    (s.countEcho).settings = s.settings ∧ (s.countEcho).table = s.table ∧ (s.countEcho).groups = s.groups ∧
    (s.countEcho).converter = s.converter ∧ (s.countEcho).smoothing = s.smoothing ∧ (s.countEcho).port = s.port ∧
    (s.countEcho).pulse0 = s.pulse0 ∧ (s.countEcho).pulse1 = s.pulse1 ∧ (s.countEcho).inputs = s.inputs ∧
    (s.countEcho).publications = s.publications ∧ (s.countEcho).chanA = s.chanA ∧ (s.countEcho).chanB = s.chanB ∧
    (s.countEcho).conveyor = s.conveyor ∧ (s.countEcho).panel = s.panel ∧ (s.countEcho).latch = s.latch ∧
    (s.countEcho).beltHold = s.beltHold ∧ (s.countEcho).statusTimer = s.statusTimer ∧ (s.countEcho).store = s.store ∧
    (s.countEcho).pending = s.pending := by
  (repeat' apply And.intro) <;> (simp only [State.countEcho]; (repeat' split) <;> simp)

@[simp] theorem State.stop_fields (s : State) :
    (s.stop).now = s.now ∧ (s.stop).supply = s.supply ∧ (s.stop).resetHeld = s.resetHeld ∧
    (s.stop).station = s.station ∧ (s.stop).number = s.number ∧ (s.stop).commission = s.commission ∧
    (s.stop).settings = s.settings ∧ (s.stop).table = s.table ∧ (s.stop).groups = s.groups ∧
    (s.stop).converter = s.converter ∧ (s.stop).smoothing = s.smoothing ∧ (s.stop).port = s.port ∧
    (s.stop).pulse0 = s.pulse0 ∧ (s.stop).pulse1 = s.pulse1 ∧ (s.stop).inputs = s.inputs ∧
    (s.stop).publications = s.publications ∧ (s.stop).conveyor = s.conveyor ∧ (s.stop).panel = s.panel ∧
    (s.stop).latch = s.latch ∧ (s.stop).beltHold = s.beltHold ∧ (s.stop).faults = s.faults ∧
    (s.stop).statusTimer = s.statusTimer ∧ (s.stop).store = s.store ∧ (s.stop).pending = s.pending := by
  (repeat' apply And.intro) <;> (simp [State.stop])

@[simp] theorem State.beginReceiving_fields (s : State) :
    (s.beginReceiving).now = s.now ∧ (s.beginReceiving).supply = s.supply ∧
    (s.beginReceiving).resetHeld = s.resetHeld ∧ (s.beginReceiving).station = s.station ∧
    (s.beginReceiving).number = s.number ∧ (s.beginReceiving).commission = s.commission ∧
    (s.beginReceiving).settings = s.settings ∧ (s.beginReceiving).table = s.table ∧
    (s.beginReceiving).groups = s.groups ∧ (s.beginReceiving).converter = s.converter ∧
    (s.beginReceiving).smoothing = s.smoothing ∧ (s.beginReceiving).port = s.port ∧
    (s.beginReceiving).pulse0 = s.pulse0 ∧ (s.beginReceiving).pulse1 = s.pulse1 ∧
    (s.beginReceiving).inputs = s.inputs ∧ (s.beginReceiving).publications = s.publications ∧
    (s.beginReceiving).chanA = s.chanA ∧ (s.beginReceiving).chanB = s.chanB ∧
    (s.beginReceiving).conveyor = s.conveyor ∧ (s.beginReceiving).panel = s.panel ∧
    (s.beginReceiving).latch = s.latch ∧ (s.beginReceiving).beltHold = s.beltHold ∧
    (s.beginReceiving).faults = s.faults ∧ (s.beginReceiving).statusTimer = s.statusTimer ∧
    (s.beginReceiving).store = s.store ∧ (s.beginReceiving).pending = s.pending := by
  (repeat' apply And.intro) <;> (simp [State.beginReceiving])

@[simp] theorem State.activateBus_fields (s : State) :
    (s.activateBus).now = s.now ∧ (s.activateBus).supply = s.supply ∧ (s.activateBus).resetHeld = s.resetHeld ∧
    (s.activateBus).station = s.station ∧ (s.activateBus).number = s.number ∧
    (s.activateBus).commission = s.commission ∧ (s.activateBus).settings = s.settings ∧
    (s.activateBus).table = s.table ∧ (s.activateBus).groups = s.groups ∧ (s.activateBus).converter = s.converter ∧
    (s.activateBus).smoothing = s.smoothing ∧ (s.activateBus).port = s.port ∧ (s.activateBus).pulse0 = s.pulse0 ∧
    (s.activateBus).pulse1 = s.pulse1 ∧ (s.activateBus).inputs = s.inputs ∧
    (s.activateBus).publications = s.publications ∧ (s.activateBus).chanA = s.chanA ∧
    (s.activateBus).chanB = s.chanB ∧ (s.activateBus).conveyor = s.conveyor ∧ (s.activateBus).panel = s.panel ∧
    (s.activateBus).latch = s.latch ∧ (s.activateBus).beltHold = s.beltHold ∧ (s.activateBus).faults = s.faults ∧
    (s.activateBus).statusTimer = s.statusTimer ∧ (s.activateBus).store = s.store ∧
    (s.activateBus).pending = s.pending := by
  (repeat' apply And.intro) <;> (simp only [State.activateBus]; (repeat' split) <;> simp)

@[simp] theorem State.startStatus_fields (s : State) :
    (s.startStatus).now = s.now ∧ (s.startStatus).supply = s.supply ∧ (s.startStatus).resetHeld = s.resetHeld ∧
    (s.startStatus).station = s.station ∧ (s.startStatus).number = s.number ∧
    (s.startStatus).commission = s.commission ∧ (s.startStatus).settings = s.settings ∧
    (s.startStatus).table = s.table ∧ (s.startStatus).groups = s.groups ∧ (s.startStatus).converter = s.converter ∧
    (s.startStatus).smoothing = s.smoothing ∧ (s.startStatus).port = s.port ∧ (s.startStatus).pulse0 = s.pulse0 ∧
    (s.startStatus).pulse1 = s.pulse1 ∧ (s.startStatus).inputs = s.inputs ∧
    (s.startStatus).publications = s.publications ∧ (s.startStatus).chanA = s.chanA ∧
    (s.startStatus).chanB = s.chanB ∧ (s.startStatus).conveyor = s.conveyor ∧ (s.startStatus).panel = s.panel ∧
    (s.startStatus).latch = s.latch ∧ (s.startStatus).beltHold = s.beltHold ∧ (s.startStatus).faults = s.faults ∧
    (s.startStatus).store = s.store ∧ (s.startStatus).pending = s.pending := by
  (repeat' apply And.intro) <;> (simp [State.startStatus])

@[simp] theorem State.enterIdle_fields (s : State) (x : Station) :
    (s.enterIdle x).now = s.now ∧ (s.enterIdle x).supply = s.supply ∧ (s.enterIdle x).resetHeld = s.resetHeld ∧
    (s.enterIdle x).number = s.number ∧ (s.enterIdle x).commission = s.commission ∧
    (s.enterIdle x).settings = s.settings ∧ (s.enterIdle x).table = s.table ∧ (s.enterIdle x).groups = s.groups ∧
    (s.enterIdle x).converter = s.converter ∧ (s.enterIdle x).smoothing = s.smoothing ∧
    (s.enterIdle x).port = s.port ∧ (s.enterIdle x).pulse0 = s.pulse0 ∧ (s.enterIdle x).pulse1 = s.pulse1 ∧
    (s.enterIdle x).inputs = s.inputs ∧ (s.enterIdle x).publications = s.publications ∧
    (s.enterIdle x).chanA = s.chanA ∧ (s.enterIdle x).chanB = s.chanB ∧ (s.enterIdle x).conveyor = s.conveyor ∧
    (s.enterIdle x).panel = s.panel ∧ (s.enterIdle x).latch = s.latch ∧ (s.enterIdle x).beltHold = s.beltHold ∧
    (s.enterIdle x).faults = s.faults ∧ (s.enterIdle x).store = s.store ∧ (s.enterIdle x).pending = s.pending := by
  (repeat' apply And.intro) <;> (simp [State.enterIdle])

@[simp] theorem State.readPins_fields (s : State) :
    (s.readPins).now = s.now ∧ (s.readPins).supply = s.supply ∧ (s.readPins).resetHeld = s.resetHeld ∧
    (s.readPins).station = s.station ∧ (s.readPins).number = s.number ∧ (s.readPins).commission = s.commission ∧
    (s.readPins).settings = s.settings ∧ (s.readPins).table = s.table ∧ (s.readPins).groups = s.groups ∧
    (s.readPins).converter = s.converter ∧ (s.readPins).smoothing = s.smoothing ∧ (s.readPins).port = s.port ∧
    (s.readPins).pulse0 = s.pulse0 ∧ (s.readPins).pulse1 = s.pulse1 ∧ (s.readPins).publications = s.publications ∧
    (s.readPins).chanA = s.chanA ∧ (s.readPins).chanB = s.chanB ∧ (s.readPins).conveyor = s.conveyor ∧
    (s.readPins).panel = s.panel ∧ (s.readPins).latch = s.latch ∧ (s.readPins).beltHold = s.beltHold ∧
    (s.readPins).faults = s.faults ∧ (s.readPins).statusTimer = s.statusTimer ∧ (s.readPins).line = s.line ∧
    (s.readPins).store = s.store ∧ (s.readPins).pending = s.pending := by
  (repeat' apply And.intro) <;> (simp [State.readPins])

@[simp] theorem State.startPanel_fields (s : State) (st : Settings) :
    (s.startPanel st).now = s.now ∧ (s.startPanel st).supply = s.supply ∧ (s.startPanel st).resetHeld = s.resetHeld ∧
    (s.startPanel st).station = s.station ∧ (s.startPanel st).number = s.number ∧
    (s.startPanel st).commission = s.commission ∧ (s.startPanel st).settings = s.settings ∧
    (s.startPanel st).groups = s.groups ∧ (s.startPanel st).converter = s.converter ∧
    (s.startPanel st).smoothing = s.smoothing ∧ (s.startPanel st).port = s.port ∧
    (s.startPanel st).pulse0 = s.pulse0 ∧ (s.startPanel st).pulse1 = s.pulse1 ∧ (s.startPanel st).inputs = s.inputs ∧
    (s.startPanel st).publications = s.publications ∧ (s.startPanel st).chanA = s.chanA ∧
    (s.startPanel st).chanB = s.chanB ∧ (s.startPanel st).conveyor = s.conveyor ∧ (s.startPanel st).latch = s.latch ∧
    (s.startPanel st).beltHold = s.beltHold ∧ (s.startPanel st).faults = s.faults ∧
    (s.startPanel st).statusTimer = s.statusTimer ∧ (s.startPanel st).line = s.line ∧
    (s.startPanel st).store = s.store ∧ (s.startPanel st).pending = s.pending := by
  (repeat' apply And.intro) <;> (simp only [State.startPanel]; (repeat' split) <;> simp)

@[simp] theorem State.startHalt_fields (s : State) (st : Settings) :
    (s.startHalt st).now = s.now ∧ (s.startHalt st).supply = s.supply ∧ (s.startHalt st).resetHeld = s.resetHeld ∧
    (s.startHalt st).station = s.station ∧ (s.startHalt st).number = s.number ∧
    (s.startHalt st).commission = s.commission ∧ (s.startHalt st).settings = s.settings ∧
    (s.startHalt st).table = s.table ∧ (s.startHalt st).groups = s.groups ∧ (s.startHalt st).smoothing = s.smoothing ∧
    (s.startHalt st).port = s.port ∧ (s.startHalt st).pulse0 = s.pulse0 ∧ (s.startHalt st).pulse1 = s.pulse1 ∧
    (s.startHalt st).inputs = s.inputs ∧ (s.startHalt st).publications = s.publications ∧
    (s.startHalt st).panel = s.panel ∧ (s.startHalt st).beltHold = s.beltHold ∧ (s.startHalt st).faults = s.faults ∧
    (s.startHalt st).statusTimer = s.statusTimer ∧ (s.startHalt st).store = s.store ∧
    (s.startHalt st).pending = s.pending := by
  (repeat' apply And.intro) <;> (simp only [State.startHalt]; (repeat' split) <;> simp)

@[simp] theorem State.enterRunning_fields (s : State) (st : Settings) :
    (s.enterRunning st).now = s.now ∧ (s.enterRunning st).supply = s.supply ∧
    (s.enterRunning st).resetHeld = s.resetHeld ∧ (s.enterRunning st).number = s.number ∧
    (s.enterRunning st).commission = s.commission ∧ (s.enterRunning st).settings = s.settings ∧
    (s.enterRunning st).table = s.table ∧ (s.enterRunning st).groups = s.groups ∧
    (s.enterRunning st).converter = s.converter ∧ (s.enterRunning st).smoothing = s.smoothing ∧
    (s.enterRunning st).port = s.port ∧ (s.enterRunning st).pulse0 = s.pulse0 ∧
    (s.enterRunning st).pulse1 = s.pulse1 ∧ (s.enterRunning st).inputs = s.inputs ∧
    (s.enterRunning st).chanA = s.chanA ∧ (s.enterRunning st).chanB = s.chanB ∧
    (s.enterRunning st).conveyor = s.conveyor ∧ (s.enterRunning st).panel = s.panel ∧
    (s.enterRunning st).latch = s.latch ∧ (s.enterRunning st).beltHold = s.beltHold ∧
    (s.enterRunning st).faults = s.faults ∧ (s.enterRunning st).store = s.store ∧
    (s.enterRunning st).pending = s.pending := by
  (repeat' apply And.intro) <;> (simp [State.enterRunning])

end Sys2Proof.Machine
end

