-- ==== Sys2Proof/Laws/Line.lean ====
section
/-! SUPPORT. What the blocks' work leaves of the line: everything but the control set and the discard marks of a frame
in flight. -/

namespace Sys2Proof.Machine

/-- The line without its control set and without the discard mark of the frame in flight. -/
def Line.core (l : Line) : Line :=
  { l with control := .empty, flight := l.flight.map fun f => { f with discarded := false } }

/-- Lines with one core agree in everything but the control set and the discard marks. -/
theorem Line.core_fields {k l : Line} (h : k.core = l.core) :
    k.bus = l.bus ∧ k.receiver = l.receiver ∧ k.quietSince = l.quietSince ∧ k.echoRun = l.echoRun ∧
    k.muteTimer = l.muteTimer ∧ k.yielding = l.yielding ∧ k.errors = l.errors ∧ k.queue = l.queue ∧
    (k.flight = none ↔ l.flight = none) ∧ k.flight.map Flight.frame = l.flight.map Flight.frame ∧
    k.flight.map Flight.began = l.flight.map Flight.began := by
  obtain ⟨kb, kr, kq, ke, km, ky, kn, kc, kl, kf⟩ := k
  obtain ⟨lb, lr, lq, le, lm, ly, ln, lc, ll, lf⟩ := l
  simp only [Line.core, Line.mk.injEq] at h
  obtain ⟨h1, h2, h3, h4, h5, h6, h7, -, h8, h9⟩ := h
  refine ⟨h1, h2, h3, h4, h5, h6, h7, h8, ?_⟩
  cases kf <;> cases lf <;> simp_all

@[simp] theorem Line.markDiscarded_core (l : Line) (p : OwnFrame → Bool) : (l.markDiscarded p).core = l.core := by
  simp [Line.core, Line.markDiscarded, Function.comp_def]

@[simp] theorem Line.placeHalt_core (l : Line) (k d : Byte) : (l.placeHalt k d).core = l.core := rfl

@[simp] theorem Line.placeRelease_core (l : Line) : l.placeRelease.core = l.core := rfl

@[simp] theorem Line.discardHalt_core (l : Line) : l.discardHalt.core = l.core := by
  rw [Line.discardHalt, Line.markDiscarded_core]; rfl

@[simp] theorem Line.discardRelease_core (l : Line) : l.discardRelease.core = l.core := by
  rw [Line.discardRelease, Line.markDiscarded_core]; rfl

@[simp] theorem Line.control_core (l : Line) (k : ControlSet) : ({ l with control := k } : Line).core = l.core := rfl

@[simp] theorem State.markStatus_core (s : State) :
    s.markStatus.line.core = s.line.core := by
  rfl

@[simp] theorem State.addFault_core (s : State) (f : FaultCode) :
    (s.addFault f).line.core = s.line.core := by
  simp only [State.addFault]; (repeat' split) <;> simp

@[simp] theorem State.removeFault_core (s : State) (f : FaultCode) :
    (s.removeFault f).line.core = s.line.core := by
  simp only [State.removeFault]; (repeat' split) <;> simp

@[simp] theorem State.putChannel_core (s : State) (c : ChannelId) (ch : Channel) :
    (s.putChannel c ch).line.core = s.line.core := by
  simp only [State.putChannel]; (repeat' split) <;> simp

@[simp] theorem State.dropCoilCode_core (s : State) (c : ChannelId) :
    (s.dropCoilCode c).line.core = s.line.core := by
  simp only [State.dropCoilCode]; (repeat' split) <;> simp

@[simp] theorem State.forceChannel_core (s : State) (c : ChannelId) (st : ChannelState) (k : Option HeldCause) (f : Option CoilFault) (r : Option Clock) :
    (s.forceChannel c st k f r).line.core = s.line.core := by
  simp [State.forceChannel]

@[simp] theorem State.channelOff_core (s : State) (c : ChannelId) :
    (s.channelOff c).line.core = s.line.core := by
  simp only [State.channelOff]; (repeat' split) <;> simp

@[simp] theorem State.latchChannel_core (s : State) (c : ChannelId) :
    (s.latchChannel c).line.core = s.line.core := by
  simp only [State.latchChannel]; (repeat' split) <;> simp

@[simp] theorem State.unlatchChannel_core (s : State) (c : ChannelId) :
    (s.unlatchChannel c).line.core = s.line.core := by
  simp only [State.unlatchChannel]; (repeat' split) <;> simp

@[simp] theorem State.setLatch_core (s : State) (r : LatchRecord) :
    (s.setLatch r).line.core = s.line.core := by
  simp [State.setLatch]

@[simp] theorem State.clearLatch_core (s : State) :
    s.clearLatch.line.core = s.line.core := by
  simp [State.clearLatch]

@[simp] theorem State.raiseCause_core (s : State) (k d : Byte) :
    (s.raiseCause k d).line.core = s.line.core := by
  simp only [State.raiseCause]; (repeat' split) <;> simp

@[simp] theorem State.takeHalt_core (s : State) (n : BitVec 4) (k d : Byte) :
    (s.takeHalt n k d).line.core = s.line.core := by
  simp only [State.takeHalt]; (repeat' split) <;> simp

@[simp] theorem State.takeRelease_core (s : State) (n : BitVec 4) :
    (s.takeRelease n).line.core = s.line.core := by
  simp only [State.takeRelease, State.withSettings]; (repeat' split) <;> simp

@[simp] theorem State.pressRelease_core (s : State) :
    s.pressRelease.line.core = s.line.core := by
  simp only [State.pressRelease]; (repeat' split) <;> simp

@[simp] theorem State.haltButton_core (s : State) (i : Fin 6) (l : Bool) :
    (s.haltButton i l).line.core = s.line.core := by
  simp only [State.haltButton]; (repeat' split) <;> simp

@[simp] theorem State.panelPress_core (s : State) (f : InputFunction) (d : PanelDef) (p : PanelValues) :
    (s.panelPress f d p).line.core = s.line.core := by
  simp

@[simp] theorem State.levelChange_core (s : State) (st : Settings) (i : Fin 6) (l : Bool) :
    (s.levelChange st i l).line.core = s.line.core := by
  simp only [State.levelChange]; (repeat' split) <;> simp

@[simp] theorem State.requestManual_core (s : State) (c : ChannelId) :
    (s.requestManual c).line.core = s.line.core := by
  simp only [State.requestManual]; (repeat' split) <;> simp

@[simp] theorem State.enterAuto_core (s : State) (c : ChannelId) :
    (s.enterAuto c).line.core = s.line.core := by
  simp only [State.enterAuto]; (repeat' split) <;> simp

@[simp] theorem State.requestAuto_core (s : State) (cd : ChannelDef) (c : ChannelId) :
    (s.requestAuto cd c).line.core = s.line.core := by
  simp only [State.requestAuto]; (repeat' split) <;> simp

@[simp] theorem State.modeRequest_core (s : State) (st : Settings) (c : ChannelId) (k : Byte) :
    (s.modeRequest st c k).line.core = s.line.core := by
  simp only [State.modeRequest]; (repeat' split) <;> simp

@[simp] theorem State.handActions_core (s : State) (st : Settings) (e : Entry) (b : Bool) (q : BitVec 6) (v : Option Int) :
    (s.handActions st e b q v).line.core = s.line.core := by
  simp only [State.handActions]; (repeat' split) <;> simp

@[simp] theorem State.handOver_core (s : State) (st : Settings) (d : QuantityDef) (e : Entry) (b : Bool) (r : RawSample) :
    (s.handOver st d e b r).line.core = s.line.core := by
  simp only [State.handOver]; (repeat' split) <;> simp

@[simp] theorem State.takeSample_core (s : State) (st : Settings) (d : QuantityDef) (e : Entry) (b : Bool) (r : RawSample) :
    (s.takeSample st d e b r).line.core = s.line.core := by
  simp [State.takeSample]

@[simp] theorem State.createEntry_core (s : State) (st : Settings) (d : QuantityDef) (k : Key) (r : RawSample) :
    (s.createEntry st d k r).line.core = s.line.core := by
  simp only [State.createEntry]; (repeat' split) <;> simp

@[simp] theorem State.updatePath_core (s : State) (st : Settings) (d : QuantityDef) (e : Entry) (r : RawSample) :
    (s.updatePath st d e r).line.core = s.line.core := by
  simp only [State.updatePath]; (repeat' split) <;> simp

@[simp] theorem State.acceptSample_core (s : State) (n : BitVec 4) (r : RawSample) :
    (s.acceptSample n r).line.core = s.line.core := by
  simp only [State.acceptSample, State.withSettings]; (repeat' split) <;> simp

@[simp] theorem State.runWatch_core (s : State) (n : Fin 4) (w : Watch) (f : WireFrame) :
    (s.runWatch n w f).line.core = s.line.core := by
  simp only [State.runWatch]; (repeat' split) <;> simp

@[simp] theorem State.runWatches_core (s : State) (f : WireFrame) :
    (s.runWatches f).line.core = s.line.core := by
  simp only [State.runWatches, State.withSettings]; (repeat' split) <;> simp

@[simp] theorem State.judgeCoil_core (s : State) (c : ChannelId) (i m : Int) :
    (s.judgeCoil c i m).line.core = s.line.core := by
  simp only [State.judgeCoil, State.coilFault]; (repeat' split) <;> simp

@[simp] theorem State.deliverConversion_core (s : State) (st : Settings) (u : ConversionUser) (r : BitVec 12) :
    (s.deliverConversion st u r).line.core = s.line.core := by
  simp only [State.deliverConversion]; (repeat' split) <;> simp

@[simp] theorem State.scanExpiry_core (s : State) :
    s.scanExpiry.line.core = s.line.core := by
  simp only [State.scanExpiry]; (repeat' split) <;> simp

@[simp] theorem State.judgeReply_core (s : State) (o : Option ReplyOutcome) :
    (s.judgeReply o).line.core = s.line.core := by
  simp only [State.judgeReply]; (repeat' split) <;> simp

@[simp] theorem State.judgeBelt_core (s : State) (st : Settings) (cv : ConveyorDef) (k : Conveyor) (v : Int) :
    (s.judgeBelt st cv k v).line.core = s.line.core := by
  simp only [State.judgeBelt]; (repeat' split) <;> simp

@[simp] theorem State.conveyorWork_core (s : State) (st : Settings) :
    (s.conveyorWork st).line.core = s.line.core := by
  simp only [State.conveyorWork]; (repeat' split) <;> simp

@[simp] theorem State.resumeExpired_core (s : State) (c : ChannelId) :
    (s.resumeExpired c).line.core = s.line.core := by
  simp [State.resumeExpired]

@[simp] theorem State.checkReference_core (s : State) (cd : ChannelDef) (c : ChannelId) :
    (s.checkReference cd c).line.core = s.line.core := by
  simp only [State.checkReference, State.loseReference, State.resumeAuto]; (repeat' split) <;> simp

@[simp] theorem State.updateChannel_core (s : State) (st : Settings) (c : ChannelId) :
    (s.updateChannel st c).line.core = s.line.core := by
  simp only [State.updateChannel]; (repeat' split) <;> simp

@[simp] theorem State.startPanel_core (s : State) (st : Settings) :
    (s.startPanel st).line.core = s.line.core := by
  simp

@[simp] theorem State.startHalt_core (s : State) (st : Settings) :
    (s.startHalt st).line.core = s.line.core := by
  simp only [State.startHalt]; (repeat' split) <;> simp

/-- The watches leave no frame in flight where there was none. -/
theorem State.runWatches_flight {s : State} {f : WireFrame} (h : s.collecting) :
    (s.endReception.runWatches f).line.flight = none :=
  (Line.core_fields (State.runWatches_core s.endReception f)).2.2.2.2.2.2.2.2.1.2 h.2

end Sys2Proof.Machine
end

