-- ==== Sys2Proof/Laws/Outputs.lean ====
section
/-! SUPPORT. What each operation on the channels does to a channel, and that it leaves the outputs safe. -/

namespace Sys2Proof.Machine

theorem State.channel_cases {P : Channel → Prop} {s : State} : (∀ c, P (s.channel c)) ↔ P s.chanA ∧ P s.chanB :=
  ⟨fun h => ⟨h .a, h .b⟩, fun h c => by cases c; exacts [h.1, h.2]⟩

theorem State.SafeOutputs.iff {s : State} : s.SafeOutputs ↔
    (∀ c, (s.channel c).SafeUnder s.latch s.station) ∧ (s.latch ≠ none → s.atWork) := by
  rw [State.channel_cases (P := fun ch => ch.SafeUnder s.latch s.station)]
  unfold State.SafeOutputs
  tauto

theorem State.SafeOutputs.of_eq {s u : State} (h : s.SafeOutputs) (ha : u.chanA = s.chanA) (hb : u.chanB = s.chanB)
    (hl : u.latch = s.latch) (hs : u.station = s.station) : u.SafeOutputs := by
  unfold State.SafeOutputs State.atWork at *
  rw [ha, hb, hl, hs]; exact h

/-- Only the outward part of a channel matters. -/
theorem Channel.SafeUnder.of_eq {ch ch' : Channel} {l : Option LatchRecord} {x : Station} (h : ch.SafeUnder l x)
    (h1 : ch'.state = ch.state) (h2 : ch'.cause = ch.cause) (h3 : ch'.out = ch.out) (h4 : ch'.coil = ch.coil)
    (h5 : ch'.current = ch.current) : ch'.SafeUnder l x := by
  unfold Channel.SafeUnder Channel.Still Channel.Halted at *
  rw [h1, h2, h3, h4, h5]; exact h

theorem State.setChannel_channel (s : State) (c : ChannelId) (ch : Channel) (d : ChannelId) :
    (s.setChannel c ch).channel d = if d = c then ch else s.channel d := by
  cases c <;> cases d <;> rfl

theorem State.putChannel_channel (s : State) (c : ChannelId) (ch : Channel) (d : ChannelId) :
    (s.putChannel c ch).channel d = if d = c then ch else s.channel d := by
  unfold State.putChannel
  dsimp only
  rw [← State.setChannel_channel]
  (repeat' split) <;> cases d <;> rfl

theorem State.forceChannel_channel (s : State) (c : ChannelId) (st : ChannelState) (k : Option HeldCause)
    (f : Option CoilFault) (r : Option Clock) (d : ChannelId) :
    (s.forceChannel c st k f r).channel d =
      if d = c then { (s.channel c).silence with state := st, cause := k, fault := f, resumeTimer := r } else s.channel d := by
  unfold State.forceChannel
  rw [State.putChannel_channel]
  split
  · rfl
  · simp

theorem State.SafeOutputs.setChannel {s : State} (h : s.SafeOutputs) {c : ChannelId} {ch : Channel}
    (hc : ch.SafeUnder s.latch s.station) : (s.setChannel c ch).SafeOutputs := by
  obtain ⟨h1, h2⟩ := State.SafeOutputs.iff.1 h
  refine State.SafeOutputs.iff.2 ⟨fun d => ?_, by simpa [State.atWork] using h2⟩
  rw [State.setChannel_channel]
  simp only [State.setChannel_fields]
  split
  · exact hc
  · exact h1 d

theorem State.SafeOutputs.putChannel {s : State} (h : s.SafeOutputs) {c : ChannelId} {ch : Channel}
    (hc : ch.SafeUnder s.latch s.station) : (s.putChannel c ch).SafeOutputs := by
  obtain ⟨h1, h2⟩ := State.SafeOutputs.iff.1 h
  refine State.SafeOutputs.iff.2 ⟨fun d => ?_, by simpa [State.atWork] using h2⟩
  rw [State.putChannel_channel]
  simp only [State.putChannel_fields]
  split
  · exact hc
  · exact h1 d

/-- A silenced channel. -/
theorem Channel.SafeUnder.silence {ch : Channel} {l : Option LatchRecord} {x : Station} (st : ChannelState) (k :
    Option HeldCause)
    (f : Option CoilFault) (r : Option Clock) (h0 : st = .held → k ≠ none)
    (h1 : l ≠ none → st = .off ∨ st = .fault ∨ (st = .held ∧ k = some .latch)) (h2 : l = none → st = .held → k ≠ some .latch)
    (h3 : x ≠ .running → st = .off) :
    ({ ch.silence with state := st, cause := k, fault := f, resumeTimer := r } : Channel).SafeUnder l x := by
  refine ⟨⟨fun _ => rfl, h0, ?_, ?_, fun _ => ⟨rfl, rfl⟩⟩, h1, h2, h3⟩ <;> (intro h; exact absurd h (by simp [Channel.silence]))

theorem State.SafeOutputs.forceChannel {s : State} (h : s.SafeOutputs) (c : ChannelId) (st : ChannelState) (k :
    Option HeldCause)
    (f : Option CoilFault) (r : Option Clock) (h0 : st = .held → k ≠ none)
    (h1 : s.latch ≠ none → st = .off ∨ st = .fault ∨ (st = .held ∧ k = some .latch)) (h2 : s.latch = none → st = .held → k ≠ some .latch)
    (h3 : s.station ≠ .running → st = .off) : (s.forceChannel c st k f r).SafeOutputs := by
  unfold State.forceChannel
  have hw : (s.withdrawCheck c).SafeOutputs := h.of_eq (by simp) (by simp) (by simp) (by simp)
  refine hw.putChannel ?_
  simpa using Channel.SafeUnder.silence st k f r h0 h1 h2 h3

theorem State.SafeOutputs.channelOff {s : State} (h : s.SafeOutputs) (c : ChannelId) : (s.channelOff c).SafeOutputs
    := by
  unfold State.channelOff
  split
  · exact h
  · have hw : (s.dropCoilCode c).SafeOutputs := h.of_eq (by simp) (by simp) (by simp) (by simp)
    exact hw.forceChannel c _ _ _ _ (by simp) (by simp) (by simp) (by simp)

theorem State.SafeOutputs.at {s : State} (h : s.SafeOutputs) (c : ChannelId) : (s.channel c).SafeUnder s.latch
    s.station :=
  (State.SafeOutputs.iff.1 h).1 c

/-- A channel that is not at rest: the station runs and the latch is clear. -/
theorem Channel.SafeUnder.free {ch : Channel} {l : Option LatchRecord} {x : Station} (h : ch.SafeUnder l x)
    (hs : ch.state = .manual ∨ ch.state = .auto ∨ (ch.state = .held ∧ ch.cause = some .refLost)) : l = none ∧ x = .running := by
  obtain ⟨-, h1, h2, h3⟩ := h
  constructor
  · by_contra hn
    rcases h1 hn with h | h | h <;> rcases hs with hs | hs | hs <;> simp_all
  · by_contra hn
    have := h3 hn
    rcases hs with hs | hs | hs <;> simp_all

theorem State.latchChannel_channel (s : State) (c d : ChannelId) : (s.latchChannel c).channel d =
    if d = c then (match (s.channel c).state, (s.channel c).cause with
      | .manual, _ | .auto, _ | .held, some .refLost =>
        { (s.channel c).silence with state := .held, cause := some .latch, fault := none, resumeTimer := none }
      | _, _ => s.channel c) else s.channel d := by
  by_cases hd : d = c
  · subst hd
    rw [if_pos rfl]
    unfold State.latchChannel
    rcases hs : (s.channel d).state with _ | _ | _ | _ | _ <;> rcases hc : (s.channel d).cause with _ | k <;>
      first
      | (simp [State.forceChannel_channel]; done)
      | (cases k <;> simp [State.forceChannel_channel])
  · rw [if_neg hd]
    unfold State.latchChannel
    split <;> simp [State.forceChannel_channel, hd]

/-- A channel once the latch is set. -/
theorem Channel.SafeUnder.latched {ch : Channel} {l : Option LatchRecord} {x : Station} (h : ch.SafeUnder l x) {r :
    LatchRecord} :
    (match ch.state, ch.cause with
      | .manual, _ | .auto, _ | .held, some .refLost =>
        { ch.silence with state := .held, cause := some .latch, fault := none, resumeTimer := none }
      | _, _ => ch : Channel).SafeUnder (some r) x := by
  have hs : ch.state = .manual ∨ ch.state = .auto ∨ (ch.state = .held ∧ ch.cause = some .refLost) →
      ({ ch.silence with state := .held, cause := some .latch, fault := none, resumeTimer := none } : Channel).SafeUnder (some r) x :=
    fun hs => .silence _ _ _ _ (by simp) (by simp) (by simp) (by simp [(h.free hs).2])
  split
  · rename_i h1; exact hs (Or.inl h1)
  · rename_i h1; exact hs (Or.inr (Or.inl h1))
  · rename_i h1 h2; exact hs (Or.inr (Or.inr ⟨h1, h2⟩))
  · rename_i n1 n2 n3
    obtain ⟨h1, h2, h3, h4⟩ := h
    refine ⟨h1, fun _ => ?_, by simp, h4⟩
    unfold Channel.Halted
    rcases hst : ch.state with _ | _ | _ | _ | _
    · simp
    · exact absurd hst n1
    · exact absurd hst n2
    · rcases hc : ch.cause with _ | k
      · exact absurd hc (h1.2.1 hst)
      · cases k
        · simp
        · exact absurd hc (n3 hst)
    · simp

theorem State.SafeOutputs.setLatch {s : State} (h : s.SafeOutputs) (hw : s.atWork) (r : LatchRecord) : (s.setLatch
    r).SafeOutputs := by
  refine State.SafeOutputs.iff.2 ⟨fun d => ?_, fun _ => by simpa [State.atWork] using hw⟩
  have hl : (s.setLatch r).latch = some r := by simp [State.setLatch]
  have hs : (s.setLatch r).station = s.station := by simp
  rw [hl, hs]
  unfold State.setLatch
  rw [State.latchChannel_channel]
  cases d
  · rw [if_neg (by simp), State.latchChannel_channel, if_pos rfl]
    exact (h.at .a).latched
  · rw [if_pos rfl, State.latchChannel_channel, if_neg (by simp)]
    exact (h.at .b).latched

theorem State.SafeOutputs.raiseCause {s : State} (h : s.SafeOutputs) (k d : Byte) : (s.raiseCause k d).SafeOutputs :=
    by
  unfold State.raiseCause
  split
  · rename_i hc
    have hl (l : Line) (w : State) (hw : w.SafeOutputs) : ({ w with line := l } : State).SafeOutputs := hw
    generalize ((s.line.placeHalt k d).discardRelease) = l
    exact State.SafeOutputs.setLatch (hl l s h) hc.1 _
  · exact h

theorem State.unlatchChannel_channel (s : State) (c d : ChannelId) : (s.unlatchChannel c).channel d =
    if d = c then (if (s.channel c).state = .held ∧ (s.channel c).cause = some .latch then
      { (s.channel c).silence with state := .manual, cause := none } else s.channel c) else s.channel d := by
  unfold State.unlatchChannel
  split
  · rename_i h h2; simp [State.putChannel_channel, h, h2]
  · rename_i h
    split
    · rename_i hd
      rw [hd, if_neg]
      rintro ⟨a, b⟩; exact h a b
    · rfl

theorem Channel.SafeUnder.unlatched {ch : Channel} {r : LatchRecord} {x : Station} (h : ch.SafeUnder (some r) x) :
    (if ch.state = .held ∧ ch.cause = some .latch then { ch.silence with state := .manual, cause := none } else ch).SafeUnder none x := by
  obtain ⟨h1, h2, h3, h4⟩ := h
  split
  · rename_i hc
    have hx : x = .running := by
      by_contra hn
      have := h4 hn
      rw [hc.1] at this; cases this
    refine ⟨⟨fun _ => rfl, by simp, ?_, ?_, fun _ => ⟨rfl, rfl⟩⟩, by simp, by simp, by simp [hx]⟩ <;>
      (intro h; exact absurd h (by simp [Channel.silence]))
  · rename_i hc
    refine ⟨h1, by simp, fun _ h k => hc ⟨h, k⟩, h4⟩

theorem State.SafeOutputs.clearLatch {s : State} (h : s.SafeOutputs) (hl : s.latch ≠ none) : s.clearLatch.SafeOutputs
    := by
  refine State.SafeOutputs.iff.2 ⟨fun d => ?_, fun hn => absurd (by simp [State.clearLatch]) hn⟩
  have hl' : s.clearLatch.latch = none := by simp [State.clearLatch]
  have hs : s.clearLatch.station = s.station := by simp
  obtain ⟨r, hr⟩ := Option.ne_none_iff_exists'.1 hl
  rw [hl', hs]
  unfold State.clearLatch
  have hch (w : State) (f : FaultCode) : (w.removeFault f).channel d = w.channel d := by cases d <;> simp [State.channel]
  rw [hch, State.unlatchChannel_channel]
  have hn (d : ChannelId) : (({ s with latch := none } : State).markStatus).channel d = s.channel d := by cases d <;> rfl
  generalize (({ s with latch := none } : State).markStatus) = w at hn
  have ha := h.at .a
  have hb := h.at .b
  rw [hr] at ha hb
  cases d
  · rw [if_neg (by simp), State.unlatchChannel_channel, if_pos rfl, hn]
    exact ha.unlatched
  · have hb' : (w.unlatchChannel .a).channel .b = s.channel .b := by rw [State.unlatchChannel_channel, if_neg (by simp), hn]
    rw [if_pos rfl, hb']
    exact hb.unlatched

theorem State.SafeOutputs.takeRelease {s : State} (h : s.SafeOutputs) (n : BitVec 4) : (s.takeRelease n).SafeOutputs
    := by
  unfold State.takeRelease State.withSettings
  dsimp only
  split
  · split
    · rename_i hc
      have hl (l : Line) : ({ s with line := l } : State).SafeOutputs := h
      have hk := (hl s.line.discardHalt).clearLatch hc.2.2
      split
      · exact hk.raiseCause _ _
      · exact hk
    · exact h
  · exact h

theorem State.SafeOutputs.pressRelease {s : State} (h : s.SafeOutputs) : s.pressRelease.SafeOutputs := by
  unfold State.pressRelease
  dsimp only
  split
  · exact h
  · have hl (w : State) (l : Line) (h : w.SafeOutputs) : ({ w with line := l } : State).SafeOutputs := h
    apply hl
    split
    · exact h
    · rename_i hn; exact h.clearLatch hn

theorem State.SafeOutputs.runWatches {s : State} (h : s.SafeOutputs) (f : WireFrame) : (s.runWatches f).SafeOutputs
    := by
  have hw (w : State) (n : Fin 4) (x : Watch) (h : w.SafeOutputs) : (w.runWatch n x f).SafeOutputs := by
    unfold State.runWatch
    (repeat' split) <;> first | with_reducible exact h | exact h.raiseCause _ _ | exact h.of_eq rfl rfl rfl rfl
  unfold State.runWatches State.withSettings
  dsimp only
  (repeat' split) <;> first | exact h | exact hw _ _ _ (hw _ _ _ (hw _ _ _ (hw _ _ _ h)))

theorem State.SafeOutputs.modeRequest {s : State} (h : s.SafeOutputs) (st : Settings) (c : ChannelId) (k : Byte) :
    (s.modeRequest st c k).SafeOutputs := by
  unfold State.modeRequest
  dsimp only
  split
  · exact h
  · rename_i hn
    push Not at hn
    have hr : s.station = .running := hn.1
    obtain ⟨⟨a1, a2, a3, a4, a5⟩, a6, a7, a8⟩ := h.at c
    split
    · exact h.channelOff c
    · split
      · unfold State.requestManual
        dsimp only
        split
        · exact h
        · rename_i hm
          push Not at hm
          have hw : (s.dropCoilCode c).SafeOutputs := h.of_eq (by simp) (by simp) (by simp) (by simp)
          refine hw.putChannel ?_
          simp only [State.dropCoilCode_fields, hm.1, hr]
          exact ⟨⟨by simp, by simp, a3, a4, a5⟩, by simp, by simp, by simp⟩
      · split
        · unfold State.requestAuto State.enterAuto
          dsimp only
          split <;> first | with_reducible exact h | split
          all_goals first | with_reducible exact h | skip
          all_goals
            rename_i hm
            have hw : ((s.dropCoilCode c).removeFault (refLostCode c)).SafeOutputs := h.of_eq (by simp) (by simp) (by simp) (by simp)
            refine hw.putChannel ?_
            simp only [State.dropCoilCode_fields, State.removeFault_fields, hm.1, hr]
            exact ⟨⟨by simp, by simp, a3, a4, a5⟩, by simp, by simp, by simp⟩
        · exact h

theorem State.SafeOutputs.mapTarget {s : State} (h : s.SafeOutputs) (c : ChannelId) (f : TargetRecord → TargetRecord)
    :
    (s.mapTarget c f).SafeOutputs := by
  unfold State.mapTarget
  exact h.setChannel ((h.at c).of_eq rfl rfl rfl rfl rfl)

theorem State.SafeOutputs.takeSample {s : State} (h : s.SafeOutputs) (st : Settings) (d : QuantityDef) (e : Entry) (b
    : Bool)
    (r : RawSample) : (s.takeSample st d e b r).SafeOutputs := by
  have h : (s.updateEntry e.key fun _ => e.takeRemote d r s.clock).SafeOutputs := h
  unfold State.takeSample
  generalize (s.updateEntry e.key fun _ => e.takeRemote d r s.clock) = w at h
  have ht (w : State) (c : ChannelId) (q : BitVec 6) (v : Int) (h : w.SafeOutputs) : (w.handTarget st c q v).SafeOutputs := by
    unfold State.handTarget
    dsimp only
    (repeat' split) <;> first | with_reducible exact h | exact h.mapTarget _ _
  have ha (w : State) (c : ChannelId) (q : Byte) (h : w.SafeOutputs) : (w.handAction st c q).SafeOutputs := by
    unfold State.handAction
    dsimp only
    (repeat' split) <;> first | with_reducible exact h | exact h.mapTarget _ _
  unfold State.handOver State.handTargets State.handActions
  dsimp only
  (repeat' split) <;> first | with_reducible exact h | with_reducible exact ht _ _ _ _ (ht _ _ _ _ h) |
    with_reducible exact ha _ _ _ (ha _ _ _ h) | with_reducible exact (h.modeRequest _ _ _).modeRequest _ _ _

theorem State.SafeOutputs.acceptSample {s : State} (h : s.SafeOutputs) (n : BitVec 4) (r : RawSample) :
    (s.acceptSample n r).SafeOutputs := by
  have ht (p : PeerTable) : ({ s with table := p } : State).SafeOutputs := h
  unfold State.acceptSample State.withSettings State.updatePath State.createEntry
  dsimp only
  (repeat' split) <;> first | with_reducible exact h | with_reducible exact h.takeSample _ _ _ _ _ |
    with_reducible exact (ht _).takeSample _ _ _ _ _ | exact h.of_eq rfl rfl rfl rfl

theorem State.SafeOutputs.judgeCoil {s : State} (h : s.SafeOutputs) (c : ChannelId) (i m : Int) : (s.judgeCoil c i
    m).SafeOutputs := by
  unfold State.judgeCoil State.coilFault
  dsimp only
  split
  · rename_i hd
    obtain ⟨hl, hr⟩ := (h.at c).free (by rcases hd.1 with h | h <;> simp [h])
    have hf (f : CoilFault) : ((s.forceChannel c .fault none (some f) none).addFault (coilCode c f)).SafeOutputs := by
      have := h.forceChannel c .fault none (some f) none (by simp) (by simp) (by simp) (by simp [hr])
      exact this.of_eq (by simp) (by simp) (by simp) (by simp)
    (repeat' split) <;> first | exact hf _ | exact h.setChannel ((h.at c).of_eq rfl rfl rfl rfl rfl)
  · exact h

/-- Driving keeps a channel safe. -/
theorem State.SafeOutputs.driveChannel {s : State} (h : s.SafeOutputs) (st : Settings) (cd : ChannelDef) (c :
    ChannelId) :
    (s.driveChannel st cd c).SafeOutputs := by
  have hk : ((s.outputStep st cd c).setCoils cd).SafeUnder s.latch s.station := by
    have hst : (s.outputStep st cd c).state = (s.channel c).state ∧ (s.outputStep st cd c).cause = (s.channel c).cause := by
      unfold State.outputStep State.autoOutput State.manualOutput Channel.drive
      dsimp only
      (repeat' split) <;> exact ⟨rfl, rfl⟩
    have h0 : (s.channel c).state = .off ∨ (s.channel c).state = .held ∨ (s.channel c).state = .fault → (s.outputStep st cd c).out = 0 := by
      intro hc
      unfold State.outputStep
      dsimp only
      split <;> simp_all
    have hs2 : ((s.outputStep st cd c).setCoils cd).state = (s.channel c).state ∧
        ((s.outputStep st cd c).setCoils cd).cause = (s.channel c).cause ∧
        ((s.outputStep st cd c).setCoils cd).out = (s.outputStep st cd c).out := by
      unfold Channel.setCoils
      (repeat' split) <;> exact ⟨hst.1, hst.2, rfl⟩
    obtain ⟨⟨a1, a2, a3, a4, a5⟩, a6, a7, a8⟩ := h.at c
    refine ⟨⟨?_, ?_, ?_, ?_, ?_⟩, ?_, ?_, ?_⟩
    · rw [hs2.1, hs2.2.2]; exact h0
    · rw [hs2.1, hs2.2.1]; exact a2
    · rw [hs2.2.2]; intro hp; unfold Channel.setCoils; rw [if_pos hp]
    · rw [hs2.2.2]; intro hp; unfold Channel.setCoils; rw [if_neg (by omega), if_pos hp]
    · rw [hs2.2.2]; intro hp; unfold Channel.setCoils; rw [if_neg (by omega), if_neg (by omega)]; exact ⟨rfl, rfl⟩
    · unfold Channel.Halted; rw [hs2.1, hs2.2.1]; exact a6
    · rw [hs2.1, hs2.2.1]; exact a7
    · rw [hs2.1]; exact a8
  unfold State.driveChannel
  dsimp only
  have := h.setChannel (c := c) hk
  split
  · exact this.of_eq (by simp) (by simp) (by simp) (by simp)
  · exact this.of_eq (by simp) (by simp) (by simp) (by simp)

theorem State.SafeOutputs.resumeExpired {s : State} (h : s.SafeOutputs) {c : ChannelId} (h1 : (s.channel c).state =
    .held)
    (h2 : (s.channel c).cause = some .refLost) : (s.resumeExpired c).SafeOutputs := by
  obtain ⟨hl, hr⟩ := (h.at c).free (Or.inr (Or.inr ⟨h1, h2⟩))
  unfold State.resumeExpired
  have : (s.putChannel c { (s.channel c).silence with state := .manual, cause := none, resumeTimer := none }).SafeOutputs := by
    refine h.putChannel ?_
    rw [hl, hr]
    refine ⟨⟨fun _ => rfl, by simp, ?_, ?_, fun _ => ⟨rfl, rfl⟩⟩, by simp, by simp, by simp⟩ <;>
      (intro h; exact absurd h (by simp [Channel.silence]))
  exact this.of_eq (by simp) (by simp) (by simp) (by simp)

theorem State.SafeOutputs.checkReference {s : State} (h : s.SafeOutputs) (cd : ChannelDef) (c : ChannelId) :
    (s.checkReference cd c).SafeOutputs := by
  unfold State.checkReference State.loseReference
  dsimp only
  split
  · rename_i h1 _
    obtain ⟨hl, hr⟩ := (h.at c).free (Or.inr (Or.inl h1))
    have hf := h.forceChannel c .held (some .refLost) none (some (after s.clock cd.window)) (by simp) (by simp [hl]) (by simp) (by simp [hr])
    split
    · refine hf.resumeExpired ?_ ?_ <;> rw [State.forceChannel_channel, if_pos rfl]
    · exact hf
  · rename_i h1 h2 _
    obtain ⟨hl, hr⟩ := (h.at c).free (Or.inr (Or.inr ⟨h1, h2⟩))
    obtain ⟨⟨a1, a2, a3, a4, a5⟩, a6, a7, a8⟩ := h.at c
    split
    · unfold State.resumeAuto
      refine h.putChannel ?_
      rw [hl, hr]
      exact ⟨⟨by simp, by simp, a3, a4, a5⟩, by simp, by simp, by simp⟩
    · exact h
  · exact h

theorem State.SafeOutputs.settleTarget {s : State} (h : s.SafeOutputs) (cd : ChannelDef) (c : ChannelId) :
    (s.settleTarget cd c).SafeOutputs := by
  unfold State.settleTarget
  dsimp only
  refine h.setChannel ((h.at c).of_eq ?_ ?_ ?_ ?_ ?_) <;> (unfold Channel.settle; (repeat' split) <;> rfl)

theorem State.SafeOutputs.updateChannel {s : State} (h : s.SafeOutputs) (st : Settings) (c : ChannelId) :
    (s.updateChannel st c).SafeOutputs := by
  unfold State.updateChannel
  dsimp only
  split
  · exact h
  · split
    · apply State.SafeOutputs.driveChannel
      unfold State.conveyorWork
      split
      · rename_i cv k _ _
        have hk (w : State) (k : Conveyor) (h : w.SafeOutputs) : (w.setConveyor k).SafeOutputs := h
        have ha (w : State) (f : FaultCode) (h : w.SafeOutputs) : (w.addFault f).SafeOutputs := h.of_eq (by simp) (by simp) (by simp) (by simp)
        have hb (w : State) (b : Bool) (v : Int) (h : w.SafeOutputs) : (w.commandBelt cv b v).SafeOutputs :=
          h.of_eq (by simp) (by simp) (by simp) (by simp)
        apply hb
        unfold State.judgeBelt
        dsimp only
        (repeat' split) <;> first | with_reducible exact hk _ _ h | with_reducible exact ha _ _ (hk _ _ h) |
          with_reducible exact (hk _ _ h).raiseCause _ _ | with_reducible exact (ha _ _ (hk _ _ h)).raiseCause _ _ |
          with_reducible exact ((ha _ _ (hk _ _ h)).raiseCause _ _).raiseCause _ _
      · exact h
    · exact ((h.settleTarget _ c).checkReference _ c).driveChannel _ _ _

theorem Channel.SafeUnder.start (cd : ChannelDef) (t : Clock) (x : Station) : (cd.start t : Channel).SafeUnder none x
    :=
  ⟨⟨fun _ => rfl, fun h => (by cases h), fun h => absurd h (show ¬ (0:Int) < 0 by decide), fun h => absurd h (show ¬ (0:Int) < 0 by decide), fun _ => ⟨rfl, rfl⟩⟩,
    fun h => absurd rfl h, fun _ h => (by cases h), fun _ => rfl⟩

end Sys2Proof.Machine
end

