-- ==== Sys2Proof/Laws/Limits.lean ====
section
/-! SUPPORT. That each operation on the channels and the conveyor keeps the limits of the settings. -/

namespace Sys2Proof.Machine

/-- A channel within the limits of its settings, or without settings with nothing to limit. -/
def Channel.Lim (ch : Channel) : Option ChannelDef → Prop
  | some cd => cd.Sane ∧ ch.Within cd
  | none => ch.target = none ∧ ch.state = .off ∧ ch.out = 0

/-- A conveyor block there exactly when the settings have one, and within its ranges. -/
def ConvLim (k : Option Conveyor) : Option (Option ConveyorDef) → Prop
  | some (some cv) => ∃ x, k = some x ∧ 0 ≤ cv.xmax ∧ x.Within cv
  | some none => k = none
  | none => k = none

/-- The settings of a channel, once there are any. -/
abbrev State.cdef (s : State) (c : ChannelId) : Option ChannelDef := s.settings.map (·.channel c)

theorem State.Limits.iff {s : State} : s.Limits ↔
    (∀ c, (s.channel c).Lim (s.cdef c)) ∧ ConvLim s.conveyor (s.settings.map (·.conveyor)) := by
  have hch : (∀ c, (s.channel c).Lim (s.cdef c)) ↔ s.chanA.Lim (s.cdef .a) ∧ s.chanB.Lim (s.cdef .b) :=
    ⟨fun h => ⟨h .a, h .b⟩, fun h c => by cases c; exacts [h.1, h.2]⟩
  rw [hch]
  unfold State.Limits State.cdef
  rcases s.settings with _ | st
  · simp only [Option.map, Channel.Lim, ConvLim]; tauto
  · simp only [Option.map, Channel.Lim, ConvLim, Settings.channel]
    rcases hv : st.conveyor with _ | cv <;> rcases hk : s.conveyor with _ | k <;> simp <;> tauto

theorem State.Limits.of_eq {s u : State} (h : s.Limits) (ha : u.chanA = s.chanA) (hb : u.chanB = s.chanB)
    (hc : u.conveyor = s.conveyor) (hs : u.settings = s.settings) : u.Limits := by
  unfold State.Limits at *
  rw [ha, hb, hc, hs]; exact h

theorem Channel.Lim.of_eq {ch ch' : Channel} {o} (h : ch.Lim o) (h1 : ch'.target = ch.target) (h2 : ch'.state =
    ch.state) (h3 : ch'.out = ch.out) : ch'.Lim o := by
  cases o <;> simp only [Channel.Lim, Channel.Within] at * <;> rw [h1, h2, h3] <;> exact h

theorem Channel.Lim.role {ch : Channel} {o} (h : ch.Lim o) (hs : ch.state ≠ .off) : ∃ cd, o = some cd ∧ cd.role ≠
    .none := by
  cases o with
  | none => exact absurd h.2.1 hs
  | some cd => exact ⟨cd, rfl, fun hr => hs (h.2.1 hr).1⟩

theorem ChannelDef.Sane.zero {cd : ChannelDef} (h : cd.Sane) (hr : cd.role ≠ .none) : cd.lowest ≤ 0 ∧ 0 ≤ cd.umax :=
    by
  have := h.1 hr
  unfold ChannelDef.lowest
  split <;> omega

theorem Channel.Lim.to {ch ch' : Channel} {o} (h : ch.Lim o) (hr : ∃ cd, o = some cd ∧ cd.role ≠ .none)
    (h1 : ch'.target = ch.target) (h3 : ch'.out = ch.out ∨ ch'.out = 0) : ch'.Lim o := by
  obtain ⟨cd, rfl, hr⟩ := hr
  obtain ⟨hs, h0, ho, ht⟩ := h
  refine ⟨hs, fun h => absurd h hr, fun _ => ?_, by rw [h1]; exact ht⟩
  rcases h3 with h3 | h3 <;> rw [h3]
  · exact ho hr
  · exact hs.zero hr

theorem State.Limits.at {s : State} (h : s.Limits) (c : ChannelId) : (s.channel c).Lim (s.cdef c) :=
    (State.Limits.iff.1 h).1 c

theorem State.Limits.setChannel {s : State} (h : s.Limits) {c : ChannelId} {ch : Channel}
    (hc : ch.Lim (s.cdef c)) : (s.setChannel c ch).Limits := by
  obtain ⟨h1, h2⟩ := State.Limits.iff.1 h
  refine State.Limits.iff.2 ⟨fun d => ?_, by simpa using h2⟩
  rw [State.setChannel_channel]
  simp only [State.cdef, State.setChannel_fields]
  split
  · rename_i hd; subst hd; exact hc
  · exact h1 d

theorem ConvLim.leave {k o} (h : ConvLim k o) : ConvLim (k.map Conveyor.leaveAuto) o := by
  rcases o with _ | _ | cv
  · simp only [ConvLim] at *; rw [h]; rfl
  · simp only [ConvLim] at *; rw [h]; rfl
  · obtain ⟨x, rfl, h0, h⟩ := h
    exact ⟨_, rfl, h0, h⟩

theorem State.putChannel_conveyor (s : State) (c : ChannelId) (ch : Channel) : (s.putChannel c ch).conveyor =
    s.conveyor ∨
    (s.putChannel c ch).conveyor = s.conveyor.map Conveyor.leaveAuto := by
  unfold State.putChannel
  dsimp only
  split
  · right; simp; split <;> simp
  · left; split <;> simp

theorem State.Limits.putChannel {s : State} (h : s.Limits) {c : ChannelId} {ch : Channel}
    (hc : ch.Lim (s.cdef c)) : (s.putChannel c ch).Limits := by
  obtain ⟨h1, h2⟩ := State.Limits.iff.1 h
  refine State.Limits.iff.2 ⟨fun d => ?_, ?_⟩
  · rw [State.putChannel_channel]
    simp only [State.cdef, State.putChannel_fields]
    split
    · rename_i hd; subst hd; exact hc
    · exact h1 d
  · simp only [State.putChannel_fields]
    rcases State.putChannel_conveyor s c ch with e | e <;> rw [e]
    · exact h2
    · exact h2.leave

theorem State.Limits.withdrawCheck {s : State} (h : s.Limits) (c) : (s.withdrawCheck c).Limits := h.of_eq (by simp)
    (by simp) (by simp) (by simp)

theorem State.Limits.forceChannel {s : State} (h : s.Limits) (c : ChannelId) (st : ChannelState) (k : Option
    HeldCause)
    (f : Option CoilFault) (r : Option Clock) (hs : (s.channel c).state ≠ .off) : (s.forceChannel c st k f r).Limits := by
  unfold State.forceChannel
  refine (h.withdrawCheck c).putChannel ?_
  simp only [State.cdef, State.withdrawCheck_fields]
  exact (h.at c).to ((h.at c).role hs) rfl (Or.inr rfl)

theorem State.dropCoilCode_channel (s : State) (c d) : (s.dropCoilCode c).channel d = s.channel d := by cases d <;>
    simp [State.channel]

theorem State.Limits.dropCoilCode {s : State} (h : s.Limits) (c : ChannelId) : (s.dropCoilCode c).Limits := h.of_eq
    (by simp) (by simp) (by simp) (by simp)

theorem State.Limits.channelOff {s : State} (h : s.Limits) (c : ChannelId) : (s.channelOff c).Limits := by
  unfold State.channelOff
  split
  · exact h
  · exact (h.dropCoilCode c).forceChannel c _ _ _ _ (by rw [State.dropCoilCode_channel]; assumption)

theorem State.Limits.latchChannel {s : State} (h : s.Limits) (c : ChannelId) : (s.latchChannel c).Limits := by
  unfold State.latchChannel
  split
  · exact h.forceChannel _ _ _ _ _ (by simp_all)
  · exact h.forceChannel _ _ _ _ _ (by simp_all)
  · exact h.forceChannel _ _ _ _ _ (by simp_all)
  · exact h

theorem State.Limits.setLatch {s : State} (h : s.Limits) (r : LatchRecord) : (s.setLatch r).Limits := by
  unfold State.setLatch
  apply State.Limits.latchChannel
  apply State.Limits.latchChannel
  exact h

theorem State.Limits.raiseCause {s : State} (h : s.Limits) (k d : Byte) : (s.raiseCause k d).Limits := by
  unfold State.raiseCause
  split
  · have hl (l : Line) (w : State) (hw : w.Limits) : ({ w with line := l } : State).Limits := hw
    generalize ((s.line.placeHalt k d).discardRelease) = l
    exact State.Limits.setLatch (hl l s h) _
  · exact h

theorem State.Limits.unlatchChannel {s : State} (h : s.Limits) (c : ChannelId) : (s.unlatchChannel c).Limits := by
  unfold State.unlatchChannel
  split
  · exact h.putChannel ((h.at c).to ((h.at c).role (by simp_all)) rfl (Or.inr rfl))
  · exact h

theorem State.Limits.addFault {s : State} (h : s.Limits) (f) : (s.addFault f).Limits := h.of_eq (by simp) (by simp)
    (by simp) (by simp)

theorem State.Limits.removeFault {s : State} (h : s.Limits) (f) : (s.removeFault f).Limits := h.of_eq (by simp) (by
    simp) (by simp) (by simp)

theorem State.Limits.clearLatch {s : State} (h : s.Limits) : s.clearLatch.Limits := by
  unfold State.clearLatch
  apply State.Limits.removeFault
  apply State.Limits.unlatchChannel
  apply State.Limits.unlatchChannel
  exact h

theorem State.Limits.takeRelease {s : State} (h : s.Limits) (n : BitVec 4) : (s.takeRelease n).Limits := by
  unfold State.takeRelease State.withSettings
  have hk : ({ s with line := s.line.discardHalt } : State).clearLatch.Limits := by
    apply State.Limits.clearLatch
    exact h
  dsimp only
  (repeat' split) <;> first | with_reducible exact h | exact hk.raiseCause _ _ | exact hk

theorem State.Limits.pressRelease {s : State} (h : s.Limits) : s.pressRelease.Limits := by
  unfold State.pressRelease
  dsimp only
  split
  · exact h
  · have hl (w : State) (l : Line) (h : w.Limits) : ({ w with line := l } : State).Limits := h
    apply hl
    split
    exacts [h, h.clearLatch]

theorem State.Limits.runWatches {s : State} (h : s.Limits) (f : WireFrame) : (s.runWatches f).Limits := by
  have hw (w : State) (n : Fin 4) (x : Watch) (h : w.Limits) : (w.runWatch n x f).Limits := by
    unfold State.runWatch
    (repeat' split) <;> first | with_reducible exact h | exact h.raiseCause _ _ | exact h.of_eq rfl rfl rfl rfl
  unfold State.runWatches State.withSettings
  dsimp only
  (repeat' split) <;> first | exact h | exact hw _ _ _ (hw _ _ _ (hw _ _ _ (hw _ _ _ h)))

theorem State.Limits.modeRequest {s : State} (h : s.Limits) (st : Settings) (hst : s.settings = some st) (c :
    ChannelId) (k : Byte) :
    (s.modeRequest st c k).Limits := by
  unfold State.modeRequest
  dsimp only
  split
  · exact h
  · rename_i hn
    push Not at hn
    have hro : ∃ cd, s.cdef c = some cd ∧ cd.role ≠ .none := ⟨st.channel c, by simp [State.cdef, hst], hn.2.2⟩
    have hd := h.dropCoilCode c
    split
    · exact h.channelOff c
    · split
      · unfold State.requestManual
        dsimp only
        split
        · exact h
        · refine hd.putChannel ?_
          simp only [State.cdef, State.dropCoilCode_fields]
          exact (h.at c).to hro rfl (Or.inl rfl)
      · split
        · unfold State.requestAuto State.enterAuto
          dsimp only
          split <;> first | with_reducible exact h | split
          all_goals first | with_reducible exact h | skip
          all_goals
            refine (hd.removeFault _).putChannel ?_
            simp only [State.cdef, State.dropCoilCode_fields, State.removeFault_fields]
            have h2 := h.at c
            obtain ⟨cd, hcd, hr⟩ := hro
            unfold State.cdef at h2 hcd
            rw [hcd] at h2 ⊢
            obtain ⟨hs, h0, ho, ht⟩ := h2
            refine ⟨hs, fun h => absurd h hr, ho, ?_⟩
            intro r hr'
            cases hx : (s.channel c).target with
            | none => simp [hx] at hr'
            | some x =>
              simp only [hx, Option.map, Option.some.injEq] at hr'
              subst hr'
              obtain ⟨h1, h2⟩ := ht x hx
              exact ⟨h1, h2⟩
        · exact h

theorem clamp_within {x lo hi : Int} (h : lo ≤ hi) : lo ≤ clamp x lo hi ∧ clamp x lo hi ≤ hi := by
  unfold clamp; (repeat' split) <;> omega

theorem State.Limits.mapTarget {s : State} (h : s.Limits) (c : ChannelId) (f : TargetRecord → TargetRecord)
    (hf : ∀ cd, s.cdef c = some cd → ∀ r, cd.controls → cd.lo ≤ cd.hi → r.Within cd → (f r).Within cd) :
    (s.mapTarget c f).Limits := by
  unfold State.mapTarget
  refine h.setChannel ?_
  have h2 := h.at c
  generalize s.cdef c = o at *
  cases o with
  | none => exact ⟨by simp [h2.1], h2.2⟩
  | some cd =>
    obtain ⟨hs, h0, ho, ht⟩ := h2
    refine ⟨hs, fun hr => ⟨(h0 hr).1, (h0 hr).2.1, by simp [(h0 hr).2.2]⟩, ho, ?_⟩
    intro r hr'
    cases hx : (s.channel c).target with
    | none => simp [hx] at hr'
    | some x =>
      simp only [hx, Option.map, Option.some.injEq] at hr'
      subst hr'
      obtain ⟨h1, h2⟩ := ht x hx
      exact ⟨h1, hf cd rfl x h1 (hs.2 h1).1 h2⟩

theorem State.Limits.handTarget {s : State} (h : s.Limits) (st : Settings) (hst : s.settings = some st) (c :
    ChannelId) (q v) : (s.handTarget st c q v).Limits := by
  unfold State.handTarget
  dsimp only
  (repeat' split) <;> first | with_reducible exact h | skip
  refine h.mapTarget _ _ fun cd hcd r hc hl hw => ?_
  have : st.channel c = cd := by simpa [State.cdef, hst] using hcd
  rw [this]
  obtain ⟨h1, h2, h3⟩ := hw
  refine ⟨h1, ?_, h3⟩
  unfold TargetRecord.newTarget
  dsimp only
  split <;> exact clamp_within hl

theorem State.Limits.handAction {s : State} (h : s.Limits) (st : Settings) (hst : s.settings = some st) (c :
    ChannelId) (q) : (s.handAction st c q).Limits := by
  unfold State.handAction
  dsimp only
  (repeat' split) <;> first | with_reducible exact h | skip
  · refine h.mapTarget _ _ fun cd hcd r hc hl hw => ?_
    have : st.channel c = cd := by simpa [State.cdef, hst] using hcd
    rw [this]
    obtain ⟨h1, h2, h3⟩ := hw
    unfold TargetRecord.lift
    cases hk : r.stack with
    | none => exact ⟨h1, h2, h3⟩
    | some l =>
      rw [hk] at h3
      refine ⟨h1, clamp_within hl, ?_⟩
      refine ⟨by simp, fun v hv => ?_⟩
      have := List.mem_of_mem_take hv
      rcases List.mem_cons.1 this with rfl | hm
      · exact h2
      · exact h3.2 v hm
  · refine h.mapTarget _ _ fun cd hcd r hc hl hw => ?_
    obtain ⟨h1, h2, h3⟩ := hw
    unfold TargetRecord.recall
    split
    · rename_i top rest hk
      rw [hk] at h3
      refine ⟨h1, h3.2 top (by simp), ?_, fun v hv => h3.2 v (by simp [hv])⟩
      have := h3.1
      simp at this
      show rest.length ≤ _
      omega
    · exact ⟨h1, h2, h3⟩

theorem State.Limits.takeSample {s : State} (h : s.Limits) (st : Settings) (hst : s.settings = some st) (d :
    QuantityDef) (e : Entry) (b : Bool)
    (r : RawSample) : (s.takeSample st d e b r).Limits := by
  have h : (s.updateEntry e.key fun _ => e.takeRemote d r s.clock).Limits := h
  have hst : (s.updateEntry e.key fun _ => e.takeRemote d r s.clock).settings = some st := hst
  unfold State.takeSample
  generalize (s.updateEntry e.key fun _ => e.takeRemote d r s.clock) = w at h hst
  unfold State.handOver State.handTargets State.handActions
  dsimp only
  (repeat' split) <;> first | with_reducible exact h | with_reducible exact (h.handTarget st hst _ _ _).handTarget st (by simpa using hst) _ _ _ |
    with_reducible exact (h.handAction st hst _ _).handAction st (by simpa using hst) _ _ | with_reducible exact (h.modeRequest _ hst _ _).modeRequest _ (by simpa using hst) _ _

theorem State.Limits.acceptSample {s : State} (h : s.Limits) (n : BitVec 4) (r : RawSample) : (s.acceptSample n
    r).Limits := by
  have ht (p : PeerTable) : ({ s with table := p } : State).Limits := h
  unfold State.acceptSample State.withSettings State.updatePath State.createEntry
  dsimp only
  split
  · rename_i st hst
    (repeat' split) <;> first | with_reducible exact h | with_reducible exact h.takeSample _ hst _ _ _ _ |
      with_reducible exact ht _ | (apply State.Limits.takeSample; with_reducible exact ht _; show s.settings = _; exact hst) | (apply h.of_eq <;> rfl)
  · exact h

theorem State.Limits.judgeCoil {s : State} (h : s.Limits) (c : ChannelId) (i m : Int) : (s.judgeCoil c i m).Limits :=
    by
  unfold State.judgeCoil State.coilFault
  dsimp only
  split
  · rename_i hd
    have hf (f : CoilFault) : ((s.forceChannel c .fault none (some f) none).addFault (coilCode c f)).Limits :=
      (h.forceChannel c .fault none (some f) none (by rcases hd.1 with h | h <;> simp [h])).addFault _
    (repeat' split) <;> first | exact hf _ | exact h.setChannel ((h.at c).of_eq rfl rfl rfl)
  · exact h

theorem slew_within {u p sl lo hi : Int} (hs : 0 ≤ sl) (hu : lo ≤ u ∧ u ≤ hi) (hp : lo ≤ p ∧ p ≤ hi) : lo ≤ slewTo u
    p sl ∧ slewTo u p sl ≤ hi := by
  unfold slewTo clamp; (repeat' split) <;> omega

theorem State.Limits.driveChannel {s : State} (h : s.Limits) (st : Settings) (c : ChannelId) (cd : ChannelDef) (hcd :
    s.cdef c = some cd)
    (hr : cd.role ≠ .none) : (s.driveChannel st cd c).Limits := by
  have hk : ((s.outputStep st cd c).setCoils cd).Lim (s.cdef c) := by
    have h2 := h.at c
    rw [hcd] at h2 ⊢
    obtain ⟨hs, h0, ho, ht⟩ := h2
    have hz := hs.zero hr
    have hb := ho hr
    have hcl (x : Int) : cd.lowest ≤ clamp x cd.lowest cd.umax ∧ clamp x cd.lowest cd.umax ≤ cd.umax := clamp_within (by omega)
    have hsl (x : Int) := slew_within (hs.1 hr).2 (hcl x) hb
    have hot : (s.outputStep st cd c).target = (s.channel c).target ∧ cd.lowest ≤ (s.outputStep st cd c).out ∧ (s.outputStep st cd c).out ≤ cd.umax := by
      unfold State.outputStep State.autoOutput State.manualOutput Channel.drive
      dsimp only
      (repeat' split) <;> refine ⟨rfl, ?_⟩ <;> first | exact hsl _ | exact hb | exact hz
    have e : ((s.outputStep st cd c).setCoils cd).target = (s.outputStep st cd c).target ∧ ((s.outputStep st cd c).setCoils cd).out = (s.outputStep st cd c).out := by
      unfold Channel.setCoils
      (repeat' split) <;> exact ⟨rfl, rfl⟩
    refine ⟨hs, fun h => absurd h hr, fun _ => by rw [e.2]; exact hot.2, by rw [e.1, hot.1]; exact ht⟩
  unfold State.driveChannel
  dsimp only
  have := h.setChannel (c := c) hk
  split
  · exact this.of_eq (by simp) (by simp) (by simp) (by simp)
  · exact this.of_eq (by simp) (by simp) (by simp) (by simp)

theorem State.Limits.resumeExpired {s : State} (h : s.Limits) {c : ChannelId} (h1 : (s.channel c).state = .held) :
    (s.resumeExpired c).Limits := by
  unfold State.resumeExpired
  apply State.Limits.addFault
  exact h.putChannel ((h.at c).to ((h.at c).role (by simp [h1])) rfl (Or.inr rfl))

theorem State.Limits.checkReference {s : State} (h : s.Limits) (cd : ChannelDef) (c : ChannelId) : (s.checkReference
    cd c).Limits := by
  unfold State.checkReference State.loseReference
  dsimp only
  split
  · rename_i h1 _
    have hf := h.forceChannel c .held (some .refLost) none (some (after s.clock cd.window)) (by simp [h1])
    split
    · refine hf.resumeExpired ?_; rw [State.forceChannel_channel, if_pos rfl]
    · exact hf
  · rename_i h1 h2 _
    split
    · unfold State.resumeAuto
      exact h.putChannel ((h.at c).to ((h.at c).role (by simp [h1])) rfl (Or.inl rfl))
    · exact h
  · exact h

theorem State.Limits.settleTarget {s : State} (h : s.Limits) (cd : ChannelDef) (c : ChannelId) (hcd : s.cdef c = some
    cd) (hr : cd.role ≠ .none) :
    (s.settleTarget cd c).Limits := by
  unfold State.settleTarget
  dsimp only
  refine h.setChannel ?_
  have h2 := h.at c
  rw [hcd] at h2 ⊢
  obtain ⟨hs, h0, ho, ht⟩ := h2
  have hset (a) : (((s.channel c).settle a).out = (s.channel c).out) ∧ ∀ r, ((s.channel c).settle a).target = some r → cd.controls ∧ r.Within cd := by
    unfold Channel.settle
    dsimp only
    (repeat' split) <;> refine ⟨rfl, ?_⟩ <;> first | exact ht | skip
    intro r hr'
    cases hx : (s.channel c).target with
    | none => simp [hx] at hr'
    | some x =>
      simp only [hx, Option.map, Option.some.injEq] at hr'
      subst hr'
      obtain ⟨h1, h2⟩ := ht x hx
      exact ⟨h1, h2⟩
  refine ⟨hs, fun h => absurd h hr, by rw [show (_ : Channel).out = _ from (hset (s.activeGroup cd.refs)).1]; exact ho, ?_⟩
  intro r hr'
  cases hx : ((s.channel c).settle (s.activeGroup cd.refs)).target with
  | none => simp [hx] at hr'
  | some x =>
    simp only [hx, Option.map, Option.some.injEq] at hr'
    subst hr'
    obtain ⟨h1, h2, h3, h4⟩ := (hset _).2 x hx
    refine ⟨h1, clamp_within (hs.2 h1).1, ?_, h4⟩
    unfold TargetRecord.update
    dsimp only
    split
    · exact clamp_within (hs.2 h1).1
    · exact h3

theorem State.Limits.setConveyor {s : State} (h : s.Limits) (k : Conveyor) (hk : ∀ st cv, s.settings = some st →
    st.conveyor = some cv → 0 ≤ cv.xmax → k.Within cv)
   (hc : ∃ st cv, s.settings = some st ∧ st.conveyor = some cv) : (s.setConveyor k).Limits := by
  obtain ⟨h1, h2⟩ := State.Limits.iff.1 h
  refine State.Limits.iff.2 ⟨h1, ?_⟩
  obtain ⟨st, cv, e1, e2⟩ := hc
  show ConvLim (some k) (s.settings.map (·.conveyor))
  rw [e1] at h2 ⊢
  simp only [Option.map, e2, ConvLim] at h2 ⊢
  obtain ⟨x, _, h0, _⟩ := h2
  exact ⟨k, rfl, h0, hk st cv e1 e2 h0⟩

theorem State.Limits.conveyorAt {s : State} (h : s.Limits) {k} (hk : s.conveyor = some k) : ∃ st cv, s.settings =
    some st ∧ st.conveyor = some cv ∧ 0 ≤ cv.xmax ∧ k.Within cv := by
  have h2 := (State.Limits.iff.1 h).2
  rcases hs : s.settings with _ | st
  · rw [hs] at h2; simp [ConvLim, hk] at h2
  · rw [hs] at h2
    rcases hc : st.conveyor with _ | cv
    · simp [ConvLim, hk, hc] at h2
    · simp only [Option.map, hc, ConvLim, hk] at h2
      obtain ⟨x, hx, h0, hw⟩ := h2
      cases hx
      exact ⟨st, cv, rfl, hc, h0, hw⟩

theorem updateRate_within {k : Conveyor} {cv : ConveyorDef} (h : k.Within cv) (d v c) : (k.updateRate cv d v
    c).Within cv := by
  obtain ⟨h1, h2, h3, h4⟩ := h
  unfold Conveyor.updateRate
  (repeat' split) <;> refine ⟨h1, h2, ?_⟩ <;> first | exact ⟨h3, h4⟩ | skip
  exact clamp_within (by decide)

theorem State.Limits.conveyorWork {s : State} (h : s.Limits) (st : Settings) (hst : s.settings = some st) :
    (s.conveyorWork st).Limits := by
  unfold State.conveyorWork
  split
  · rename_i cv k hcv hk
    obtain ⟨st', cv', e1, e2, h0, hw⟩ := h.conveyorAt hk
    rw [hst] at e1; cases e1
    rw [hcv] at e2; cases e2
    dsimp only
    have hu := updateRate_within hw (s.validResult cv.depthGroup) (s.validResult cv.advanceGroup) s.clock
    generalize k.updateRate cv (s.validResult cv.depthGroup) (s.validResult cv.advanceGroup) s.clock = k1 at hu
    have hset (w : State) (hw : w.Limits) (hws : w.settings = some st) (x : Conveyor) (hx : x.Within cv) : (w.setConveyor x).Limits :=
      hw.setConveyor x (fun st' cv' e1 e2 _ => by rw [hws] at e1; cases e1; rw [hcv] at e2; cases e2; exact hx) ⟨st, cv, hws, hcv⟩
    have hj : (s.judgeBelt st cv k1 (s.beltSpeed cv)).Limits := by
      unfold State.judgeBelt
      dsimp only
      split
      · exact hset s h hst _ hu
      · have hb : (s.setConveyor { ({ k1 with content := integrate cv k1.content k1.loose (s.beltSpeed cv) st.chanA.period } : Conveyor).judgeFull cv with
            stallStart := nextStallStart k1.stallStart (stallCondition s.chanA k1.command (s.beltSpeed cv)) s.clock }).Limits :=
          hset s h hst _ ⟨(clamp_within h0).1, (clamp_within h0).2, hu.2.2⟩
        (repeat' split) <;> first | with_reducible exact hb | with_reducible exact hb.addFault _ | with_reducible exact hb.raiseCause _ _ | with_reducible exact (hb.addFault _).raiseCause _ _ |
          with_reducible exact ((hb.addFault _).raiseCause _ _).raiseCause _ _
    have hjs : (s.judgeBelt st cv k1 (s.beltSpeed cv)).settings = some st := by simp [hst]
    generalize s.judgeBelt st cv k1 (s.beltSpeed cv) = w at hj hjs
    unfold State.commandBelt
    split
    · rename_i k2 hk2
      split
      · obtain ⟨st', cv', e1, e2, h0, hw⟩ := hj.conveyorAt hk2
        rw [hjs] at e1; cases e1
        rw [hcv] at e2; cases e2
        exact hset w hj hjs _ hw
      · exact hj
    · exact hj
  · exact h

theorem State.Limits.updateChannel {s : State} (h : s.Limits) (st : Settings) (hst : s.settings = some st) (c :
    ChannelId) : (s.updateChannel st c).Limits := by
  unfold State.updateChannel
  dsimp only
  have hcd (w : State) (h : w.settings = some st) : w.cdef c = some (st.channel c) := by simp [State.cdef, h]
  split
  · exact h
  · rename_i hr
    split
    · exact (h.conveyorWork st hst).driveChannel _ _ _ (hcd _ (by simpa using hst)) hr
    · exact ((h.settleTarget _ c (hcd _ hst) hr).checkReference _ c).driveChannel _ _ _ (hcd _ (by simpa using hst)) hr

theorem channelStart_within {cd : ChannelDef} (h : cd.Sane) (t : Clock) : (cd.start t).Within cd := by
  refine ⟨fun hr => ⟨rfl, rfl, ?_⟩, fun hr => h.zero hr, ?_⟩
  · show cd.targetAtStart = none
    unfold ChannelDef.targetAtStart
    rw [if_neg]
    unfold ChannelDef.controls
    rw [hr]; simp
  · intro r hr
    have hr : cd.targetAtStart = some r := hr
    unfold ChannelDef.targetAtStart at hr
    split at hr
    · rename_i hc
      injection hr with hr
      subst hr
      have := h.2 hc
      refine ⟨hc, this.2, this.2, ?_⟩
      dsimp only
      split
      · rename_i l hl
        split at hl <;> simp at hl
        subst hl; simp
      · trivial
    · cases hr

theorem u8_nonneg (m a) : (0:Int) ≤ u8 m a := by omega

theorem channelSane {m : Memory} {c : ChannelId} (h : channelLimits m c = true) : (channelDef m c).Sane := by
  refine ⟨fun _ => ?_, fun hc => ?_⟩
  · unfold channelDef; dsimp only; omega
  · unfold channelLimits at h
    dsimp only at h
    have ht : targetLimits m c = true := by
      unfold ChannelDef.controls channelDef at hc
      dsimp only at hc
      unfold channelRole at hc
      split at hc <;> simp at hc
      all_goals
        rename_i he
        rw [he] at h
        simp only [Bool.and_eq_true] at h
        tauto
    unfold targetLimits at ht
    dsimp only at ht
    simp only [Bool.and_eq_true, decide_eq_true_eq] at ht
    obtain ⟨⟨⟨⟨_, _⟩, h1⟩, _⟩, h2⟩ := ht
    have hf : (channelDef m c).firstTarget = (match (channelDef m c).target with | .fixed v => v | _ => (channelDef m c).lo) := rfl
    unfold channelDef at hf ⊢
    dsimp only at hf ⊢
    refine ⟨h1, ?_⟩
    unfold ChannelDef.firstTarget targetSource
    dsimp only
    split at h2
    · rename_i he
      rw [he]; simp only []; omega
    · rename_i he
      rw [he]; simp only []; omega
    · rename_i he
      rw [he]; simp only []
      simp only [Bool.and_eq_true, decide_eq_true_eq] at h2
      exact h2.2
    · cases h2

end Sys2Proof.Machine
end

