-- ==== Sys2Proof/Laws/Updates.lean ====
section
/-! SUPPORT. A channel update in its steps: what it reads of the groups, what the coil drive leaves, and what the
arbiter begins next. -/

namespace Sys2Proof.Machine

theorem State.validResult_congr {s u : State} (h : u.groups = s.groups) (n) : u.validResult n = s.validResult n := by
  unfold State.validResult State.record; rw [h]

theorem State.activeGroup_congr {s u : State} (h : u.groups = s.groups) (l) : u.activeGroup l = s.activeGroup l := by
  induction l with
  | nil => rfl
  | cons g l ih => unfold State.activeGroup; rw [State.validResult_congr h, ih]

theorem State.derivedValue_congr {s u : State} (h : u.groups = s.groups) (cd) : u.derivedValue cd = s.derivedValue cd
    := by
  unfold State.derivedValue State.record; rw [h]

theorem State.plungeResult_congr {s u : State} (h : u.groups = s.groups) (cd) : u.plungeResult cd = s.plungeResult cd
    := by
  unfold State.plungeResult; congr 1; funext p; rw [State.validResult_congr h]

theorem State.setChannel_self (s : State) (c ch) : (s.setChannel c ch).channel c = ch := by cases c <;> rfl

theorem State.setChannel_set (s : State) (c ch ch') : (s.setChannel c ch).setChannel c ch' = s.setChannel c ch' :=
    by cases c <;> rfl

/-- A CHANNEL_UPDATE whose timer is due is the update of a channel with its timer set anew. -/
theorem exec_channelUpdate_due {s : State} {t : Nat} {c : ChannelId} {st : Settings} {expiry : Clock} (hs :
    s.settings = some st)
    (hd : s.due t (s.channel c).updateTimer expiry) : exec (.channelUpdate t c) s =
    .next (((s.tick t).setChannel c { s.channel c with updateTimer := some (after expiry (st.channel c).period) }).updateChannel st c) := by
  obtain ⟨hr, ht, hx⟩ := hd
  show execChannelUpdate t c s = _
  unfold execChannelUpdate
  rw [State.event_run hr]
  have hc : (s.tick t).channel c = s.channel c := by cases c <;> rfl
  simp only [State.withSettings, State.tick_fields, hs, hc, expired, ht, hx, if_true, State.armUpdate]

theorem ChannelDef.controls_role {cd : ChannelDef} (h : cd.controls) : cd.role ≠ .none ∧ cd.role ≠ .belt := by
  rcases h with h | h <;> simp [h]

theorem Channel.setCoils_driven (ch : Channel) (cd : ChannelDef) : (ch.setCoils cd).DrivenBy cd := by
  unfold Channel.setCoils Channel.DrivenBy coilCurrent
  (repeat' split) <;> refine ⟨?_, ?_, ?_⟩ <;> intro h <;> first | exact ⟨rfl, rfl⟩ | (exfalso; simp only [] at h; omega)

theorem Channel.setCoils_keeps (ch : Channel) (cd : ChannelDef) : (ch.setCoils cd).out = ch.out ∧ (ch.setCoils
    cd).state = ch.state ∧ (ch.setCoils cd).cause = ch.cause ∧
   (ch.setCoils cd).ref = ch.ref ∧ (ch.setCoils cd).target = ch.target ∧ (ch.setCoils cd).sat = ch.sat ∧ (ch.setCoils cd).inDeadband = ch.inDeadband ∧ (ch.setCoils cd).updateTimer = ch.updateTimer
   ∧ (ch.setCoils cd).resumeTimer = ch.resumeTimer := by
  unfold Channel.setCoils
  (repeat' split) <;> simp

theorem State.withdrawCheck_eq (s : State) (c : ChannelId) :
    s.withdrawCheck c = { s with converter := s.converter.withRequest c none } := by cases c <;> rfl

theorem State.driveChannel_eq (s : State) (st : Settings) (cd : ChannelDef) (c : ChannelId) (now : Nat) (hn : s.now =
    now) :
    let ch := (s.outputStep st cd c).setCoils cd
    ∃ k, s.driveChannel st cd c = { s.setChannel c ch with converter := k } ∧ CheckAsked s.converter k now c ch ∧ (s.driveChannel st cd c).channel c = ch := by
  dsimp only
  subst hn
  unfold State.driveChannel CheckAsked
  dsimp only
  generalize (s.outputStep st cd c).setCoils cd = ch
  split
  · refine ⟨_, State.withdrawCheck_eq _ c, ?_, ?_⟩ <;> cases c <;> rfl
  · unfold State.requestCheck
    have hc : (s.setChannel c ch).converter = s.converter := by cases c <;> rfl
    rw [hc]
    split
    · refine ⟨_, rfl, ?_, ?_⟩ <;> cases c <;> rfl
    · refine ⟨_, rfl, ?_, ?_⟩ <;> cases c <;> rfl

/-- What the coil step leaves of a channel whose output step put out this. -/
theorem Channel.setCoils_putsOut (before : Channel) (cd : ChannelDef) (out : Int) (sat : Saturation) (inDeadband : Bool) :
    before.PutsOut cd out sat inDeadband
      (({ before with out := out, sat := sat, inDeadband := inDeadband } : Channel).setCoils cd) := by
  refine ⟨Channel.setCoils_driven _ _, ?_⟩
  unfold Channel.setCoils
  split
  · rw [if_neg (by rename_i h; simp only at h; omega)]
  · split
    · rw [if_neg (by rename_i h; simp only at h; omega)]
    · rw [if_pos (by rename_i h1 h2; simp only at h1 h2; omega)]

/-- The last two steps of an update, given what the output step makes of the channel. -/
theorem State.driveChannel_putsOut {s : State} {st : Settings} {cd : ChannelDef} {c : ChannelId} {out : Int} {sat :
    Saturation}
    {inDeadband : Bool} (h : s.outputStep st cd c = { s.channel c with out := out, sat := sat, inDeadband := inDeadband }) :
    (s.channel c).PutsOut cd out sat inDeadband ((s.driveChannel st cd c).channel c) ∧
    CheckAsked s.converter (s.driveChannel st cd c).converter s.now c ((s.driveChannel st cd c).channel c) ∧
    s.driveChannel st cd c = { s.setChannel c ((s.driveChannel st cd c).channel c) with
      converter := (s.driveChannel st cd c).converter } := by
  obtain ⟨k, e1, e2, e3⟩ := State.driveChannel_eq s st cd c s.now rfl
  rw [e3, h]
  rw [h] at e1 e2
  refine ⟨Channel.setCoils_putsOut _ _ _ _ _, ?_, ?_⟩
  · rw [e1]; exact e2
  · rw [e1]

/-- Output 0 withdraws the channel's waiting check. -/
theorem CheckAsked.atZero {before after : Converter} {now : Nat} {c : ChannelId} {ch : Channel}
    (h : CheckAsked before after now c ch) (h0 : ch.out = 0) : after = before.withRequest c none := by
  unfold CheckAsked at h
  rwa [if_pos h0] at h

theorem State.nextConversion_of (s : State) (k : Converter) (positions : Nat) (h : k.running = none) :
    ({ s with converter := k } : State).nextConversion positions =
      { s with converter := k.arbitrated positions s.now } := by
  obtain ⟨_, scan, a, b, _, _⟩ := k
  cases h
  unfold State.nextConversion Converter.arbitrated State.startConversion
  rcases a with _ | a <;> rcases b with _ | b <;> rcases scan with _ | codes <;> first
    | rfl
    | (dsimp only; split <;> rfl)

/-- On an idle converter the arbiter is `Converter.arbitrated` (R50). -/
theorem State.nextConversion_idle (s : State) (positions : Nat) (h : s.converter.running = none) :
    s.nextConversion positions = { s with converter := s.converter.arbitrated positions s.now } :=
  State.nextConversion_of s s.converter positions h

/-- The first two steps of an update and its timer are `State.settled`. -/
theorem State.settleTarget_eq (s : State) (cd : ChannelDef) (c : ChannelId) (expiry : Clock) :
    (s.setChannel c { s.channel c with updateTimer := some (after expiry cd.period) }).settleTarget cd c =
      s.setChannel c (s.settled cd (s.channel c) expiry) := by
  generalize hw : s.setChannel c { s.channel c with updateTimer := some (after expiry cd.period) } = w
  have hg : w.groups = s.groups := by rw [← hw]; cases c <;> rfl
  have hc : w.channel c = { s.channel c with updateTimer := some (after expiry cd.period) } := by
    rw [← hw]; exact State.setChannel_self _ _ _
  unfold State.settleTarget State.settled Channel.settle
  dsimp only
  rw [State.activeGroup_congr hg, State.derivedValue_congr hg, hc, ← hw, State.setChannel_set]
  congr 1
  rcases s.activeGroup cd.refs with _ | ⟨g, m⟩ <;> rcases hl : (s.channel c).ref.last with _ | l <;>
    rcases (s.channel c).target with _ | x
  all_goals first
    | rfl
    | (by_cases h : l.group = g <;> simp only [ne_eq, h, not_true_eq_false, not_false_eq_true, if_true, if_false] <;>
        rfl)

/-- An update of a DEPTH or ATTITUDE channel that is due, in its steps. -/
theorem exec_channelUpdate_controls {s : State} {t : Nat} {c : ChannelId} {st : Settings} {expiry : Clock}
    (hs : s.settings = some st) (hc : (st.channel c).controls) (hd : s.due t (s.channel c).updateTimer expiry) :
    exec (.channelUpdate t c) s = .next ((((s.tick t).setChannel c (s.settled (st.channel c) (s.channel c) expiry)).checkReference
      (st.channel c) c).driveChannel st (st.channel c) c) := by
  have h0 : (s.tick t).channel c = s.channel c := by cases c <;> rfl
  have h1 := State.settleTarget_eq (s.tick t) (st.channel c) c expiry
  have h2 : (s.tick t).settled (st.channel c) (s.channel c) expiry = s.settled (st.channel c) (s.channel c) expiry := by
    unfold State.settled
    rw [State.activeGroup_congr (show (s.tick t).groups = s.groups from rfl),
      State.derivedValue_congr (show (s.tick t).groups = s.groups from rfl)]
  rw [h0, h2] at h1
  rw [exec_channelUpdate_due hs hd]
  unfold State.updateChannel
  dsimp only
  rw [if_neg (ChannelDef.controls_role hc).1, if_neg (ChannelDef.controls_role hc).2, h1]

end Sys2Proof.Machine
end

