-- ==== Sys2Proof/Laws/Belt.lean ====
section
/-! SUPPORT. The conveyor: what a change of channel A's state leaves of it, the steps of a BELT update, and what a
cause that latches changes. -/

namespace Sys2Proof.Machine

/-- What a change of channel A's state may do to the conveyor (R118, R128), together with: nothing here moves channel
A to AUTO. Unlike `State.KeepsConveyor` alone, it composes. -/
def State.BeltFollows (s u : State) : Prop := s.KeepsConveyor u ∧ (u.chanA.state = .auto → s.chanA.state = .auto)

theorem State.BeltFollows.trans {s u v : State} (h : s.BeltFollows u) (k : u.BeltFollows v) :
    s.BeltFollows v := by
  obtain ⟨h1, h2⟩ := h
  obtain ⟨k1, k2⟩ := k
  unfold State.KeepsConveyor at *
  refine ⟨?_, fun e => h2 (k2 e)⟩
  unfold State.KeepsConveyor
  rw [k1, h1]
  by_cases a : s.chanA.state = .auto <;> by_cases b : u.chanA.state = .auto <;> by_cases c : v.chanA.state = .auto
      <;> simp [a, b, c]
  · exact absurd (k2 c) b
  · exact absurd (h2 b) a

theorem State.BeltFollows.of_eq {s u : State} (h1 : u.conveyor = s.conveyor) (h2 : u.chanA.state = s.chanA.state) :
    s.BeltFollows u := by
  refine ⟨?_, fun e => by rw [← h2]; exact e⟩
  unfold State.KeepsConveyor
  rw [h1, if_neg]; rw [h2]; rintro ⟨a, b⟩; exact b a

theorem State.KeepsConveyor.putChannel (s : State) (c) (ch : Channel) : s.KeepsConveyor (s.putChannel c ch) := by
  have hA (w : State) (e1 : w.chanA = (s.setChannel c ch).chanA)
      (e2 : w.conveyor = if s.chanA.state = .auto ∧ (s.setChannel c ch).chanA.state ≠ .auto then
        s.conveyor.map Conveyor.leaveAuto else s.conveyor) : s.KeepsConveyor w := by
    unfold State.KeepsConveyor; rw [e1, e2]; rfl
  unfold State.putChannel
  dsimp only
  cases c
  · by_cases h : s.chanA.state = .auto ∧ ch.state ≠ .auto
    · rw [if_pos ⟨rfl, h⟩]
      apply hA
      · split <;> rfl
      · exact (by split <;> rfl : _ = _).trans (if_pos h).symm
    · rw [if_neg (fun y => h y.2)]
      apply hA
      · split <;> rfl
      · exact (by split <;> rfl : _ = _).trans (if_neg h).symm
  · rw [if_neg (by simp)]
    apply hA
    · split <;> rfl
    · exact (by split <;> rfl : _ = _).trans (if_neg fun y => y.2 y.1).symm

theorem State.BeltFollows.putChannel (s : State) (c) (ch : Channel)
    (h : c = .a → ch.state = .auto → s.chanA.state = .auto) : s.BeltFollows (s.putChannel c ch) := by
  refine ⟨State.KeepsConveyor.putChannel s c ch, fun e => ?_⟩
  unfold State.putChannel at e
  dsimp only at e
  cases c
  · refine h rfl ?_
    (repeat' split at e) <;> exact e
  · (repeat' split at e) <;> exact e

theorem State.BeltFollows.forceChannel (s : State) (c st k f r) (h : st ≠ .auto) : s.BeltFollows
    (s.forceChannel c st k f r) := by
  unfold State.forceChannel
  refine State.BeltFollows.trans (u := s.withdrawCheck c) (State.BeltFollows.of_eq (by simp) (by simp))
      (State.BeltFollows.putChannel _ _ _ fun _ e => absurd e h)

theorem State.BeltFollows.dropCoilCode (s : State) (c) : s.BeltFollows (s.dropCoilCode c) :=
    State.BeltFollows.of_eq (by simp) (by simp)

theorem State.BeltFollows.channelOff (s : State) (c) : s.BeltFollows (s.channelOff c) := by
  unfold State.channelOff
  split
  · exact State.BeltFollows.of_eq rfl rfl
  · exact (State.BeltFollows.dropCoilCode s c).trans (State.BeltFollows.forceChannel _ _ _ _ _ _ (by simp))

theorem State.BeltFollows.latchChannel (s : State) (c) : s.BeltFollows (s.latchChannel c) := by
  unfold State.latchChannel
  split <;> first
    | exact State.BeltFollows.forceChannel _ _ _ _ _ _ (by simp)
    | exact State.BeltFollows.of_eq rfl rfl

theorem State.BeltFollows.unlatchChannel (s : State) (c) : s.BeltFollows (s.unlatchChannel c) := by
  unfold State.unlatchChannel
  split <;> first
    | exact State.BeltFollows.putChannel _ _ _ (by simp)
    | exact State.BeltFollows.of_eq rfl rfl

theorem State.BeltFollows.setLatch (s : State) (r) : s.BeltFollows (s.setLatch r) := by
  unfold State.setLatch
  exact ((State.BeltFollows.of_eq (u := State.markStatus { s with latch := some r }) rfl rfl).trans
      (State.BeltFollows.latchChannel _ _)).trans (State.BeltFollows.latchChannel _ _)

theorem State.BeltFollows.raiseCause (s : State) (a d) : s.BeltFollows (s.raiseCause a d) := by
  unfold State.raiseCause; split
  · exact (State.BeltFollows.of_eq (u := { s with line := (s.line.placeHalt a d).discardRelease }) rfl rfl).trans
        (State.BeltFollows.setLatch _ _)
  · exact State.BeltFollows.of_eq rfl rfl

theorem State.BeltFollows.clearLatch (s : State) : s.BeltFollows s.clearLatch := by
  unfold State.clearLatch
  exact (((State.BeltFollows.of_eq (u := State.markStatus { s with latch := none }) rfl rfl).trans
      (State.BeltFollows.unlatchChannel _ .a)).trans (State.BeltFollows.unlatchChannel _ .b)).trans
      (State.BeltFollows.of_eq (by simp) (by simp))

theorem State.BeltFollows.takeRelease (s : State) (n) : s.BeltFollows (s.takeRelease n) := by
  unfold State.takeRelease State.withSettings
  dsimp only
  split
  · split
    · have := (State.BeltFollows.of_eq (s := s) (u := { s with line := s.line.discardHalt }) rfl rfl).trans
          (State.BeltFollows.clearLatch _)
      split
      · exact this.trans (State.BeltFollows.raiseCause _ _ _)
      · exact this
    · exact State.BeltFollows.of_eq rfl rfl
  · exact State.BeltFollows.of_eq rfl rfl

theorem State.BeltFollows.runWatches (s : State) (f) : s.BeltFollows (s.runWatches f) := by
  have h (w : State) (n x) : w.BeltFollows (w.runWatch n x f) := by
    unfold State.runWatch
    (repeat' split) <;> first
      | exact State.BeltFollows.raiseCause _ _ _
      | exact State.BeltFollows.of_eq rfl rfl
  unfold State.runWatches State.withSettings
  dsimp only
  (repeat' split) <;> first
    | exact State.BeltFollows.of_eq rfl rfl
    | exact (((h _ _ _).trans (h _ _ _)).trans (h _ _ _)).trans (h _ _ _)

theorem State.BeltFollows.numberClash (s : State) : s.BeltFollows s.numberClash := by
  unfold State.numberClash
  dsimp only
  split
  · exact State.BeltFollows.of_eq rfl rfl
  · refine (State.BeltFollows.trans ?_ (State.BeltFollows.channelOff _ _)).trans (State.BeltFollows.channelOff _ _)
    apply State.BeltFollows.of_eq
    · simp; split <;> simp [State.endMute]
    · simp; split <;> simp [State.endMute]

/-- A mode request may move channel A to AUTO; the conveyor follows all the same (R112 to R116, R128). -/
theorem State.KeepsConveyor.modeRequest (s : State) (st : Settings) (c : ChannelId) (code : Byte) : s.KeepsConveyor
    (s.modeRequest st c code) := by
  unfold State.modeRequest
  dsimp only
  (repeat' split)
  · exact (State.BeltFollows.of_eq rfl rfl).1
  · exact (State.BeltFollows.channelOff s c).1
  · unfold State.requestManual; dsimp only; split
    · exact (State.BeltFollows.of_eq rfl rfl).1
    · exact ((State.BeltFollows.dropCoilCode s c).trans (State.BeltFollows.putChannel _ _ _ (by simp))).1
  · unfold State.requestAuto State.enterAuto
    dsimp only
    split
    · exact (State.BeltFollows.of_eq rfl rfl).1
    · exact (State.BeltFollows.of_eq rfl rfl).1
    all_goals
      rename_i hst
      split
      · generalize hch : ({ s.channel c with
          state := .auto, sat := .none, inDeadband := false, fault := none, openRun := _, target := _ } : Channel) = ch
        have hcs : ch.state = .auto := by rw [← hch]
        generalize hw : (s.dropCoilCode c).removeFault (refLostCode c) = w
        have h1 : w.conveyor = s.conveyor := by rw [← hw]; simp
        have h2 : w.chanA = s.chanA := by rw [← hw]; simp
        have h3 : (w.putChannel c ch).conveyor = w.conveyor := by
          unfold State.putChannel; dsimp only; rw [hcs]; simp; split <;> cases c <;> rfl
        unfold State.KeepsConveyor
        rw [h3, h1, if_neg]
        rintro ⟨a, b⟩
        cases c
        · rw [show s.channel .a = s.chanA from rfl] at hst; rw [hst] at a; cases a
        · have hb : (w.putChannel .b ch).chanA = w.chanA := by
            unfold State.putChannel; dsimp only; simp; split <;> rfl
          apply b; rw [hb, h2]; exact a
      · exact (State.BeltFollows.of_eq rfl rfl).1
  · exact (State.BeltFollows.of_eq rfl rfl).1

theorem State.BeltIdle.keeps {s u : State} (h : s.BeltIdle) (k : s.KeepsConveyor u) : u.BeltIdle := by
  unfold State.BeltIdle State.KeepsConveyor at *
  intro hu kk hk
  rw [k] at hk
  by_cases a : s.chanA.state = .auto
  · rw [if_pos ⟨a, hu⟩] at hk
    rcases hc : s.conveyor with _ | x <;> rw [hc] at hk <;> simp at hk
    rw [← hk]; exact ⟨rfl, rfl, rfl⟩
  · rw [if_neg (fun x => a x.1)] at hk
    exact h a kk hk

theorem State.BeltIdle.of_eq {s u : State} (h : s.BeltIdle) (h1 : u.conveyor = s.conveyor) (h2 : u.chanA.state =
    s.chanA.state) : u.BeltIdle := by
  unfold State.BeltIdle; rw [h1, h2]; exact h

theorem State.BeltIdle.setChannel {s : State} (h : s.BeltIdle) (c) (ch : Channel) (e : ch.state = (s.channel c).state) :
    (s.setChannel c ch).BeltIdle := by
  cases c
  · exact h.of_eq rfl e
  · exact h.of_eq rfl rfl

theorem State.BeltIdle.mapTarget {s : State} (h : s.BeltIdle) (c f) : (s.mapTarget c f).BeltIdle := by
  unfold State.mapTarget; exact h.setChannel _ _ rfl

theorem State.BeltIdle.takeSample {s : State} (h : s.BeltIdle) (st : Settings) (d : QuantityDef) (e : Entry) (b :
    Bool) (r : RawSample) : (s.takeSample st d e b r).BeltIdle := by
  have h : (s.updateEntry e.key fun _ => e.takeRemote d r s.clock).BeltIdle := h
  unfold State.takeSample
  generalize (s.updateEntry e.key fun _ => e.takeRemote d r s.clock) = w at h
  have ht (w : State) (c : ChannelId) (q : BitVec 6) (v : Int) (h : w.BeltIdle) :
      (w.handTarget st c q v).BeltIdle := by
    unfold State.handTarget
    dsimp only
    (repeat' split) <;> first | with_reducible exact h | exact h.mapTarget _ _
  have ha (w : State) (c : ChannelId) (q : Byte) (h : w.BeltIdle) : (w.handAction st c q).BeltIdle := by
    unfold State.handAction
    dsimp only
    (repeat' split) <;> first | with_reducible exact h | exact h.mapTarget _ _
  unfold State.handOver State.handTargets State.handActions
  dsimp only
  (repeat' split) <;> first
    | with_reducible exact h
    | with_reducible exact ht _ _ _ _ (ht _ _ _ _ h)
    | with_reducible exact ha _ _ _ (ha _ _ _ h)
    | with_reducible exact
        (h.keeps (State.KeepsConveyor.modeRequest _ _ _ _)).keeps (State.KeepsConveyor.modeRequest _ _ _ _)

theorem State.BeltIdle.acceptSample {s : State} (h : s.BeltIdle) (n : BitVec 4) (r : RawSample) :
    (s.acceptSample n r).BeltIdle := by
  have ht (p : PeerTable) : ({ s with table := p } : State).BeltIdle := h
  unfold State.acceptSample State.withSettings State.updatePath State.createEntry
  dsimp only
  (repeat' split) <;> first | with_reducible exact h | with_reducible exact h.takeSample _ _ _ _ _ |
    with_reducible exact (ht _).takeSample _ _ _ _ _ | exact h.of_eq rfl rfl

theorem State.BeltIdle.judgeCoil {s : State} (h : s.BeltIdle) (c i m) : (s.judgeCoil c i m).BeltIdle := by
  unfold State.judgeCoil State.coilFault
  dsimp only
  have hf (f : CoilFault) : ((s.forceChannel c .fault none (some f) none).addFault (coilCode c f)).BeltIdle :=
    (h.keeps (State.BeltFollows.forceChannel s c .fault none (some f) none (by simp)).1).of_eq (by simp) (by simp)
  (repeat' split) <;> first | exact h | exact hf _ | exact h.setChannel _ _ rfl

theorem State.BeltIdle.driveChannel {s : State} (h : s.BeltIdle) (st cd c) : (s.driveChannel st cd c).BeltIdle := by
  obtain ⟨k, e, -, -⟩ := State.driveChannel_eq s st cd c s.now rfl
  rw [e]
  have : ((s.outputStep st cd c).setCoils cd).state = (s.channel c).state := by
    rw [(Channel.setCoils_keeps _ _).2.1]
    unfold State.outputStep State.autoOutput State.manualOutput Channel.drive
    dsimp only
    (repeat' split) <;> rfl
  exact (h.setChannel c _ this).of_eq rfl rfl

theorem State.BeltIdle.judgeBelt (s : State) (st cv k v) (hk : s.chanA.state ≠ .auto → k.substate =
    none ∧ k.command = none ∧ k.stallStart = none) : (s.judgeBelt st cv k v).BeltIdle := by
  have hset : ∀ k', (s.chanA.state ≠ .auto → k'.substate = none ∧ k'.command = none ∧ k'.stallStart = none) →
      (s.setConveyor k').BeltIdle := by
    intro k' hk' ha kk e
    cases e; exact hk' ha
  unfold State.judgeBelt
  dsimp only
  have h0 : (s.setConveyor
      { ({ k with content := integrate cv k.content k.loose v st.chanA.period } : Conveyor).judgeFull cv with
        stallStart := nextStallStart k.stallStart (stallCondition s.chanA k.command v) s.clock }).BeltIdle := by
    apply hset
    intro ha
    refine ⟨(hk ha).1, (hk ha).2.1, ?_⟩
    have : stallCondition s.chanA k.command v = false := by rw [(hk ha).2.1]; rfl
    rw [this, (hk ha).2.2]; rfl
  split
  · exact hset _ hk
  · have ha (w : State) (f) (h : w.BeltIdle) : (w.addFault f).BeltIdle := h.of_eq (by simp) (by simp)
    have hr (w : State) (a b) (h : w.BeltIdle) : (w.raiseCause a b).BeltIdle :=
      h.keeps (State.BeltFollows.raiseCause w a b).1
    (repeat' split) <;> first
      | with_reducible exact h0
      | with_reducible exact ha _ _ h0
      | with_reducible exact hr _ _ _ h0
      | with_reducible exact hr _ _ _ (ha _ _ h0)
      | with_reducible exact hr _ _ _ (hr _ _ _ (ha _ _ h0))

theorem State.BeltIdle.resumeExpired {s : State} (h : s.BeltIdle) (c) : (s.resumeExpired c).BeltIdle :=
  State.BeltIdle.of_eq
    (s := s.putChannel c { (s.channel c).silence with state := .manual, cause := none, resumeTimer := none })
    (h.keeps (State.KeepsConveyor.putChannel _ _ _))
    (by unfold State.resumeExpired; simp) (by unfold State.resumeExpired; simp)

/-- Every channel update keeps a conveyor idle without AUTO (R128, R134). -/
theorem State.BeltIdle.updateChannel {s : State} (h : s.BeltIdle) (st c) : (s.updateChannel st c).BeltIdle := by
  unfold State.updateChannel
  dsimp only
  split
  · exact h
  · split
    · apply State.BeltIdle.driveChannel
      unfold State.conveyorWork
      split
      · rename_i cv k _ hk
        dsimp only
        have hr : s.chanA.state ≠ .auto →
            let r := k.updateRate cv (s.validResult cv.depthGroup) (s.validResult cv.advanceGroup) s.clock
            r.substate = none ∧ r.command = none ∧ r.stallStart = none := by
          intro ha
          have := h ha k hk
          unfold Conveyor.updateRate; (repeat' split) <;> exact this
        have hj := State.BeltIdle.judgeBelt s st cv _ (s.beltSpeed cv) hr
        generalize (s.judgeBelt st cv _ (s.beltSpeed cv)) = w at hj
        unfold State.commandBelt
        (repeat' split)
        · rename_i ha _ _ _ _; intro hn; exact absurd ha hn
        · exact hj
        · exact hj
      · exact h
    · apply State.BeltIdle.driveChannel
      have h1 : (s.settleTarget (st.channel c) c).BeltIdle := by
        unfold State.settleTarget; dsimp only; apply h.setChannel; unfold Channel.settle; (repeat' split) <;> rfl
      generalize s.settleTarget (st.channel c) c = w at h1
      unfold State.checkReference
      dsimp only
      split
      · unfold State.loseReference
        dsimp only
        have := h1.keeps (State.BeltFollows.forceChannel w c .held (some .refLost) none (some (after w.clock
            (st.channel c).window)) (by simp)).1
        split
        · exact this.resumeExpired c
        · exact this
      · split
        · unfold State.resumeAuto; exact h1.keeps (State.KeepsConveyor.putChannel _ _ _)
        · exact h1
      · exact h1

/-- `State.rated` is the conveyor's own rate part (R123, R124). -/
theorem Conveyor.updateRate_eq_rated (s : State) (cv : ConveyorDef) (k : Conveyor) (c : Clock) :
    k.updateRate cv (s.validResult cv.depthGroup) (s.validResult cv.advanceGroup) c = s.rated cv k c := by
  unfold Conveyor.updateRate State.rated
  rcases s.validResult cv.depthGroup with _ | d <;> rcases s.validResult cv.advanceGroup with _ | v <;>
    rcases hr : k.rate with _ | _ | _ <;> rfl

theorem State.rated_keeps (s : State) (cv : ConveyorDef) (k : Conveyor) (c : Clock) : let r := s.rated cv k c
    r.content = k.content ∧ r.full = k.full ∧ r.command = k.command ∧ r.substate = k.substate ∧ r.stallStart =
        k.stallStart := by
  unfold State.rated
  dsimp only
  (repeat' split) <;> simp

/-- An update of a BELT channel that is due, in its steps (R119). -/
theorem exec_channelUpdate_belt {s : State} {t : Nat} {st : Settings} {cv k} {expiry : Clock}
    (hs : s.settings = some st) (hb : st.chanA.role = .belt) (hcv : st.conveyor = some cv) (hk : s.conveyor = some k) (hd : s.due t s.chanA.updateTimer expiry) :
    let begun := (s.tick t).setChannel .a { s.chanA with updateTimer := some (after expiry st.chanA.period) }
    let judged := begun.judgeBelt st cv (s.rated cv k (s.tick t).clock) (s.beltSpeed cv)
    exec (.channelUpdate t .a) s = .next
      ((judged.commandBelt cv ((s.tick t).holdCondition st) ((s.tick t).trim st)).driveChannel st st.chanA .a) := by
  rw [exec_channelUpdate_due hs hd]
  unfold State.updateChannel
  simp only [Settings.channel, hb, reduceCtorEq, if_false, if_true]
  unfold State.conveyorWork
  generalize hw : (s.tick t).setChannel .a { s.channel .a with updateTimer := some (after expiry st.chanA.period) } = w
  have hg : w.groups = s.groups := by rw [← hw]; rfl
  rw [hcv, show w.conveyor = some k by rw [← hw]; exact hk]
  dsimp only
  rw [State.validResult_congr hg, State.validResult_congr hg, Conveyor.updateRate_eq_rated, ← hw]
  rfl

theorem stallRaised_iff (start : Option Clock) (b : Bool) (c : Clock) : stallRaised start b c = true ↔
    b = true ∧ ∃ x, start = some x ∧ 1500 ≤ since c x := by
  unfold stallRaised
  rcases start with _ | x
  · simp
  · dsimp only
    rw [Bool.and_eq_true, decide_eq_true_iff]
    constructor
    · rintro ⟨h1, h2⟩; exact ⟨h1, x, rfl, h2⟩
    · rintro ⟨h1, y, hy, h2⟩; cases hy; exact ⟨h1, h2⟩

/-- Where the alarm is not raised, chamber full only ever ends (R132). -/
theorem Conveyor.judgeFull_short {k : Conveyor} {cv : ConveyorDef} (h : k.full = true ∨ k.content < cv.alarmContent) :
    k.judgeFull cv = { k with full := k.full && decide (cv.resumeContent ≤ k.content) } := by
  unfold Conveyor.judgeFull
  rcases hf : k.full with _ | _
  · rw [hf] at h; simp at h
    simp; omega
  · simp
    by_cases hx : k.content < cv.resumeContent <;> simp [hx] <;> omega

/-- A channel as a newly set latch leaves it (R98). -/
def Channel.latched (ch : Channel) : Channel :=
  match ch.state, ch.cause with
  | .manual, _ | .auto, _ | .held, some .refLost =>
    { ch.silence with state := .held, cause := some .latch, fault := none, resumeTimer := none }
  | _, _ => ch

/-- The converter as a newly set latch leaves it at one channel (R49, R98). -/
def Converter.latched (k : Converter) (c : ChannelId) (ch : Channel) : Converter :=
  if ch.latched = ch then k else k.withRequest c none

/-- All that the latch changes at one channel, STATUS being marked already: the channel, its waiting check and what
leaving AUTO takes of the conveyor. -/
theorem State.latchChannel_eq (w : State) (c) (hm : w.line.control.status = true) :
    w.latchChannel c = { w.setChannel c (w.channel c).latched with
      conveyor := if c = .a ∧ w.chanA.state = .auto then w.conveyor.map Conveyor.leaveAuto else w.conveyor
      converter := w.converter.latched c (w.channel c) } := by
  have hl : w.line.statusMarked = w.line := by unfold Line.statusMarked; rw [← hm]
  have key (h : w.latchChannel c = w.forceChannel c .held (some .latch) none none)
      (h2 : (w.channel c).latched =
        { (w.channel c).silence with state := .held, cause := some .latch, fault := none, resumeTimer := none })
      (h3 : ((w.channel c).state = .held → (w.channel c).cause ≠ some .latch)) : w.latchChannel c =
      { w.setChannel c (w.channel c).latched with
        conveyor := if c = .a ∧ w.chanA.state = .auto then w.conveyor.map Conveyor.leaveAuto else w.conveyor
        converter := w.converter.latched c (w.channel c) } := by
    have hf : w.forceChannel c .held (some .latch) none none = { w.setChannel c { (w.channel c).silence with
          state := .held, cause := some .latch, fault := none, resumeTimer := none } with
        conveyor := if c = .a ∧ w.chanA.state = .auto then w.conveyor.map Conveyor.leaveAuto else w.conveyor
        converter := w.converter.withRequest c none } := by
      unfold State.forceChannel State.putChannel
      have hne : ¬ (((w.withdrawCheck c).channel c).state = .held ∧ ((w.withdrawCheck c).channel c).cause = some .latch) := by
        have : (w.withdrawCheck c).channel c = w.channel c := by cases c <;> rfl
        rw [this]; rintro ⟨a, b⟩; exact h3 a b
      dsimp only
      rw [if_neg hne]
      have hx : ∀ s : State, s.line = w.line → s.markStatus = s := by
        intro s e
        unfold State.markStatus
        have := hl; unfold Line.statusMarked at this
        rw [e, this, ← e]
      rw [hx _ (by cases c <;> rfl)]
      cases c
      · have : ((w.withdrawCheck .a).channel .a).state = w.chanA.state := rfl
        rw [this]
        by_cases ha : w.chanA.state = .auto
        · rw [if_pos (by simp [ha]), if_pos ⟨rfl, ha⟩]; rfl
        · rw [if_neg (by simp [ha]), if_neg (fun h => ha h.2)]; rfl
      · rw [if_neg (by simp), if_neg (by simp)]; rfl
    have hne : (w.channel c).latched ≠ w.channel c := by
      intro e
      rw [h2] at e
      have e1 := congrArg Channel.state e
      have e2 := congrArg Channel.cause e
      exact h3 e1.symm e2.symm
    unfold Converter.latched
    rw [h, hf, if_neg hne, h2]
  have no (h : w.latchChannel c = w) (h2 : (w.channel c).latched = w.channel c) (h3 : (w.channel c).state ≠ .auto) :
      w.latchChannel c = { w.setChannel c (w.channel c).latched with
        conveyor := if c = .a ∧ w.chanA.state = .auto then w.conveyor.map Conveyor.leaveAuto else w.conveyor
        converter := w.converter.latched c (w.channel c) } := by
    unfold Converter.latched
    rw [h, if_pos h2, h2]
    cases c
    · have : ¬ (ChannelId.a = .a ∧ w.chanA.state = .auto) := fun x => h3 x.2
      rw [if_neg this]; rfl
    · simp; rfl
  rcases hs : (w.channel c).state with _ | _ | _ | _ | _ <;> rcases hc : (w.channel c).cause with _ | k <;>
    (try rcases k with _ | _) <;>
    first
    | (apply no <;> (simp [State.latchChannel, Channel.latched, hs, hc]; done))
    | (apply key <;> simp [State.latchChannel, Channel.latched, hs, hc])

theorem Channel.latched_driven {ch : Channel} (h : ch.state = .manual ∨ ch.state = .auto) : ch.latched =
    { ch.silence with state := .held, cause := some .latch, fault := none, resumeTimer := none } := by
  unfold Channel.latched; rcases h with h | h <;> rw [h]

theorem Channel.latched_resting {ch : Channel} (h : ch.state = .off ∨ ch.state = .fault) : ch.latched = ch := by
  unfold Channel.latched; rcases h with h | h <;> rw [h]

theorem Channel.latched_state {ch : Channel} : ch.latched.state ≠ .auto := by
  unfold Channel.latched
  rcases hs : ch.state with _ | _ | _ | _ | _ <;> rcases hc : ch.cause with _ | k <;> (try rcases k with _ | _) <;>
    simp [hs]

theorem Channel.latched_timer {ch : Channel} : ch.latched.updateTimer = ch.updateTimer := by
  unfold Channel.latched
  rcases hs : ch.state with _ | _ | _ | _ | _ <;> rcases hc : ch.cause with _ | k <;> (try rcases k with _ | _) <;> rfl

/-- The latch becomes LATCHED (R98, R128, R137). -/
theorem State.setLatch_eq (w : State) (r : LatchRecord) : w.setLatch r = { w with
    latch := some r, chanA := w.chanA.latched, chanB := w.chanB.latched
    conveyor := if w.chanA.state = .auto then w.conveyor.map Conveyor.leaveAuto else w.conveyor
    converter := (w.converter.latched .a w.chanA).latched .b w.chanB
    line := w.line.statusMarked } := by
  unfold State.setLatch
  rw [State.latchChannel_eq _ .a rfl, State.latchChannel_eq _ .b rfl]
  simp only [true_and, reduceCtorEq, false_and, if_false]
  rfl

/-- A RELEASE discarded and a HALT placed, STATUS marked, is what `Line.halting` says. -/
theorem Line.halting_eq (l : Line) (a d : Byte) : ((l.placeHalt a d).discardRelease).statusMarked = l.halting a d := by
  unfold Line.discardRelease Line.markDiscarded Line.placeHalt Line.statusMarked Line.halting Line.flightWithout
  rcases l.flight with _ | ⟨frame, _, _⟩
  · rfl
  · rcases frame with _ | _ | _ | _ | _ <;> rfl

/-- A HALT discarded, as the statements say it (R144). -/
theorem Line.discardHalt_eq (l : Line) :
    l.discardHalt = { l with control := { l.control with halt := none }, flight := l.flightWithout true false } := by
  unfold Line.discardHalt Line.markDiscarded Line.flightWithout
  rcases l.flight with _ | ⟨frame, _, _⟩
  · rfl
  · rcases frame with _ | _ | _ | _ | _ <;> rfl

/-- A cause raised on a CLEAR latch (R136 to R138). -/
theorem State.raiseCause_clear (w : State) (a d : Byte) (hw : w.atWork) (hl : w.latch = none) :
    w.raiseCause a d = { w with
      latch := some ⟨a, w.number, d⟩, chanA := w.chanA.latched, chanB := w.chanB.latched
      conveyor := if w.chanA.state = .auto then w.conveyor.map Conveyor.leaveAuto else w.conveyor
      converter := (w.converter.latched .a w.chanA).latched .b w.chanB
      line := w.line.halting a d } := by
  unfold State.raiseCause
  rw [if_pos ⟨hw, hl⟩, State.setLatch_eq, ← Line.halting_eq]

theorem State.raiseCause_latched (w : State) (a d : Byte) (hl : w.latch ≠ none) : w.raiseCause a d = w := by
  unfold State.raiseCause; rw [if_neg]; exact fun h => hl h.2

theorem State.commandBelt_outside (w : State) (cv h tr) (ha : w.chanA.state ≠ .auto) : w.commandBelt cv h tr = w := by
  unfold State.commandBelt; split
  · rw [if_neg ha]
  · rfl

end Sys2Proof.Machine
end

