-- ==== Sys2Proof/Laws/Faults.lean ====
section
/-! SUPPORT. Each operation that reaches the fault collection keeps it free of a code held twice (R149). -/

namespace Sys2Proof.Machine.State.FaultsWf

/-- Only the collection itself matters. -/
theorem of_eq {s u : State} (h : s.FaultsWf) (e : u.faults = s.faults) : u.FaultsWf := by
  unfold State.FaultsWf; rw [e]; exact h

variable {s : State} (h : s.FaultsWf)
include h

theorem addFault (f : FaultCode) : (s.addFault f).FaultsWf := by
  unfold State.FaultsWf at *
  rw [State.addFault_faults]
  split
  · exact h
  · rename_i hf
    exact List.nodup_append.mpr ⟨h, List.nodup_singleton f, by simp only [List.mem_singleton]; rintro a ha b rfl rfl; exact hf ha⟩

theorem removeFault (f : FaultCode) : (s.removeFault f).FaultsWf := by
  unfold State.FaultsWf at *
  rw [State.removeFault_faults]
  exact h.filter _

theorem dropCoilCode (c : ChannelId) : (s.dropCoilCode c).FaultsWf := by
  unfold State.dropCoilCode; split
  exacts [h.removeFault _, h]

theorem putChannel (c : ChannelId) (ch : Channel) : (s.putChannel c ch).FaultsWf := h.of_eq (by simp)

theorem forceChannel (c : ChannelId) (st : ChannelState) (k : Option HeldCause) (f : Option CoilFault)
    (r : Option Clock) : (s.forceChannel c st k f r).FaultsWf := h.of_eq (by simp)

theorem raiseCause (k d : Byte) : (s.raiseCause k d).FaultsWf := h.of_eq (by simp)

theorem channelOff (c : ChannelId) : (s.channelOff c).FaultsWf := by
  unfold State.channelOff; split
  exacts [h, (h.dropCoilCode c).forceChannel _ _ _ _ _]

theorem clearLatch : s.clearLatch.FaultsWf := by
  unfold State.clearLatch
  apply removeFault
  exact h.of_eq (by simp)

theorem takeRelease (n : BitVec 4) : (s.takeRelease n).FaultsWf := by
  have hc : ({ s with line := s.line.discardHalt }.clearLatch).FaultsWf := clearLatch (h.of_eq rfl)
  unfold State.takeRelease State.withSettings
  split
  · dsimp only
    (repeat' split) <;> first | with_reducible exact hc | with_reducible exact h | exact hc.raiseCause _ _
  · exact h

theorem pressRelease : s.pressRelease.FaultsWf := by
  unfold State.pressRelease
  dsimp only
  (repeat' split)
  exacts [h, h.of_eq rfl, h.clearLatch.of_eq rfl]

theorem requestManual (c : ChannelId) : (s.requestManual c).FaultsWf := by
  unfold State.requestManual
  dsimp only
  split
  exacts [h, (h.dropCoilCode c).putChannel _ _]

theorem enterAuto (c : ChannelId) : (s.enterAuto c).FaultsWf := ((h.dropCoilCode c).removeFault _).putChannel _ _

theorem requestAuto (cd : ChannelDef) (c : ChannelId) : (s.requestAuto cd c).FaultsWf := by
  unfold State.requestAuto
  (repeat' split) <;> first | with_reducible exact h | exact h.enterAuto c

theorem modeRequest (st : Settings) (c : ChannelId) (k : Byte) : (s.modeRequest st c k).FaultsWf := by
  unfold State.modeRequest
  dsimp only
  (repeat' split) <;>
    first | with_reducible exact h | with_reducible exact h.channelOff c | with_reducible exact h.requestManual c |
      with_reducible exact h.requestAuto _ c

theorem handActions (st : Settings) (e : Entry) (b : Bool) (q : BitVec 6) (v : Option Int) :
    (s.handActions st e b q v).FaultsWf := by
  unfold State.handActions
  (repeat' split) <;>
    first | with_reducible exact h | with_reducible exact (h.modeRequest st .a _).modeRequest st .b _ |
      exact h.of_eq (by simp)

theorem handOver (st : Settings) (d : QuantityDef) (e : Entry) (b : Bool) (r : RawSample) :
    (s.handOver st d e b r).FaultsWf := by
  unfold State.handOver
  dsimp only
  (repeat' split) <;>
    first | with_reducible exact h | with_reducible exact h.handActions st e b _ _ | exact h.of_eq (by simp)

theorem takeSample (st : Settings) (d : QuantityDef) (e : Entry) (b : Bool) (r : RawSample) :
    (s.takeSample st d e b r).FaultsWf := by
  unfold State.takeSample
  apply handOver
  exact h.of_eq rfl

theorem acceptSample (n : BitVec 4) (r : RawSample) : (s.acceptSample n r).FaultsWf := by
  have hg (g : Nat) : ({ s with table := { s.table with gaps := g } } : State).FaultsWf := h.of_eq rfl
  have ht (p : PeerTable) : ({ s with table := p } : State).FaultsWf := h.of_eq rfl
  unfold State.acceptSample State.withSettings State.updatePath State.createEntry
  split
  · dsimp only
    (repeat' split) <;>
      first | with_reducible exact h | with_reducible exact h.takeSample _ _ _ _ _ |
        with_reducible exact (hg _).takeSample _ _ _ _ _ | with_reducible exact (ht _).takeSample _ _ _ _ _ |
        exact h.of_eq (by simp)
  · exact h

theorem endMute (b : BusState) : (s.endMute b).FaultsWf := by
  unfold State.endMute
  apply removeFault
  exact h.of_eq rfl

theorem numberClash : s.numberClash.FaultsWf := by
  unfold State.numberClash
  split
  · exact h
  · apply channelOff; apply channelOff; apply addFault
    split
    · exact h.endMute _
    · exact h.of_eq rfl

theorem judgeCoil (c : ChannelId) (i m : Int) : (s.judgeCoil c i m).FaultsWf := by
  unfold State.judgeCoil State.coilFault
  dsimp only
  (repeat' split) <;>
    first | with_reducible exact h | with_reducible exact (h.forceChannel _ _ _ _ _).addFault _ | exact h.of_eq (by simp)

theorem deliverConversion (st : Settings) (u : ConversionUser) (r : BitVec 12) :
    (s.deliverConversion st u r).FaultsWf := by
  unfold State.deliverConversion
  dsimp only
  (repeat' split) <;>
    first | with_reducible exact h | with_reducible exact h.judgeCoil _ _ _ | exact h.of_eq (by simp)

theorem scanExpiry : s.scanExpiry.FaultsWf := by
  have hc (k : Converter) : ({ s with converter := k } : State).FaultsWf := h.of_eq rfl
  unfold State.scanExpiry
  split
  · exact (hc _).addFault _
  · exact h.of_eq (by dsimp only; split <;> simp)

theorem judgeReply (o : Option ReplyOutcome) : (s.judgeReply o).FaultsWf := by
  have hp (p : SerialPort) : ({ s with port := p } : State).FaultsWf := h.of_eq rfl
  unfold State.judgeReply
  (repeat' split) <;>
    first | with_reducible exact hp _ | with_reducible exact (hp _).addFault _ | with_reducible exact (hp _).removeFault _

theorem levelChange (st : Settings) (i : Fin 6) (l : Bool) : (s.levelChange st i l).FaultsWf := by
  unfold State.levelChange
  dsimp only
  (repeat' split) <;> first | with_reducible exact h | with_reducible exact h.pressRelease | exact h.of_eq (by simp)

theorem judgeBelt (st : Settings) (cv : ConveyorDef) (k : Conveyor) (v : Int) : (s.judgeBelt st cv k v).FaultsWf := by
  have hk (k : Conveyor) : (s.setConveyor k).FaultsWf := h.of_eq rfl
  unfold State.judgeBelt
  dsimp only
  (repeat' split) <;>
    first | with_reducible exact hk _ | with_reducible exact (hk _).raiseCause _ _ |
      with_reducible exact ((hk _).addFault _).raiseCause _ _ |
      with_reducible exact (((hk _).addFault _).raiseCause _ _).raiseCause _ _

theorem commandBelt (cv : ConveyorDef) (b : Bool) (v : Int) : (s.commandBelt cv b v).FaultsWf := h.of_eq (by simp)

theorem driveChannel (st : Settings) (cd : ChannelDef) (c : ChannelId) : (s.driveChannel st cd c).FaultsWf :=
  h.of_eq (by simp)

theorem conveyorWork (st : Settings) : (s.conveyorWork st).FaultsWf := by
  unfold State.conveyorWork
  split
  · exact (h.judgeBelt st _ _ _).commandBelt _ _ _
  · exact h

theorem resumeExpired (c : ChannelId) : (s.resumeExpired c).FaultsWf := (h.putChannel _ _).addFault _

theorem checkReference (cd : ChannelDef) (c : ChannelId) : (s.checkReference cd c).FaultsWf := by
  unfold State.checkReference State.loseReference
  dsimp only
  (repeat' split) <;>
    first | with_reducible exact h | with_reducible exact h.forceChannel _ _ _ _ _ |
      with_reducible exact (h.forceChannel _ _ _ _ _).resumeExpired c | exact h.of_eq (by simp)

theorem updateChannel (st : Settings) (c : ChannelId) : (s.updateChannel st c).FaultsWf := by
  unfold State.updateChannel
  dsimp only
  (repeat' split)
  · exact h
  · exact (h.conveyorWork st).driveChannel _ _ _
  · have hs : (s.settleTarget (st.channel c) c).FaultsWf := h.of_eq (by simp)
    exact (hs.checkReference _ c).driveChannel _ _ _

theorem countEcho : s.countEcho.FaultsWf := by
  have hl (l : Line) : ({ s with line := l } : State).FaultsWf := h.of_eq rfl
  unfold State.countEcho State.beginMute
  split
  exacts [hl _, (hl _).addFault _]

end Sys2Proof.Machine.State.FaultsWf
end

