-- ==== Sys2Proof/Laws/Bus.lean ====
section
/-! SUPPORT. The bus and its two faults: what the blocks' work leaves of them. -/

namespace Sys2Proof.Machine

theorem State.BusWf.of_core {s u : State} (h : s.BusWf) (hl : u.line.core = s.line.core)
    (h1 : .echoMute ∈ u.faults ↔ .echoMute ∈ s.faults) (h2 : .numberClash ∈ u.faults ↔ .numberClash ∈ s.faults) :
    u.BusWf := by
  obtain ⟨e1, -, -, -, e5, -, -, -, e9, -⟩ := Line.core_fields hl
  unfold State.BusWf at *
  rw [e1, e5, e9, h1, h2]; exact h

theorem State.mem_addFault (s : State) (f g : FaultCode) : g ∈ (s.addFault f).faults ↔ g ∈ s.faults ∨ g = f := by
  rw [State.addFault_faults]; split
  · rename_i h
    constructor
    · exact Or.inl
    · rintro (h' | rfl) <;> assumption
  · simp

theorem State.mem_removeFault (s : State) (f g : FaultCode) : g ∈ (s.removeFault f).faults ↔ g ∈ s.faults ∧ g ≠ f :=
    by
  rw [State.removeFault_faults]; simp

/-- The faults that belong to the bus: ECHO_MUTE and NUMBER_CLASH. -/
def FaultCode.ofBus : FaultCode → Bool
  | .echoMute | .numberClash => true
  | _ => false

/-- Two states agree in the faults that belong to the bus. -/
def SameBusFaults (u s : State) : Prop := ∀ g : FaultCode, g.ofBus = true → (g ∈ u.faults ↔ g ∈ s.faults)

theorem State.BusWf.of_faults {s u : State} (h : s.BusWf) (hl : u.line.core = s.line.core) (hf : SameBusFaults u s) :
    u.BusWf :=
  h.of_core hl (hf _ rfl) (hf _ rfl)

theorem SameBusFaults.of_eq {u s : State} (h : u.faults = s.faults) : SameBusFaults u s := fun g _ => by rw [h]

theorem SameBusFaults.trans {u v s : State} (h : SameBusFaults u v) (h' : SameBusFaults v s) : SameBusFaults u s :=
    fun g hg => (h g hg).trans (h' g hg)

theorem SameBusFaults.add (s : State) {f : FaultCode} (h : f.ofBus = false) : SameBusFaults (s.addFault f) s := fun g
    hg => by
  rw [State.mem_addFault]
  constructor
  · rintro (h' | rfl)
    · exact h'
    · rw [h] at hg; cases hg
  · exact Or.inl

theorem SameBusFaults.remove (s : State) {f : FaultCode} (h : f.ofBus = false) : SameBusFaults (s.removeFault f) s :=
    fun g hg => by
  rw [State.mem_removeFault]
  exact ⟨And.left, fun h' => ⟨h', fun e => by rw [e, h] at hg; cases hg⟩⟩

theorem coilCode_ofBus (c : ChannelId) (f : CoilFault) : (coilCode c f).ofBus = false := by cases c <;> cases f <;>
    rfl

theorem refLostCode_ofBus (c : ChannelId) : (refLostCode c).ofBus = false := by cases c <;> rfl

theorem SameBusFaults.dropCoilCode (s : State) (c : ChannelId) : SameBusFaults (s.dropCoilCode c) s := by
  unfold State.dropCoilCode
  split
  · exact .remove _ (coilCode_ofBus _ _)
  · exact .of_eq rfl

theorem SameBusFaults.channelOff (s : State) (c : ChannelId) : SameBusFaults (s.channelOff c) s := by
  unfold State.channelOff
  split
  · exact .of_eq rfl
  · exact (SameBusFaults.of_eq (by simp)).trans (.dropCoilCode s c)

theorem SameBusFaults.clearLatch (s : State) : SameBusFaults s.clearLatch s := by
  unfold State.clearLatch
  exact (SameBusFaults.remove _ rfl).trans (.of_eq (by simp))

theorem SameBusFaults.takeRelease (s : State) (n : BitVec 4) : SameBusFaults (s.takeRelease n) s := by
  have hc : SameBusFaults ({ s with line := s.line.discardHalt }.clearLatch) s := (SameBusFaults.clearLatch _).trans (.of_eq rfl)
  unfold State.takeRelease State.withSettings
  dsimp only
  (repeat' split) <;> first | with_reducible exact hc | exact .of_eq rfl | exact (SameBusFaults.of_eq (by simp)).trans hc

theorem SameBusFaults.pressRelease (s : State) : SameBusFaults s.pressRelease s := by
  unfold State.pressRelease
  dsimp only
  (repeat' split) <;> first | exact .of_eq rfl | exact (SameBusFaults.of_eq rfl).trans (.clearLatch s)

theorem SameBusFaults.requestManual (s : State) (c : ChannelId) : SameBusFaults (s.requestManual c) s := by
  unfold State.requestManual
  dsimp only
  split
  · exact .of_eq rfl
  · exact (SameBusFaults.of_eq (by simp)).trans (.dropCoilCode s c)

theorem SameBusFaults.requestAuto (s : State) (cd : ChannelDef) (c : ChannelId) : SameBusFaults (s.requestAuto cd c)
    s := by
  unfold State.requestAuto State.enterAuto
  dsimp only
  (repeat' split) <;> first | exact .of_eq rfl |
    exact (SameBusFaults.of_eq (by simp)).trans ((SameBusFaults.remove _ (refLostCode_ofBus c)).trans (.dropCoilCode s c))

theorem SameBusFaults.modeRequest (s : State) (st : Settings) (c : ChannelId) (k : Byte) : SameBusFaults
    (s.modeRequest st c k) s := by
  unfold State.modeRequest
  dsimp only
  (repeat' split) <;> first | exact .of_eq rfl | exact .channelOff _ _ | exact .requestManual _ _ | exact .requestAuto _ _ _

theorem SameBusFaults.takeSample (s : State) (st : Settings) (d : QuantityDef) (e : Entry) (b : Bool) (r : RawSample)
    :
    SameBusFaults (s.takeSample st d e b r) s := by
  unfold State.takeSample State.handOver State.handActions
  dsimp only
  (repeat' split) <;> first | exact .of_eq rfl | (refine .of_eq ?_; simp) |
    exact (SameBusFaults.modeRequest _ _ _ _).trans ((SameBusFaults.modeRequest _ _ _ _).trans (.of_eq rfl))

theorem SameBusFaults.acceptSample (s : State) (n : BitVec 4) (r : RawSample) : SameBusFaults (s.acceptSample n r) s
    := by
  unfold State.acceptSample State.withSettings State.updatePath State.createEntry
  dsimp only
  (repeat' split) <;> first | exact .of_eq rfl | (refine .of_eq ?_; simp; done) |
    exact (SameBusFaults.takeSample _ _ _ _ _ _).trans (.of_eq rfl)

theorem SameBusFaults.deliverConversion (s : State) (st : Settings) (u : ConversionUser) (r : BitVec 12) :
    SameBusFaults (s.deliverConversion st u r) s := by
  unfold State.deliverConversion State.judgeCoil State.coilFault
  dsimp only
  (repeat' split) <;> first | exact .of_eq rfl | (refine .of_eq ?_; simp) |
    exact (SameBusFaults.add _ (coilCode_ofBus _ _)).trans (.of_eq (by simp))

theorem SameBusFaults.judgeReply (s : State) (o : Option ReplyOutcome) : SameBusFaults (s.judgeReply o) s := by
  unfold State.judgeReply
  (repeat' split) <;> first | exact .of_eq rfl | exact (SameBusFaults.add _ rfl).trans (.of_eq rfl) |
    exact (SameBusFaults.remove _ rfl).trans (.of_eq rfl)

theorem SameBusFaults.levelChange (s : State) (st : Settings) (i : Fin 6) (l : Bool) : SameBusFaults (s.levelChange
    st i l) s := by
  unfold State.levelChange
  dsimp only
  (repeat' split) <;> first | exact .of_eq rfl | exact .pressRelease s | (refine .of_eq ?_; simp)

theorem SameBusFaults.resumeExpired (s : State) (c : ChannelId) : SameBusFaults (s.resumeExpired c) s :=
  (SameBusFaults.add _ (refLostCode_ofBus c)).trans (.of_eq (by simp))

theorem SameBusFaults.judgeBelt (s : State) (st : Settings) (cv : ConveyorDef) (k : Conveyor) (v : Int) :
    SameBusFaults (s.judgeBelt st cv k v) s := by
  have hk (k : Conveyor) : SameBusFaults (s.setConveyor k) s := .of_eq rfl
  have ha (k : Conveyor) : SameBusFaults ((s.setConveyor k).addFault .beltStall) s := (SameBusFaults.add _ rfl).trans (hk k)
  have hr (w : State) (a b : Byte) (h : SameBusFaults w s) : SameBusFaults (w.raiseCause a b) s := (SameBusFaults.of_eq (by simp)).trans h
  unfold State.judgeBelt
  dsimp only
  (repeat' split) <;>
    first | with_reducible exact hk _ | with_reducible exact ha _ | with_reducible exact hr _ _ _ (hk _) |
      with_reducible exact hr _ _ _ (ha _) | with_reducible exact hr _ _ _ (hr _ _ _ (ha _))

theorem SameBusFaults.checkReference (s : State) (cd : ChannelDef) (c : ChannelId) : SameBusFaults (s.checkReference
    cd c) s := by
  have hf (st : ChannelState) (k : Option HeldCause) (f : Option CoilFault) (r : Option Clock) :
    SameBusFaults (s.forceChannel c st k f r) s := .of_eq (by simp)
  unfold State.checkReference State.loseReference
  dsimp only
  (repeat' split) <;> first | with_reducible exact .of_eq rfl | with_reducible exact hf _ _ _ _ |
    with_reducible exact (SameBusFaults.resumeExpired _ _).trans (hf _ _ _ _) | exact .of_eq (by simp)

theorem SameBusFaults.updateChannel (s : State) (st : Settings) (c : ChannelId) : SameBusFaults (s.updateChannel st
    c) s := by
  have hd (w : State) (h : SameBusFaults w s) : SameBusFaults (w.driveChannel st (st.channel c) c) s := (SameBusFaults.of_eq (by simp)).trans h
  have hc (w : State) (cv : ConveyorDef) (b : Bool) (v : Int) : SameBusFaults (w.commandBelt cv b v) w := .of_eq (by simp)
  unfold State.updateChannel State.conveyorWork
  dsimp only
  split
  · exact .of_eq rfl
  · split
    · apply hd
      split
      · exact (hc _ _ _ _).trans (.judgeBelt _ _ _ _ _)
      · exact .of_eq rfl
    · apply hd
      exact (SameBusFaults.checkReference _ _ _).trans (.of_eq (by simp))

end Sys2Proof.Machine
end

