-- ==== Sys2Proof/Laws/Coils.lean ====
section
/-! SUPPORT. Each operation that reaches a channel or the fault collection keeps coil faults and their codes in
agreement. -/

namespace Sys2Proof.Machine

/-- The fault code is no channel's coil code. -/
abbrev FaultCode.NoCoil (f : FaultCode) : Prop := f ∉ [FaultCode.coilOpenA, .coilShortA, .coilOpenB, .coilShortB]

theorem FaultCode.NoCoil.ne {f : FaultCode} (h : f.NoCoil) (c : ChannelId) (x : CoilFault) : coilCode c x ≠ f := by
  rintro rfl
  cases c <;> cases x <;> exact absurd h (by decide)

theorem coilCode_inj {c d : ChannelId} {f g : CoilFault} : coilCode c f = coilCode d g ↔ c = d ∧ f = g := by
  cases c <;> cases d <;> cases f <;> cases g <;> simp [coilCode]

namespace State.CoilFaultsWf

theorem of_eq {s u : State} (h : s.CoilFaultsWf)
    (hc : ∀ c, (u.channel c).state = (s.channel c).state ∧ (u.channel c).fault = (s.channel c).fault)
    (hf : ∀ c f, coilCode c f ∈ u.faults ↔ coilCode c f ∈ s.faults) : u.CoilFaultsWf := by
  intro c
  rw [(hc c).1, (hc c).2]
  exact ⟨(h c).1, fun f => (hf c f).trans ((h c).2 f)⟩

theorem same {s u : State} (h : s.CoilFaultsWf) (ha : u.chanA = s.chanA) (hb : u.chanB = s.chanB)
    (hf : u.faults = s.faults) : u.CoilFaultsWf :=
  h.of_eq (fun c => by cases c <;> simp [State.channel, ha, hb]) (fun _ _ => by rw [hf])

theorem setChannel {s : State} (h : s.CoilFaultsWf) {c : ChannelId} {ch : Channel}
    (h1 : ch.state = (s.channel c).state) (h2 : ch.fault = (s.channel c).fault) : (s.setChannel c ch).CoilFaultsWf :=
        by
  refine h.of_eq (fun d => ?_) (fun _ _ => by simp)
  rw [State.setChannel_channel]; split
  · subst d; exact ⟨h1, h2⟩
  · exact ⟨rfl, rfl⟩

theorem addFault {s : State} (h : s.CoilFaultsWf) {f : FaultCode} (n : f.NoCoil) : (s.addFault f).CoilFaultsWf := by
  refine h.of_eq (fun d => by cases d <;> simp [State.channel]) fun c x => ?_
  rw [State.addFault_faults]; split
  · rfl
  · simp [n.ne c x]

theorem removeFault {s : State} (h : s.CoilFaultsWf) {f : FaultCode} (n : f.NoCoil) :
    (s.removeFault f).CoilFaultsWf := by
  refine h.of_eq (fun d => by cases d <;> simp [State.channel]) fun c x => ?_
  rw [State.removeFault_faults]; simp [n.ne c x]

/-- A channel is written over a state that differs at that channel alone. -/
theorem enter {s w : State} (h : s.CoilFaultsWf) {c : ChannelId} {ch : Channel}
    (hw : ∀ d, w.channel d = s.channel d)
    (hm : ∀ d, d ≠ c → ∀ f, coilCode d f ∈ w.faults ↔ coilCode d f ∈ s.faults)
    (hs : ch.fault ≠ none ↔ ch.state = .fault) (hf : ∀ f, coilCode c f ∈ w.faults ↔ ch.fault = some f) :
    (w.putChannel c ch).CoilFaultsWf := by
  intro d
  rw [State.putChannel_channel]
  simp only [State.putChannel_fields]
  split
  · subst d; exact ⟨hs, hf⟩
  · rename_i hd
    rw [hw d]
    exact ⟨(h d).1, fun f => (hm d hd f).trans ((h d).2 f)⟩

theorem no_fault {s : State} (h : s.CoilFaultsWf) {c : ChannelId} (h1 : (s.channel c).state ≠ .fault) :
    (s.channel c).fault = none := by
  rcases hf : (s.channel c).fault with _ | f
  · rfl
  · exact absurd (((h c).1).1 (by rw [hf]; simp)) h1

theorem no_code {s : State} (h : s.CoilFaultsWf) {c : ChannelId} (h1 : (s.channel c).state ≠ .fault) (f) :
    coilCode c f ∉ s.faults := by
  rw [(h c).2, h.no_fault h1]; simp

/-- A channel outside FAULT stays outside. -/
theorem putChannel {s : State} (h : s.CoilFaultsWf) {c : ChannelId} {ch : Channel}
    (h1 : (s.channel c).state ≠ .fault) (h2 : ch.state ≠ .fault) (h3 : ch.fault = none) :
    (s.putChannel c ch).CoilFaultsWf :=
  h.enter (fun _ => rfl) (fun _ _ _ => Iff.rfl) (by simp [h2, h3]) fun f => by simp [h.no_code h1, h3]

theorem forceChannel {s : State} (h : s.CoilFaultsWf) {c : ChannelId} {st k r}
    (h1 : (s.channel c).state ≠ .fault) (h2 : st ≠ .fault) : (s.forceChannel c st k none r).CoilFaultsWf := by
  unfold State.forceChannel
  refine State.CoilFaultsWf.putChannel (s := s.withdrawCheck c) (h.same (by simp) (by simp) (by simp)) ?_ h2 rfl
  simpa using h1

/-- Leaving FAULT takes the channel's coil codes and no other's. -/
theorem dropCoilCode_mem {s : State} (h : s.CoilFaultsWf) (c d f) :
    coilCode d f ∈ (s.dropCoilCode c).faults ↔ d ≠ c ∧ coilCode d f ∈ s.faults := by
  unfold State.dropCoilCode
  rcases hf : (s.channel c).fault with _ | g
  · refine ⟨fun m => ⟨?_, m⟩, fun m => m.2⟩
    rintro rfl
    have := ((h d).2 f).1 m
    rw [hf] at this; cases this
  · dsimp only
    rw [State.removeFault_faults]
    simp only [List.mem_filter, bne_iff_ne, ne_eq, coilCode_inj]
    constructor
    · rintro ⟨m, n⟩
      refine ⟨?_, m⟩
      rintro rfl
      have := ((h d).2 f).1 m
      rw [hf] at this; cases this
      exact n ⟨rfl, rfl⟩
    · rintro ⟨n, m⟩
      exact ⟨m, fun x => n x.1⟩

/-- A channel enters another state with its coil code dropped. -/
theorem leave {s w : State} (h : s.CoilFaultsWf) {c : ChannelId} {ch : Channel} (hw : ∀ d, w.channel d = s.channel d)
    (hm : ∀ d f, coilCode d f ∈ w.faults ↔ coilCode d f ∈ (s.dropCoilCode c).faults)
    (h2 : ch.state ≠ .fault) (h3 : ch.fault = none) : (w.putChannel c ch).CoilFaultsWf :=
  h.enter hw (fun d hd f => by rw [hm, h.dropCoilCode_mem]; simp [hd]) (by simp [h2, h3])
    fun f => by rw [hm, h.dropCoilCode_mem]; simp [h3]

theorem channelOff {s : State} (h : s.CoilFaultsWf) (c) : (s.channelOff c).CoilFaultsWf := by
  unfold State.channelOff
  split
  · exact h
  · unfold State.forceChannel
    refine h.leave (w := (s.dropCoilCode c).withdrawCheck c) (fun d => ?_) (fun d f => by simp) (by simp) rfl
    rw [State.withdrawCheck_channel, State.dropCoilCode_channel]

theorem modeRequest {s : State} (h : s.CoilFaultsWf) (st : Settings) (c code) :
    (s.modeRequest st c code).CoilFaultsWf := by
  unfold State.modeRequest State.requestManual State.requestAuto State.enterAuto
  dsimp only
  (repeat' split) <;> first
    | exact h
    | exact h.channelOff c
    | exact h.leave (fun d => State.dropCoilCode_channel _ _ _) (fun _ _ => Iff.rfl) (by simp) rfl
    | (refine h.leave (fun d => ?_) (fun d f => ?_) (by simp) rfl
       · rw [← State.dropCoilCode_channel s c d]; cases d <;> simp [State.channel]
       · rw [State.removeFault_faults]; cases c <;> cases d <;> cases f <;> simp [coilCode, refLostCode])

theorem latchChannel {s : State} (h : s.CoilFaultsWf) (c) : (s.latchChannel c).CoilFaultsWf := by
  unfold State.latchChannel
  split <;> first | exact h | exact h.forceChannel (by simp_all) (by simp)

theorem unlatchChannel {s : State} (h : s.CoilFaultsWf) (c) : (s.unlatchChannel c).CoilFaultsWf := by
  unfold State.unlatchChannel
  split <;> first
    | exact h
    | (rename_i hs _
       exact h.putChannel (by rw [hs]; simp) (by simp) (h.no_fault (c := c) (by rw [hs]; simp)))

theorem setLatch {s : State} (h : s.CoilFaultsWf) (r) : (s.setLatch r).CoilFaultsWf := by
  unfold State.setLatch
  exact latchChannel (latchChannel (h.same (by simp) (by simp) (by simp)) _) _

theorem raiseCause {s : State} (h : s.CoilFaultsWf) (a d) : (s.raiseCause a d).CoilFaultsWf := by
  unfold State.raiseCause
  split
  · apply State.CoilFaultsWf.setLatch; exact h.same rfl rfl rfl
  · exact h

theorem clearLatch {s : State} (h : s.CoilFaultsWf) : s.clearLatch.CoilFaultsWf := by
  unfold State.clearLatch
  refine removeFault (unlatchChannel (unlatchChannel (h.same (by simp) (by simp) (by simp)) _) _) ?_
  decide

theorem takeRelease {s : State} (h : s.CoilFaultsWf) (n) : (s.takeRelease n).CoilFaultsWf := by
  have hc : ({ s with line := s.line.discardHalt }.clearLatch).CoilFaultsWf := clearLatch (h.same rfl rfl rfl)
  unfold State.takeRelease State.withSettings
  dsimp only
  (repeat' split) <;> first | with_reducible exact h | with_reducible exact hc | exact hc.raiseCause _ _

theorem pressRelease {s : State} (h : s.CoilFaultsWf) : s.pressRelease.CoilFaultsWf := by
  unfold State.pressRelease
  dsimp only
  (repeat' split)
  exacts [h, h.same rfl rfl rfl, h.clearLatch.same rfl rfl rfl]

theorem runWatches {s : State} (h : s.CoilFaultsWf) (f) : (s.runWatches f).CoilFaultsWf := by
  have hw (w : State) (n x) (h : w.CoilFaultsWf) : (w.runWatch n x f).CoilFaultsWf := by
    unfold State.runWatch
    (repeat' split) <;> first | exact h | exact h.raiseCause _ _ | exact h.same rfl rfl rfl
  unfold State.runWatches State.withSettings
  dsimp only
  (repeat' split) <;> first | exact h | exact hw _ _ _ (hw _ _ _ (hw _ _ _ (hw _ _ _ h)))

theorem endMute {s : State} (h : s.CoilFaultsWf) (b) : (s.endMute b).CoilFaultsWf := by
  unfold State.endMute
  apply State.CoilFaultsWf.removeFault
  · exact h.same rfl rfl rfl
  · decide

theorem numberClash {s : State} (h : s.CoilFaultsWf) : s.numberClash.CoilFaultsWf := by
  have hn : FaultCode.NoCoil .numberClash := by decide
  unfold State.numberClash
  dsimp only
  split
  · exact h
  · refine channelOff (channelOff (addFault ?_ hn) _) _
    split
    exacts [h.endMute _, h.same rfl rfl rfl]

theorem mapTarget {s : State} (h : s.CoilFaultsWf) (c f) : (s.mapTarget c f).CoilFaultsWf := by
  unfold State.mapTarget; exact h.setChannel rfl rfl

theorem takeSample {s : State} (h : s.CoilFaultsWf) (st : Settings) (d : QuantityDef) (e : Entry) (b : Bool)
    (r : RawSample) : (s.takeSample st d e b r).CoilFaultsWf := by
  have h : (s.updateEntry e.key fun _ => e.takeRemote d r s.clock).CoilFaultsWf := h.same rfl rfl rfl
  unfold State.takeSample
  generalize (s.updateEntry e.key fun _ => e.takeRemote d r s.clock) = w at h
  have ht (w : State) (c : ChannelId) (q : BitVec 6) (v : Int) (h : w.CoilFaultsWf) :
      (w.handTarget st c q v).CoilFaultsWf := by
    unfold State.handTarget
    dsimp only
    (repeat' split) <;> first | with_reducible exact h | exact h.mapTarget _ _
  have ha (w : State) (c : ChannelId) (q : Byte) (h : w.CoilFaultsWf) : (w.handAction st c q).CoilFaultsWf := by
    unfold State.handAction
    dsimp only
    (repeat' split) <;> first | with_reducible exact h | exact h.mapTarget _ _
  unfold State.handOver State.handTargets State.handActions
  dsimp only
  (repeat' split) <;> first
    | with_reducible exact h
    | with_reducible exact ht _ _ _ _ (ht _ _ _ _ h)
    | with_reducible exact ha _ _ _ (ha _ _ _ h)
    | with_reducible exact (h.modeRequest _ _ _).modeRequest _ _ _

theorem acceptSample {s : State} (h : s.CoilFaultsWf) (n : BitVec 4) (r : RawSample) :
    (s.acceptSample n r).CoilFaultsWf := by
  have ht (p : PeerTable) : ({ s with table := p } : State).CoilFaultsWf := h.same rfl rfl rfl
  unfold State.acceptSample State.withSettings State.updatePath State.createEntry
  dsimp only
  (repeat' split) <;> first | with_reducible exact h | with_reducible exact h.takeSample _ _ _ _ _ |
    with_reducible exact (ht _).takeSample _ _ _ _ _ | exact h.same (by simp) (by simp) (by simp)

/-- A coil fault brings its code (R112). -/
theorem coilFault {s : State} (h : s.CoilFaultsWf) (c f) (h1 : (s.channel c).state ≠ .fault) :
    (s.coilFault c f).CoilFaultsWf := by
  intro d
  have hc : (s.coilFault c f).channel d = if d = c then
      { (s.channel c).silence with state := .fault, cause := none, fault := some f, resumeTimer := none }
      else s.channel d := by
    rw [← State.forceChannel_channel]
    unfold State.coilFault
    cases d <;> simp [State.channel]
  have hm (g) : coilCode d g ∈ (s.coilFault c f).faults ↔ coilCode d g ∈ s.faults ∨ (d = c ∧ g = f) := by
    unfold State.coilFault
    rw [State.addFault_faults]
    simp only [State.forceChannel_fields]
    rw [← coilCode_inj (c := d) (d := c)]
    split
    · rename_i m
      exact ⟨Or.inl, fun x => x.elim id fun e => e ▸ m⟩
    · simp
  rw [hc]
  by_cases hd : d = c
  · subst d
    simp only [if_true, hm]
    simp [h.no_code h1]
    tauto
  · simp only [hd, if_false, hm, false_and, or_false]
    exact h d

theorem judgeCoil {s : State} (h : s.CoilFaultsWf) (c i m) : (s.judgeCoil c i m).CoilFaultsWf := by
  unfold State.judgeCoil
  dsimp only
  split
  · rename_i hs
    have : (s.channel c).state ≠ .fault := by rcases hs.1 with e | e <;> rw [e] <;> simp
    (repeat' split) <;> first | exact h.coilFault _ _ this | exact h.setChannel rfl rfl
  · exact h

theorem driveChannel {s : State} (h : s.CoilFaultsWf) (st cd c) : (s.driveChannel st cd c).CoilFaultsWf := by
  obtain ⟨k, e, -, -⟩ := State.driveChannel_eq s st cd c s.now rfl
  rw [e]
  have : ((s.outputStep st cd c).setCoils cd).state = (s.channel c).state ∧
      ((s.outputStep st cd c).setCoils cd).fault = (s.channel c).fault := by
    unfold Channel.setCoils State.outputStep State.autoOutput State.manualOutput Channel.drive
    dsimp only
    (repeat' split) <;> exact ⟨rfl, rfl⟩
  exact (h.setChannel this.1 this.2).same rfl rfl rfl

theorem judgeBelt {s : State} (h : s.CoilFaultsWf) (st cv k v) : (s.judgeBelt st cv k v).CoilFaultsWf := by
  have hn : FaultCode.NoCoil .beltStall := by decide
  have hk (k : Conveyor) : (s.setConveyor k).CoilFaultsWf := h.same rfl rfl rfl
  unfold State.judgeBelt
  dsimp only
  (repeat' split) <;>
    first | with_reducible exact hk _ | with_reducible exact (hk _).raiseCause _ _ |
      with_reducible exact ((hk _).addFault hn).raiseCause _ _ |
      with_reducible exact (((hk _).addFault hn).raiseCause _ _).raiseCause _ _

theorem conveyorWork {s : State} (h : s.CoilFaultsWf) (st : Settings) : (s.conveyorWork st).CoilFaultsWf := by
  unfold State.conveyorWork
  split
  · rename_i cv k _ _
    dsimp only
    have hj := h.judgeBelt st cv
      (k.updateRate cv (s.validResult cv.depthGroup) (s.validResult cv.advanceGroup) s.clock) (s.beltSpeed cv)
    unfold State.commandBelt
    (repeat' split) <;> first | with_reducible exact hj | exact hj.same rfl rfl rfl
  · exact h

theorem resumeExpired {s : State} (h : s.CoilFaultsWf) {c} (h1 : (s.channel c).state = .held) :
    (s.resumeExpired c).CoilFaultsWf := by
  unfold State.resumeExpired
  refine addFault (h.putChannel (by rw [h1]; simp) (by simp) ?_) ?_
  · exact h.no_fault (c := c) (by rw [h1]; simp)
  cases c <;> decide

theorem checkReference {s : State} (h : s.CoilFaultsWf) (cd : ChannelDef) (c : ChannelId) :
    (s.checkReference cd c).CoilFaultsWf := by
  unfold State.checkReference
  dsimp only
  split
  · rename_i hs _
    have := h.forceChannel (c := c) (st := .held) (k := some .refLost) (r := some (after s.clock cd.window))
      (by rw [hs]; simp) (by simp)
    unfold State.loseReference
    dsimp only
    split
    · refine this.resumeExpired ?_
      rw [State.forceChannel_channel, if_pos rfl]
    · exact this
  · rename_i hs _ _
    split
    · unfold State.resumeAuto
      exact h.putChannel (by rw [hs]; simp) (by simp) (h.no_fault (c := c) (by rw [hs]; simp))
    · exact h
  · exact h

/-- Every channel update keeps the agreement. -/
theorem updateChannel {s : State} (h : s.CoilFaultsWf) (st : Settings) (c : ChannelId) :
    (s.updateChannel st c).CoilFaultsWf := by
  unfold State.updateChannel
  dsimp only
  (repeat' split)
  · exact h
  · exact (h.conveyorWork st).driveChannel _ _ _
  · refine driveChannel (checkReference ?_ _ _) _ _ _
    unfold State.settleTarget Channel.settle
    dsimp only
    (repeat' split) <;> exact h.setChannel rfl rfl

end State.CoilFaultsWf

end Sys2Proof.Machine
end

