-- ==== Sys2Proof/Laws/Entries.lean ====
section
/-! SUPPORT. What an entry of a channel into a state changes: by a mode request, by the latch, by its release. -/

namespace Sys2Proof.Machine

theorem Line.statusMarked_twice (l : Line) : l.statusMarked.statusMarked = l.statusMarked := rfl

theorem State.markStatus_eq (s : State) : s.markStatus = { s with line := s.line.statusMarked } := rfl

theorem State.addFault_eq (s : State) (f : FaultCode) : s.addFault f =
    if f ∈ s.faults then s else { s with faults := s.faults ++ [f], line := s.line.statusMarked } := by
  unfold State.addFault; split <;> rfl

theorem State.removeFault_eq (s : State) (f : FaultCode) : s.removeFault f =
    { s with faults := s.faults.filter (· != f), line := if f ∈ s.faults then s.line.statusMarked else s.line } := by
  unfold State.removeFault
  split
  · rfl
  · have : s.faults.filter (· != f) = s.faults := List.filter_eq_self.mpr fun a ha => by
      rename_i hf; simp; rintro rfl; exact hf ha
    rw [this]

/-- What writing a channel changes (R115, R128, R151). -/
theorem State.putChannel_eq (s : State) (c : ChannelId) (ch : Channel) : s.putChannel c ch = { s.setChannel c ch with
    line := if (s.channel c).state = ch.state ∧ (s.channel c).cause = ch.cause then s.line else s.line.statusMarked
    conveyor := (s.putChannel c ch).conveyor } := by
  unfold State.putChannel
  dsimp only
  (repeat' split) <;> cases c <;> rfl

/-- A channel put into another state over a state that differs in its waiting checks, its faults and STATUS alone. -/
theorem State.Enters.of_put {s w : State} {c : ChannelId} {ch : Channel} {request : Option Int}
    {faults : List FaultCode} (hw : w = { s with
      converter := s.converter.withRequest c request, faults := faults, line := w.line })
    (hl : w.line.statusMarked = s.line.statusMarked) (hne : (s.channel c).state ≠ ch.state) :
    s.Enters c ch request faults (w.putChannel c ch) := by
  have hc : w.channel c = s.channel c := by rw [hw]; cases c <;> rfl
  have hk : w.KeepsConveyor (w.putChannel c ch) := State.KeepsConveyor.putChannel _ _ _
  refine ⟨?_, ?_⟩
  · unfold State.KeepsConveyor at *
    rw [hk]
    have h1 : w.chanA = s.chanA := by rw [hw]
    have h2 : w.conveyor = s.conveyor := by rw [hw]
    rw [h1, h2]
  · rw [State.putChannel_eq w, hc, if_neg (fun h => hne h.1), hl]
    dsimp only
    rw [hw]
    cases c <;> rfl

/-- Leaving FAULT: the coil code goes and STATUS at most is marked (R95 to R97). -/
theorem State.dropCoilCode_eq (s : State) (c : ChannelId) : ∃ l, s.dropCoilCode c =
    { s with faults := s.faultsWithoutCoil c, line := l } ∧ l.statusMarked = s.line.statusMarked := by
  unfold State.dropCoilCode State.faultsWithoutCoil
  rcases (s.channel c).fault with _ | f
  · exact ⟨_, rfl, rfl⟩
  · dsimp only
    rw [State.removeFault_eq]
    refine ⟨_, rfl, ?_⟩
    split <;> rfl

theorem Converter.withRequest_self (k : Converter) (c) : k.withRequest c (k.request c) = k := by cases c <;> rfl

/-- A channel's OFF (R95, R116). -/
theorem State.channelOff_enters {s : State} {c : ChannelId} (h : (s.channel c).state ≠ .off) :
    s.Enters c { (s.channel c).forced with state := .off, cause := none, fault := none, resumeTimer := none } none
      (s.faultsWithoutCoil c) (s.channelOff c) := by
  obtain ⟨l, e, hl⟩ := State.dropCoilCode_eq s c
  unfold State.channelOff State.forceChannel
  rw [if_neg h]
  have hc : (s.dropCoilCode c).channel c = s.channel c := by rw [e]; cases c <;> rfl
  rw [hc]
  refine State.Enters.of_put (w := (s.dropCoilCode c).withdrawCheck c) ?_ ?_ h
  · rw [State.withdrawCheck_eq, e]
  · rw [State.withdrawCheck_eq, e]; exact hl

/-- Where a mode request is handed to a channel, its three codes (R94). -/
theorem State.modeRequest_handed {s : State} {st : Settings} {c : ChannelId} (h1 : s.station = .running)
    (h2 : s.line.bus ≠ .mutedClash) (h3 : (st.channel c).role ≠ .none) :
    s.modeRequest st c 0 = s.channelOff c ∧ s.modeRequest st c 1 = s.requestManual c ∧
      s.modeRequest st c 2 = s.requestAuto (st.channel c) c := by
  unfold State.modeRequest
  simp [h1, h2, h3]

/-- What a newly set latch does to the channels, whatever else stands (R98, R137). -/
theorem State.ChannelsHalt.of_latched {s u : State} (ha : u.chanA = s.chanA.latched) (hb : u.chanB = s.chanB.latched)
    (hk : u.converter = (s.converter.latched .a s.chanA).latched .b s.chanB) : s.ChannelsHalt u := by
  have moved {ch : Channel} (h : ch.state = .manual ∨ ch.state = .auto ∨ (ch.state = .held ∧ ch.cause = some
      .refLost)) :
      ch.latched = { ch.forced with state := .held, cause := some .latch, fault := none, resumeTimer := none } ∧
        ch.latched ≠ ch := by
    have e : ch.latched = { ch.forced with state := .held, cause := some .latch, fault := none, resumeTimer := none }
        := by
      unfold Channel.latched
      rcases h with h | h | ⟨h, k⟩
      · rw [h]; rfl
      · rw [h]; rfl
      · rw [h, k]; rfl
    refine ⟨e, fun x => ?_⟩
    have h1 := congrArg Channel.state x
    have h2 := congrArg Channel.cause x
    rw [e] at h1 h2
    rcases h with h | h | ⟨-, k⟩
    · rw [h] at h1; cases h1
    · rw [h] at h1; cases h1
    · rw [k] at h2; cases h2
  intro c
  refine ⟨fun h => ?_, fun h => ?_⟩
  · obtain ⟨h1, h2⟩ := moved h
    rw [hk]
    cases c
    · refine ⟨ha.trans h1, ?_⟩
      unfold Converter.latched
      rw [if_neg (show s.chanA.latched ≠ s.chanA from h2)]
      split <;> rfl
    · refine ⟨hb.trans h1, ?_⟩
      unfold Converter.latched
      rw [if_neg (show s.chanB.latched ≠ s.chanB from h2)]
      rfl
  · rw [hk]
    have h2 := Channel.latched_resting h
    unfold Converter.latched
    cases c
    · refine ⟨ha.trans h2, ?_⟩
      rw [if_pos (show s.chanA.latched = s.chanA from h2)]
      split <;> rfl
    · refine ⟨hb.trans h2, ?_⟩
      rw [if_pos (show s.chanB.latched = s.chanB from h2)]
      split <;> rfl

/-- Of the converter the latch touches the waiting checks alone (R49, R98). -/
theorem Converter.latched_requests (k : Converter) (c : ChannelId) (ch : Channel) : k.latched c ch =
    { k with requestA := (k.latched c ch).requestA, requestB := (k.latched c ch).requestB } := by
  unfold Converter.latched; split <;> cases c <;> rfl

theorem Converter.latched_twice (k : Converter) (a b : Channel) :
    let u := (k.latched .a a).latched .b b
    u = { k with requestA := u.requestA, requestB := u.requestB } := by
  dsimp only
  rw [Converter.latched_requests (k.latched .a a), Converter.latched_requests k]

/-- All that a cause raised on a CLEAR latch changes, as the statements say it (R136 to R138). -/
theorem State.raiseCause_halts (w : State) (a d : Byte) (hw : w.atWork) (hl : w.latch = none) :
    let u := w.raiseCause a d
    u.latch = some ⟨a, w.number, d⟩ ∧ w.KeepsConveyor u ∧ w.ChannelsHalt u ∧ u = { w with
      latch := u.latch, chanA := u.chanA, chanB := u.chanB, conveyor := u.conveyor
      converter := { w.converter with requestA := u.converter.requestA, requestB := u.converter.requestB }
      line := w.line.halting a d } := by
  have k := (State.BeltFollows.raiseCause w a d).1
  rw [State.raiseCause_clear w a d hw hl] at *
  refine ⟨rfl, k, State.ChannelsHalt.of_latched rfl rfl rfl, ?_⟩
  dsimp only
  rw [← Converter.latched_twice]

/-- All that a newly set latch changes, as the statements say it (R98, R137). -/
theorem State.setLatch_halts (w : State) (r : LatchRecord) :
    let u := w.setLatch r
    u.latch = some r ∧ w.KeepsConveyor u ∧ w.ChannelsHalt u ∧ u = { w with
      latch := u.latch, chanA := u.chanA, chanB := u.chanB, conveyor := u.conveyor
      converter := { w.converter with requestA := u.converter.requestA, requestB := u.converter.requestB }
      line := w.line.statusMarked } := by
  have k := (State.BeltFollows.setLatch w r).1
  rw [State.setLatch_eq w r] at *
  refine ⟨rfl, k, State.ChannelsHalt.of_latched rfl rfl rfl, ?_⟩
  dsimp only
  rw [← Converter.latched_twice]

/-- A channel as a latch that becomes CLEAR leaves it (R99). -/
def Channel.unlatched (ch : Channel) : Channel :=
  if ch.state = .held ∧ ch.cause = some .latch then { ch.forced with state := .manual, cause := none } else ch

theorem State.unlatchChannel_eq (w : State) (c) (hm : w.line.control.status = true) :
    w.unlatchChannel c = w.setChannel c (w.channel c).unlatched := by
  have hl : w.line.statusMarked = w.line := by unfold Line.statusMarked; rw [← hm]
  unfold Channel.unlatched
  by_cases h : (w.channel c).state = .held ∧ (w.channel c).cause = some .latch
  · have e : w.unlatchChannel c =
        w.putChannel c { (w.channel c).silence with state := .manual, cause := none } := by
      unfold State.unlatchChannel; rw [h.1, h.2]
    rw [e, if_pos h]
    unfold State.putChannel
    dsimp only
    rw [if_neg (by rw [h.1]; simp), if_neg (by rw [h.1]; simp)]
    rw [State.markStatus_eq]
    have : (w.setChannel c { (w.channel c).silence with state := .manual, cause := none }).line = w.line := by
      cases c <;> rfl
    rw [this, hl]
    cases c <;> rfl
  · have e : w.unlatchChannel c = w := by
      unfold State.unlatchChannel
      split
      · rename_i h1 h2; exact absurd ⟨h1, h2⟩ h
      · rfl
    rw [e, if_neg h]
    cases c <;> rfl

/-- The latch becomes CLEAR (R99, R137). -/
theorem State.clearLatch_eq (w : State) : w.clearLatch = { w with
    latch := none, chanA := w.chanA.unlatched, chanB := w.chanB.unlatched
    faults := w.faults.filter (· != .beltStall), line := w.line.statusMarked } := by
  unfold State.clearLatch
  rw [State.unlatchChannel_eq _ .a rfl, State.unlatchChannel_eq _ .b rfl, State.removeFault_eq]
  split <;> rfl

theorem State.ChannelsResume.of_unlatched {s u : State} (ha : u.chanA = s.chanA.unlatched)
    (hb : u.chanB = s.chanB.unlatched) : s.ChannelsResume u := by
  intro c
  cases c
  · exact ha
  · exact hb

end Sys2Proof.Machine
end

