-- ==== Sys2Proof/Laws/Kept.lean ====
section
/-! SUPPORT. The case analysis over the commands, made once: a property of the state that every piece of a command's
work keeps is kept by every command. -/

namespace Sys2Proof.Machine

/-- Every piece of work that some command does keeps the property; what the classes of commands of Safety.lean do
keeps it where the command belongs to the class. -/
structure Kept (c : Instr) (P : State → Prop) : Prop where
  tick : ∀ s t, P s → P (s.tick t)
  supply : ∀ s, P s → P { s with supply := true }
  release : ∀ s, P s → P { s with resetHeld := false }
  start : c.mayStart = true → ∀ s x, P s → P (s.start x)
  powerLoss : ∀ s, P s → P (State.stop { s with supply := false })
  resetAssert : ∀ s, P s → P (State.stop { s with resetHeld := true })
  endLoading : ∀ s, P s → s.station = .loading → P s.endLoading
  enterRunning : ∀ s st, P s → s.settings = some st → s.station = .listening → P (s.enterRunning st)
  receiver : ∀ s r q y, P s → P { s with line := { s.line with receiver := r, quietSince := q, yielding := y } }
  dropped : ∀ s r q, P s → P { s with line := { s.line.countError with receiver := r, quietSince := q } }
  watches : ∀ s f, P s → P (s.endReception.runWatches f)
  clash : ∀ s, P s → s.line.flight = none → P s.numberClash
  acceptSample : ∀ s n r, P s → P (s.acceptSample n r)
  takeHalt : ∀ s n k d, P s → P (s.takeHalt n k d)
  takeRelease : c.mayClearLatch = true → ∀ s n, P s → P (s.takeRelease n)
  placeReply : ∀ s r, P s → P (s.placeReply r)
  beginOp : ∀ s k r d, P s → (k ≠ .eraseAll → r.toNat < 64) → P (s.beginOp k r d)
  writeBytes : c.mayChangeStore = true → ∀ s (r : Byte) (row : Row), P s → r.toNat < 64 → P (s.writeBytes r row.toList)
  lock : c.mayChangeStore = true → ∀ s, P s → P { s with store := { s.store with locked := true } }
  writeRow : c.mayChangeStore = true → ∀ s op (row : Row), P s → s.store.op = some op → op.command ≠ .eraseAll →
    P (s.endOp (Memory.setRow s.store.cells op.row.toNat row.toList) s.store.locked)
  eraseRow : c.mayChangeStore = true → ∀ s op, P s → s.store.op = some op → op.command ≠ .eraseAll →
    P (s.endOp (Memory.eraseRow s.store.cells op.row.toNat) s.store.locked)
  eraseAll : c.mayChangeStore = true → ∀ s, P s → P (s.endOp [] false)
  blankCheck : ∀ s, P s → P (s.endOp s.store.cells s.store.locked)
  age : ∀ s k, P s → P (s.age k Entry.toAged)
  expire : ∀ s k, P s → P (s.age k Entry.toExpired)
  evaluate : ∀ s st n g r e, P s → s.settings = some st → P (s.evaluateGroup n g (g.key s.number st.side) r e)
  converter : ∀ s k, P s → P { s with converter := k }
  addOverrun : ∀ s, P s → P (s.addFault .scanOverrun)
  removeOverrun : ∀ s, P s → P (s.removeFault .scanOverrun)
  conversion : ∀ s st u r, P s → s.settings = some st → P (s.deliverConversion st u r)
  port : ∀ s p, P s → P { s with port := p }
  judgeReply : ∀ s o, P s → P (s.judgeReply o)
  takeOutcome : ∀ s i x o, P s → P (s.takeOutcome i x o)
  setPulse : ∀ s i p, P s → P (s.setPulse i p)
  deliverRaw : ∀ s i x v, P s → P (s.deliverRaw i x v)
  setInput : ∀ s i d, P s → P (s.setInput i d)
  levelChange : c.mayClearLatch = true → ∀ s st i l, P s → s.settings = some st → P (s.levelChange st i l)
  refresh : ∀ s p, P s → P ((s.setPanel p).deliverPanel p)
  armPublication : ∀ s q i x, P s →
    P { s with publications := updatePublication s.publications q i fun p => { p with timer := x } }
  queueSample : ∀ s x r, P s → findPublication s.publications x.code x.inst = some r → P (s.queueSample x)
  updateChannel : ∀ s st c e, P s → s.settings = some st → P ((s.armUpdate c e).updateChannel st c)
  resumeExpired : ∀ s c, P s → (s.channel c).state = .held → (s.channel c).cause = some .refLost → P (s.resumeExpired c)
  holdExpired : ∀ s k, P s → s.conveyor = some k → P (s.setConveyor k.holdExpired)
  beltHold : ∀ s, P s → P { s with beltHold := none }
  statusTimer : ∀ s x, P s → P (State.markStatus { s with statusTimer := x })
  beginFrame : ∀ s f k q t, P s → s.line.bus = .active → s.chooseFrame = some (f, k, q) → P { s with line :=
    { s.line with control := k, queue := q, flight := some ⟨f, t, false⟩, receiver := .inFrame true, quietSince := none } }
  endFrame : ∀ s f, P s → s.line.flight = some f → P { s with
    line := { s.line with flight := none, echoRun := 0, yielding := true, receiver := .idle, quietSince := some s.now }
    publications := stepCounters s.publications f.frame }
  stopFrame : ∀ s f, P s → s.line.flight = some f → P { s with line := s.line.stopFrame f }
  echoFault : ∀ s f, P s → s.line.flight = some f → P (State.countEcho { s with line := s.line.stopFrame f })
  endMute : ∀ s, P s → s.line.bus = .mutedTimed → P (s.endMute .active)

/-- An event keeps what its effect keeps. -/
theorem State.event_kept {P : State → Prop} {s u : State} {t : Nat} {effect : State → State}
    (e : s.event t effect = .next u) (h : P s) (tick : P (s.tick t)) (run : ∀ w, P w → P (effect w)) : P u := by
  unfold State.event at e
  injection e with e
  subst e
  split
  exacts [run _ tick, h]

namespace Kept

variable {c : Instr} {P : State → Prop} (K : Kept c P)
include K

theorem arrive {s : State} (h : P s) (f : WireFrame) (g : State → State) (hg : ∀ w, P w → P (g w)) :
    P (s.arrive f g) := by
  unfold State.arrive
  split
  · dsimp only
    split
    exacts [K.clash _ (K.watches _ _ h) (State.runWatches_flight (by assumption)), hg _ (K.watches _ _ h)]
  · exact h

theorem service {s : State} (h : P s) (hd : ServiceHeader) (k : Byte) (d : List Byte) (n : ServiceNeeds)
    (g : State → State) (hg : ∀ w, P w → w.store.refusal hd.row n = none → P (g w)) : P (s.service hd k d n g) := by
  unfold State.service
  refine K.arrive h _ _ fun w hw => ?_
  (repeat' split)
  · exact K.placeReply _ _ hw
  · rename_i hn; exact hg _ hw hn
  · exact hw

theorem acceptAll {s : State} (h : P s) (n : BitVec 4) (l : List RawSample) : P (s.acceptAll n l) := by
  unfold State.acceptAll
  induction l generalizing s with
  | nil => exact h
  | cons r l ih => exact ih (K.acceptSample _ _ _ h)

theorem startConversion {s : State} (h : P s) (x : ConversionUser) : P (s.startConversion x) := K.converter _ _ h

theorem nextConversion {s : State} (h : P s) (n : Nat) : P (s.nextConversion n) := by
  unfold State.nextConversion
  (repeat' split) <;>
    first | with_reducible exact h | with_reducible exact K.startConversion h _ |
      exact K.startConversion (K.converter _ _ h) _

theorem scanExpiry {s : State} (h : P s) : P s.scanExpiry := by
  unfold State.scanExpiry
  split
  · apply K.addOverrun
    exact K.converter _ _ h
  · have hc := K.converter s { s.converter with scan := some [] } h
    dsimp only
    split
    exacts [K.startConversion hc _, hc]

end Kept

/-- What a block does with the settings keeps what it keeps for the settings there are. -/
theorem State.withSettings_kept {P : State → Prop} {s : State} {effect : Settings → State} (h : P s)
    (run : ∀ st, s.settings = some st → P (effect st)) : P (s.withSettings effect) := by
  unfold State.withSettings
  split
  exacts [run _ (by assumption), h]

/-- A command that needs a row and is not refused names one of the 64. -/
theorem Store.refusal_row {s : Store} {row : Byte} {n : ServiceNeeds} (h : s.refusal row n = none) (hr : n.row = true) :
    row.toNat < 64 := by
  unfold Store.refusal at h
  (repeat' split at h) <;> simp_all
  omega

/-- A finished operation is the one in flight, at or past its completion time. -/
theorem finishedOp_eq {s : State} {op : StoreOp} (h : s.finishedOp = some op) :
    s.store.op = some op ∧ reached s.clock op.done = true := by
  unfold State.finishedOp at h
  (repeat' split at h) <;> simp_all

/-- A station that may begin a frame has an ACTIVE bus. -/
theorem State.mayBegin_active {s : State} (h : s.mayBegin = true) : s.line.bus = .active := by
  simp only [State.mayBegin, Bool.and_eq_true, beq_iff_eq] at h
  exact h.1.1

/-- Rearming a published key leaves its run where it is. -/
theorem findPublication_update {runs : List PublicationRun} {q : BitVec 6} {i : BitVec 2} {run : PublicationRun}
    {x : Option Clock} (h : findPublication runs q i = some run) :
    ∃ r, findPublication (updatePublication runs q i fun p => { p with timer := x }) q i = some r := by
  unfold findPublication updatePublication at *
  rw [List.find?_map]
  have hp : ((fun p : PublicationRun => p.code == q && p.inst == i) ∘
      fun p => if p.code = q ∧ p.inst = i then { p with timer := x } else p) = fun p => p.code == q && p.inst == i := by
    funext p
    simp only [Function.comp]
    split <;> rfl
  rw [hp, h]
  exact ⟨_, rfl⟩

/-- What every piece of work keeps, every command keeps. -/
theorem exec_kept {c : Instr} {P : State → Prop} (K : Kept c P) {s u : State} (h : P s) (e : exec c s = .next u) : P u := by
  have ht := K.tick s
  cases c with
  | powerOn x =>
    unfold exec execPowerOn at e
    injection e with e
    subst e
    split
    · exact h
    · dsimp only
      split
      exacts [K.start rfl _ _ (K.supply _ h), K.supply _ h]
  | resetRelease x =>
    unfold exec execResetRelease at e
    injection e with e
    subst e
    split
    · dsimp only
      split
      exacts [K.start rfl _ _ (K.release _ h), K.release _ h]
    · exact h
  | resetAssert =>
    unfold exec execResetAssert at e
    injection e with e
    subst e
    split
    exacts [K.resetAssert _ h, h]
  | powerLoss =>
    unfold exec execPowerLoss at e
    injection e with e
    subst e
    split
    exacts [K.powerLoss _ h, h]
  | discretePinChange t i l =>
    unfold exec execDiscretePinChange at e
    dsimp only at e
    have hs := ht t h
    (repeat' split at e) <;> injection e with e <;> subst e <;>
      first | with_reducible exact hs | with_reducible exact h | with_reducible exact K.setInput _ _ _ hs |
        with_reducible exact K.setInput _ _ _ h
  | endOfLoading t =>
    unfold exec execEndOfLoading at e
    refine State.event_kept (P := P) e h (ht t h) fun w hw => ?_
    split
    · rename_i hc; exact K.endLoading _ hw hc.1
    · exact hw
  | entryToRunning t =>
    unfold exec execEntryToRunning at e
    refine State.event_kept (P := P) e h (ht t h) fun w hw => ?_
    unfold State.withSettings
    split
    · rename_i st hst
      split
      · rename_i hc; exact K.enterRunning _ _ hw hst hc.1
      · exact hw
    · exact hw
  | receiverIdle t =>
    unfold exec execReceiverIdle at e
    refine State.event_kept (P := P) e h (ht t h) fun w hw => ?_
    (repeat' split) <;> first | exact hw | exact K.receiver w _ _ w.line.yielding hw
  | frameStartHeard t =>
    unfold exec execFrameStartHeard at e
    refine State.event_kept (P := P) e h (ht t h) fun w hw => ?_
    (repeat' split) <;> first | exact hw | exact K.receiver w _ none false hw |
      (unfold Line.passCell; (repeat' split) <;> first | exact hw | exact K.receiver w w.line.receiver _ false hw)
  | frameBroken t =>
    unfold exec execFrameBroken at e
    refine State.event_kept (P := P) e h (ht t h) fun w hw => ?_
    split
    exacts [K.dropped _ _ _ hw, hw]
  | frameDropped t l =>
    unfold exec execFrameDropped at e
    refine State.event_kept (P := P) e h (ht t h) fun w hw => ?_
    (repeat' split) <;> first | exact hw | exact K.dropped _ _ _ hw
  | publishFrame t n l =>
    unfold exec execPublishFrame at e
    refine State.event_kept (P := P) e h (ht t h) fun w hw => ?_
    split
    · refine K.arrive hw _ _ fun w hw => ?_
      split
      exacts [K.acceptAll hw _ _, hw]
    · exact hw
  | haltFrame t n k d =>
    unfold exec execHaltFrame at e
    exact State.event_kept (P := P) e h (ht t h) fun w hw => K.arrive hw _ _ fun w hw => K.takeHalt _ _ _ _ hw
  | releaseFrame t n =>
    unfold exec execReleaseFrame at e
    exact State.event_kept (P := P) e h (ht t h) fun w hw => K.arrive hw _ _ fun w hw => K.takeRelease rfl _ _ hw
  | statusFrame t n p =>
    unfold exec execStatusFrame at e
    exact State.event_kept (P := P) e h (ht t h) fun w hw => K.arrive hw _ _ fun w hw => hw
  | serviceReplyFrame t n k r d =>
    unfold exec execServiceReplyFrame at e
    exact State.event_kept (P := P) e h (ht t h) fun w hw => K.arrive hw _ _ fun w hw => hw
  | readRow t hd =>
    unfold exec execReadRow at e
    exact State.event_kept (P := P) e h (ht t h) fun w hw => K.service hw _ _ _ _ _ fun w hw _ => K.placeReply _ _ hw
  | writeRow t hd d =>
    unfold exec execWriteRow at e
    exact State.event_kept (P := P) e h (ht t h) fun w hw => K.service hw _ _ _ _ _ fun w hw hn =>
      K.beginOp _ _ _ _ (K.writeBytes rfl _ _ _ hw (Store.refusal_row hn rfl)) fun _ => Store.refusal_row hn rfl
  | eraseRow t hd =>
    unfold exec execEraseRow at e
    exact State.event_kept (P := P) e h (ht t h) fun w hw => K.service hw _ _ _ _ _ fun w hw hn =>
      K.beginOp _ _ _ _ hw fun _ => Store.refusal_row hn rfl
  | eraseAll t hd =>
    unfold exec execEraseAll at e
    exact State.event_kept (P := P) e h (ht t h) fun w hw => K.service hw _ _ _ _ _ fun w hw _ =>
      K.beginOp _ _ _ _ hw fun hk => absurd rfl hk
  | blankCheck t hd =>
    unfold exec execBlankCheck at e
    exact State.event_kept (P := P) e h (ht t h) fun w hw => K.service hw _ _ _ _ _ fun w hw hn =>
      K.beginOp _ _ _ _ hw fun _ => Store.refusal_row hn rfl
  | lock t hd =>
    unfold exec execLock at e
    exact State.event_kept (P := P) e h (ht t h) fun w hw => K.service hw _ _ _ _ _ fun w hw _ =>
      K.placeReply _ _ (K.lock rfl _ hw)
  | restart t hd x =>
    unfold exec execRestart at e
    exact State.event_kept (P := P) e h (ht t h) fun w hw => K.service hw _ _ _ _ _ fun w hw _ => K.start rfl _ _ hw
  | serviceBadCommand t hd k d =>
    unfold exec execServiceBadCommand at e
    refine State.event_kept (P := P) e h (ht t h) fun w hw => ?_
    split
    exacts [K.service hw _ _ _ _ _ fun w hw _ => K.placeReply _ _ hw, hw]
  | writeRowComplete t row =>
    unfold exec execWriteRowComplete at e
    refine State.event_kept (P := P) e h (ht t h) fun w hw => ?_
    split
    · rename_i op hop
      obtain ⟨hs, -⟩ := finishedOp_eq hop
      split
      · rename_i hk; exact K.placeReply _ _ (K.writeRow rfl w op row hw hs (by simp [hk]))
      · exact hw
    · exact hw
  | eraseRowComplete t =>
    unfold exec execEraseRowComplete at e
    refine State.event_kept (P := P) e h (ht t h) fun w hw => ?_
    split
    · rename_i op hop
      obtain ⟨hs, -⟩ := finishedOp_eq hop
      split
      · rename_i hk; exact K.placeReply _ _ (K.eraseRow rfl w op hw hs (by simp [hk]))
      · exact hw
    · exact hw
  | eraseAllComplete t =>
    unfold exec execEraseAllComplete at e
    refine State.event_kept (P := P) e h (ht t h) fun w hw => ?_
    (repeat' split) <;> first | with_reducible exact hw | exact K.placeReply _ _ (K.eraseAll rfl w hw)
  | blankCheckComplete t =>
    unfold exec execBlankCheckComplete at e
    refine State.event_kept (P := P) e h (ht t h) fun w hw => ?_
    split
    · split
      exacts [K.placeReply _ _ (K.blankCheck w hw), hw]
    · exact hw
  | freshToAged t k =>
    unfold exec execFreshToAged at e
    exact State.event_kept (P := P) e h (ht t h) fun w hw => K.age _ _ hw
  | agedToExpired t k =>
    unfold exec execAgedToExpired at e
    exact State.event_kept (P := P) e h (ht t h) fun w hw => K.expire _ _ hw
  | groupEvaluation t n =>
    unfold exec execGroupEvaluation at e
    refine State.event_kept (P := P) e h (ht t h) fun w hw => State.withSettings_kept hw fun st hst => ?_
    (repeat' split) <;> first | with_reducible exact hw | exact K.evaluate _ _ _ _ _ _ hw hst
  | scanStart t =>
    unfold exec execScanStart at e
    refine State.event_kept (P := P) e h (ht t h) fun w hw => State.withSettings_kept hw fun st hst => ?_
    split
    exacts [K.scanExpiry (K.converter _ _ hw), hw]
  | overrunClear t =>
    unfold exec execOverrunClear at e
    refine State.event_kept (P := P) e h (ht t h) fun w hw => ?_
    split
    exacts [K.removeOverrun _ (K.converter _ _ hw), hw]
  | conversionComplete t raw =>
    unfold exec execConversionComplete at e
    refine State.event_kept (P := P) e h (ht t h) fun w hw => State.withSettings_kept hw fun st hst => ?_
    (repeat' split) <;> first | with_reducible exact hw | skip
    apply K.nextConversion
    exact K.conversion _ _ _ _ (K.converter _ { w.converter with running := none } hw) hst
  | serialExchangeBegin t =>
    unfold exec execSerialExchangeBegin at e
    refine State.event_kept (P := P) e h (ht t h) fun w hw => State.withSettings_kept hw fun st hst => ?_
    split
    exacts [K.port _ _ hw, hw]
  | serialExchangeComplete t a b k d =>
    unfold exec execSerialExchangeComplete at e
    refine State.event_kept (P := P) e h (ht t h) fun w hw => ?_
    (repeat' split) <;> first | with_reducible exact hw | exact K.judgeReply _ _ (K.port _ _ hw)
  | serialTake t =>
    unfold exec execSerialTake at e
    refine State.event_kept (P := P) e h (ht t h) fun w hw => State.withSettings_kept hw fun st hst => ?_
    split
    · dsimp only
      split
      exacts [K.takeOutcome _ _ _ _ (K.port _ _ hw), K.port _ _ hw]
    · exact hw
  | pulseEdge t i =>
    unfold exec execPulseEdge at e
    refine State.event_kept (P := P) e h (ht t h) fun w hw => State.withSettings_kept hw fun st hst => ?_
    split
    exacts [K.setPulse _ _ _ hw, hw]
  | pulseStopped t i =>
    unfold exec execPulseStopped at e
    refine State.event_kept (P := P) e h (ht t h) fun w hw => ?_
    split
    exacts [K.setPulse _ _ _ hw, hw]
  | pulseUpdate t i =>
    unfold exec execPulseUpdate at e
    refine State.event_kept (P := P) e h (ht t h) fun w hw => State.withSettings_kept hw fun st hst => ?_
    split
    exacts [K.deliverRaw _ _ _ _ (K.setPulse _ _ _ hw), hw]
  | debounceExpiry t i =>
    unfold exec execDebounceExpiry at e
    refine State.event_kept (P := P) e h (ht t h) fun w hw => State.withSettings_kept hw fun st hst => ?_
    dsimp only
    split
    exacts [K.levelChange rfl _ _ _ _ (K.setInput _ _ _ hw) hst, hw]
  | panelRefresh t =>
    unfold exec execPanelRefresh at e
    refine State.event_kept (P := P) e h (ht t h) fun w hw => State.withSettings_kept hw fun st hst => ?_
    (repeat' split) <;> first | with_reducible exact hw | exact K.refresh _ _ hw
  | publicationEvent t q i =>
    unfold exec execPublicationEvent at e
    refine State.event_kept (P := P) e h (ht t h) fun w hw => State.withSettings_kept hw fun st hst => ?_
    split
    · rename_i d run hd hrun
      split
      · dsimp only
        split
        · obtain ⟨r, hr⟩ := findPublication_update (x := some _) hrun
          exact K.queueSample _ _ r (K.armPublication _ _ _ _ hw) hr
        · exact K.armPublication _ _ _ _ hw
      · exact hw
    · exact hw
  | channelUpdate t c =>
    unfold exec execChannelUpdate at e
    refine State.event_kept (P := P) e h (ht t h) fun w hw => State.withSettings_kept hw fun st hst => ?_
    split
    exacts [K.updateChannel _ _ _ _ hw hst, hw]
  | resumeWindowExpiry t c =>
    unfold exec execResumeWindowExpiry at e
    refine State.event_kept (P := P) e h (ht t h) fun w hw => ?_
    dsimp only
    split
    · rename_i hc
      split
      exacts [K.resumeExpired _ _ hw hc.1 hc.2, hw]
    · exact hw
  | conveyorHoldExpiry t =>
    unfold exec execConveyorHoldExpiry at e
    refine State.event_kept (P := P) e h (ht t h) fun w hw => ?_
    split
    · rename_i k hk
      split
      exacts [K.holdExpired _ _ hw hk, hw]
    · exact hw
  | beltHoldExpiry t =>
    unfold exec execBeltHoldExpiry at e
    refine State.event_kept (P := P) e h (ht t h) fun w hw => ?_
    split
    exacts [K.beltHold _ hw, hw]
  | statusTimer t =>
    unfold exec execStatusTimer at e
    refine State.event_kept (P := P) e h (ht t h) fun w hw => ?_
    split
    exacts [K.statusTimer _ _ hw, hw]
  | frameBegin t =>
    unfold exec execFrameBegin at e
    refine State.event_kept (P := P) e h (ht t h) fun w hw => ?_
    split
    · rename_i hm
      split
      · rename_i f k q hf; exact K.beginFrame _ _ _ _ _ hw (State.mayBegin_active hm) hf
      · exact hw
    · exact hw
  | frameComplete t =>
    unfold exec execFrameComplete at e
    refine State.event_kept (P := P) e h (ht t h) fun w hw => ?_
    split
    · rename_i f hf
      split
      exacts [K.endFrame _ _ hw hf, hw]
    · exact hw
  | contentionLoss t =>
    unfold exec execContentionLoss at e
    refine State.event_kept (P := P) e h (ht t h) fun w hw => ?_
    split
    · rename_i f hf
      split
      exacts [K.stopFrame _ _ hw hf, hw]
    · exact hw
  | echoFault t =>
    unfold exec execEchoFault at e
    refine State.event_kept (P := P) e h (ht t h) fun w hw => ?_
    split
    · rename_i f hf
      split
      exacts [K.echoFault _ _ hw hf, hw]
    · exact hw
  | muteExpiry t =>
    unfold exec execMuteExpiry at e
    refine State.event_kept (P := P) e h (ht t h) fun w hw => ?_
    split
    · rename_i hm
      split
      exacts [K.endMute _ hw hm, hw]
    · exact hw

/-- What every command keeps, whatever the queue holds, every step keeps. -/
theorem step_kept {P : State → Prop} (K : ∀ c, Kept c P) (hq : ∀ s q, P s → P { s with pending := q }) {s u : State}
    (h : P s) (e : step s = .next u) : P u := by
  unfold step at e
  split at e
  · exact exec_kept (K _) (hq _ _ h) e
  · injection e with e; subst e; exact h

end Sys2Proof.Machine
end

