-- ==== Sys2Proof/Laws/Memory.lean ====
section
/-! SUPPORT. The image store's bytes: reading after writing, and every memory operation keeps the canonical form. -/

namespace Sys2Proof.Machine

/-! ### Reading -/

@[simp] theorem Memory.read_nil (a : Nat) : Memory.read [] a = erasedByte := rfl

@[simp] theorem Memory.read_cons (k : Nat) (b : Byte) (m : Memory) (a : Nat) :
    Memory.read ((k, b) :: m) a = if k = a then b else Memory.read m a := rfl

/-- An address below every listed one reads erased. -/
theorem Memory.read_below (m : Memory) (a : Nat) (h : ∀ x ∈ m, a < x.1) : Memory.read m a = erasedByte := by
  induction m with
  | nil => rfl
  | cons x m ih =>
    obtain ⟨k, b⟩ := x
    have hk : a < k := h (k, b) (by simp)
    rw [Memory.read_cons, if_neg (by omega)]
    exact ih fun y hy => h y (by simp [hy])

/-! ### The canonical form -/

theorem Memory.wf_nil : Memory.wf [] := by simp [Memory.wf]

theorem Memory.wf_tail {x : Host.Cell} {m : Memory} (h : Memory.wf (x :: m)) : Memory.wf m :=
  ⟨(List.pairwise_cons.1 h.1).2, fun y hy => h.2 y (by simp [hy])⟩

/-- Every address a write leaves listed was listed before or is the written one. -/
theorem Memory.mem_write {m : Memory} {a : Nat} {b : Byte} {x : Host.Cell} (h : x ∈ Memory.write m a b) :
    x ∈ m ∨ x = (a, b) := by
  induction m with
  | nil => unfold Memory.write at h; split at h <;> simp_all
  | cons y m ih =>
    obtain ⟨k, c⟩ := y
    unfold Memory.write at h
    split at h
    · split at h <;> simp_all
      rcases h with h | h | h <;> simp [h]
    · split at h
      · split at h <;> simp_all
        rcases h with h | h <;> simp [h]
      · rcases List.mem_cons.1 h with h | h
        · simp [h]
        · rcases ih h with h | h <;> simp [h]

/-- A write keeps the canonical form. -/
theorem Memory.write_wf {m : Memory} (h : Memory.wf m) (a : Nat) (b : Byte) : Memory.wf (Memory.write m a b) := by
  induction m with
  | nil => unfold Memory.write; split <;> simp_all [Memory.wf]
  | cons y m ih =>
    obtain ⟨k, c⟩ := y
    have hr := (List.pairwise_cons.1 h.1).1
    have ht := Memory.wf_tail h
    have hc : c ≠ erasedByte := h.2 (k, c) (by simp)
    unfold Memory.write
    split
    · split
      · exact h
      · next hlt hb =>
        refine ⟨List.pairwise_cons.2 ⟨?_, h.1⟩, ?_⟩
        · intro z hz
          rcases List.mem_cons.1 hz with hz | hz
          · simp only [hz]; exact hlt
          · exact lt_trans hlt (hr z hz)
        · intro z hz
          rcases List.mem_cons.1 hz with hz | hz
          · simp only [hz]; exact hb
          · exact h.2 z hz
    · split
      · split
        · exact ht
        · next hlt he hb =>
          refine ⟨List.pairwise_cons.2 ⟨?_, ht.1⟩, ?_⟩
          · intro z hz
            simp only [he]; exact hr z hz
          · intro z hz
            rcases List.mem_cons.1 hz with hz | hz
            · simp only [hz]; exact hb
            · exact ht.2 z hz
      · next hlt he =>
        refine ⟨List.pairwise_cons.2 ⟨?_, (ih ht).1⟩, ?_⟩
        · intro z hz
          rcases Memory.mem_write hz with hz | hz
          · exact hr z hz
          · simp only [hz]; omega
        · intro z hz
          rcases List.mem_cons.1 hz with hz | hz
          · simp only [hz]; exact hc
          · exact (ih ht).2 z hz

/-- Reading after a write. -/
theorem Memory.read_write {m : Memory} (h : Memory.wf m) (a x : Nat) (b : Byte) :
    Memory.read (Memory.write m a b) x = if x = a then b else Memory.read m x := by
  induction m with
  | nil =>
    unfold Memory.write
    split <;> by_cases hx : x = a <;> simp_all
    intro hax; exact absurd hax.symm hx
  | cons y m ih =>
    obtain ⟨k, c⟩ := y
    have hr := (List.pairwise_cons.1 h.1).1
    have ht := Memory.wf_tail h
    unfold Memory.write
    split
    · next hlt =>
      split
      · next hb =>
        split
        · next hx =>
          rw [hx, hb]
          refine Memory.read_below _ _ fun z hz => ?_
          rcases List.mem_cons.1 hz with hz | hz
          · simp only [hz]; exact hlt
          · exact lt_trans hlt (hr z hz)
        · rfl
      · rw [Memory.read_cons]
        by_cases hx : x = a
        · simp [hx]
        · simp [hx, Ne.symm hx]
    · split
      · next he =>
        split
        · next hb =>
          by_cases hx : x = a
          · rw [if_pos hx, hx, hb]
            exact Memory.read_below _ _ fun z hz => by simpa only [he] using hr z hz
          · rw [if_neg hx, Memory.read_cons, if_neg (by omega)]
        · rw [Memory.read_cons]
          by_cases hx : x = a
          · simp [hx]
          · simp [hx, Ne.symm hx, show ¬ k = x by omega]
      · next hlt he =>
        rw [Memory.read_cons, Memory.read_cons, ih ht]
        by_cases hx : x = a
        · have : ¬ k = x := by omega
          simp [hx, show ¬ k = a by omega]
        · simp [hx]

/-! ### Several bytes, rows -/

theorem Memory.writeAll_wf {bytes : List Byte} : ∀ {m : Memory}, Memory.wf m → ∀ a, Memory.wf (Memory.writeAll m a bytes) := by
  induction bytes with
  | nil => intro m h a; exact h
  | cons b bs ih => intro m h a; exact ih (Memory.write_wf h a b) (a + 1)

/-- Reading after several bytes were put at consecutive addresses. -/
theorem Memory.read_writeAll {bytes : List Byte} : ∀ {m : Memory}, Memory.wf m → ∀ a x,
    Memory.read (Memory.writeAll m a bytes) x =
      if a ≤ x ∧ x < a + bytes.length then bytes[x - a]?.getD erasedByte else Memory.read m x := by
  induction bytes with
  | nil => intro m h a x; simp [Memory.writeAll]
  | cons b bs ih =>
    intro m h a x
    simp only [Memory.writeAll, ih (Memory.write_wf h a b), Memory.read_write h, List.length_cons]
    by_cases hx : x = a
    · simp [hx]
    · by_cases hin : a + 1 ≤ x ∧ x < a + 1 + bs.length
      · rw [if_pos hin, if_pos (by omega), show x - a = (x - (a + 1)) + 1 by omega, List.getElem?_cons_succ]
      · rw [if_neg hin, if_neg hx, if_neg (by omega)]

theorem Memory.mem_writeAll {bytes : List Byte} : ∀ {m : Memory} {a : Nat} {x : Host.Cell},
    x ∈ Memory.writeAll m a bytes → x ∈ m ∨ (a ≤ x.1 ∧ x.1 < a + bytes.length) := by
  induction bytes with
  | nil => intro m a x h; exact Or.inl h
  | cons b bs ih =>
    intro m a x h
    rcases ih h with h | h
    · rcases Memory.mem_write h with h | h
      · exact Or.inl h
      · exact Or.inr (by simp [h])
    · exact Or.inr (by simp only [List.length_cons]; omega)

theorem Memory.setRow_wf {m : Memory} (h : Memory.wf m) (row : Nat) (bytes : List Byte) :
    Memory.wf (Memory.setRow m row bytes) := Memory.writeAll_wf h _

theorem Memory.eraseRow_wf {m : Memory} (h : Memory.wf m) (row : Nat) : Memory.wf (Memory.eraseRow m row) :=
  Memory.setRow_wf h row _

/-- Reading after a row was set. -/
theorem Memory.read_setRow {m : Memory} (h : Memory.wf m) (row : Nat) (bytes : List Byte) (x : Nat) :
    Memory.read (Memory.setRow m row bytes) x =
      if 16 * row ≤ x ∧ x < 16 * row + bytes.length then bytes[x - 16 * row]?.getD erasedByte else Memory.read m x :=
  Memory.read_writeAll h _ _

/-- Reading after a row was erased. -/
theorem Memory.read_eraseRow {m : Memory} (h : Memory.wf m) (row x : Nat) :
    Memory.read (Memory.eraseRow m row) x =
      if 16 * row ≤ x ∧ x < 16 * row + 16 then erasedByte else Memory.read m x := by
  rw [Memory.eraseRow, Memory.read_setRow h]
  simp only [List.length_replicate]
  split
  · next hx =>
    rw [List.getElem?_replicate, if_pos (by omega)]; rfl
  · rfl

theorem Memory.mem_setRow {m : Memory} {row : Nat} {bytes : List Byte} {x : Host.Cell}
    (h : x ∈ Memory.setRow m row bytes) : x ∈ m ∨ (16 * row ≤ x.1 ∧ x.1 < 16 * row + bytes.length) :=
  Memory.mem_writeAll h

end Sys2Proof.Machine
end

