-- ==== Sys2Proof/Laws/Queue.lean ====
section
/-! SUPPORT. The keys in the queue and in flight: what enqueueing, sending and stopping do to them. -/

namespace Sys2Proof.Machine

/-- The keys of the published samples. -/
def publishedKeys (l : List PublicationRun) : List (BitVec 6 × BitVec 2) := l.map fun p => (p.code, p.inst)

theorem flightKeys_eq {f g : Option Flight} (h : f.map Flight.frame = g.map Flight.frame) : flightKeys f = flightKeys
    g := by
  cases f with
  | none => cases g with
    | none => rfl
    | some y => cases h
  | some x => cases g with
    | none => cases h
    | some y =>
      obtain ⟨a, b, c⟩ := x
      obtain ⟨a', b', c'⟩ := y
      simp only [Option.map_some, Option.some.injEq] at h
      subst h
      cases a <;> rfl

theorem State.LineWf.of_core {s u : State} (h : s.LineWf) (hl : u.line.core = s.line.core)
    (hp : u.publications = s.publications) (hs : u.station = s.station) : u.LineWf := by
  obtain ⟨-, -, -, e4, -, -, e7, e8, e9, e10, -⟩ := Line.core_fields hl
  unfold State.LineWf at *
  rw [e4, e7, e8, e9, flightKeys_eq e10, hp, hs]; exact h

theorem publishedKeys_update (l : List PublicationRun) (q : BitVec 6) (i : BitVec 2) (f : PublicationRun →
    PublicationRun)
    (hf : ∀ p, (f p).code = p.code ∧ (f p).inst = p.inst) : publishedKeys (updatePublication l q i f) = publishedKeys l := by
  unfold publishedKeys updatePublication
  rw [List.map_map]
  refine List.map_congr_left fun p _ => ?_
  simp only [Function.comp]
  split
  · rw [(hf p).1, (hf p).2]
  · rfl

theorem publishedKeys_step (l : List PublicationRun) (f : OwnFrame) : publishedKeys (stepCounters l f) =
    publishedKeys l := by
  unfold stepCounters
  split
  · rename_i xs
    induction xs generalizing l with
    | nil => rfl
    | cons x xs ih => rw [List.foldl_cons, ih, publishedKeys_update]; intro p; exact ⟨rfl, rfl⟩
  · rfl

theorem publishedKeys_length (l : List PublicationRun) : (publishedKeys l).length = l.length := by simp
    [publishedKeys]

theorem State.LineWf.of_pubs {s u : State} (h : s.LineWf) (hl : u.line.core = s.line.core)
    (hp : publishedKeys u.publications = publishedKeys s.publications) (hs : u.station = s.station) : u.LineWf := by
  obtain ⟨-, -, -, e4, -, -, e7, e8, e9, e10, -⟩ := Line.core_fields hl
  obtain ⟨h1, h2, h3, h4, h5, h6, h7, h8⟩ := h
  have hn : u.publications.length = s.publications.length := by rw [← publishedKeys_length, hp, publishedKeys_length]
  refine ⟨by rw [hn]; exact h1, by rw [e8]; exact h2, by rw [flightKeys_eq e10]; exact h3, ?_, ?_, ?_, by rw [e4]; exact h7, by rw [e7]; exact h8⟩
  · rw [e8]; intro k hk; show k ∈ publishedKeys _; rw [hp]; exact h4 k hk
  · rw [flightKeys_eq e10]; intro k hk; show k ∈ publishedKeys _; rw [hp]; exact h5 k hk
  · intro hu
    obtain ⟨a, b, c⟩ := h6 (hs ▸ hu)
    refine ⟨List.length_eq_zero_iff.1 (by rw [hn, a]; rfl), by rw [e8]; exact b, e9.2 c⟩

theorem enqueue_keys {q : List QueuedSample} (h : (queueKeys q).Nodup) (x : QueuedSample) :
    (queueKeys (enqueue q x)).Nodup ∧ ∀ k ∈ queueKeys (enqueue q x), k ∈ queueKeys q ∨ k = (x.code, x.inst) := by
  unfold enqueue
  split
  · have : queueKeys (q.map fun y => if y.sameKey x then x else y) = queueKeys q := by
      unfold queueKeys
      rw [List.map_map]
      refine List.map_congr_left fun y _ => ?_
      simp only [Function.comp]
      split
      · rename_i hk; simp [QueuedSample.sameKey] at hk; rw [hk.1, hk.2]
      · rfl
    rw [this]; exact ⟨h, fun k hk => Or.inl hk⟩
  · rename_i hn
    unfold queueKeys at *
    rw [List.map_append]
    refine ⟨List.nodup_append.2 ⟨h, by simp, ?_⟩, by simp⟩
    intro a ha b hb
    simp only [List.map_cons, List.map_nil, List.mem_singleton] at hb
    rintro rfl
    obtain ⟨y, hy, e⟩ := List.mem_map.1 ha
    apply hn
    rw [List.any_eq_true]
    refine ⟨y, hy, ?_⟩
    rw [hb] at e
    simp only [Prod.mk.injEq] at e
    simp [QueuedSample.sameKey, e.1, e.2]

theorem renewed_key (q : List QueuedSample) (x : QueuedSample) : ((renewed q x).code, (renewed q x).inst) = (x.code,
    x.inst) := by
  unfold renewed
  split
  · rename_i y hy
    have := List.find?_some hy
    simp [QueuedSample.sameKey] at this
    rw [this.1, this.2]
  · rfl

theorem returnSamples_keys {xs : List StampedSample} {q : List QueuedSample} (h : (queueKeys q).Nodup)
    (hx : (xs.map fun x => (x.sample.code, x.sample.inst)).Nodup) :
    (queueKeys (returnSamples xs q)).Nodup ∧
    ∀ k ∈ queueKeys (returnSamples xs q), k ∈ queueKeys q ∨ k ∈ xs.map fun x => (x.sample.code, x.sample.inst) := by
  have e : queueKeys (returnSamples xs q) = (xs.map fun x => (x.sample.code, x.sample.inst)) ++
      queueKeys (q.filter fun y => !xs.any fun x => y.sameKey x.sample) := by
    unfold queueKeys returnSamples
    rw [List.map_append, List.map_map]
    congr 1
    exact List.map_congr_left fun x _ => renewed_key q x.sample
  have hs : ∀ k ∈ queueKeys (q.filter fun y => !xs.any fun x => y.sameKey x.sample), k ∈ queueKeys q := by
    intro k hk
    obtain ⟨y, hy, rfl⟩ := List.mem_map.1 hk
    exact List.mem_map.2 ⟨y, (List.mem_filter.1 hy).1, rfl⟩
  rw [e]
  refine ⟨List.nodup_append.2 ⟨hx, ?_, ?_⟩, ?_⟩
  · unfold queueKeys at *
    exact h.sublist (List.Sublist.map _ List.filter_sublist)
  · intro a ha b hb
    rintro rfl
    obtain ⟨x, hx, rfl⟩ := List.mem_map.1 ha
    obtain ⟨y, hy, e⟩ := List.mem_map.1 hb
    have := (List.mem_filter.1 hy).2
    simp only [Prod.mk.injEq] at e
    simp [QueuedSample.sameKey] at this
    exact this x hx e.1 e.2
  · intro k hk
    rcases List.mem_append.1 hk with hk | hk
    · exact Or.inr hk
    · exact Or.inl (hs k hk)

theorem State.LineWf.stopFrame {s : State} {f : Flight} (h : s.LineWf) (hf : s.line.flight = some f) :
    State.LineWf { s with line := s.line.stopFrame f } := by
  obtain ⟨h1, h2, h3, h4, h5, h6, h7, h8⟩ := h
  rw [hf] at h3 h5
  have hn : s.station ≠ .loading := fun hs => by rw [(h6 hs).2.2] at hf; cases hf
  refine ⟨h1, ?_, List.nodup_nil, ?_, fun k hk => absurd hk List.not_mem_nil, fun h => absurd h hn, h7, h8⟩
  · obtain ⟨f, b, d⟩ := f
    cases f with
    | publish xs => exact (returnSamples_keys h2 h3).1
    | _ => exact h2
  · obtain ⟨f, b, d⟩ := f
    cases f with
    | publish xs =>
      intro k hk
      rcases (returnSamples_keys h2 h3).2 k hk with hk | hk
      · exact h4 k hk
      · exact h5 k hk
    | _ => exact h4

/-- What a beginning takes from the queue. -/
theorem chooseFrame_keys {s : State} {f : OwnFrame} {k : ControlSet} {q : List QueuedSample} {t : Nat} {b : Bool}
    (h : s.chooseFrame = some (f, k, q)) :
    s.station ≠ .loading ∧
    ((flightKeys (some ⟨f, t, b⟩) = [] ∧ q = s.line.queue) ∨
     (flightKeys (some ⟨f, t, b⟩) = queueKeys (s.line.queue.take 4) ∧ q = s.line.queue.drop 4)) := by
  unfold State.chooseFrame at h
  dsimp only at h
  refine ⟨?_, ?_⟩
  · intro hs
    rw [hs] at h
    simp only [Station.sendsAll, Station.sendsReply, Station.sendsStatus, show (Station.loading == Station.running) = false from rfl,
      show (Station.loading == Station.safe) = false from rfl, show (Station.loading == Station.commissioning) = false from rfl] at h
    simp at h
  · (repeat' split at h) <;>
      first | cases h <;> (left; exact ⟨rfl, rfl⟩) | skip
    · cases h
      right
      refine ⟨?_, rfl⟩
      simp only [flightKeys, queueKeys, List.map_map]
      refine List.map_congr_left fun x _ => ?_
      simp only [Function.comp, State.stamp]
      split <;> rfl

end Sys2Proof.Machine
end

