-- ==== Sys2Proof/Laws/Signals.lean ====
section
/-! SUPPORT. The levels on the line and on SDO: how long a byte cell, a frame and a request are, what a difference at a
moment is, and what a passing byte cell leaves of the line. -/

namespace Sys2Proof.Machine

@[simp] theorem cellLevels_length (b : Byte) : (cellLevels b).length = 10 := rfl

@[simp] theorem Level.other_ne (x : Level) : x.other ≠ x := by cases x <;> decide

@[simp] theorem lineLevel_self (x : Level) : lineLevel x x = x := by cases x <;> rfl

/-- The line reads other than driven only where a recessive bit meets another sender's dominant one. -/
theorem lineLevel_ne {x y : Level} : lineLevel x y ≠ x ↔ x = .recessive ∧ y = .dominant := by
  cases x <;> cases y <;> decide

theorem WireFrame.bytes_length (f : WireFrame) : f.bytes.length = 6 + f.payload.length := by
  simp [WireFrame.bytes, WireFrame.covered]
  omega

/-- A frame has ten bits for each of its byte cells. -/
theorem WireFrame.levels_length (f : WireFrame) : f.levels.length = 10 * (6 + f.payload.length) := by
  have h : ∀ l : List Byte, (l.flatMap cellLevels).length = 10 * l.length := by
    intro l
    induction l with
    | nil => rfl
    | cons b l ih => rw [List.flatMap_cons, List.length_append, ih, cellLevels_length, List.length_cons]; omega
  rw [WireFrame.levels, h, WireFrame.bytes_length]

/-- Its bits take its duration. -/
theorem WireFrame.duration_levels (f : WireFrame) : f.duration = Config.bitTime * f.levels.length := by
  rw [WireFrame.levels_length]
  show 10 * 4 * (6 + f.payload.length) = 4 * (10 * (6 + f.payload.length))
  omega

/-- What a difference read at a recessive or dominant bit is (R161, R162). -/
theorem judgeBit_other (i : Nat) (driven : Level) :
    judgeBit i driven driven.other = if i < 30 ∧ driven = .recessive then .contentionLoss else .echoFault := by
  unfold judgeBit
  rw [if_neg (fun h => Level.other_ne driven h.symm)]
  rfl

/-- A difference within the four µs of bit i of the frame in flight (assumption 24). -/
theorem Flight.differs_within {f : Flight} {number : BitVec 4} {now i : Nat} {driven : Level}
    (hl : (f.frame.wire number).levels[i]? = some driven) (h1 : f.began + 4 * i ≤ now) (h2 : now < f.began + 4 * (i + 1)) :
    f.differs number now = if i < 30 ∧ driven = .recessive then .contentionLoss else .echoFault := by
  have hi : (now - f.began) / Config.bitTime = i := by
    show (now - f.began) / 4 = i
    omega
  unfold Flight.differs
  rw [hi]
  simp only [hl]
  exact judgeBit_other i driven

@[simp] theorem Line.passCell_fields (l : Line) (now : Nat) :
    (l.passCell now).bus = l.bus ∧ (l.passCell now).receiver = l.receiver ∧ (l.passCell now).errors = l.errors ∧
    (l.passCell now).muteTimer = l.muteTimer ∧ (l.passCell now).echoRun = l.echoRun ∧
    (l.passCell now).control = l.control ∧ (l.passCell now).queue = l.queue ∧ (l.passCell now).flight = l.flight := by
  unfold Line.passCell
  (repeat' split) <;> exact ⟨rfl, rfl, rfl, rfl, rfl, rfl, rfl, rfl⟩

/-- A request of n bytes has eight bits for each. -/
theorem SerialExchange.bits_length (x : SerialExchange) : x.bits.length = 8 * x.sent.length := by
  unfold SerialExchange.bits
  induction x.sent with
  | nil => rfl
  | cons b l ih => rw [List.flatMap_cons, List.length_append, ih, List.length_map, List.length_cons, List.length_cons]; simp; omega

end Sys2Proof.Machine
end

