-- ==== Sys2Proof/Laws/Store.lean ====
section
/-! SUPPORT. What an abandoned store operation keeps of the store's form. -/

namespace Sys2Proof.Machine

theorem Store.Wf.idle {m : Memory} (l : Bool) (h1 : Memory.wf m) (h2 : ∀ x ∈ m, x.1 < 1024) : Store.Wf ⟨m, l, none⟩ :=
  ⟨h1, h2, trivial⟩

theorem eraseRow_addresses {m : Memory} (h : ∀ x ∈ m, x.1 < 1024) {row : Nat} (hr : row < 64) :
    ∀ x ∈ Memory.eraseRow m row, x.1 < 1024 := fun x hx => by
  rcases Memory.mem_setRow hx with hx | hx
  · exact h x hx
  · rw [List.length_replicate] at hx; omega

theorem Store.Wf.abandon {s : Store} (h : s.Wf) : s.abandon.Wf := by
  obtain ⟨m, l, o⟩ := s
  obtain ⟨h1, h2, h3⟩ := h
  cases o with
  | none => exact ⟨h1, h2, h3⟩
  | some op =>
    obtain ⟨k, row, d⟩ := op
    cases k with
    | writeRow data => exact Store.Wf.idle l (Memory.eraseRow_wf h1 _) (eraseRow_addresses h2 (h3 (by simp)))
    | eraseRow => exact Store.Wf.idle l (Memory.eraseRow_wf h1 _) (eraseRow_addresses h2 (h3 (by simp)))
    | eraseAll => exact Store.Wf.idle false Memory.wf_nil (by simp)
    | blankCheck => exact Store.Wf.idle l h1 h2

end Sys2Proof.Machine
end

