-- ==== Sys2Proof/Laws/Table.lean ====
section
/-! SUPPORT. The peer table: looking a key up after each change of the table, and what keeps it in key order, within its
places and its totals in range (R1, R22). -/

namespace Sys2Proof.Machine

/-! ### Keys -/

/-- The rank tells keys apart. -/
theorem keyRank_inj {j k : Key} (h : keyRank j = keyRank k) : j = k := by
  obtain ⟨a, b, c⟩ := j
  obtain ⟨x, y, z⟩ := k
  simp only [keyRank] at h
  have := a.isLt; have := b.isLt; have := c.isLt; have := x.isLt; have := y.isLt; have := z.isLt
  have h1 : a.toNat = x.toNat := by omega
  have h2 : b.toNat = y.toNat := by omega
  have h3 : c.toNat = z.toNat := by omega
  rw [BitVec.eq_of_toNat_eq h1, BitVec.eq_of_toNat_eq h2, BitVec.eq_of_toNat_eq h3]

/-! ### Finding -/

/-- The entry found under a key bears it. -/
theorem PeerTable.find_key {p : PeerTable} {k : Key} {e : Entry} (h : p.find k = some e) : e.key = k := by
  have := List.find?_some h
  simpa using this

theorem PeerTable.find_mem {p : PeerTable} {k : Key} {e : Entry} (h : p.find k = some e) : e ∈ p.entries :=
  List.mem_of_find?_eq_some h

theorem PeerTable.find_none {p : PeerTable} {k : Key} (h : p.find k = none) : ∀ e ∈ p.entries, e.key ≠ k := by
  have := List.find?_eq_none.1 h
  intro e he hk
  exact this e he (by simpa using hk)

/-- In a table in key order the entry of a key is the one found. -/
theorem PeerTable.find_of_mem {p : PeerTable} (h : p.Wf) {e : Entry} (he : e ∈ p.entries) : p.find e.key = some e := by
  obtain ⟨l, r, g⟩ := p
  have hs : l.Pairwise fun x y => keyRank x.key < keyRank y.key := h.1
  have he : e ∈ l := he
  clear h
  show l.find? _ = some e
  induction l with
  | nil => simp at he
  | cons x l ih =>
    rw [List.find?_cons]
    split
    · rename_i hk
      have hk : x.key = e.key := by simpa using hk
      rcases List.mem_cons.1 he with he | he
      · rw [he]
      · have := (List.pairwise_cons.1 hs).1 e he
        rw [hk] at this; omega
    · rename_i hk
      rcases List.mem_cons.1 he with he | he
      · simp [he] at hk
      · exact ih he (List.pairwise_cons.1 hs).2 he

/-! ### Changing an entry -/

/-- Changing the entry of a key by a change that keeps keys. -/
theorem PeerTable.find_update (p : PeerTable) (k j : Key) {f : Entry → Entry} (hf : ∀ e, e.key = k → (f e).key = k) :
    (p.update k f).find j = if j = k then (p.find k).map f else p.find j := by
  obtain ⟨l, r, g⟩ := p
  simp only [PeerTable.update, PeerTable.find]
  induction l with
  | nil => simp
  | cons x l ih =>
    rw [List.map_cons]
    by_cases hj : j = k
    · subst hj
      by_cases hx : x.key = j
      · rw [if_pos hx, List.find?_cons_of_pos (by simpa using hf x hx), List.find?_cons_of_pos (by simpa using hx)]
        simp
      · rw [if_neg hx, List.find?_cons_of_neg (by simpa using hx), List.find?_cons_of_neg (by simpa using hx), ih]
    · rw [if_neg hj] at ih
      rw [if_neg hj]
      by_cases hx : x.key = k
      · have h1 : ¬ (f x).key = j := by rw [hf x hx]; exact fun h => hj h.symm
        have h2 : ¬ x.key = j := by rw [hx]; exact fun h => hj h.symm
        rw [if_pos hx, List.find?_cons_of_neg (by simpa using h1), List.find?_cons_of_neg (by simpa using h2), ih]
      · rw [if_neg hx]
        by_cases h2 : x.key = j
        · rw [List.find?_cons_of_pos (by simpa using h2), List.find?_cons_of_pos (by simpa using h2)]
        · rw [List.find?_cons_of_neg (by simpa using h2), List.find?_cons_of_neg (by simpa using h2), ih]

theorem PeerTable.update_wf {p : PeerTable} (h : p.Wf) {k : Key} {f : Entry → Entry}
    (hf : ∀ e, e.key = k → (f e).key = k) : (p.update k f).Wf := by
  refine ⟨?_, by simpa [PeerTable.update] using h.2.1, h.2.2.1, h.2.2.2⟩
  simp only [PeerTable.update, List.pairwise_map]
  refine h.1.imp ?_
  intro x y hxy
  have key (e : Entry) : (if e.key = k then f e else e).key = e.key := by
    split
    · rename_i he; rw [hf e he, he]
    · rfl
  rw [key, key]; exact hxy

/-- Taking a sample keeps the key. -/
@[simp] theorem Entry.take_key (e : Entry) (d : QuantityDef) (q : Quality) (v : Option Int) (t : Clock) :
    (e.take d q v t).key = e.key := rfl

@[simp] theorem Entry.takeRemote_key (e : Entry) (d : QuantityDef) (r : RawSample) (t : Clock) :
    (e.takeRemote d r t).key = e.key := rfl

@[simp] theorem Entry.toAged_key (e : Entry) (d : QuantityDef) (t : Clock) : (e.toAged d t).key = e.key := by
  unfold Entry.toAged; split <;> rfl

@[simp] theorem Entry.toExpired_key (e : Entry) (d : QuantityDef) (t : Clock) : (e.toExpired d t).key = e.key := by
  unfold Entry.toExpired; split <;> rfl

/-! ### A new entry -/

theorem mem_insertEntry {e x : Entry} {l : List Entry} (h : x ∈ insertEntry e l) : x = e ∨ x ∈ l := by
  induction l with
  | nil => simpa [insertEntry] using h
  | cons y l ih =>
    unfold insertEntry at h
    split at h
    · simpa using h
    · split at h
      · exact Or.inr h
      · rcases List.mem_cons.1 h with h | h
        · simp [h]
        · rcases ih h with h | h <;> simp [h]

theorem insertEntry_pairwise {e : Entry} {l : List Entry} (h : l.Pairwise fun x y => keyRank x.key < keyRank y.key) :
    (insertEntry e l).Pairwise fun x y => keyRank x.key < keyRank y.key := by
  induction l with
  | nil => simp [insertEntry]
  | cons y l ih =>
    have hy := (List.pairwise_cons.1 h).1
    unfold insertEntry
    split
    · rename_i hlt
      refine List.pairwise_cons.2 ⟨fun z hz => ?_, h⟩
      rcases List.mem_cons.1 hz with hz | hz
      · rw [hz]; exact hlt
      · exact lt_trans hlt (hy z hz)
    · split
      · exact h
      · rename_i hlt hne
        refine List.pairwise_cons.2 ⟨fun z hz => ?_, ih (List.pairwise_cons.1 h).2⟩
        rcases mem_insertEntry hz with hz | hz
        · rw [hz]
          have : keyRank e.key ≠ keyRank y.key := fun h => hne (keyRank_inj h)
          omega
        · exact hy z hz

theorem insertEntry_length {e : Entry} {l : List Entry} : (insertEntry e l).length ≤ l.length + 1 := by
  induction l with
  | nil => simp [insertEntry]
  | cons y l ih =>
    unfold insertEntry
    (repeat' split) <;> (simp; try omega)

/-- A key that is not there yet gets exactly one new entry. -/
theorem insertEntry_length_new {e : Entry} {l : List Entry} (h : ∀ x ∈ l, x.key ≠ e.key) :
    (insertEntry e l).length = l.length + 1 := by
  induction l with
  | nil => simp [insertEntry]
  | cons y l ih =>
    unfold insertEntry
    split
    · simp
    · rw [if_neg (fun he => h y (by simp) he.symm)]
      simp [ih fun x hx => h x (by simp [hx])]

/-- Looking up after a new entry. -/
theorem find_insertEntry {e : Entry} {l : List Entry} (h : ∀ x ∈ l, x.key ≠ e.key) (j : Key) :
    (insertEntry e l).find? (·.key == j) = if j = e.key then some e else l.find? (·.key == j) := by
  induction l with
  | nil =>
    by_cases hj : j = e.key
    · simp [insertEntry, hj]
    · have : ¬ e.key = j := fun h => hj h.symm
      simp [insertEntry, hj, this]
  | cons y l ih =>
    have hy : ¬ e.key = y.key := fun he => h y (by simp) he.symm
    have ih := ih fun x hx => h x (by simp [hx])
    rw [insertEntry, if_neg hy]
    by_cases hj : j = e.key
    · have hyj : ¬ y.key = j := fun h => hy (hj ▸ h).symm
      rw [if_pos hj] at ih ⊢
      split
      · exact List.find?_cons_of_pos (by simpa using hj.symm)
      · rw [List.find?_cons_of_neg (by simpa using hyj), ih]
    · have hej : ¬ e.key = j := fun h => hj h.symm
      rw [if_neg hj] at ih ⊢
      split
      · exact List.find?_cons_of_neg (by simpa using hej)
      · rw [List.find?_cons, List.find?_cons, ih]

/-! ### The operations keep the table -/

theorem PeerTable.victim_mem {p : PeerTable} {clock : Clock} {v : Entry} (h : p.victim clock = some v) :
    v ∈ p.entries ∧ v.pinned = false ∧ v.state = .expired := by
  have key : ∀ (l : List Entry) (b : Option Entry), (∀ x, b = some x → x ∈ p.entries ∧ x.pinned = false ∧ x.state = .expired) →
      (∀ x ∈ l, x ∈ p.entries) → ∀ v, l.foldl (longerExpired clock) b = some v →
      v ∈ p.entries ∧ v.pinned = false ∧ v.state = .expired := by
    intro l
    induction l with
    | nil => intro b hb _ v hv; exact hb v hv
    | cons x l ih =>
      intro b hb hl v hv
      refine ih (longerExpired clock b x) ?_ (fun y hy => hl y (by simp [hy])) v hv
      intro y hy
      unfold longerExpired at hy
      split at hy
      · rename_i hx
        split at hy
        · split at hy
          · cases hy; exact ⟨hl _ (by simp), hx⟩
          · exact hb _ hy
        · cases hy; exact ⟨hl _ (by simp), hx⟩
      · exact hb _ hy
  exact key p.entries none (by simp) (fun _ h => h) v h

theorem PeerTable.makeRoom_wf {p q : PeerTable} {clock : Clock} (h : p.Wf) (e : p.makeRoom clock = some q) :
    q.Wf ∧ q.entries.length < Config.tableSize := by
  unfold PeerTable.makeRoom at e
  split at e
  · cases e; rename_i hl; exact ⟨h, hl⟩
  · split at e
    · rename_i v hv
      cases e
      have hm := (PeerTable.victim_mem hv).1
      have hlt : (p.entries.filter (·.key != v.key)).length < p.entries.length := by
        refine List.length_filter_lt_length_iff_exists.2 ⟨v, hm, by simp⟩
      have := h.2.1
      exact ⟨⟨h.1.filter _, by simp only; omega, h.2.2.1, h.2.2.2⟩, by simp only; omega⟩
    · cases e

/-- A key with a place finds room, and making it adds no entry (R9, R10). -/
theorem PeerTable.makeRoom_of_place {s : State} (h : s.hasPlace) (clock : Clock) :
    ∃ p, s.table.makeRoom clock = some p ∧ ∀ e ∈ p.entries, e ∈ s.table.entries := by
  have hb (b : Option Entry) (e : Entry) : b ≠ none → longerExpired clock b e ≠ none := by
    intro hb
    unfold longerExpired
    split
    · split
      · split <;> simp
      · simp
    · exact hb
  have key (l : List Entry) : ∀ b : Option Entry, b ≠ none ∨ (∃ e ∈ l, e.pinned = false ∧ e.state = .expired) →
      l.foldl (longerExpired clock) b ≠ none := by
    induction l with
    | nil =>
      rintro b (h | ⟨e, he, -⟩)
      · exact h
      · cases he
    | cons x l ih =>
      rintro b (h | ⟨e, he, hx⟩)
      · exact ih _ (Or.inl (hb b x h))
      · rcases List.mem_cons.1 he with rfl | he
        · refine ih _ (Or.inl ?_)
          unfold longerExpired
          rw [if_pos hx]
          split
          · split <;> simp
          · simp
        · exact ih _ (Or.inr ⟨e, he, hx⟩)
  unfold PeerTable.makeRoom
  split
  · exact ⟨_, rfl, fun e he => he⟩
  · rename_i hl
    have hv : s.table.victim clock ≠ none := key _ _ (Or.inr (h.resolve_left hl))
    split
    · exact ⟨_, rfl, fun e he => List.mem_of_mem_filter he⟩
    · rename_i h0
      exact absurd h0 hv

theorem saturate_le (n m : Nat) : saturate n m ≤ Config.totalLimit := Nat.min_le_right _ _

/-- Only the table itself matters. -/
theorem PeerTable.Wf.of_eq {s u : State} (h : s.table.Wf) (e : u.table = s.table) : u.table.Wf := e ▸ h

theorem PeerTable.Wf.updateEntry {s : State} (h : s.table.Wf) {k : Key} {f : Entry → Entry}
    (hf : ∀ e, e.key = k → (f e).key = k) : (s.updateEntry k f).table.Wf := PeerTable.update_wf h hf

theorem PeerTable.Wf.deliver {s : State} (h : s.table.Wf) (k : Key) (q : Quality) (v : Option Int) :
    (s.deliver k q v).table.Wf := by
  unfold State.deliver State.withSettings
  dsimp only
  (repeat' split) <;> first | exact h | exact h.updateEntry fun e he => he

theorem PeerTable.Wf.age {s : State} (h : s.table.Wf) (k : Key) {f : Entry → QuantityDef → Clock → Entry}
    (hf : ∀ e d t, (f e d t).key = e.key) : (s.age k f).table.Wf := by
  unfold State.age State.withSettings
  dsimp only
  (repeat' split) <;> first | exact h | exact h.updateEntry fun e he => by rw [hf, he]

theorem PeerTable.Wf.takeSample {s : State} (h : s.table.Wf) (st : Settings) (d : QuantityDef) (e : Entry) (b : Bool)
    (r : RawSample) : (s.takeSample st d e b r).table.Wf := by
  unfold State.takeSample
  exact (h.updateEntry (k := e.key) (f := fun _ => e.takeRemote d r s.clock) fun _ _ => rfl).of_eq (by simp)

theorem PeerTable.Wf.acceptSample {s : State} (h : s.table.Wf) (n : BitVec 4) (r : RawSample) :
    (s.acceptSample n r).table.Wf := by
  unfold State.acceptSample State.withSettings
  dsimp only
  split
  · split
    · split
      · split
        · rename_i e _
          unfold State.updatePath
          dsimp only
          have hg (x y : Nat) : PeerTable.Wf { s.table with gaps := saturate x y } :=
            ⟨h.1, h.2.1, h.2.2.1, saturate_le _ _⟩
          (repeat' split) <;>
            first | with_reducible exact h | with_reducible exact PeerTable.Wf.takeSample h _ _ _ _ _ |
              exact PeerTable.Wf.takeSample (s := { s with table := _ }) (hg _ _) _ _ _ _ _ |
              exact h.updateEntry fun _ he => he
        · split
          · unfold State.createEntry
            split
            · rename_i p hp
              obtain ⟨hw, hl⟩ := PeerTable.makeRoom_wf h hp
              refine PeerTable.Wf.takeSample (s := { s with table := _ }) ?_ _ _ _ _ _
              refine ⟨insertEntry_pairwise hw.1, ?_, hw.2.2.1, hw.2.2.2⟩
              have := insertEntry_length (e := remoteEntry ⟨n, r.code, r.inst⟩) (l := p.entries)
              simp only; omega
            · exact ⟨h.1, h.2.1, saturate_le _ _, h.2.2.2⟩
          · exact h
      · exact h
    · exact h
  · exact h

theorem PeerTable.Wf.deliverResult {s : State} (h : s.table.Wf) (k : Key) (b : ResultRecord) (r : Option (Int × ResultQuality)) :
    (s.deliverResult k b r).table.Wf := by
  unfold State.deliverResult
  (repeat' split) <;> first | exact h | exact h.deliver _ _ _

theorem PeerTable.Wf.deliverRaw {s : State} (h : s.table.Wf) (i : Nat) (x : SourceDef) (v : Int) :
    (s.deliverRaw i x v).table.Wf := by
  have hs (l : List (Option Int)) : ({ s with smoothing := l } : State).table.Wf := h
  exact (hs _).deliver _ _ _

theorem PeerTable.Wf.deliverFailed {s : State} (h : s.table.Wf) (i : Nat) (x : SourceDef) :
    (s.deliverFailed i x).table.Wf := by
  have hs (l : List (Option Int)) : ({ s with smoothing := l } : State).table.Wf := h
  exact (hs _).deliver _ _ _

theorem PeerTable.Wf.completeScan {s : State} (h : s.table.Wf) (st : Settings) (l : List Nat) :
    (s.completeScan st l).table.Wf := by
  unfold State.completeScan
  generalize st.sources.zipIdx = xs
  have h : ({ s with converter := { s.converter with scan := none } } : State).table.Wf := h
  generalize ({ s with converter := { s.converter with scan := none } } : State) = w at h
  induction xs generalizing w with
  | nil => exact h
  | cons x xs ih =>
    refine ih _ ?_
    unfold State.deliverAnalog
    dsimp only
    (repeat' split) <;> first | exact h | exact h.deliverRaw _ _ _ | exact h.deliverFailed _ _

theorem PeerTable.Wf.deliverPanel {s : State} (h : s.table.Wf) (p : PanelValues) : (s.deliverPanel p).table.Wf :=
  ((((h.deliver _ _ _).deliver _ _ _).deliver _ _ _).deliver _ _ _).deliver _ _ _

theorem PeerTable.Wf.levelChange {s : State} (h : s.table.Wf) (st : Settings) (i : Fin 6) (l : Bool) :
    (s.levelChange st i l).table.Wf := by
  have hp (p : PanelValues) : (s.setPanel p).table.Wf := h
  unfold State.levelChange
  dsimp only
  (repeat' split) <;> first | with_reducible exact h | (refine h.of_eq ?_; simp; done) | exact (hp _).deliver _ _ _ | skip
  · unfold State.panelPress State.pressStep State.pressAction State.pressMode
    dsimp only
    (repeat' split) <;> first | with_reducible exact h | exact PeerTable.Wf.deliver (hp _) _ _ _

/-- The pinned entries stand in key order. -/
theorem pinnedEntries_pairwise (number : BitVec 4) (st : Settings) :
    (pinnedEntries number st).Pairwise fun x y => keyRank x.key < keyRank y.key := by
  unfold pinnedEntries
  generalize namedKeys number st = l
  suffices ∀ es : List Entry, es.Pairwise (fun x y => keyRank x.key < keyRank y.key) →
      (l.foldl (fun es k => insertEntry (pinnedEntry number k) es) es).Pairwise fun x y => keyRank x.key < keyRank y.key from
    this [] List.Pairwise.nil
  induction l with
  | nil => intro es h; exact h
  | cons k l ih => intro es h; exact ih _ (insertEntry_pairwise h)

/-- A loaded image pins at most 24 keys (R2). -/
theorem loadImage_pinned {number : BitVec 4} {m : Memory} {st : Settings} (h : loadImage number m = .ok st) :
    st = settingsOf m ∧ byteLimits m = true ∧ referencesHold number st = true ∧
      (pinnedEntries number st).length ≤ Config.pinnedLimit := by
  unfold loadImage at h
  dsimp only at h
  (repeat' split at h) <;> try cases h
  rename_i h1 h2 h3 h4
  simp only [Bool.or_eq_true, Bool.not_eq_true', decide_eq_true_eq, not_or, not_lt, Bool.not_eq_false] at h3
  exact ⟨rfl, h3.1, h4, h3.2⟩

end Sys2Proof.Machine
end

