-- ==== Sys2Proof/Laws/Watches.lean ====
section
/-! SUPPORT. An intact frame that arrives, and what the watches do with it. -/

namespace Sys2Proof.Machine

/-- A frame of another station reaches the watches and is handed on (R155, R157). -/
theorem State.event_hears {s : State} {source : Byte} (h : s.hears source) (t : Nat) (f : WireFrame)
    (hf : f.source = source) (handOn : State → State) :
    s.event t (fun s => s.arrive f handOn) = .next (handOn ((s.heard t).runWatches f)) := by
  obtain ⟨h1, h2, h3⟩ := h
  rw [State.event_run h1]
  unfold State.arrive
  rw [if_pos (show (s.tick t).collecting from h2), hf]
  dsimp only
  rw [if_neg (show stationOf source ≠ (s.tick t).number from h3)]
  rfl

/-- A watch that does not latch at the frame moves the belt-hold window alone (R146, R148). -/
theorem State.runWatch_other (w : State) (n : Fin 4) (x : Watch) (f : WireFrame)
    (h : x.action = .latch → x.fits f.window = false) : ∃ b, w.runWatch n x f = { w with beltHold := b } := by
  unfold State.runWatch
  split
  · exact ⟨_, rfl⟩
  · rename_i ha; rw [h ha]; exact ⟨_, rfl⟩
  · split <;> exact ⟨_, rfl⟩

theorem State.runWatch_quiet {w : State} {n : Fin 4} {x : Watch} {f : WireFrame}
    (h : x.action = .none ∨ x.fits f.window = false) : w.runWatch n x f = w := by
  unfold State.runWatch
  rcases h with h | h
  · rw [h]
  · rw [h]; split <;> rfl

/-- Under a LATCHED latch the watches move the belt-hold window alone (R136, R147). -/
theorem State.runWatch_latched (w : State) (n : Fin 4) (x : Watch) (f : WireFrame) (h : w.latch ≠ none) :
    ∃ b, w.runWatch n x f = { w with beltHold := b } := by
  unfold State.runWatch
  split
  · exact ⟨_, rfl⟩
  · rw [State.raiseCause_latched _ _ _ h]; split <;> exact ⟨_, rfl⟩
  · split <;> exact ⟨_, rfl⟩

/-- Without a watch that acts, the frame leaves the state (R146). -/
theorem State.runWatches_unwatched {s : State} {f : WireFrame} (h : s.unwatched f) : s.runWatches f = s := by
  unfold State.runWatches State.withSettings
  (repeat' split) <;> try rfl
  rename_i st hs
  dsimp only
  have := h st hs
  rw [State.runWatch_quiet (x := st.watches[0]) (this 0), State.runWatch_quiet (x := st.watches[1]) (this 1),
    State.runWatch_quiet (x := st.watches[2]) (this 2), State.runWatch_quiet (x := st.watches[3]) (this 3)]

theorem State.runWatches_latched (w : State) (f : WireFrame) (h : w.latch ≠ none) :
    ∃ b, w.runWatches f = { w with beltHold := b } := by
  unfold State.runWatches State.withSettings
  (repeat' split) <;> try exact ⟨_, rfl⟩
  rename_i st hs
  dsimp only
  obtain ⟨x, e⟩ := w.runWatch_latched 0 st.watches[0] f h
  rw [e]
  obtain ⟨y, e⟩ := State.runWatch_latched { w with beltHold := x } 1 st.watches[1] f h
  rw [e]
  obtain ⟨z, e⟩ := State.runWatch_latched { w with beltHold := y } 2 st.watches[2] f h
  rw [e]
  exact State.runWatch_latched { w with beltHold := z } 3 st.watches[3] f h

/-- The first matching LATCH watch raises its cause on a CLEAR latch; the others then move the belt-hold window alone
(R147, R148). -/
theorem State.runWatches_latch {w : State} {st : Settings} {f : WireFrame} (n : Fin 4) (hw : w.atWork)
    (hl : w.latch = none) (hs : w.settings = some st) (hn : st.watches[n].action = .latch)
    (hf : st.watches[n].fits f.window = true)
    (hm : ∀ m : Fin 4, m < n → st.watches[m].action = .latch → st.watches[m].fits f.window = false) :
    ∃ b, w.runWatches f = { w.raiseCause (watchCause n) (sourceByte (stationOf f.source)) with beltHold := b } := by
  unfold State.runWatches State.withSettings
  rw [if_pos hw, hs]
  dsimp only
  have before (v : State) (k : Fin 4) (h : ∃ b, v = { w with beltHold := b }) (hk : k < n) :
      ∃ b, v.runWatch k st.watches[k] f = { w with beltHold := b } := by
    obtain ⟨b, rfl⟩ := h
    exact State.runWatch_other _ k st.watches[k] f (hm k hk)
  have hit (v : State) (h : ∃ b, v = { w with beltHold := b }) : ∃ b, v.runWatch n st.watches[n] f =
      { w.raiseCause (watchCause n) (sourceByte (stationOf f.source)) with beltHold := b } := by
    obtain ⟨b, rfl⟩ := h
    refine ⟨b, ?_⟩
    unfold State.runWatch
    rw [hn]
    dsimp only
    rw [if_pos hf, State.raiseCause_clear _ _ _ hw hl, State.raiseCause_clear (w := { w with beltHold := b }) _ _ hw
        hl]
  have past (v : State) (k : Fin 4)
      (h : ∃ b, v = { w.raiseCause (watchCause n) (sourceByte (stationOf f.source)) with beltHold := b }) :
      ∃ b, v.runWatch k st.watches[k] f =
        { w.raiseCause (watchCause n) (sourceByte (stationOf f.source)) with beltHold := b } := by
    obtain ⟨b, rfl⟩ := h
    refine State.runWatch_latched _ k st.watches[k] f ?_
    rw [State.raiseCause_clear _ _ _ hw hl]; simp
  have h0 : ∃ b, w = { w with beltHold := b } := ⟨w.beltHold, rfl⟩
  match n, hit, past, before with
  | 0, hit, past, _ => exact past _ 3 (past _ 2 (past _ 1 (hit _ h0)))
  | 1, hit, past, before => exact past _ 3 (past _ 2 (hit _ (before _ 0 h0 (by decide))))
  | 2, hit, past, before => exact past _ 3 (hit _ (before _ 1 (before _ 0 h0 (by decide)) (by decide)))
  | 3, hit, _, before =>
    exact hit _ (before _ 2 (before _ 1 (before _ 0 h0 (by decide)) (by decide)) (by decide))

end Sys2Proof.Machine
end

