-- ==== Sys2Proof/Tests/Slice0.lean ====
section
/-! SUPPORT. Own tests, each about one step on a small state: the ill-formed terms, one worked value per block, and for
every statement of Certificates/Slice0/Obligations.lean a state and operands that meet its hypotheses, clause by
clause (`witness_<Name>`). -/

namespace Sys2Proof.Tests

open Sys2Proof Sys2Proof.Machine

-- Each `decide +kernel` below would else hold a thread of its own until every theorem before it is checked.
set_option Elab.async false

/-! ### Small settings and states -/

def noChannel : ChannelDef :=
  { role := .none, period := 0, refs := [], target := .fixed 0, lo := 0, hi := 0, ramp := 1, deadband := 0, gain := 0,
    umin := 0, umax := 0, slew := 0, plunge := none, window := 0, imin := 0, imax := 0 }

/-- A DEPTH channel with an operator target. -/
def depthDef : ChannelDef :=
  { role := .depth, period := 20, refs := [0], target := .operator none 100 50, lo := 0, hi := 1000, ramp := 10,
    deadband := 2, gain := 256, umin := 0, umax := 1000, slew := 100, plunge := none, window := 200, imin := 100,
    imax := 1000 }

def pitchDef : ChannelDef := { depthDef with role := .attitude, target := .fixed 500 }

def beltDef : ChannelDef := { depthDef with role := .belt, refs := [], target := .fixed 0 }

def idleWatch : Watch := ⟨[], [], .none⟩

/-- A watch on every STATUS frame. -/
def statusWatch (action : WatchAction) : Watch := ⟨[0x20], [0xFF], action⟩

def meanGroup : GroupDef :=
  { mode := .mean, patterns := [⟨none, 1, none, 1, 0, false⟩], minimum := 1, acceptAged := false, period := 50,
    arm := 0, result := none }

def quantities : List QuantityDef :=
  [1, 2, 3, 6, 8, 10, 11, 12].map fun n => ⟨BitVec.ofNat 6 n, 100, 1000, -1000, 30000⟩

/-- A leg-depth station: a source of every kind, one group, a DEPTH and an ATTITUDE channel. -/
def leg : Settings :=
  { role := .legDepth, side := .left, listen := 0xFFFE, release := 0x1000, scanList := [0, 1], scanPeriod := 10,
    quantities := quantities
    sources := [⟨.analog [0], 1, 0, 4096, 0, 0, false⟩, ⟨.serial 10 20, 2, 0, 4096, 0, 0, false⟩,
      ⟨.pulse .pls0 1000000 100 50, 3, 0, 4096, 0, 0, false⟩]
    groups := #v[some meanGroup, none, none, none], chanA := depthDef, chanB := pitchDef, conveyor := none
    watches := #v[idleWatch, idleWatch, idleWatch, idleWatch], publications := [⟨1, 0, 50⟩]
    functions := #v[.haltButton, .releaseButton, .none, .none, .none, .none], panel := none }

/-- A chamber of 10000, its alarm at 9000 and its resume level at 5000. -/
def beltConveyor : ConveyorDef :=
  ⟨0, 0, 0, 1000, 1000, 1000, 2000, 100, 1000, 500, 300, 256, 10000, 900, 500⟩

/-- A conveyor station. -/
def belt : Settings :=
  { leg with
    role := .conveyor, side := .centre, sources := [], publications := [⟨18, 0, 50⟩]
    chanA := beltDef, chanB := noChannel
    conveyor := some beltConveyor }

/-- A panel station. -/
def desk : Settings :=
  { leg with
    role := .panel, sources := [], groups := #v[none, none, none, none], chanA := noChannel, chanB := noChannel
    publications := [], panel := some ⟨0, 4000, 10, 1900, 1900, 100⟩ }

/-- A station at work since 2 s, its bus ACTIVE and quiet. -/
def at2s (st : Settings) : State :=
  { ({ State.reset with number := 5 } : State).takeSettings st with
    now := 2000000
    station := .running
    line := { Line.atStart with bus := .active, receiver := .idle, quietSince := some 1000000 } }

/-- The station with a frame of another station in reception. -/
def hearing (s : State) : State := { s with line := { s.line with receiver := .inFrame false, quietSince := none } }

/-- A station in COMMISSIONING, its number 5, with a frame in reception. -/
def service : State := hearing { State.reset with number := 5, station := .commissioning, now := 2000000 }

def entry (k : Key) (state : EntryState) (v : Int) : Entry :=
  { key := k, origin := .remote, pinned := false, state := state, value := some v, quality := some .good,
    arrival := some 1900, lastSeq := some 7, staleRun := some 0, acted := some 3, expiredSince := none }

/-- The state with just these entries in its table. -/
def holding (s : State) (entries : List Entry) : State := { s with table := ⟨entries, 0, 0⟩ }

/-- The state with channel A so. -/
def withA (s : State) (change : Channel → Channel) : State := { s with chanA := change s.chanA }

def record : TargetRecord := ⟨400, some true, 400, 0, 400, some []⟩

/-- Channel A in a state, its update due, with a target record. -/
def dueA (s : State) (state : ChannelState) : State :=
  withA s fun ch => { ch with state := state, updateTimer := some 2000, target := some record }

/-- Group 0 with a valid result. -/
def measured (s : State) (v : Int) : State :=
  { s with groups := #v[some ⟨⟨.evaluated, some .good, some v⟩, some 2000⟩, none, none, none] }

/-- A conveyor station in AUTO with a conveyor block as far as AUTO brings it. -/
def rolling : State :=
  { dueA (at2s belt) .auto with
    conveyor := some { Conveyor.atStart with substate := some .feed, command := some 500, stallStart := some 1000 } }

/-- A full table of unpinned entries, the first two in this state and the others FRESH. -/
def crowd (state : EntryState) : List Entry :=
  (List.range 32).map fun n => entry ⟨0, BitVec.ofNat 6 n, 0⟩ (if n < 2 then state else .fresh) 1

/-- Channel A in FAULT with an open coil and a coil check still waiting, the collection with these codes after its own. -/
def faulty (s : State) (faults : List FaultCode) : State :=
  { withA (dueA s .fault) fun ch => { ch with fault := some .coilOpen, openRun := 2 } with
    faults := .coilOpenA :: faults, converter := s.converter.withRequest .a (some 300) }

/-- The codes of `faulty` agree with its channels. -/
theorem faulty_wf {s : State} {faults : List FaultCode} (hf : ∀ c f, coilCode c f ∉ faults)
    (hb : s.chanB.state = .off ∧ s.chanB.fault = none) : (faulty s faults).CoilFaultsWf := by
  have hm (c f) : coilCode c f ∈ FaultCode.coilOpenA :: faults ↔ coilCode c f = .coilOpenA := by simp [hf]
  rintro (_ | _)
  · exact ⟨by simp [faulty, dueA, withA, State.channel], fun f => (hm .a f).trans
      (show _ ↔ some CoilFault.coilOpen = some f by cases f <;> decide)⟩
  · have e : ((faulty s faults).channel .b) = s.chanB := rfl
    rw [e, hb.1, hb.2]
    exact ⟨by simp, fun f => (hm .b f).trans (by cases f <;> decide)⟩

/-- Input 0 of this level whose pin is the other one, its debounce timer due. -/
def bouncing (s : State) (i : Fin 6) (pin : Bool) : State :=
  { s with inputs := s.inputs.set i ⟨pin, !pin, some 2000⟩ }

/-- A frame in flight since 2 s. -/
def flying (frame : OwnFrame) (discarded : Bool) (control : ControlSet) (queue : List QueuedSample) (echoRun : Nat) : State :=
  { at2s leg with line := { Line.atStart with
    bus := .active, flight := some ⟨frame, 2000000, discarded⟩, control := control, queue := queue, echoRun := echoRun } }

/-- The state after a command. -/
def run (c : Instr) (s : State) : State :=
  match exec c s with
  | .next u => u
  | _ => s

/-- A small sound image: a sensor station with one quantity, one group and a halt button. -/
def smallImage : Memory :=
  [(0, 0), (1, 1), (2, 4), (3, 0), (12, 10), (16, 6), (17, 0), (18, 100), (19, 0), (21, 128), (23, 127), (160, 0),
    (172, 0), (184, 0), (196, 0), (208, 0), (220, 0), (232, 0), (244, 0), (256, 0), (268, 0), (280, 0), (292, 0)] ++
  [(304, 1), (305, 1), (306, 1), (307, 100), (313, 6), (315, 1), (348, 0), (392, 0), (436, 0), (480, 0), (544, 0),
    (664, 0), (692, 0), (720, 0), (748, 0), (816, 1), (817, 0), (818, 0), (819, 0), (820, 0), (821, 0), (1022, 205),
    (1023, 194)]

theorem smallImage_loads : loadImage 5 smallImage = .ok (settingsOf smallImage) := by
  unfold loadImage
  dsimp only
  rw [if_neg (by decide +kernel), if_neg (by decide +kernel), if_neg (by decide +kernel), if_pos (by decide +kernel)]

/-- A small sound image of a panel station: a truck hold, a halt button and a step button, a SERIAL and a PULSE source. -/
def deskImage : Memory :=
    [(0, 0), (1, 1), (2, 5), (3, 2), (12, 10), (16, 8), (17, 0), (18, 100), (19, 3), (20, 232), (23, 15), (24, 160),
    (25, 10), (26, 0), (27, 100), (28, 3), (29, 232), (32, 15), (33, 160), (34, 11), (35, 0), (36, 100), (37, 3),
    (38, 232), (41, 15), (42, 160), (43, 17), (44, 0), (45, 100), (46, 3), (47, 232), (50, 15), (51, 160), (52, 2),
    (53, 0), (54, 100), (55, 3), (56, 232), (59, 15), (60, 160), (61, 3), (62, 0), (63, 100), (64, 3), (65, 232)] ++
    [(68, 15), (69, 160), (160, 64), (161, 2), (162, 16), (163, 0), (164, 0), (165, 0), (166, 10), (167, 20),
    (172, 96), (173, 3), (174, 16), (175, 0), (176, 0), (177, 0), (178, 50), (179, 10), (180, 0), (181, 15),
    (182, 66), (183, 64), (184, 0), (196, 0), (208, 0), (220, 0), (232, 0), (244, 0), (256, 0), (268, 0), (280, 0),
    (292, 0), (304, 0), (348, 0), (392, 0), (436, 0), (480, 0), (544, 0), (664, 0), (692, 0), (720, 0), (748, 0),
    (752, 8), (753, 0), (754, 0)] ++
    [(755, 50), (816, 12), (817, 1), (818, 3), (819, 0), (820, 0), (821, 0), (822, 0), (823, 0), (824, 15),
    (825, 160), (826, 0), (827, 10), (828, 7), (829, 108), (830, 7), (831, 8), (832, 0), (833, 100), (1022, 174),
    (1023, 205)]

theorem deskImage_loads : loadImage 5 deskImage = .ok (settingsOf deskImage) := by
  unfold loadImage
  dsimp only
  rw [if_neg (by decide +kernel), if_neg (by decide +kernel), if_neg (by decide +kernel), if_pos (by decide +kernel)]

/-- Station 5 in LOADING with this image and its truck-hold or halt input 0 high. -/
def loadingWith (m : Memory) : State :=
  { State.reset with
    number := 5, store := ⟨m, true, none⟩, inputs := State.reset.inputs.set 0 ⟨true, false, none⟩ }

/-- No watch of these settings acts. -/
theorem quiet {s : State} {st : Settings} (h : s.settings = some st)
    (hw : st.watches = #v[idleWatch, idleWatch, idleWatch, idleWatch]) (f : WireFrame) : s.unwatched f := by
  intro st' h' n
  rw [h] at h'
  cases h'
  left
  rw [hw]
  fin_cases n <;> rfl

/-- Station 5 hears station 3. -/
theorem hears_three {s : State} (hr : s.runs) (hn : s.number = 5) (hf : s.line.flight = none) : (hearing s).hears 3 :=
  ⟨hr, ⟨Or.inr rfl, hf⟩, by rw [show (hearing s).number = 5 from hn]; decide⟩

/-! ### Well-formedness: one ill-formed term per check -/

theorem test_publishWithoutSamples : (Instr.publishFrame 0 3 []).wellFormed = false := by decide

theorem test_publishWithFiveSamples :
    (Instr.publishFrame 0 3 [⟨1, 0, 0, 0, 0⟩, ⟨1, 0, 0, 0, 0⟩, ⟨1, 0, 0, 0, 0⟩, ⟨1, 0, 0, 0, 0⟩, ⟨1, 0, 0, 0, 0⟩]).wellFormed
      = false := by decide

theorem test_publishWithOneSample : (Instr.publishFrame 0 3 [⟨1, 0, 0, 0, 0⟩]).wellFormed = true := by decide

/-- An intact frame is not a dropped one. -/
theorem test_droppedFrameThatIsIntact :
    (Instr.frameDropped 0 ((releaseWire 5).bytes.map fun b => ⟨b, true⟩)).wellFormed = false := by decide +kernel

theorem test_droppedFrameWithBadSync : (Instr.frameDropped 0 [⟨0xA6, true⟩]).wellFormed = true := by decide +kernel

/-- LOCK with its own length is no bad command; with row data it is, and so is WRITE_ROW without. -/
theorem test_badCommands :
    (Instr.serviceBadCommand 0 ⟨3, 5, 0⟩ 6 none).wellFormed = false ∧
    (Instr.serviceBadCommand 0 ⟨3, 5, 0⟩ 6 (some (Vector.replicate 16 0))).wellFormed = true ∧
    (Instr.serviceBadCommand 0 ⟨3, 5, 0⟩ 2 none).wellFormed = true ∧
    (Instr.serviceBadCommand 0 ⟨3, 5, 0⟩ 0 none).wellFormed = true ∧
    (Instr.serviceBadCommand 0 ⟨3, 5, 0⟩ 8 none).wellFormed = true := by decide

/-! ### The machine and the starts -/

theorem witness_StepTakesTheFrontCommand : State.reset.pending = [] := rfl

theorem witness_EveryStartGivesTheStartState :
    (∃ s : State, s.supply = false ∧ s.resetHeld = false ∧ s.store.op = none) ∧
    (∃ s : State, s.supply = true ∧ s.resetHeld = true ∧ s.store.op = none) ∧
    ∃ (s : State) (h : ServiceHeader), s.hears h.source ∧ s.takesService h ∧ s.store.op = none :=
  ⟨⟨{ State.reset with supply := false }, by decide⟩, ⟨{ State.reset with resetHeld := true }, by decide⟩,
    service, ⟨3, 5, 0⟩, by unfold State.hears; decide +kernel⟩

/-- Each kind of operation in flight, over a store in form. -/
theorem witness_StartAbandonsTheStoreOperation :
    ∀ command ∈ [StoreCommand.writeRow [1], .eraseRow, .eraseAll, .blankCheck], ∃ (s : State) (op : StoreOp),
      s.supply = false ∧ s.resetHeld = false ∧ s.store.op = some op ∧ op.command = command ∧
      Memory.wf s.store.cells := by
  intro command _
  exact ⟨{ State.reset with supply := false, store := ⟨[(16, 1)], true, some ⟨command, 1, 5⟩⟩ }, ⟨command, 1, 5⟩, rfl,
    rfl, rfl, rfl, show Memory.wf [(16, 1)] by decide⟩

theorem witness_StoppedStationsAreSafeAndInert :
    (∃ s : State, s.supply = true) ∧ (∃ s : State, s.resetHeld = false) ∧
    (∃ s : State, s.supply = false ∧ s.resetHeld = true) ∧
    ∃ (c : Instr) (s : State), c.needsRunning = true ∧ ¬ s.runs :=
  ⟨⟨State.reset, rfl⟩, ⟨State.reset, rfl⟩, ⟨{ State.reset with supply := false, resetHeld := true }, by decide⟩,
    .frameBegin 0, { State.reset with supply := false }, by decide⟩

/-! ### LOADING and the entries -/

/-- The four checks in their order, each the first to fail or to pass. -/
theorem witness_LoadingEndsAndRunningBegins_checks :
    wordSum [] ≠ 0x5A3C ∧
    (wordSum [(1022, 0x5C), (1023, 0x3B)] = 0x5A3C ∧ u16 [(1022, 0x5C), (1023, 0x3B)] 0 ≠ 1) ∧
    (wordSum [(0, 0), (1, 1), (1022, 0x5C), (1023, 0x39)] = 0x5A3C ∧
      u16 [(0, 0), (1, 1), (1022, 0x5C), (1023, 0x39)] 0 = 1 ∧
      byteLimits [(0, 0), (1, 1), (1022, 0x5C), (1023, 0x39)] = false) ∧
    (wordSum smallImage = 0x5A3C ∧ u16 smallImage 0 = 1 ∧ byteLimits smallImage = true ∧
      (pinnedEntries 5 (settingsOf smallImage)).length ≤ 24) := by decide +kernel

/-- At clock 6 under the strap and without it, and at clock 1006. -/
theorem witness_LoadingEndsAndRunningBegins :
    (∃ (s : State) (t : Nat), s.runs ∧ s.station = .loading ∧ (s.tick t).clock.toNat = 6 ∧ s.commission = true) ∧
    (∃ (s : State) (t : Nat) (f : FaultCode), s.runs ∧ s.station = .loading ∧ (s.tick t).clock.toNat = 6 ∧
      s.commission = false ∧ loadImage s.number s.store.cells = .error f ∧ f ∉ s.faults) ∧
    ∃ (s : State) (t : Nat) (st : Settings), s.runs ∧ s.settings = some st ∧ s.station = .listening ∧
      (s.tick t).clock.toNat = 1006 :=
  ⟨⟨{ State.reset with commission := true }, 6000, by decide⟩,
    ⟨State.reset, 6000, .imageCheckword, by decide, rfl, by decide, rfl,
      by unfold loadImage; dsimp only; rw [if_pos (by decide +kernel)], by decide⟩,
    { at2s leg with station := .listening, now := 1000 }, 1006000, leg, by decide +kernel⟩

/-- A small image loads: its settings have a group, no panel, and a halt button on input 0, here held and not held. -/
theorem witness_LoadedImageEntersListening :
    ∃ (s : State) (t : Nat) (st : Settings) (g : GroupDef), s.runs ∧ s.station = .loading ∧
      (s.tick t).clock.toNat = 6 ∧ s.commission = false ∧ loadImage s.number s.store.cells = .ok st ∧
      st.panel = none ∧ st.groups[0] = some g ∧ st.groups[1] = none ∧ st.inputOf .haltButton = some 0 ∧ s.inputs[0].pin = true ∧
      s.latch = none ∧ (({ s with inputs := State.reset.inputs } : State).inputs[0]).pin = false :=
  ⟨loadingWith smallImage, 6000, settingsOf smallImage, (groupDef smallImage 0).getD meanGroup, by decide, rfl, by decide, rfl, smallImage_loads,
    by decide +kernel, by decide +kernel, by decide +kernel, by decide, rfl, by decide⟩

/-- A panel image loads: its settings have a panel, a held truck hold, a SERIAL and a PULSE source and no other. -/
theorem witness_LoadedImageEntersListening_panel :
    ∃ (s : State) (t : Nat) (st : Settings) (d : PanelDef) (x y : SourceDef) (q : QuantityDef), s.runs ∧
      s.station = .loading ∧ (s.tick t).clock.toNat = 6 ∧ s.commission = false ∧
      loadImage s.number s.store.cells = .ok st ∧ st.panel = some d ∧ st.inputOf .truckHold = some 0 ∧
      s.inputs[0].pin = true ∧ st.inputOf .haltButton = some 1 ∧ s.inputs[1].pin = false ∧ st.serialSource = some (0, x, 10, 20) ∧
      st.pulseSource .pls0 = some (1, y, 1000000, 100, 50) ∧ st.pulseSource .pls1 = none ∧ st.quantity 17 = some q :=
  ⟨loadingWith deskImage, 6000, settingsOf deskImage, ⟨0, 4000, 10, 1900, 1800, 100⟩,
    ⟨.serial 10 20, 2, 0, 4096, 0, 0, false⟩, ⟨.pulse .pls0 1000000 100 50, 3, 0, 4096, 0, 0, false⟩,
    ⟨17, 100, 1000, -1, 4000⟩, by decide, rfl, by decide, rfl, deskImage_loads, by decide +kernel⟩

/-- The panel image's first values: the initial depth targets, and the truck hold as its pin stood. -/
theorem test_panelEntersListening :
    let u := (loadingWith deskImage).takeSettings (settingsOf deskImage)
    ((u.readPins.startPanel (settingsOf deskImage)).table.entries.filter fun e => e.state == .fresh).map
        (fun e => (e.key, e.value)) =
      [(⟨5, 8, 0⟩, some 1900), (⟨5, 8, 1⟩, some 1800), (⟨5, 10, 3⟩, some 255), (⟨5, 11, 3⟩, some 255),
        (⟨5, 17, 2⟩, some 1)] := by decide +kernel

/-- The pinned entries of the small image. -/
theorem test_smallImagePins : (pinnedEntries 5 (settingsOf smallImage)).map Entry.key = [⟨5, 6, 0⟩] := by decide +kernel

/-! ### Receiving -/

/-- 8 bit times of quiet exactly and one µs more; a byte cell in WAITING at the first moment of quiet; each kind of
reception; a frame dropped before its end and at its arrival. -/
theorem witness_ReceiverFollowsTheLine :
    (∀ t ∈ [32, 33], ∃ (s : State) (q : Nat), s.runs ∧ s.line.receiver = .waiting ∧ s.line.quietSince = some q ∧
      q = 0 ∧ max s.now t = t) ∧
    (∃ (s : State) (t q : Nat), s.runs ∧ s.line.flight = none ∧ s.line.receiver = .waiting ∧ s.line.quietSince = some q ∧
      q = max s.now t) ∧
    (∃ s : State, s.runs ∧ s.line.flight = none ∧ s.line.receiver = .idle) ∧
    (∃ s : State, s.runs ∧ s.line.flight = none ∧ s.line.receiver = .inFrame false) ∧
    (∃ s : State, s.runs ∧ s.line.flight = none ∧ s.line.receiver = .inFrame true) ∧
    judgeCells [⟨0xA7, true⟩, ⟨0x40, false⟩] = .droppedEarly ∧
    judgeCells [⟨0xA7, true⟩, ⟨0x40, true⟩, ⟨5, true⟩, ⟨0, true⟩, ⟨0, true⟩, ⟨0, true⟩] = .droppedAtArrival :=
  ⟨fun t h => ⟨{ State.reset with line := { Line.atStart with receiver := .waiting, quietSince := some 0 } }, 0, by decide,
      rfl, rfl, rfl, by simp [State.reset]⟩,
    ⟨{ State.reset with line := { Line.atStart with receiver := .waiting, quietSince := some 40 } }, 40, 40, by decide⟩,
    ⟨at2s leg, by decide +kernel⟩, ⟨hearing (at2s leg), by decide +kernel⟩,
    ⟨{ at2s leg with line := { Line.atStart with receiver := .inFrame true } }, by decide +kernel⟩, by decide +kernel,
    by decide +kernel⟩

/-- SYNC's ten bits on the line, and the byte cell read from them; two senders at once are dominant where either is. -/
theorem test_syncOnTheLine :
    cellLevels Config.sync = [.dominant, .recessive, .recessive, .recessive, .dominant, .dominant, .recessive, .dominant,
      .recessive, .recessive] ∧
    readCell (cellLevels Config.sync) = some ⟨0xA7, true⟩ ∧ lineLevel .recessive .dominant = .dominant ∧
    judgeBit 29 .recessive .dominant = .contentionLoss ∧ judgeBit 30 .recessive .dominant = .echoFault ∧
    judgeBit 0 .dominant .recessive = .echoFault := by decide +kernel

/-- Frames of every type and at each length the table of 8.2 has. -/
theorem witness_BuiltFramesPassTheReceiveChecks :
    (⟨0, 0, []⟩ : Reply).data.length = 0 ∧ (⟨0, 0, List.replicate 16 7⟩ : Reply).data.length = 16 ∧
    State.reset.statusPayload.length = 20 ∧ (1 : Nat) ≤ ([⟨⟨1, 0, .good, 5⟩, 9⟩] : List StampedSample).length ∧
    (List.replicate 4 (⟨⟨1, 0, .good, 5⟩, 9⟩ : StampedSample)).length ≤ 4 := by decide

/-- The CRC of the example of the spec's checks: the remainder over a frame and its own CRC is 0. -/
theorem test_crcOfReleaseFrame :
    crc ((releaseWire 5).bytes.drop 1) = 0 ∧
    judgeCells ((releaseWire 5).bytes.map fun b => ⟨b, true⟩) = .intact := by decide +kernel

/-- A RELEASE frame, its bytes changed one by one: a dominant stop bit in its fifth cell, a first cell other than
SYNC, LENGTH 21 and 20, three cells, five cells, a dominant stop bit in the last cell (assumption 34), a CRC of
another frame; then, each under its own CRC, the types 0, 4 and 7, a low half of 1, the LENGTH of another type, and a
PUBLISH of no sample and of five. -/
theorem test_receiveChecksFail :
    let heard (bytes : List Byte) := judgeCells (bytes.map fun b => ⟨b, true⟩)
    let framed (covered : List Byte) := heard (0xA7 :: covered ++ [highByte (crc covered), lowByte (crc covered)])
    judgeCells ([⟨0xA7, true⟩, ⟨0x40, true⟩, ⟨5, true⟩, ⟨0, true⟩, ⟨0, false⟩]) = .droppedEarly ∧
    heard [0xA6] = .droppedEarly ∧ heard [0xA7, 0x20, 5, 21] = .droppedEarly ∧ heard [0xA7, 0x20, 5, 20] = .incomplete ∧
    heard [0xA7, 0x40, 5] = .incomplete ∧ heard ((releaseWire 5).bytes.take 5) = .incomplete ∧
    judgeCells (((releaseWire 5).bytes.take 5).map (⟨·, true⟩) ++ [⟨((releaseWire 5).bytes)[5], false⟩]) = .droppedEarly ∧
    heard ((releaseWire 5).bytes.take 4 ++ (releaseWire 6).bytes.drop 4) = .droppedAtArrival ∧
    framed [0x40, 5, 0] = .intact ∧ framed [0x00, 5, 0] = .droppedAtArrival ∧ framed [0x70, 5, 0] = .droppedAtArrival ∧
    framed [0x41, 5, 0] = .droppedAtArrival ∧ framed [0x40, 5, 1, 0] = .droppedAtArrival ∧
    framed [0x10, 5, 0] = .droppedAtArrival ∧ framed ([0x15, 5, 20] ++ List.replicate 20 0) = .droppedAtArrival := by
  decide +kernel

/-- A matching LATCH watch under a LATCHED latch, and a station where no watch runs. -/
theorem witness_WatchesAloneSeeStatusFrames_latched :
    (∃ (s : State) (source : Byte) (payload : Vector Byte 20) (st : Settings), s.hears source ∧ s.atWork ∧
      s.settings = some st ∧ st.watches[0].fits (statusWire source payload.toList).window = true ∧
      st.watches[0].action = .latch ∧ s.latch ≠ none) ∧
    ∃ (s : State) (source : Byte), s.hears source ∧ ¬ s.atWork := by
  refine ⟨⟨hearing { at2s { leg with watches := #v[statusWatch .latch, idleWatch, idleWatch, idleWatch] } with
    latch := some ⟨1, 3, 0⟩ }, 3, Vector.replicate 20 0,
    { leg with watches := #v[statusWatch .latch, idleWatch, idleWatch, idleWatch] }, ?_⟩, service, 3, ?_⟩
  all_goals
    unfold State.hears
    decide +kernel

theorem witness_WatchesAloneSeeStatusFrames :
    (∃ (s : State) (source : Byte), s.hears source ∧ ∀ f, s.unwatched f) ∧
    (∃ (s : State) (source : Byte) (payload : Vector Byte 20) (st : Settings), s.hears source ∧ s.atWork ∧
      s.settings = some st ∧ st.watches[0].fits (statusWire source payload.toList).window = true ∧
      st.watches[0].action = .latch ∧ s.latch = none ∧ (s.channel .a).state = .manual) ∧
    ∃ (s : State) (source : Byte) (payload : Vector Byte 20) (st : Settings), s.hears source ∧ s.atWork ∧
      s.settings = some st ∧ st.watches[3].fits (statusWire source payload.toList).window = true ∧
      st.watches[3].action = .beltHold 300 :=
  ⟨⟨hearing (at2s leg), 3, by unfold State.hears; decide +kernel, quiet rfl rfl⟩,
    ⟨hearing (dueA (at2s { leg with watches := #v[statusWatch .latch, idleWatch, idleWatch, idleWatch] }) .manual), 3,
      Vector.replicate 20 0, { leg with watches := #v[statusWatch .latch, idleWatch, idleWatch, idleWatch] },
      by unfold State.hears; decide +kernel⟩,
    hearing (at2s { belt with watches := #v[idleWatch, idleWatch, idleWatch, statusWatch (.beltHold 300)] }), 3,
    Vector.replicate 20 0, { belt with watches := #v[idleWatch, idleWatch, idleWatch, statusWatch (.beltHold 300)] },
    by unfold State.hears; decide +kernel⟩

/-- A watch whose mask reaches past a RELEASE frame does not match it, and one within it does. -/
theorem test_watchWithinTheFrame :
    ({ mask := [0xF0, 0, 0], pattern := [0x4F, 0, 0], action := .latch } : Watch).fits (releaseWire 3).window = true ∧
    ({ mask := [0xF0, 0, 0, 1], pattern := [0x4F, 0, 0, 0], action := .latch } : Watch).fits (releaseWire 3).window = false := by
  decide +kernel

/-- A frame of the own number at an ACTIVE and at a MUTED_TIMED bus, with a channel that is not OFF; the latch CLEAR and LATCHED,
and a station where no watch runs. -/
theorem witness_OwnNumberOnTheLineIsAClash :
    (∀ bus ∈ [BusState.active, .mutedTimed], ∃ (s : State) (c : Instr) (source : Byte), c.frameSource = some source ∧
      c.wellFormed = true ∧ s.runs ∧ s.collecting ∧ stationOf source = s.number ∧ s.line.bus ≠ .mutedClash ∧
      s.line.bus = bus ∧ (s.channel .a).state ≠ .off ∧ s.latch = none) ∧
    (∃ (s : State) (r : LatchRecord), s.runs ∧ s.collecting ∧ stationOf 5 = s.number ∧ s.line.bus ≠ .mutedClash ∧
      s.latch = some r) ∧
    ∃ s : State, s.runs ∧ s.collecting ∧ stationOf 5 = s.number ∧ s.line.bus ≠ .mutedClash ∧ ¬ s.atWork := by
  refine ⟨fun bus h => ?_, ⟨hearing { at2s leg with latch := some ⟨1, 3, 0⟩ }, ⟨1, 3, 0⟩, by decide +kernel⟩, service,
    by decide +kernel⟩
  refine ⟨{ dueA (at2s leg) .manual with line := { Line.atStart with bus := bus, receiver := .inFrame false } },
    .releaseFrame 0 5, 5, ?_⟩
  simp only [List.mem_cons, List.not_mem_nil, or_false] at h
  rcases h with rfl | rfl <;> decide +kernel

/-- A channel in FAULT with its code in the collection and a check waiting, the other in OFF, with NUMBER_CLASH standing and
not. -/
theorem witness_OwnNumberOnTheLineIsAClash_coils :
    ∀ faults ∈ [[], [FaultCode.numberClash]], ∃ s : State, s.runs ∧ s.collecting ∧ stationOf 5 = s.number ∧
      s.line.bus = .active ∧ s.CoilFaultsWf ∧ (s.channel .a).state = .fault ∧ (s.channel .b).state = .off ∧
      s.converter.request .a = some 300 ∧ s.faults = .coilOpenA :: faults := by
  intro faults h
  have hw : (faulty (at2s leg) faults).CoilFaultsWf := by
    refine faulty_wf ?_ ⟨rfl, rfl⟩
    simp only [List.mem_cons, List.not_mem_nil, or_false] at h
    rintro (_ | _) (_ | _) <;> rcases h with rfl | rfl <;> decide
  exact ⟨hearing (faulty (at2s leg) faults), ⟨rfl, rfl⟩, ⟨Or.inr rfl, rfl⟩,
    show stationOf 5 = 5 by decide, rfl, hw, rfl, rfl, rfl, rfl⟩

/-- A clash takes the coil code and the waiting check with the fault. -/
theorem test_clashLeavesFault :
    let u := run (.releaseFrame 2000000 5) (hearing (faulty (at2s leg) [.scanOverrun]))
    (u.chanA.state, u.chanA.fault, u.faults, u.converter.requestA) =
      (.off, none, [.scanOverrun, .numberClash], none) := by decide +kernel

/-! ### Acceptance -/

theorem witness_PublishFramesAreAcceptedInPayloadOrder :
    ∀ station ∈ [Station.running, .commissioning], ∃ (s : State) (source : Byte) (samples : List RawSample),
      s.hears source ∧ 1 ≤ samples.length ∧ samples.length ≤ 4 ∧ s.station = station ∧
      s.unwatched (publishWire source samples) := by
  intro station _
  refine ⟨hearing { at2s leg with station := station }, 3, [⟨1, 0, 0, 0, 5⟩], hears_three ⟨rfl, rfl⟩ rfl rfl, by decide, by decide,
    rfl, quiet rfl rfl _⟩

theorem witness_UndefinedCodesAreIgnored :
    (∃ (s : State) (r : RawSample) (st : Settings), s.settings = some st ∧ st.quantity r.code = none) ∧
    ∃ (m : Memory) (st : Settings) (e : Entry), loadImage 5 m = .ok st ∧ e ∈ pinnedEntries 5 st :=
  ⟨⟨at2s leg, ⟨63, 0, 0, 0, 5⟩, leg, by decide +kernel⟩, smallImage, settingsOf smallImage,
    pinnedEntry 5 ⟨5, 6, 0⟩, smallImage_loads, by decide +kernel⟩

/-- Stations 0 and 15 at the ends of the listen set; an unwanted key; a wanted one, with one place left. -/
theorem witness_WantedSamplesCreateAnEntry :
    (∃ (s : State) (st : Settings), s.settings = some st ∧ st.listen.getLsbD (0 : BitVec 4).toNat = false) ∧
    (∃ (s : State) (source : BitVec 4) (r : RawSample) (st : Settings), s.settings = some st ∧
      s.table.find (r.keyFrom source) = none ∧ st.wants (r.keyFrom source) = false) ∧
    ∃ (s : State) (source : BitVec 4) (r : RawSample) (st : Settings) (d : QuantityDef), s.admits source r st d ∧
      s.table.find (r.keyFrom source) = none ∧ st.wants (r.keyFrom source) = true ∧ s.table.entries.length = 31 :=
  ⟨⟨at2s leg, leg, by decide +kernel⟩, ⟨at2s leg, 15, ⟨2, 0, 0, 0, 5⟩, leg, by decide +kernel⟩,
    holding (at2s leg) ((List.range 31).map fun n => entry ⟨0, BitVec.ofNat 6 n, 0⟩ .fresh 1), 15, ⟨1, 0, 0, 0, 5⟩, leg,
    ⟨1, 100, 1000, -1000, 30000⟩, by unfold State.admits; decide +kernel⟩

theorem witness_EffectiveQualityOfASample :
    (∃ r : RawSample, r.value = 0x8000#16) ∧
    (∀ q ∈ [(0 : Byte), 1, 2], ∃ r : RawSample, r.value ≠ 0x8000#16 ∧ r.quality = q) ∧
    (∃ r : RawSample, r.quality.toNat = 3) ∧
    (∃ (r : RawSample) (q : Quality) (v : Int), RawSample.effective r = (q, some v) ∧ v = -32767) ∧
    ∃ r r' : RawSample, r.code = r'.code ∧ r.inst = r'.inst ∧ r.seq = r'.seq ∧ r.value ≠ r'.value ∧
      RawSample.effective r = (.failed, none) ∧ RawSample.effective r' = (.failed, none) :=
  ⟨⟨⟨1, 0, 0, 0, 0x8000⟩, rfl⟩, fun q _ => ⟨⟨1, 0, 0, q, 0⟩, show (0 : Word16) ≠ 0x8000#16 by decide, rfl⟩, ⟨⟨1, 0, 0, 3, 0⟩, rfl⟩,
    ⟨⟨1, 0, 0, 0, 0x8001⟩, .good, -32767, by decide⟩, ⟨1, 0, 7, 3, 100⟩, ⟨1, 0, 7, 0, 0x8000⟩, by decide⟩

/-- A sample without a value, and one that the plausible clamp changes. -/
theorem witness_TakingASample :
    RawSample.effective ⟨1, 0, 0, 0, 0x8000⟩ = (.failed, none) ∧
    RawSample.effective ⟨1, 0, 0, 0, 0x8001⟩ = (.good, some (-32767)) := by decide

/-- A full table of unpinned entries, none of them EXPIRED; and two of them EXPIRED as long, the tie of R10. -/
theorem witness_FullTableEvictsTheLongestExpired :
    ∀ state ∈ [EntryState.fresh, .expired], ∃ (s : State) (source : BitVec 4) (r : RawSample) (st : Settings)
      (d : QuantityDef), s.admits source r st d ∧ s.table.find (r.keyFrom source) = none ∧
      st.wants (r.keyFrom source) = true ∧ s.table.entries.length = 32 ∧ s.table.Wf ∧
      (state = .fresh → ∀ e ∈ s.table.entries, e.pinned = true ∨ e.state ≠ .expired) ∧
      (state = .expired → ∃ e ∈ s.table.entries, e.pinned = false ∧ e.state = .expired) := by
  intro state h
  refine ⟨holding (at2s leg) (crowd state), 15, ⟨1, 0, 0, 0, 5⟩, leg, ⟨1, 100, 1000, -1000, 30000⟩, ?_⟩
  unfold State.admits PeerTable.Wf
  simp only [List.mem_cons, List.not_mem_nil, or_false] at h
  rcases h with rfl | rfl <;> decide +kernel

/-- Every state of the entry, and the distances at the ends of each range: 0, 1, 127, 128 and 255. -/
theorem witness_SequenceJudgement :
    (∀ state ∈ [EntryState.vacant, .expired, .fresh, .aged], ∃ (s : State) (source : BitVec 4) (r : RawSample)
      (st : Settings) (d : QuantityDef) (e : Entry), s.admits source r st d ∧
      s.table.find (r.keyFrom source) = some e ∧ e.state = state ∧ e.lastSeq = some 7) ∧
    (∀ p ∈ [((7 : Byte), 0), (8, 1), (134, 127), (135, 128), (6, 255)], sequenceDistance ⟨1, 0, p.1, 0, 5⟩ 7 = p.2) ∧
    (entry ⟨15, 1, 0⟩ .fresh 1).staleRun = some 0 ∧ ({ entry ⟨15, 1, 0⟩ .fresh 1 with staleRun := some 2 }).staleRun = some 2 := by
  refine ⟨fun state h => ⟨holding (at2s leg) [entry ⟨15, 1, 0⟩ state 1], 15, ⟨1, 0, 0, 0, 5⟩, leg,
    ⟨1, 100, 1000, -1000, 30000⟩, entry ⟨15, 1, 0⟩ state 1, ⟨rfl, by decide +kernel, by decide +kernel⟩, rfl, rfl, rfl⟩,
    by decide, by decide⟩

/-- A target value at DEPTH and at ATTITUDE channels: taken by sequence, changed and unchanged, from VACANT, and at the
third stale judgement; and one that makes its entry, in an empty table and in a full one. -/
theorem witness_NewTargetsReachOperatorChannels :
    ∀ role ∈ [ChannelRole.depth, .attitude], ∃ (code : BitVec 6) (r : RawSample) (st : Settings) (d : QuantityDef)
      (q : Quality) (v : Int) (key : Option Key) (maxStep height : Int) (x : TargetRecord),
      RawSample.effective r = (q, some v) ∧ r.inst = st.side.inst ∧ r.code = code ∧ (st.channel .a).role = role ∧
      (code = Config.depthTarget ∨ code = Config.pitchTarget) ∧ (st.channel .a).target = .operator key maxStep height ∧
      (∀ p ∈ [(EntryState.fresh, (7 : Byte), (1 : Int), 0), (.aged, 7, 5, 0), (.vacant, 0, 1, 0), (.fresh, 136, 1, 2)],
        ∃ (s : State) (e : Entry), s.admits 15 r st d ∧ s.table.find (r.keyFrom 15) = some e ∧ e.state = p.1 ∧
          e.lastSeq = some p.2.1 ∧ e.value = some p.2.2.1 ∧ e.staleRun = some p.2.2.2 ∧
          (p.2.1 = 7 → sequenceDistance r 7 = 1) ∧ (p.2.1 = 136 → sequenceDistance r 136 = 128) ∧
          (s.channel .a).target = some x) ∧
      ∀ entries ∈ [[], crowd .expired], ∃ s : State, s.admits 15 r st d ∧ s.table.find (r.keyFrom 15) = none ∧
        st.wants (r.keyFrom 15) = true ∧ s.hasPlace ∧ s.table.entries = entries ∧ (s.channel .a).target = some x := by
  intro role h
  let code : BitVec 6 := if role = .depth then Config.depthTarget else Config.pitchTarget
  let st : Settings := { leg with
    chanA := { depthDef with role := role }, quantities := [⟨code, 100, 1000, -1000, 30000⟩] }
  refine ⟨code, ⟨code, 0, 8, 0, 5⟩, st, ⟨code, 100, 1000, -1000, 30000⟩, .good, 5, none, 100, 50, record, ?_⟩
  unfold State.admits State.hasPlace
  simp only [List.mem_cons, List.not_mem_nil, or_false] at h
  refine ⟨rfl, rfl, rfl, rfl, ?_, rfl, fun p hp => ⟨holding (dueA (at2s st) .auto)
    [{ entry ⟨15, code, 0⟩ p.1 p.2.2.1 with lastSeq := some p.2.1, staleRun := some p.2.2.2 }],
    { entry ⟨15, code, 0⟩ p.1 p.2.2.1 with lastSeq := some p.2.1, staleRun := some p.2.2.2 }, ?_⟩,
    fun entries he => ⟨holding (dueA (at2s st) .auto) entries, ?_⟩⟩
  · rcases h with rfl | rfl <;> decide +kernel
  · simp only [List.mem_cons, List.not_mem_nil, or_false] at hp
    rcases h with rfl | rfl <;> rcases hp with rfl | rfl | rfl | rfl <;> decide +kernel
  · simp only [List.mem_cons, List.not_mem_nil, or_false] at he
    rcases h with rfl | rfl <;> rcases he with rfl | rfl <;> decide +kernel

/-- An action sample of serial 4 and this code, from station 15. -/
def actionSample (action : BitVec 6) (code : Byte) : RawSample := ⟨action, 0, 134, 0, (4 : Byte) ++ code⟩

/-- An entry that an action of serial 4 meets, by its state, last sequence, stale run and acted serial. -/
def actionEntry (action : BitVec 6) (p : EntryState × Byte × Nat × Option (BitVec 7)) : Entry :=
  { entry ⟨15, action, 0⟩ p.1 1 with lastSeq := some p.2.1, staleRun := some p.2.2.1, acted := p.2.2.2 }

/-- What the two actions' statements ask of a sample of station 15 and its entry, on the settings of a leg: by sequence
with another serial acted, the same, and none; a resync; the third stale judgement; and no entry, in an empty table and
in a full one. -/
def MeetsEntries (action : BitVec 6) (code : Byte) : Prop :=
  let r := actionSample action code
  ∃ d : QuantityDef, RawSample.effective r = (.good, some ((4 : BitVec 7).toNat * 256 + code.toNat : Int)) ∧
    r.inst = leg.side.inst ∧ r.code = action ∧
    (∀ p ∈ [(EntryState.fresh, (7 : Byte), 0, some (3 : BitVec 7)), (.aged, 7, 0, some 4), (.fresh, 7, 0, none),
      (.expired, 7, 0, some 3), (.fresh, 6, 2, some 3)], ∃ s : State, s.admits 15 r leg d ∧
      s.table.find (r.keyFrom 15) = some (actionEntry action p) ∧ (s.channel .a).target = some record ∧
      sequenceDistance r 7 = 127 ∧ sequenceDistance r 6 = 128) ∧
    ∀ entries ∈ [[], crowd .expired], ∃ s : State, s.admits 15 r leg d ∧ leg.wants (r.keyFrom 15) = true ∧
      s.table.find (r.keyFrom 15) = none ∧ s.hasPlace ∧ s.table.entries = entries ∧ (s.channel .a).target = some record

theorem meetsEntries {action : BitVec 6} {code : Byte} (ha : action ∈ [Config.depthAction, Config.modeRequest])
    (hc : code ∈ [(0 : Byte), 1, 2, 255]) : MeetsEntries action code := by
  unfold MeetsEntries State.admits State.hasPlace
  simp only [List.mem_cons, List.not_mem_nil, or_false] at ha hc
  refine ⟨⟨action, 100, 1000, -1000, 30000⟩, ?_, rfl, rfl,
    fun p hp => ⟨holding (dueA (at2s leg) .auto) [actionEntry action p], ?_⟩,
    fun entries he => ⟨holding (dueA (at2s leg) .auto) entries, ?_⟩⟩
  · rcases ha with rfl | rfl <;> rcases hc with rfl | rfl | rfl | rfl <;> decide +kernel
  · simp only [List.mem_cons, List.not_mem_nil, or_false] at hp
    rcases ha with rfl | rfl <;> rcases hc with rfl | rfl | rfl | rfl <;>
      rcases hp with rfl | rfl | rfl | rfl | rfl <;> decide +kernel
  · simp only [List.mem_cons, List.not_mem_nil, or_false] at he
    rcases ha with rfl | rfl <;> rcases hc with rfl | rfl | rfl | rfl <;> rcases he with rfl | rfl <;> decide +kernel

/-- A LIFT, a RETURN, and a code that is neither. -/
theorem witness_DepthActionsActOncePerSerial :
    (leg.channel .a).role = .depth ∧ (leg.channel .a).target = .operator none 100 50 ∧
      ∀ code ∈ [(1 : Byte), 2, 255], MeetsEntries Config.depthAction code :=
  ⟨rfl, rfl, fun code h => meetsEntries (by decide) (List.mem_cons_of_mem _ h)⟩

/-- Each of the three requests, and a code that is none. -/
theorem witness_ModeRequests_samples :
    ∀ code ∈ [(0 : Byte), 1, 2, 255], MeetsEntries Config.modeRequest code :=
  fun _ h => meetsEntries (by decide) h

/-- A record with an empty, a full and a partly filled stack. -/
theorem witness_LiftAndReturn : ∀ st ∈ [[], [1], [1, 2, 3, 4]], ∃ x : TargetRecord, x.stack = some st :=
  fun st _ => ⟨{ record with stack := some st }, rfl⟩

/-- A LIFT of serial 4 where serial 3 has acted, and where it has acted itself. -/
theorem test_depthActionOnce :
    let with' (acted : BitVec 7) := holding (dueA (at2s leg) .auto) [actionEntry Config.depthAction (.fresh, 7, 0, some acted)]
    ((with' 3).acceptSample 15 (actionSample Config.depthAction 1)).chanA.target =
      some { record with commanded := 350, stack := some [400] } ∧
    ((with' 4).acceptSample 15 (actionSample Config.depthAction 1)).chanA.target = some record := by decide +kernel

/-- RUNNING with and without the latch, with and without a reference, from each state that takes AUTO; LISTENING; a
clash; a channel of role NONE. -/
theorem witness_ModeRequests :
    (∃ s : State, s.station ≠ .running) ∧ (∃ s : State, s.line.bus = .mutedClash) ∧
    (∃ st : Settings, (st.channel .a).role = .none) ∧
    (∃ s : State, s.station = .running ∧ s.line.bus ≠ .mutedClash ∧ (leg.channel .a).role ≠ .none ∧ s.latch ≠ none) ∧
    (∃ s : State, s.station = .running ∧ s.line.bus ≠ .mutedClash ∧ s.latch = none ∧
      s.hasReference (leg.channel .a) = false) ∧
    ∀ state ∈ [ChannelState.off, .manual, .fault], ∃ s : State, s.station = .running ∧ s.line.bus ≠ .mutedClash ∧
      s.latch = none ∧ s.hasReference (leg.channel .a) = true ∧ (s.channel .a).state = state :=
  ⟨⟨State.reset, by decide⟩, ⟨{ State.reset with line := { Line.atStart with bus := .mutedClash } }, rfl⟩, ⟨desk, rfl⟩,
    ⟨{ at2s leg with latch := some ⟨1, 3, 0⟩ }, by decide +kernel⟩, ⟨at2s leg, by decide +kernel⟩,
    fun state _ => ⟨measured (dueA (at2s leg) state) 400, rfl, show BusState.active ≠ .mutedClash by decide, rfl, rfl,
      rfl⟩⟩

/-- Each state with the latch CLEAR and a reference, HELD by either cause and FAULT with its code among them; a BELT channel,
which needs no reference; a code that is none of the three. -/
theorem witness_ModeRequests_states :
    (∀ state ∈ [ChannelState.off, .manual, .auto, .held, .fault], ∃ s : State, s.station = .running ∧
      s.line.bus ≠ .mutedClash ∧ (leg.channel .a).role ≠ .none ∧ s.latch = none ∧
      s.hasReference (leg.channel .a) = true ∧ (s.channel .a).state = state) ∧
    (∃ s : State, s.station = .running ∧ s.line.bus ≠ .mutedClash ∧ s.latch = none ∧ s.CoilFaultsWf ∧
      (s.channel .a).state = .fault ∧ s.converter.request .a = some 300 ∧ s.faults = [.coilOpenA, .refLostA]) ∧
    (∃ (s : State) (cd : ChannelDef), cd.role = .belt ∧ s.activeGroup cd.refs = none) ∧ 2 < (3 : Byte).toNat := by
  refine ⟨fun state _ => ⟨measured (dueA (at2s leg) state) 400, rfl, show BusState.active ≠ .mutedClash by decide,
    by decide, rfl, rfl, rfl⟩, ⟨faulty (at2s leg) [.refLostA], rfl, show BusState.active ≠ .mutedClash by decide, rfl,
    faulty_wf ?_ ⟨rfl, rfl⟩, rfl, rfl, rfl⟩, ⟨at2s belt, beltDef, rfl, rfl⟩, by decide⟩
  rintro (_ | _) (_ | _) <;> decide

/-- OFF, MANUAL and AUTO leave FAULT with the coil code gone; OFF alone withdraws the check, AUTO alone removes REF_LOST. -/
theorem test_modeRequestsLeaveFault :
    let s := measured (faulty (at2s leg) [.refLostA]) 400
    [(0 : Byte), 1, 2].map (fun code =>
      let u := s.modeRequest leg .a code
      (u.chanA.state, u.chanA.openRun, u.faults, u.converter.requestA)) =
    [(.off, 0, [.refLostA], none), (.manual, 0, [.refLostA], some 300), (.auto, 0, [], some 300)] ∧
    ∀ code ∈ [(0 : Byte), 1, 2], (s.modeRequest leg .a code).chanA.fault = none := by decide +kernel

/-! ### The hold latch -/

theorem witness_HaltFramesLatch :
    (∃ (s : State) (source : Byte), s.hears source ∧ (∀ f, s.unwatched f) ∧ ¬ s.atWork) ∧
    (∃ (s : State) (source : Byte), s.hears source ∧ (∀ f, s.unwatched f) ∧ s.latch ≠ none) ∧
    ∀ state ∈ [ChannelState.manual, .auto, .off, .fault], ∃ (s : State) (source : Byte), s.hears source ∧
      (∀ f, s.unwatched f) ∧ s.atWork ∧ s.latch = none ∧ (s.channel .a).state = state :=
  ⟨⟨service, 3, hears_three ⟨rfl, rfl⟩ rfl rfl, fun _ _ h => (by cases h), by decide⟩,
    ⟨hearing { at2s leg with latch := some ⟨1, 3, 0⟩ }, 3, hears_three ⟨rfl, rfl⟩ rfl rfl, quiet rfl rfl,
      by decide +kernel⟩,
    fun state _ => ⟨hearing (dueA (at2s leg) state), 3, hears_three ⟨rfl, rfl⟩ rfl rfl, quiet rfl rfl, Or.inr rfl, rfl,
      rfl⟩⟩

/-- Channel A of a conveyor station leaves AUTO at a HALT, at a frame of the own number, at an OFF and at a MANUAL
request, at a short coil and at the halt button; substate, command and stall start go with it. -/
theorem test_beltLeavesAuto :
    ∀ u ∈ [run (.haltFrame 2000000 3 1 0) (hearing rolling), run (.releaseFrame 2000000 5) (hearing rolling),
        rolling.modeRequest belt .a 0, rolling.modeRequest belt .a 1,
        run (.conversionComplete 2000025 4095) { withA rolling fun ch => { ch with out := 500 } with
          converter := ⟨some ⟨.check .a 300, 2000000⟩, none, none, none, none, none⟩ },
        run (.debounceExpiry 2000000 0) (bouncing rolling 0 true)],
      u.chanA.state ≠ .auto ∧ u.conveyor = some Conveyor.atStart := by decide +kernel

/-- What persists: a halt button down, on the first input that has its function; a full chamber; neither, on a station
with a conveyor and on one without. -/
theorem witness_ReleaseFramesClearTheLatch_persisting :
    (∃ s : State, s.settings = none) ∧
    (∃ (s : State) (st : Settings) (i : Fin 6), s.settings = some st ∧ st.functions[i] = .haltButton ∧
      (∀ j : Fin 6, j < i → st.functions[j] ≠ .haltButton) ∧ s.inputs[i].level = true) ∧
    ∀ full ∈ [false, true], ∃ (s : State) (st : Settings) (k : Conveyor) (cv : ConveyorDef), s.settings = some st ∧
      (∀ i : Fin 6, st.functions[i] = .haltButton → s.inputs[i].level = false) ∧ s.conveyor = some k ∧
      st.conveyor = some cv ∧ k.full = full := by
  refine ⟨⟨State.reset, rfl⟩, ⟨{ at2s { leg with functions := #v[.none, .haltButton, .none, .none, .none, .none] } with
      inputs := State.reset.inputs.set 1 ⟨true, true, none⟩ },
    { leg with functions := #v[.none, .haltButton, .none, .none, .none, .none] }, 1, by decide +kernel⟩,
    fun full h => ⟨{ at2s belt with conveyor := some { Conveyor.atStart with full := full } }, belt,
      { Conveyor.atStart with full := full }, beltConveyor, ?_⟩⟩
  simp only [List.mem_cons, List.not_mem_nil, or_false] at h
  rcases h with rfl | rfl <;> decide +kernel

/-- A LATCHED station whose HALT_INPUT is not active, and one whose halt button is down. -/
theorem witness_ReleaseFramesClearTheLatch :
    (∃ (s : State) (st : Settings), s.settings = some st ∧ s.latch = none) ∧
    (∃ st : Settings, st.release.getLsbD (stationOf 3).toNat = false) ∧
    ∀ level ∈ [false, true], ∃ (s : State) (source : Byte) (st : Settings), s.hears source ∧ s.settings = some st ∧
      (∀ f, s.unwatched f) ∧ s.atWork ∧ stationOf source ≠ 0 ∧ st.release.getLsbD (stationOf source).toNat = true ∧
      s.latch ≠ none ∧ (level = false → s.persistingCause = none) ∧
      (level = true → s.persistingCause = some (1, 0)) ∧ (s.channel .a).state = .held ∧
      (s.channel .a).cause = some .latch := by
  refine ⟨⟨at2s leg, leg, rfl, rfl⟩, ⟨leg, by decide⟩, fun level h => ?_⟩
  refine ⟨hearing (withA { at2s leg with latch := some ⟨1, 3, 0⟩, inputs := State.reset.inputs.set 0 ⟨level, level, none⟩ }
    fun ch => { ch with state := .held, cause := some .latch }), 12, leg, ?_, rfl, quiet rfl rfl, ?_⟩
  · exact ⟨⟨rfl, rfl⟩, ⟨Or.inr rfl, rfl⟩, show stationOf 12 ≠ 5 by decide⟩
  · simp only [List.mem_cons, List.not_mem_nil, or_false] at h
    rcases h with rfl | rfl <;> decide +kernel

/-! ### Service commands and the image store -/

/-- Rows 0 and 63, an unlocked store, a blank row. -/
theorem witness_ServiceCommandsArePerformed :
    ∀ row ∈ [(0 : Byte), 63], ∃ (s : State) (h : ServiceHeader), s.hears h.source ∧ s.takesService h ∧
      s.store.op = none ∧ h.row = row ∧ h.row.toNat < 64 ∧ s.store.locked = false ∧
      Memory.rowBlank s.store.cells h.row.toNat = true ∧ Memory.wf s.store.cells := by
  intro row h
  refine ⟨service, ⟨3, 5, row⟩, ?_⟩
  unfold State.hears
  simp only [List.mem_cons, List.not_mem_nil, or_false] at h
  rcases h with rfl | rfl <;> decide +kernel

/-- A BUSY store; row 64; a LOCKED cell; a written row; a frame for another station; LISTENING and RUNNING, with a watch
that matches a SERVICE frame and with none. -/
theorem witness_ServiceRefusalsInOrder :
    badCommand 0 none = true ∧
    (∃ (s : State) (h : ServiceHeader), s.hears h.source ∧ s.takesService h ∧ s.store.op ≠ none) ∧
    (∃ (s : State) (h : ServiceHeader), s.hears h.source ∧ s.takesService h ∧ s.store.op = none ∧ h.row.toNat = 64) ∧
    (∃ (s : State) (h : ServiceHeader), s.hears h.source ∧ s.takesService h ∧ s.store.op = none ∧ h.row.toNat = 63 ∧
      s.store.locked = true) ∧
    (∃ (s : State) (h : ServiceHeader), s.hears h.source ∧ s.takesService h ∧ s.store.op = none ∧ h.row.toNat = 63 ∧
      s.store.locked = false ∧ Memory.rowBlank s.store.cells h.row.toNat = false) ∧
    (∃ (s : State) (h : ServiceHeader), s.hears h.source ∧ ¬ s.takesService h ∧ ¬ s.atWork) ∧
    (∀ station ∈ [Station.listening, .running], ∃ (s : State) (h : ServiceHeader), s.hears h.source ∧ s.atWork ∧
      s.station = station ∧ ∀ f, s.unwatched f) ∧
    ∃ (s : State) (st : Settings) (h : ServiceHeader), s.hears h.source ∧ s.atWork ∧ s.settings = some st ∧
      st.watches[0].fits (serviceWire h 6 []).window = true ∧ st.watches[0].action = .latch := by
  refine ⟨by decide, ⟨{ service with store := ⟨[], false, some ⟨.eraseAll, 0, 5⟩⟩ }, ⟨3, 5, 0⟩, ?_⟩,
    ⟨service, ⟨3, 5, 64⟩, ?_⟩, ⟨{ service with store := ⟨[], true, none⟩ }, ⟨3, 5, 63⟩, ?_⟩,
    ⟨{ service with store := ⟨[(1023, 0)], false, none⟩ }, ⟨3, 5, 63⟩, ?_⟩, ⟨service, ⟨3, 6, 0⟩, ?_⟩,
    fun station h => ⟨hearing { at2s leg with station := station }, ⟨3, 5, 0⟩, hears_three ⟨rfl, rfl⟩ rfl rfl, ?_, rfl,
      quiet rfl rfl⟩,
    hearing (at2s { leg with watches := #v[⟨[0x50], [0xFF], .latch⟩, idleWatch, idleWatch, idleWatch] }), _, ⟨3, 5, 0⟩,
    hears_three ⟨rfl, rfl⟩ rfl rfl, Or.inr rfl, rfl, ?_, rfl⟩
  case refine_6 =>
    simp only [List.mem_cons, List.not_mem_nil, or_false] at h
    rcases h with rfl | rfl <;> decide +kernel
  all_goals first
    | decide +kernel
    | (unfold State.hears; decide +kernel)

/-- An operation of each kind whose completion time is just reached. -/
theorem witness_StoreOperationsComplete :
    ∀ command ∈ [StoreCommand.writeRow (List.replicate 16 7), .eraseRow, .eraseAll, .blankCheck], ∃ (s : State) (t : Nat)
      (op : StoreOp), s.store.op = some op ∧ op.command = command ∧ s.due t (some op.done) op.done ∧
      Memory.wf s.store.cells := by
  intro command _
  refine ⟨{ service with store := ⟨[(16, 1)], false, some ⟨command, 1, 2003⟩⟩ }, 2003000, ⟨command, 1, 2003⟩, rfl, rfl,
    ⟨⟨rfl, rfl⟩, rfl, show reached (BitVec.ofNat 32 (2003000 / 1000)) 2003 = true by decide⟩,
    show Memory.wf [(16, 1)] by decide⟩

/-- WRITE_ROW begun and completed with the row as written: OK, and the row reads so. -/
theorem test_writeRow :
    let s := run (.writeRowComplete 2003000 (Vector.replicate 16 7)) (run (.writeRow 2000000 ⟨3, 5, 1⟩ (Vector.replicate 16 7)) service)
    s.line.control.reply = some ⟨0, 1, []⟩ ∧ Memory.row s.store.cells 1 = List.replicate 16 7 ∧ s.store.op = none := by
  decide +kernel

/-! ### Ageing and groups -/

/-- Ages one past the fresh limit, at it, one past the expiry limit, and at it. -/
theorem witness_EntriesAge :
    ∀ p ∈ [(EntryState.fresh, 2001000), (.fresh, 2000000), (.aged, 2901000), (.aged, 2900000)], ∃ (s : State) (st : Settings)
      (k : Key) (e : Entry) (d : QuantityDef) (arrival : Clock), s.runs ∧ s.settings = some st ∧
      s.table.find k = some e ∧ st.quantity k.code = some d ∧ e.arrival = some arrival ∧ e.state = p.1 ∧
      (p.2 = 2001000 → since (s.tick p.2).clock arrival = d.fresh + 1) ∧
      (p.2 = 2000000 → since (s.tick p.2).clock arrival = d.fresh) ∧
      (p.2 = 2901000 → since (s.tick p.2).clock arrival = d.expiry + 1) ∧
      (p.2 = 2900000 → since (s.tick p.2).clock arrival = d.expiry) := by
  intro p h
  refine ⟨holding (at2s leg) [entry ⟨3, 1, 0⟩ p.1 5], leg, ⟨3, 1, 0⟩, entry ⟨3, 1, 0⟩ p.1 5, ⟨1, 100, 1000, -1000, 30000⟩,
    1900, ?_⟩
  simp only [List.mem_cons, List.not_mem_nil, or_false] at h
  rcases h with rfl | rfl | rfl | rfl <;> decide +kernel

/-- An evaluation that is due: with a usable entry, and without one. -/
theorem witness_GroupEvaluationRecordsAndDelivers :
    ∀ state ∈ [EntryState.fresh, .expired], ∃ (s : State) (t : Nat) (st : Settings) (g : GroupDef) (run : GroupRun)
      (expiry : Clock) (x : Entry) (d : QuantityDef), s.settings = some st ∧ st.groups[0] = some g ∧
      s.groups[0] = some run ∧ s.due t run.timer expiry ∧ s.table.find (g.key s.number st.side) = some x ∧
      st.quantity (g.key s.number st.side).code = some d ∧
      (state = .fresh → g.evaluate (g.key s.number st.side) s.table.entries = some (5, .good)) ∧
      (state = .expired → g.evaluate (g.key s.number st.side) s.table.entries = none) := by
  intro state h
  refine ⟨holding (measured (at2s leg) 400) [entry ⟨3, 1, 0⟩ state 5, entry ⟨5, 6, 0⟩ .fresh 7], 2000000, leg, meanGroup,
    ⟨⟨.evaluated, some .good, some 400⟩, some 2000⟩, 2000, entry ⟨5, 6, 0⟩ .fresh 7, ⟨6, 100, 1000, -1000, 30000⟩, ?_⟩
  unfold State.due
  simp only [List.mem_cons, List.not_mem_nil, or_false] at h
  rcases h with rfl | rfl <;> decide +kernel

/-- A SLOPE group with an arm of one tenth; its base and its slope pattern. -/
def slopeGroup : GroupDef :=
  { meanGroup with mode := .slope, patterns := [⟨some 3, 1, none, 0, 2, true⟩, ⟨none, 1, none, 0, 0, true⟩], minimum := 2, arm := 1000 }

/-- SLOPE on entries in key order: both terms, the base's first entry and the slope's first other one, where either may be
marked; a base alone; and none. -/
theorem witness_GroupEvaluationRecordsAndDelivers_slope :
    slopeGroup.mode = .slope ∧ slopeGroup.patterns = [⟨some 3, 1, none, 0, 2, true⟩, ⟨none, 1, none, 0, 0, true⟩] ∧
    slopeGroup.minimum ≤ 2 ∧
    (∀ entries ∈ [[entry ⟨3, 1, 0⟩ .fresh 5, entry ⟨3, 1, 1⟩ .fresh 8, entry ⟨4, 1, 0⟩ .fresh 9], [entry ⟨3, 1, 0⟩ .fresh 5], []],
      entries.Pairwise fun x y => keyRank x.key < keyRank y.key) ∧
    slopeGroup.evaluate ⟨5, 6, 0⟩ [entry ⟨3, 1, 0⟩ .fresh 5, entry ⟨3, 1, 1⟩ .fresh 84, entry ⟨4, 1, 0⟩ .fresh 9] =
      some (15, .good) ∧
    slopeGroup.evaluate ⟨5, 6, 0⟩ [entry ⟨3, 1, 0⟩ .fresh 5,
      { entry ⟨3, 1, 1⟩ .fresh 84 with quality := some .suspect }] = some (15, .suspect) ∧
    slopeGroup.evaluate ⟨5, 6, 0⟩ [entry ⟨3, 1, 0⟩ .fresh 5] = none ∧
    slopeGroup.evaluate ⟨5, 6, 0⟩ [entry ⟨4, 1, 0⟩ .fresh 5] = none := by decide +kernel

/-- Seven usable entries of one pattern, of which six contribute; a required pattern that claims nothing; too few; and a
term that the clamp changes. -/
theorem witness_MeanIsOfUsableEntriesAndBetweenTerms_claims :
    ((([0, 1, 2, 4, 6, 7, 8].map fun n => entry ⟨BitVec.ofNat 4 n, 1, 0⟩ .fresh n).Pairwise fun x y =>
        keyRank x.key < keyRank y.key) ∧
      (meanGroup.meanClaims ⟨5, 6, 0⟩ ([0, 1, 2, 4, 6, 7, 8].map fun n => entry ⟨BitVec.ofNat 4 n, 1, 0⟩ .fresh n)).map
        (fun c => c.key.source) = [0, 1, 2, 4, 6, 7]) ∧
    { meanGroup with patterns := [⟨none, 2, none, 1, 0, true⟩, ⟨none, 1, none, 1, 0, false⟩] }.mean ⟨5, 6, 0⟩
      [entry ⟨3, 1, 0⟩ .fresh 5] = none ∧
    { meanGroup with minimum := 2 }.mean ⟨5, 6, 0⟩ [entry ⟨3, 1, 0⟩ .fresh 5] = none ∧
    { meanGroup with patterns := [⟨none, 1, none, 1, 32767, false⟩] }.mean ⟨5, 6, 0⟩ [entry ⟨3, 1, 0⟩ .fresh 5] =
      some (32767, .suspect) := by decide +kernel

theorem witness_MeanIsOfUsableEntriesAndBetweenTerms :
    ∃ (g : GroupDef) (own : Key) (entries : List Entry) (v : Int) (q : ResultQuality) (c : Claim), 1 ≤ g.minimum ∧
      (∀ p ∈ g.patterns, 1 ≤ p.weight) ∧ g.mean own entries = some (v, q) ∧ c ∈ g.meanClaims own entries :=
  ⟨meanGroup, ⟨5, 6, 0⟩, [entry ⟨3, 1, 0⟩ .fresh 5], 5, .good, ⟨⟨3, 1, 0⟩, 0, 5, 1, 0, false⟩, by decide +kernel⟩

/-! ### Local acquisition -/

/-- A due scan timer on an idle and on a busy converter, with a scan in flight, and a due clear timer. -/
theorem witness_ScansStartAndOverrun :
    (∀ running ∈ [none, some (⟨.check .a 300, 5⟩ : Conversion)], ∃ (s : State) (t : Nat) (st : Settings) (expiry : Clock),
      s.settings = some st ∧ s.due t s.converter.scanTimer expiry ∧ s.converter.scan = none ∧
      s.converter.running = running) ∧
    (∀ faults ∈ [[], [FaultCode.scanOverrun]], ∃ (s : State) (t : Nat) (st : Settings) (expiry : Clock) (codes : List Nat),
      s.settings = some st ∧ s.due t s.converter.scanTimer expiry ∧ s.converter.scan = some codes ∧ s.faults = faults) ∧
    ∃ (s : State) (t : Nat) (expiry : Clock), s.due t s.converter.overrunTimer expiry ∧ .scanOverrun ∈ s.faults :=
  ⟨fun running _ => ⟨{ at2s leg with converter := ⟨running, none, none, none, some 2000, none⟩ }, 2000000, leg, 2000, rfl,
      ⟨⟨rfl, rfl⟩, rfl, show reached (BitVec.ofNat 32 (2000000 / 1000)) 2000 = true by decide⟩, rfl, rfl⟩,
    fun faults _ => ⟨{ at2s leg with converter := ⟨none, some [7], none, none, some 2000, none⟩, faults := faults },
      2000000, leg, 2000, [7], rfl,
      ⟨⟨rfl, rfl⟩, rfl, show reached (BitVec.ofNat 32 (2000000 / 1000)) 2000 = true by decide⟩, rfl, rfl⟩,
    { at2s leg with converter := ⟨none, none, none, none, none, some 2000⟩, faults := [.scanOverrun] }, 2000000, 2000,
    by unfold State.due; decide +kernel⟩

/-- A conversion just 25 µs old: before the last position, and at it, with raw values at the window's ends; with no
coil check waiting, with channel B's, and with both. -/
theorem witness_ScanConversionsComplete :
    (∃ (s : State) (t began : Nat) (st : Settings) (codes : List Nat), s.runs ∧ s.settings = some st ∧
      s.converter.running = some ⟨.scan, began⟩ ∧ began + 25 = max s.now t ∧ s.converter.scan = some codes ∧
      codes.length + 1 < st.scanList.length) ∧
    ∀ p ∈ [(39, false), (40, true), (4055, true), (4056, false)],
      ∀ w ∈ [((none, none) : Option Int × Option Int), (none, some 300), (some 300, some 200)], ∃ (s : State) (t began : Nat) (st : Settings)
      (codes : List Nat) (x : SourceDef) (positions : List Nat) (e : Entry) (d : QuantityDef), s.runs ∧ s.settings = some st ∧
      s.converter.running = some ⟨.scan, began⟩ ∧ began + 25 = max s.now t ∧ s.converter.scan = some codes ∧
      codes.length + 1 = st.scanList.length ∧ s.smoothing.length = st.sources.length ∧ st.sources[0]? = some x ∧
      (st.sources.map fun x => x.key s.number).Nodup ∧ s.table.find (x.key s.number) = some e ∧
      st.quantity x.code = some d ∧ x.kind = .analog positions ∧ analogRaw positions (codes ++ [5]) = p.1 ∧
      p.2 = decide (40 ≤ analogRaw positions (codes ++ [5]) ∧ analogRaw positions (codes ++ [5]) ≤ 4055) ∧
      s.converter.requestA = w.1 ∧ s.converter.requestB = w.2 := by
  refine ⟨⟨{ at2s leg with converter := ⟨some ⟨.scan, 2000000⟩, some [], none, none, none, none⟩ }, 2000025, 2000000, leg, [],
    by decide +kernel⟩, fun p h w hw => ?_⟩
  refine ⟨{ holding (at2s leg) [entry ⟨5, 1, 0⟩ .fresh 1] with
      converter := ⟨some ⟨.scan, 2000000⟩, some [p.1.toNat], w.1, w.2, none, none⟩ }, 2000025, 2000000,
    leg, [p.1.toNat], ⟨.analog [0], 1, 0, 4096, 0, 0, false⟩, [0], entry ⟨5, 1, 0⟩ .fresh 1, ⟨1, 100, 1000, -1000, 30000⟩, ?_⟩
  simp only [List.mem_cons, List.not_mem_nil, or_false] at h hw
  rcases h with rfl | rfl | rfl | rfl <;> rcases hw with rfl | rfl | rfl <;> decide +kernel

/-- The bounds of R110 on numbers: 150 % and just above, 25 % and just below, and a channel without an output. -/
theorem witness_CoilChecksAreJudged :
    (∃ (s : State) (t began : Nat) (st : Settings) (target : Int), s.runs ∧ s.settings = some st ∧
      s.converter.running = some ⟨.check .a target, began⟩ ∧ began + 25 = max s.now t ∧ (s.channel .a).state = .auto ∧
      (s.channel .a).out ≠ 0 ∧ (s.channel .a).openRun = 2) ∧
    (∃ s : State, (s.channel .a).state = .off) ∧
    (∃ (raw : BitVec 12) (target : Int), roundDiv (raw.toNat * 3000) 4095 * 2 = 3 * target) ∧
    (∃ (raw : BitVec 12) (target : Int), 3 * target < 2 * roundDiv (raw.toNat * 3000) 4095) ∧
    (∃ raw : BitVec 12, 2600 < roundDiv (raw.toNat * 3000) 4095) ∧
    (∃ (raw : BitVec 12) (target : Int), target = 4 * roundDiv (raw.toNat * 3000) 4095 ∧
      2 * roundDiv (raw.toNat * 3000) 4095 ≤ 3 * target) ∧
    ∃ (raw : BitVec 12) (target : Int), 4 * roundDiv (raw.toNat * 3000) 4095 < target ∧
      2 * roundDiv (raw.toNat * 3000) 4095 ≤ 3 * target :=
  ⟨⟨{ withA (at2s leg) fun ch => { ch with state := .auto, out := 500, openRun := 2 } with
      converter := ⟨some ⟨.check .a 300, 2000000⟩, none, none, none, none, none⟩ }, 2000025, 2000000, leg, 300,
      by decide +kernel⟩,
    ⟨State.reset, rfl⟩, ⟨1229, 600, by decide⟩, ⟨1365, 600, by decide⟩, ⟨4095, by decide⟩,
    ⟨4, 12, by decide⟩, 4, 13, by decide⟩

/-- A port with an exchange 64 µs old, in each state. -/
theorem witness_RepliesWhileSyncingAreDiscarded :
    ∀ state ∈ [PortState.syncing, .tracking], ∃ (s : State) (t : Nat) (x : SerialExchange), s.runs ∧ s.port.state = state ∧
      s.port.exchange = some x ∧ x.began + 64 = max s.now t :=
  fun state _ => ⟨{ at2s leg with port := ⟨state, 0, none, some ⟨2000000, [1, 0, 0, 0]⟩, none, none⟩ }, 2000064,
    ⟨2000000, [1, 0, 0, 0]⟩, ⟨rfl, rfl⟩, rfl,
    rfl, rfl⟩

/-- A due exchange; replies that pass with status 0 and 1, one of status 2 and one of a bad check; error runs 1 and 2. -/
theorem witness_SerialExchanges :
    (∃ (s : State) (t i : Nat) (st : Settings) (x : SourceDef) (take period : Nat) (expiry : Clock), s.settings = some st ∧
      st.serialSource = some (i, x, take, period) ∧ s.due t s.port.exchangeTimer expiry) ∧
    (∀ errorRun ∈ [1, 2], ∀ faults ∈ [[], [FaultCode.portLost]], ∃ (s : State) (t : Nat) (x : SerialExchange), s.runs ∧
      s.port.state = .tracking ∧ s.port.exchange = some x ∧ x.began + 64 = max s.now t ∧ s.port.errorRun = errorRun ∧
      s.faults = faults) ∧
    (0x5A : Byte) = 0 ^^^ 0 ^^^ 0 ^^^ 0x5A ∧ (0x5B : Byte) = 1 ^^^ 0 ^^^ 0 ^^^ 0x5A ∧
    (0x58 : Byte) = 2 ^^^ 0 ^^^ 0 ^^^ 0x5A ∧ (0 : Byte) ≠ 0 ^^^ 0 ^^^ 0 ^^^ 0x5A := by
  refine ⟨⟨{ at2s leg with port := ⟨.tracking, 0, none, none, some 2000, none⟩ }, 2000000, 1, leg,
    ⟨.serial 10 20, 2, 0, 4096, 0, 0, false⟩, 10, 20, 2000, ?_⟩,
    fun errorRun _ faults _ => ⟨{ at2s leg with
        port := ⟨.tracking, errorRun, none, some ⟨2000000, [1, 0, 0, 0]⟩, none, none⟩, faults := faults },
      2000064, ⟨2000000, [1, 0, 0, 0]⟩, ⟨rfl, rfl⟩, rfl, rfl, rfl, rfl, rfl⟩, by decide⟩
  unfold State.due
  decide +kernel

/-- The request on SDO: one high bit, the eighth, and none after the thirty-second. -/
theorem test_requestOnSdo :
    let p : SerialPort := ⟨.tracking, 0, none, some ⟨2000000, [1, 0, 0, 0]⟩, none, none⟩
    (p.sdo 2000013, p.sdo 2000014, p.sdo 2000015, p.sdo 2000016, p.sdo 2000063, p.sdo 2000064) =
      (some false, some true, some true, some false, some false, none) := by decide +kernel

/-- A due take with each outcome in the buffer, an empty buffer, and a smoothed value or none. -/
theorem witness_SerialTakes :
    ∀ p ∈ [((some (.value 300) : Option ReplyOutcome), (none : Option Int)), (some .notReady, some 5), (some .notReady, none),
      (some .lost, some 5), (none, some 5)], ∃ (s : State) (t i : Nat) (st : Settings) (x : SourceDef)
      (take period : Nat) (expiry : Clock) (e : Entry) (d : QuantityDef), s.settings = some st ∧
      st.serialSource = some (i, x, take, period) ∧ s.due t s.port.takeTimer expiry ∧
      s.table.find (x.key s.number) = some e ∧ st.quantity x.code = some d ∧ i < s.smoothing.length ∧
      s.port.buffer = p.1 ∧ s.smoothed i = p.2 :=
  fun p _ => ⟨{ holding (at2s leg) [entry ⟨5, 2, 0⟩ .fresh 1] with
      port := ⟨.tracking, 0, p.1, none, none, some 2000⟩, smoothing := [none, p.2, none] }, 2000000, 1, leg,
    ⟨.serial 10 20, 2, 0, 4096, 0, 0, false⟩, 10, 20, 2000, entry ⟨5, 2, 0⟩ .fresh 1, ⟨2, 100, 1000, -1000, 30000⟩, rfl,
    rfl, ⟨⟨rfl, rfl⟩, rfl, show reached (BitVec.ofNat 32 (2000000 / 1000)) 2000 = true by decide⟩, rfl,
    by decide +kernel, show 1 < 3 by decide, rfl, rfl⟩

/-- A first edge, an edge 49 µs and one 50 µs after the last, and an expiry of the edge timer. -/
theorem witness_PulseInputsCapture :
    (∀ last ∈ [none, some (1999951 : BitVec 32), some 1999950], ∃ (s : State) (i : Nat) (st : Settings) (x : SourceDef)
      (constant timeout update : Nat), s.runs ∧ s.settings = some st ∧
      st.pulseSource .pls0 = some (i, x, constant, timeout, update) ∧ (s.pulse .pls0).lastEdge = last ∧ s.now = 2000000) ∧
    ((2000000 : BitVec 32) - 1999951).toNat = 49 ∧ ((2000000 : BitVec 32) - 1999950).toNat = 50 ∧
    ∃ (s : State) (t i : Nat) (st : Settings) (x : SourceDef) (constant timeout update : Nat) (expiry : Clock)
      (last : BitVec 32), s.settings = some st ∧ st.pulseSource .pls0 = some (i, x, constant, timeout, update) ∧
      s.due t (s.pulse .pls0).edgeTimer expiry ∧ (s.pulse .pls0).lastEdge = some last ∧
      (BitVec.ofNat 32 (max s.now t) - last).toNat = 50 ∧ 0 < timeout ∧ timeout < 2 ^ 31 := by
  refine ⟨fun last _ => ⟨{ at2s leg with pulse0 := ⟨last, [], none, none⟩ }, 2, leg,
    ⟨.pulse .pls0 1000000 100 50, 3, 0, 4096, 0, 0, false⟩, 1000000, 100, 50, ⟨rfl, rfl⟩, rfl, rfl, rfl, rfl⟩, by decide,
    by decide, { at2s leg with pulse0 := ⟨some 1999950, [7], some 2000, none⟩ }, 2000000, 2, leg,
    ⟨.pulse .pls0 1000000 100 50, 3, 0, 4096, 0, 0, false⟩, 1000000, 100, 50, 2000, 1999950, ?_⟩
  unfold State.due
  decide +kernel

/-- A due update with an empty ring and with two periods. -/
theorem witness_PulseSourcesDeliverTheSpeed :
    ∀ ring ∈ [[], [(1000 : BitVec 32), 1001]], ∃ (s : State) (t i : Nat) (st : Settings) (x : SourceDef)
      (constant timeout period : Nat) (expiry : Clock) (e : Entry) (d : QuantityDef), s.settings = some st ∧
      st.pulseSource .pls0 = some (i, x, constant, timeout, period) ∧ s.due t (s.pulse .pls0).updateTimer expiry ∧
      s.table.find (x.key s.number) = some e ∧ st.quantity x.code = some d ∧ i < s.smoothing.length ∧
      (s.pulse .pls0).ring = ring :=
  fun ring _ => ⟨{ holding (at2s leg) [entry ⟨5, 3, 0⟩ .fresh 1] with pulse0 := ⟨none, ring, none, some 2000⟩ }, 2000000, 2,
    leg, ⟨.pulse .pls0 1000000 100 50, 3, 0, 4096, 0, 0, false⟩, 1000000, 100, 50, 2000, entry ⟨5, 3, 0⟩ .fresh 1,
    ⟨3, 100, 1000, -1000, 30000⟩, rfl, rfl,
    ⟨⟨rfl, rfl⟩, rfl, show reached (BitVec.ofNat 32 (2000000 / 1000)) 2000 = true by decide⟩, rfl,
    by decide +kernel, show 2 < 3 by decide, rfl⟩

/-! ### Discrete inputs and the panel -/

/-- A pin change at work and in LOADING; a debounce that is due on an input of each function of a leg; a release press
with and without an active cause. -/
theorem witness_DiscreteInputsAreDebounced :
    (∃ (s : State) (i : Fin 6) (level : Bool), s.runs ∧ s.inputs[i].pin ≠ level ∧ s.atWork) ∧
    (∃ (s : State) (i : Fin 6) (level : Bool), s.runs ∧ s.inputs[i].pin ≠ level ∧ ¬ s.atWork) ∧
    (∀ p ∈ [((0 : Fin 6), true), (0, false), (1, true), (5, true)], ∃ (s : State) (t : Nat) (expiry : Clock),
      s.settings = some leg ∧ s.due t s.inputs[p.1].timer expiry ∧ s.inputs[p.1].pin = p.2 ∧ s.atWork ∧ s.latch = none ∧
      (s.channel .a).state = .manual ∧ (p.1 = 1 → s.persistingCause = none)) ∧
    (leg.functions[0] = .haltButton ∧ leg.functions[1] = .releaseButton ∧ leg.functions[5] = .none) ∧
    ∃ (s : State) (t : Nat) (expiry : Clock), s.settings = some leg ∧ s.due t s.inputs[1].timer expiry ∧
      s.inputs[1].pin = true ∧ s.atWork ∧ s.persistingCause ≠ none := by
  refine ⟨⟨at2s leg, 0, true, by decide +kernel⟩, ⟨State.reset, 0, true, by decide⟩, fun p h => ?_, by decide +kernel,
    bouncing { at2s leg with inputs := State.reset.inputs.set 0 ⟨true, true, none⟩ } 1 true, 2000000, 2000, ?_⟩
  · refine ⟨bouncing (dueA (at2s leg) .manual) p.1 p.2, 2000000, 2000, ?_⟩
    unfold State.due
    simp only [List.mem_cons, List.not_mem_nil, or_false] at h
    rcases h with rfl | rfl | rfl | rfl <;> decide +kernel
  · unfold State.due
    decide +kernel

/-- The halt button going high under a LATCHED latch, and either button outside LISTENING and RUNNING; the release button pressed under a
LATCHED latch, with a HALT pending and one in flight, BELT_STALL standing and a channel HELD by the latch; its release. -/
theorem witness_DiscreteInputsAreDebounced_latched :
    (∃ (s : State) (t : Nat) (expiry : Clock), s.settings = some leg ∧ s.due t s.inputs[0].timer expiry ∧
      s.inputs[0].pin = true ∧ s.atWork ∧ s.latch ≠ none) ∧
    (∀ i ∈ [(0 : Fin 6), 1], ∃ (s : State) (t : Nat) (expiry : Clock), s.settings = some leg ∧
      s.due t s.inputs[i].timer expiry ∧ s.inputs[i].pin = true ∧ ¬ s.atWork) ∧
    ∀ pin ∈ [false, true], ∃ (s : State) (t : Nat) (expiry : Clock) (f : Flight), s.settings = some leg ∧ s.atWork ∧
      s.due t s.inputs[1].timer expiry ∧ s.inputs[1].pin = pin ∧ s.persistingCause = none ∧ s.latch ≠ none ∧
      s.line.control.halt ≠ none ∧ s.line.flight = some f ∧ f.frame = .halt 1 0 ∧ s.faults = [.beltStall] ∧
      (s.channel .a).state = .held ∧ (s.channel .a).cause = some .latch := by
  refine ⟨⟨bouncing { at2s leg with latch := some ⟨1, 3, 0⟩ } 0 true, 2000000, 2000, ?_⟩,
    fun i h => ⟨bouncing { at2s leg with station := .loading } i true, 2000000, 2000, ?_⟩, fun pin h => ?_⟩
  · unfold State.due; decide +kernel
  · unfold State.due
    simp only [List.mem_cons, List.not_mem_nil, or_false] at h
    rcases h with rfl | rfl <;> decide +kernel
  · refine ⟨bouncing (withA { flying (.halt 1 0) false ⟨some (1, 0), false, none, false⟩ [] 0 with
      latch := some ⟨1, 5, 0⟩, faults := [.beltStall] } fun ch => { ch with state := .held, cause := some .latch }) 1 pin,
      2000000, 2000, ⟨.halt 1 0, 2000000, false⟩, ?_⟩
    unfold State.due
    simp only [List.mem_cons, List.not_mem_nil, or_false] at h
    rcases h with rfl | rfl <;> decide +kernel

/-- A truck hold of either level in LISTENING and RUNNING; a press in LISTENING; a button released in RUNNING. -/
theorem witness_PanelValuesAreSetAndDelivered_levels :
    (∀ station ∈ [Station.listening, .running], ∀ level ∈ [false, true], ∃ (s : State) (t : Nat) (st : Settings)
      (expiry : Clock) (p : PanelValues) (e : Entry) (q : QuantityDef), s.settings = some st ∧ s.atWork ∧
      s.station = station ∧ s.due t s.inputs[0].timer expiry ∧ s.panel = some p ∧ st.functions[0] = .truckHold ∧
      s.inputs[0].pin = level ∧ s.table.find ⟨s.number, Config.loadHold, 2⟩ = some e ∧
      st.quantity Config.loadHold = some q) ∧
    ∀ x ∈ [(Station.listening, true, InputFunction.stepUpL), (.running, false, .stepUpL), (.running, false, .releaseButton)],
      ∃ (s : State) (t : Nat) (st : Settings) (expiry : Clock),
      s.settings = some st ∧ s.due t s.inputs[0].timer expiry ∧ s.station = x.1 ∧ s.inputs[0].pin = x.2.1 ∧
      st.functions[0] = x.2.2 := by
  refine ⟨fun station hs level hl => ?_, fun x hx => ?_⟩
  · let st : Settings := { desk with
      functions := #v[.truckHold, .none, .none, .none, .none, .none], quantities := [⟨17, 100, 1000, -1000, 30000⟩] }
    refine ⟨{ holding (bouncing (at2s st) 0 level) [entry ⟨5, 17, 2⟩ .fresh 1] with
      station := station, panel := some ⟨0, 4000, ⟨127, 0⟩, ⟨0, 0⟩, false, some 2000⟩ }, 2000000, st, 2000,
      ⟨0, 4000, ⟨127, 0⟩, ⟨0, 0⟩, false, some 2000⟩, entry ⟨5, 17, 2⟩ .fresh 1, ⟨17, 100, 1000, -1000, 30000⟩, ?_⟩
    unfold State.due
    simp only [List.mem_cons, List.not_mem_nil, or_false] at hs hl
    rcases hs with rfl | rfl <;> rcases hl with rfl | rfl <;> decide +kernel
  · let st : Settings := { desk with functions := #v[x.2.2, .none, .none, .none, .none, .none] }
    refine ⟨{ bouncing (at2s st) 0 x.2.1 with station := x.1 }, 2000000, st, 2000, ?_⟩
    unfold State.due
    simp only [List.mem_cons, List.not_mem_nil, or_false] at hx
    rcases hx with rfl | rfl | rfl <;> decide +kernel

/-- A panel in RUNNING with a press of each function due, its values at the lower end; and a due refresh. -/
theorem witness_PanelValuesAreSetAndDelivered :
    (∀ f ∈ [InputFunction.stepUpL, .stepDownL, .stepUpR, .stepDownR, .liftAll, .returnAll, .autoAll, .manualAll, .offAll,
      .truckHold], ∃ (s : State) (t : Nat) (st : Settings) (expiry : Clock) (d : PanelDef) (p : PanelValues),
      s.settings = some st ∧ s.station = .running ∧ s.due t s.inputs[0].timer expiry ∧ st.panel = some d ∧
      s.panel = some p ∧ s.inputs[0].pin = true ∧ st.functions[0] = f ∧ p.left = d.lo) ∧
    ∃ (s : State) (t : Nat) (st : Settings) (expiry : Clock) (d : PanelDef) (p : PanelValues) (e : Entry) (q : QuantityDef),
      s.settings = some st ∧ st.panel = some d ∧ s.panel = some p ∧ s.due t p.timer expiry ∧
      s.table.find ⟨s.number, Config.depthTarget, 0⟩ = some e ∧ st.quantity Config.depthTarget = some q :=
  ⟨fun f _ => ⟨{ bouncing (at2s { desk with functions := #v[f, .none, .none, .none, .none, .none] }) 0 true with
      panel := some ⟨0, 4000, ⟨127, 0⟩, ⟨0, 0⟩, false, some 2000⟩ }, 2000000,
      { desk with functions := #v[f, .none, .none, .none, .none, .none] }, 2000, ⟨0, 4000, 10, 1900, 1900, 100⟩,
      ⟨0, 4000, ⟨127, 0⟩, ⟨0, 0⟩, false, some 2000⟩, rfl, rfl,
      ⟨⟨rfl, rfl⟩, rfl, show reached (BitVec.ofNat 32 (2000000 / 1000)) 2000 = true by decide⟩, rfl, rfl, rfl, rfl, rfl⟩,
    { holding (at2s desk) [entry ⟨5, 8, 0⟩ .fresh 1] with panel := some ⟨0, 4000, ⟨127, 0⟩, ⟨0, 0⟩, false, some 2000⟩ },
    2000000, desk, 2000, ⟨0, 4000, 10, 1900, 1900, 100⟩, ⟨0, 4000, ⟨127, 0⟩, ⟨0, 0⟩, false, some 2000⟩,
    entry ⟨5, 8, 0⟩ .fresh 1, ⟨8, 100, 1000, -1000, 30000⟩, by unfold State.due; decide +kernel⟩

/-! ### Publication -/

/-- A due publication: of an entry that gives a sample, with its key queued and not; and of one that is VACANT. -/
theorem witness_PublicationEventsQueueASample :
    (∀ p ∈ [(EntryState.fresh, ([] : List QueuedSample)), (.fresh, [⟨1, 0, .good, 9⟩]), (.vacant, [])], ∃ (s : State)
      (t : Nat) (d : PublicationDef) (run : PublicationRun) (expiry : Clock), s.settings = some leg ∧
      leg.publication 1 0 = some d ∧ findPublication s.publications 1 0 = some run ∧ s.due t run.timer expiry ∧
      s.line.queue = p.2 ∧ (p.1 = .fresh → s.produce leg 1 0 = some (.good, 5)) ∧
      (p.1 = .vacant → s.produce leg 1 0 = none)) ∧
    ((1 : BitVec 6) ≠ Config.channelOutput ∧ (1 : BitVec 6) ≠ Config.chamberFill) ∧
    (∃ (st : Settings) (cv : ConveyorDef) (s : State) (k : Conveyor), st.conveyor = some cv ∧ s.conveyor = some k) := by
  refine ⟨fun p h => ⟨{ holding (at2s leg) [entry ⟨5, 1, 0⟩ p.1 5] with
    publications := [⟨1, 0, some 2000, 255⟩], line := { (at2s leg).line with queue := p.2 } }, 2000000, ⟨1, 0, 50⟩,
    ⟨1, 0, some 2000, 255⟩, 2000, ?_⟩, by decide, belt, beltConveyor,
    at2s belt, .atStart, by decide +kernel⟩
  unfold State.due
  simp only [List.mem_cons, List.not_mem_nil, or_false] at h
  rcases h with rfl | rfl | rfl <;> decide +kernel

/-! ### Channels -/

theorem witness_ControlFormulas :
    0 ≤ depthDef.deadband ∧ 0 ≤ depthDef.umax ∧ 0 ≤ depthDef.slew ∧ depthDef.role ≠ .belt ∧
    (∃ (p : PlungeDef) (v : Int), p.limit = v) ∧
    (∀ k ∈ [(RateState.fallback, (1 : Int), (1 : Int)), (.computed, 1, 1), (.holding, 0, 1), (.computed, 0, 0)],
      ∃ x : Conveyor, x.rate = k.1 ∧ x.loose = k.2.1 ∧ x.content = k.2.2) ∧
    (ramp 100 110 10 = 110 ∧ ramp 100 111 10 = 110 ∧ ramp 100 89 10 = 90) ∧
    (∃ (s : State) (run : GroupRun), s.groups[0]? = some (some run) ∧
      s.derivedValue { depthDef with target := .derived 0 } = run.record.value ∧
      s.derivedValue { depthDef with target := .derived 1 } = none ∧ s.validResult 0 = some 400 ∧
      s.activeGroup [1, 0] = some (0, 400) ∧ s.activeGroup [1, 2] = none) :=
  ⟨by decide, by decide, by decide, by decide, ⟨⟨0, 5, 6⟩, 5, rfl⟩,
    fun k _ => ⟨{ Conveyor.atStart with rate := k.1, loose := k.2.1, content := k.2.2 }, rfl, rfl, rfl⟩, by decide,
    measured (at2s leg) 400, ⟨⟨.evaluated, some .good, some 400⟩, some 2000⟩, by decide +kernel⟩

/-- The conveyor's inputs: a belt speed that is positive, negative, FAILED and without a value; a trim beyond its range;
a hold condition by an AGED entry and by the window, and none by a value of 0, an EXPIRED entry or an own entry; and a
stall condition at its bounds. -/
theorem witness_ControlFormulas_conveyor :
    let hold (e : Entry) := (holding (at2s belt) [e]).holdCondition belt
    let ch : Channel := { (at2s belt).chanA with state := .auto, out := 200 }
    (∀ p ∈ [((some .good : Option Quality), some (5 : Int), (5 : Int)), (some .suspect, some (-5), 0), (some .failed, none, 0),
      (none, none, 0)],
      (holding (at2s belt) [{ entry ⟨5, 14, 0⟩ .fresh 0 with quality := p.1, value := p.2.1 }]).beltSpeed beltConveyor = p.2.2) ∧
    (at2s belt).table.find ⟨5, 14, 0⟩ = none ∧ (at2s belt).beltSpeed beltConveyor = 0 ∧
    (∀ p ∈ [((400 : Int), (300 : Int)), (-400, -300), (5, 5)],
      (holding (at2s belt) [entry ⟨14, 16, 2⟩ .fresh p.1]).trim belt = p.2) ∧
    (hold (entry ⟨14, 17, 3⟩ .aged 1) = true ∧ hold (entry ⟨14, 17, 2⟩ .fresh 0) = false ∧
      hold (entry ⟨14, 17, 2⟩ .expired 1) = false ∧ hold { entry ⟨5, 17, 2⟩ .fresh 1 with origin := .localSource } = false ∧
      ({ at2s belt with beltHold := some 5 } : State).holdCondition belt = true) ∧
    stallCondition ch (some 11) 1 = true ∧ stallCondition ch (some 10) 1 = false ∧ stallCondition ch none 0 = false ∧
      stallCondition { ch with out := 199 } (some 11) 1 = false ∧
      stallCondition { ch with state := .manual } (some 11) 1 = false := by decide +kernel

/-- An AUTO update that is due, with the last group the same, another, and none. -/
theorem witness_AutoUpdateDrivesTheChannel :
    ∀ last ∈ [none, some (⟨0, 390⟩ : LastUsed), some ⟨1, 390⟩], ∃ (s : State) (t : Nat) (st : Settings) (expiry : Clock)
      (g : Nat) (m : Int) (x : TargetRecord), s.settings = some st ∧ (st.channel .a).controls ∧
      s.due t (s.channel .a).updateTimer expiry ∧ (s.channel .a).state = .auto ∧
      s.activeGroup (st.channel .a).refs = some (g, m) ∧ (s.channel .a).target = some x ∧ (s.channel .a).ref.last = last :=
  fun last _ => ⟨withA (measured (dueA (at2s leg) .auto) 420) fun ch => { ch with ref := ⟨none, last⟩ }, 2000000, leg, 2000, 0,
    420, record, rfl, Or.inl rfl, ⟨⟨rfl, rfl⟩, rfl, show reached (BitVec.ofNat 32 (2000000 / 1000)) 2000 = true by decide⟩,
    rfl, rfl, rfl, rfl⟩

/-- AUTO without a group, with a resume window and with none; HELD by REF_LOST with a group at the last clock of the
window and past it, and without a group; and the window's expiry. -/
theorem witness_LostReferencesHoldAndResume :
    (∀ window ∈ [200, 0], ∃ (s : State) (t : Nat) (st : Settings) (expiry : Clock), s.settings = some st ∧
      (st.channel .a).controls ∧ s.due t (s.channel .a).updateTimer expiry ∧ (s.channel .a).state = .auto ∧
      s.activeGroup (st.channel .a).refs = none ∧ (st.channel .a).window = window) ∧
    (∀ p ∈ [((2000 : Clock), false), (1999, true)], ∃ (s : State) (t : Nat) (expiry window : Clock) (g : Nat) (m : Int)
      (y : TargetRecord), s.settings = some leg ∧ leg.chanA.controls ∧ s.due t s.chanA.updateTimer expiry ∧
      s.chanA.state = .held ∧ s.chanA.cause = some .refLost ∧ s.chanA.resumeTimer = some window ∧
      passed (s.tick t).clock window = p.2 ∧ s.activeGroup leg.chanA.refs = some (g, m) ∧
      (s.settled leg.chanA s.chanA expiry).target = some y ∧ s.chanA.ref.last = some ⟨1, 400⟩) ∧
    (∃ (s : State) (t : Nat) (expiry : Clock), s.settings = some leg ∧ leg.chanA.controls ∧
      s.due t s.chanA.updateTimer expiry ∧ s.chanA.state = .held ∧ s.chanA.cause = some .refLost ∧
      s.activeGroup leg.chanA.refs = none) ∧
    ∃ (s : State) (t : Nat) (window : Clock), (s.channel .a).state = .held ∧ (s.channel .a).cause = some .refLost ∧
      s.due t (s.channel .a).resumeTimer window := by
  unfold State.due
  refine ⟨fun window h => ?_, fun p h => ?_,
    ⟨withA (dueA (at2s leg) .held) fun ch => { ch with cause := some .refLost, resumeTimer := some 2000 }, 2000000, 2000,
      by decide +kernel⟩,
    withA (dueA (at2s leg) .held) fun ch => { ch with cause := some .refLost, resumeTimer := some 2000 }, 2000000, 2000,
    by decide +kernel⟩
  · let st : Settings := { leg with chanA := { depthDef with window := window } }
    refine ⟨dueA (at2s st) .auto, 2000000, st, 2000, ?_⟩
    simp only [List.mem_cons, List.not_mem_nil, or_false] at h
    rcases h with rfl | rfl <;> decide +kernel
  · refine ⟨withA (measured (dueA (at2s leg) .held) 420) fun ch =>
        { ch with cause := some .refLost, resumeTimer := some p.1, ref := ⟨none, some ⟨1, 400⟩⟩ },
      2000000, 2000, p.1, 0, 420, ⟨400, some true, 400, 20, 420, some []⟩, ?_⟩
    simp only [List.mem_cons, List.not_mem_nil, or_false] at h
    rcases h with rfl | rfl <;> decide +kernel

/-- A MANUAL update; resting updates of a DEPTH channel, and of a BELT channel outside RUNNING; a jog by one of two
entries of equal age. -/
theorem witness_ManualAndRestingUpdates :
    (∃ (s : State) (t : Nat) (st : Settings) (expiry : Clock), s.settings = some st ∧ (st.channel .a).controls ∧
      s.due t (s.channel .a).updateTimer expiry ∧ (s.channel .a).state = .manual) ∧
    (∀ state ∈ [ChannelState.off, .fault, .held], ∃ (s : State) (t : Nat) (st : Settings) (expiry : Clock),
      s.settings = some st ∧ (st.channel .a).role ≠ .none ∧ s.due t (s.channel .a).updateTimer expiry ∧
      (s.channel .a).state = state ∧ (s.channel .a).cause = some .latch ∧ (st.channel .a).role ≠ .belt) ∧
    (∃ (s : State) (t : Nat) (st : Settings) (expiry : Clock), s.settings = some st ∧ (st.channel .a).role = .belt ∧
      s.due t (s.channel .a).updateTimer expiry ∧ (s.channel .a).state = .off ∧ s.station ≠ .running) ∧
    ∃ (s : State) (e e' : Entry), e ∈ s.table.entries ∧ e' ∈ s.table.entries ∧ e.origin = .remote ∧ e.key.code = 12 ∧
      e.key.inst = leg.side.inst ∧ e.state = .fresh ∧ e.quality = some .good ∧ e'.key.inst = 3 ∧
      e.ageAt s.clock = e'.ageAt s.clock := by
  refine ⟨⟨dueA (at2s leg) .manual, 2000000, leg, 2000, ?_⟩,
    fun state _ => ⟨withA (dueA (at2s leg) state) fun ch => { ch with cause := some .latch }, 2000000, leg, 2000, rfl,
      show ChannelRole.depth ≠ .none by decide,
      ⟨⟨rfl, rfl⟩, rfl, show reached (BitVec.ofNat 32 (2000000 / 1000)) 2000 = true by decide⟩, rfl, rfl,
      show ChannelRole.depth ≠ .belt by decide⟩,
    ⟨{ dueA (at2s belt) .off with station := .listening }, 2000000, belt, 2000, ?_⟩,
    holding (at2s leg) [entry ⟨14, 12, 0⟩ .fresh 300, entry ⟨15, 12, 3⟩ .fresh 400], entry ⟨14, 12, 0⟩ .fresh 300,
    entry ⟨15, 12, 3⟩ .fresh 400, by decide +kernel⟩
  all_goals unfold State.due; decide +kernel

/-! ### The conveyor -/

/-- A belt in AUTO, with both groups valid and with neither: no stall condition, its stall start absent and standing; the
condition's onset; the condition standing for 1499 ms; and a full chamber at the alarm. -/
theorem witness_BeltUpdateInAuto :
    ∀ valid ∈ [false, true], ∀ p ∈ [((0 : Int), (none : Option Clock), (0 : Int), false), (0, some 501, 0, false),
      (200, none, 0, false), (200, some 501, 0, false), (0, none, 9000, true)], ∃ (s : State) (t : Nat) (k : Conveyor)
      (expiry : Clock), s.settings = some belt ∧ belt.chanA.role = .belt ∧ belt.conveyor = some beltConveyor ∧
      s.conveyor = some k ∧ s.station = .running ∧ s.due t s.chanA.updateTimer expiry ∧ s.chanA.state = .auto ∧
      (s.validResult 0).isSome = valid ∧ k.stallStart = p.2.1 ∧ k.full = p.2.2.2 ∧
      stallCondition s.chanA k.command (s.beltSpeed beltConveyor) = decide (p.1 = 200) ∧
      since (s.tick t).clock 501 = 1499 ∧ (k.full = true ∨ integrate beltConveyor k.content
        (s.rated beltConveyor k (s.tick t).clock).loose (s.beltSpeed beltConveyor) belt.chanA.period < 9000) := by
  intro valid hv p hp
  let k : Conveyor :=
    { Conveyor.atStart with content := p.2.2.1, full := p.2.2.2, stallStart := p.2.1, command := some 1 }
  let s : State := { withA (dueA (at2s belt) .auto) fun ch => { ch with out := p.1 } with conveyor := some k }
  refine ⟨if valid then measured s 100 else s, 2000000, k, 2000, ?_⟩
  unfold State.due
  simp only [List.mem_cons, List.not_mem_nil, or_false] at hv hp
  rcases hv with rfl | rfl <;> rcases hp with rfl | rfl | rfl | rfl | rfl <;> decide +kernel

/-- An update in OFF with both groups valid and with neither, in LISTENING and RUNNING and in each rate state; and one in
each state but AUTO with a content short of the alarm, one at it with chamber full standing, and one at it under the
latch. -/
theorem witness_BeltUpdateInAuto_others :
    (∀ station ∈ [Station.listening, .running], ∀ valid ∈ [false, true], ∀ rate ∈ [RateState.computed, .holding, .fallback],
      ∃ (s : State) (t : Nat) (k : Conveyor) (expiry : Clock), s.settings = some belt ∧ belt.chanA.role = .belt ∧
      belt.conveyor = some beltConveyor ∧ s.conveyor = some k ∧ s.due t s.chanA.updateTimer expiry ∧ s.station = station ∧
      s.chanA.state = .off ∧ (s.validResult 0).isSome = valid ∧ k.rate = rate) ∧
    (∀ state ∈ [ChannelState.manual, .off, .held, .fault], ∀ x ∈ [((0 : Int), false, (none : Option LatchRecord)),
      (9000, true, none), (9000, false, some ⟨1, 3, 0⟩)], ∃ (s : State) (t : Nat) (k : Conveyor) (expiry : Clock),
      s.settings = some belt ∧ belt.chanA.role = .belt ∧ belt.conveyor = some beltConveyor ∧ s.conveyor = some k ∧
      s.station = .running ∧ s.due t s.chanA.updateTimer expiry ∧ s.chanA.state = state ∧ k.full = x.2.1 ∧
      s.latch = x.2.2 ∧ integrate beltConveyor k.content (s.rated beltConveyor k (s.tick t).clock).loose
        (s.beltSpeed beltConveyor) belt.chanA.period = x.1 ∧ beltConveyor.alarmContent = 9000) := by
  refine ⟨fun station hs valid hv rate hr => ?_, fun state hs x hx => ?_⟩
  · let k : Conveyor := { Conveyor.atStart with rate := rate }
    let s : State := { dueA (at2s belt) .off with station := station, conveyor := some k }
    refine ⟨if valid then measured s 100 else s, 2000000, k, 2000, ?_⟩
    unfold State.due
    simp only [List.mem_cons, List.not_mem_nil, or_false] at hs hv hr
    rcases hs with rfl | rfl <;> rcases hv with rfl | rfl <;> rcases hr with rfl | rfl | rfl <;> decide +kernel
  · let k : Conveyor := { Conveyor.atStart with content := x.1, full := x.2.1 }
    refine ⟨{ dueA (at2s belt) state with latch := x.2.2, conveyor := some k }, 2000000, k, 2000, ?_⟩
    unfold State.due
    simp only [List.mem_cons, List.not_mem_nil, or_false] at hs hx
    rcases hs with rfl | rfl | rfl | rfl <;> rcases hx with rfl | rfl | rfl <;> decide +kernel

/-- A content at the alarm in every state a CLEAR latch allows, and with a stall that has stood for 1500 ms; such a stall
short of the alarm, and with chamber full standing, above and below the resume level. -/
theorem witness_BeltCausesLatch :
    ∀ p ∈ [(ChannelState.auto, (9000 : Int), false, false), (.manual, 9000, false, false), (.off, 9000, false, false),
      (.fault, 9000, false, false), (.auto, 9000, false, true), (.auto, 0, false, true), (.auto, 9000, true, true),
      (.auto, 4999, true, true)], ∃ (s : State) (t : Nat) (k : Conveyor) (expiry : Clock), s.settings = some belt ∧
      belt.chanA.role = .belt ∧ belt.conveyor = some beltConveyor ∧ s.conveyor = some k ∧ s.station = .running ∧
      s.due t s.chanA.updateTimer expiry ∧ s.latch = none ∧ s.chanA.state = p.1 ∧ k.full = p.2.2.1 ∧
      integrate beltConveyor k.content (s.rated beltConveyor k (s.tick t).clock).loose (s.beltSpeed beltConveyor)
        belt.chanA.period = p.2.1 ∧ beltConveyor.alarmContent = 9000 ∧ beltConveyor.resumeContent = 5000 ∧
      (p.2.2.2 = true → stallCondition s.chanA k.command (s.beltSpeed beltConveyor) = true ∧ k.stallStart = some 500 ∧
        since (s.tick t).clock 500 = 1500) := by
  intro p h
  let k : Conveyor := { Conveyor.atStart with
    content := p.2.1, full := p.2.2.1, stallStart := if p.2.2.2 then some 500 else none
    command := if p.1 = .auto then some 1 else none }
  refine ⟨{ withA (dueA (at2s belt) p.1) fun ch => { ch with out := if p.1 = .auto then 200 else 0 } with
    conveyor := some k }, 2000000, k, 2000, ?_⟩
  unfold State.due
  simp only [List.mem_cons, List.not_mem_nil, or_false] at h
  rcases h with rfl | rfl | rfl | rfl | rfl | rfl | rfl | rfl <;> decide +kernel

/-- The update that finds both causes at the alarm latches CHAMBER_FULL and adds BELT_STALL (assumption 19); a stall
condition begins its start, and keeps it at 1499 ms. -/
theorem test_beltCauses :
    let at' (content : Int) (start : Option Clock) := run (.channelUpdate 2000000 .a)
      { withA (dueA (at2s belt) .auto) fun ch => { ch with out := 200 } with
        conveyor := some { Conveyor.atStart with content := content, stallStart := start, command := some 1 } }
    (at' 9000 (some 500)).latch = some ⟨2, 5, 255⟩ ∧ (at' 9000 (some 500)).faults = [.beltStall] ∧
      (at' 0 (some 500)).latch = some ⟨3, 5, 0⟩ ∧ (at' 0 (some 501)).conveyor.map (·.stallStart) = some (some 501) ∧
      (at' 0 none).conveyor.map (·.stallStart) = some (some 2000) ∧ (at' 0 none).latch = none := by decide +kernel

theorem witness_RemainingTimersExpire :
    ∃ (s : State) (t : Nat) (k : Conveyor) (expiry : Clock), s.conveyor = some k ∧ s.due t k.holdTimer expiry ∧
      s.due t s.beltHold expiry ∧ s.line.bus = .mutedTimed ∧ s.due t s.line.muteTimer expiry ∧ .echoMute ∈ s.faults ∧
      s.due t s.statusTimer expiry :=
  ⟨{ at2s belt with
      conveyor := some { Conveyor.atStart with rate := .holding, holdTimer := some 2000 }, beltHold := some 2000
      faults := [.echoMute], statusTimer := some 2000
      line := { Line.atStart with bus := .mutedTimed, muteTimer := some 2000 } }, 2000000,
    { Conveyor.atStart with rate := .holding, holdTimer := some 2000 }, 2000, by unfold State.due; decide +kernel⟩

/-! ### Sending -/

/-- Quiet for just the access wait, yielding and not, with every kind of frame first in turn; one µs short of it. -/
theorem witness_FramesBeginInTheirOrder :
    (∀ y ∈ [false, true], ∀ station ∈ [Station.running, .commissioning, .safe, .loading, .listening],
      ∀ k ∈ [(⟨some (1, 0), true, some ⟨0, 0, []⟩, true⟩ : ControlSet), ⟨none, true, none, true⟩,
        ⟨none, false, some ⟨0, 0, []⟩, true⟩, ⟨none, false, none, true⟩, ⟨none, false, none, false⟩],
      ∃ (s : State) (t q : Nat), s.runs ∧ s.line.bus = .active ∧ s.line.flight = none ∧ s.line.quietSince = some q ∧
        q + 4 * (20 + 4 * s.number.toNat + if s.line.yielding then 100 else 0) = max s.now t ∧ s.line.yielding = y ∧
        s.station = station ∧ s.line.control = k ∧ s.line.queue ≠ []) ∧
    (∃ s : State, s.runs ∧ s.line.bus ≠ .active) ∧ (∃ s : State, s.runs ∧ s.line.quietSince = none) ∧
    ∃ (s : State) (t q : Nat), s.runs ∧ s.line.quietSince = some q ∧
      max s.now t + 1 = q + 4 * (20 + 4 * s.number.toNat + if s.line.yielding then 100 else 0) := by
  refine ⟨fun y h station _ k _ => ⟨{ at2s leg with
      station := station
      line := { (at2s leg).line with
        quietSince := some 2000000, yielding := y, control := k, queue := [⟨1, 0, .good, 5⟩] } },
      if y then 2000560 else 2000160, 2000000, ⟨rfl, rfl⟩, rfl, rfl, rfl, ?_, rfl, rfl, rfl,
      show [(⟨1, 0, .good, 5⟩ : QueuedSample)] ≠ [] by decide⟩, ⟨State.reset, by decide⟩, ⟨State.reset, by decide⟩,
    { at2s leg with line := { (at2s leg).line with quietSince := some 2000000 } }, 2000159, 2000000, by decide +kernel⟩
  simp only [List.mem_cons, List.not_mem_nil, or_false] at h
  rcases h with rfl | rfl
  · show 2000000 + 4 * (20 + 4 * (5 : BitVec 4).toNat + if false = true then 100 else 0) = max 2000000 2000160
    decide
  · show 2000000 + 4 * (20 + 4 * (5 : BitVec 4).toNat + if true = true then 100 else 0) = max 2000000 2000560
    decide

/-- Seven faults, of which STATUS carries six, a LATCHED latch and settings; and none of these. -/
theorem witness_StatusCarriesTheCondition :
    (∃ (s : State) (st : Settings) (r : LatchRecord), s.settings = some st ∧ s.latch = some r ∧ s.faults.length = 7) ∧
    ∃ s : State, s.settings = none ∧ s.latch = none :=
  ⟨⟨{ at2s leg with
      latch := some ⟨1, 3, 0⟩
      faults := [.imageFormat, .echoMute, .scanOverrun, .portLost, .coilOpenA, .refLostA, .beltStall] }, leg, ⟨1, 3, 0⟩,
      by decide +kernel⟩, State.reset, by decide⟩

/-- A RELEASE at its last µs, and a PUBLISH of two keys. -/
theorem witness_FramesComplete :
    (∃ (s : State) (t : Nat) (f : Flight), s.runs ∧ s.line.flight = some f ∧ f.frame = .release ∧
      f.began + 40 * (6 + (f.frame.wire s.number).payload.length) = max s.now t) ∧
    ∃ (s : State) (t : Nat) (f : Flight) (samples : List StampedSample), s.runs ∧ s.line.flight = some f ∧
      f.frame = .publish samples ∧ f.began + 40 * (6 + (f.frame.wire s.number).payload.length) ≤ max s.now t ∧
      (flightKeys s.line.flight).Nodup :=
  ⟨⟨{ at2s leg with line := { Line.atStart with flight := some ⟨.release, 2000000, false⟩ } }, 2000240,
      ⟨.release, 2000000, false⟩, by decide +kernel⟩,
    { at2s leg with line := { Line.atStart with
      flight := some ⟨.publish [⟨⟨1, 0, .good, 5⟩, 255⟩, ⟨⟨2, 0, .good, 5⟩, 0⟩], 2000000, false⟩ } }, 2000640,
    ⟨.publish [⟨⟨1, 0, .good, 5⟩, 255⟩, ⟨⟨2, 0, .good, 5⟩, 0⟩], 2000000, false⟩,
    [⟨⟨1, 0, .good, 5⟩, 255⟩, ⟨⟨2, 0, .good, 5⟩, 0⟩], by decide +kernel⟩

/-- A frame of each type, discarded and not, with its type placed meanwhile and not and a key of its samples queued, after 6
and 7 echo faults in a row: stopped at the last recessive bit of SOURCE, at the first bit of SYNC and at LENGTH's stop bit. -/
theorem witness_StoppedFramesGoBack :
    ∀ frame ∈ [OwnFrame.halt 1 0, .release, .reply ⟨0, 1, []⟩, .status (List.replicate 20 0),
      .publish [⟨⟨1, 0, .good, 5⟩, 255⟩, ⟨⟨2, 0, .good, 5⟩, 0⟩]], ∀ discarded ∈ [false, true],
      ∀ control ∈ [(⟨none, false, none, false⟩ : ControlSet), ⟨some (2, 0), true, some ⟨1, 0, []⟩, false⟩],
      ∀ echoRun ∈ [6, 7], ∀ p ∈ [(0, Level.dominant), (29, .recessive), (39, .recessive)], ∃ (s : State) (t : Nat) (f : Flight),
        s.runs ∧ s.line.flight = some f ∧ (f.frame.wire s.number).levels[p.1]? = some p.2 ∧
        f.began + 4 * p.1 ≤ max s.now t ∧ max s.now t + 1 = f.began + 4 * (p.1 + 1) ∧ f.frame = frame ∧
        f.discarded = discarded ∧ s.line.control = control ∧ s.line.echoRun = echoRun ∧ .echoMute ∉ s.faults ∧
        s.line.queue = [⟨2, 0, .held, 9⟩, ⟨3, 0, .good, 1⟩] ∧ (queueKeys s.line.queue).Nodup := by
  intro frame hf discarded _ control _ echoRun _ p hp
  refine ⟨flying frame discarded control [⟨2, 0, .held, 9⟩, ⟨3, 0, .good, 1⟩] echoRun, 2000003 + 4 * p.1,
    ⟨frame, 2000000, discarded⟩, ⟨rfl, rfl⟩, rfl, ?_, ?_, ?_, rfl, rfl, rfl, rfl, List.not_mem_nil, rfl, ?_⟩
  · show (frame.wire 5).levels[p.1]? = some p.2
    simp only [List.mem_cons, List.not_mem_nil, or_false] at hf hp
    rcases hf with rfl | rfl | rfl | rfl | rfl <;> rcases hp with rfl | rfl | rfl <;> decide +kernel
  · show 2000000 + 4 * p.1 ≤ max 2000000 (2000003 + 4 * p.1)
    omega
  · show max 2000000 (2000003 + 4 * p.1) + 1 = 2000000 + 4 * (p.1 + 1)
    omega
  · show ([(2, 0), (3, 0)] : List (BitVec 6 × BitVec 2)).Nodup
    decide

/-- A PUBLISH stopped at a recessive SOURCE bit goes back to the head of the queue, the key queued meanwhile with its newer
value; an echo fault there is none. -/
theorem test_publishGoesBack :
    let s := flying (.publish [⟨⟨1, 0, .good, 5⟩, 255⟩, ⟨⟨2, 0, .good, 5⟩, 0⟩]) false ⟨none, false, none, false⟩
      [⟨2, 0, .held, 9⟩, ⟨3, 0, .good, 1⟩] 0
    let u := run (.contentionLoss 2000119) s
    u.line.queue = [⟨1, 0, .good, 5⟩, ⟨2, 0, .held, 9⟩, ⟨3, 0, .good, 1⟩] ∧ u.line.flight = none ∧ u.line.echoRun = 0 ∧
      (run (.echoFault 2000119) s).line.flight = s.line.flight ∧ (run (.echoFault 2000120) s).line.echoRun = 1 := by
  decide +kernel

/-! ### What every step keeps -/

/-- A state at work, with a command waiting, that meets the invariants of table, faults, line and store and whose
outputs and bus are as they should be: it meets the hypothesis of every EveryStepKeeps… statement. -/
theorem witness_EveryStepKeepsTheInvariants :
    ∃ s : State, s.pending ≠ [] ∧ s.table.Wf ∧ s.SafeOutputs ∧ s.FaultsWf ∧ s.BusWf ∧ s.LineWf ∧ s.store.Wf ∧
      s.Limits ∧ s.BeltIdle ∧ s.CoilFaultsWf := by
  have hA : leg.chanA.Sane := by unfold ChannelDef.Sane; decide +kernel
  have hB : leg.chanB.Sane := by unfold ChannelDef.Sane; decide +kernel
  refine ⟨{ at2s leg with pending := [.statusTimer 2000000] }, by decide, ?_,
    ⟨Channel.SafeUnder.start _ _ _, Channel.SafeUnder.start _ _ _, fun h => absurd rfl h⟩, List.nodup_nil, ?_, ?_,
    ⟨by decide, by decide, trivial⟩, ⟨hA, hB, channelStart_within hA _, channelStart_within hB _, trivial⟩,
    fun _ _ h => (nomatch h), ?_⟩
  · unfold PeerTable.Wf; decide +kernel
  · unfold State.BusWf; decide +kernel
  · unfold State.LineWf; decide +kernel
  · rintro (_ | _) <;> exact ⟨by decide, fun f => by cases f <;> decide⟩

/-- A channel in FAULT, its output 0 and its code in the collection. -/
theorem witness_EveryStepKeepsBusAndFaults_coils :
    ∃ s : State, s.SafeOutputs ∧ s.CoilFaultsWf ∧ (s.channel .a).state = .fault := by
  refine ⟨faulty (at2s leg) [], ⟨?_, Channel.SafeUnder.start _ _ _, fun h => absurd rfl h⟩,
    faulty_wf (fun _ _ h => nomatch h) ⟨rfl, rfl⟩, rfl⟩
  unfold Channel.SafeUnder Channel.Still Channel.Halted
  decide +kernel

/-- A conveyor in AUTO with all that AUTO brings, and one outside AUTO without it. -/
theorem witness_EveryStepKeepsOutputsSafe_belt :
    (∃ (s : State) (k : Conveyor), s.BeltIdle ∧ s.chanA.state = .auto ∧ s.conveyor = some k ∧ k.command ≠ none) ∧
    ∃ (s : State) (k : Conveyor), s.BeltIdle ∧ s.chanA.state ≠ .auto ∧ s.conveyor = some k :=
  ⟨⟨rolling, _, fun h => absurd rfl h, rfl, rfl, by decide⟩, at2s belt, .atStart,
    fun _ k h => by cases h; exact ⟨rfl, rfl, rfl⟩, by decide, rfl⟩

/-- A LATCHED station past LOADING with a MUTED_CLASH bus, and a command of none of the classes. -/
theorem witness_WhatStandsWithoutItsCommand :
    ∃ (c : Instr) (s : State) (r : LatchRecord), c.mayStart = false ∧ c.mayChangeStore = false ∧ c.mayClearLatch = false ∧
      s.station ≠ .loading ∧ s.latch = some r ∧ s.line.bus = .mutedClash ∧ s.line.errors ≤ 65535 :=
  ⟨.statusTimer 0, { at2s leg with latch := some ⟨1, 3, 0⟩, line := { Line.atStart with bus := .mutedClash } }, ⟨1, 3, 0⟩,
    by decide +kernel⟩

/-! ### The spec's own worked values -/

/-- Section 5.10: the update at 100. -/
theorem test_autoUpdateOfSection5_10 :
    let cd := { depthDef with
      hi := 4000, ramp := 20, deadband := 10, gain := 640, umin := 80, umax := 900, slew := 30, imin := 200, imax := 1200 }
    let s := withA (measured (dueA (at2s { leg with chanA := cd }) .auto) 1863) fun ch =>
      { ch with out := 100, target := some { record with commanded := 1900, ramped := 1900, effective := 1900 } }
    let u := run (.channelUpdate 2000000 .a) s
    u.chanA.out = 130 ∧ u.chanA.coil = .down ∧ u.chanA.current = 330 ∧ u.chanA.sat = .none ∧
      u.converter.running = some ⟨.check .a 330, 2000000⟩ := by decide +kernel

/-- Section 6.11: rate, demand, output. -/
theorem test_beltUpdateOfSection6_11 :
    let cv : ConveyorDef := ⟨0, 1, 0, 2200, 1300, 25000, 40000, 600, 4500, 3000, 3500, 512, 800000, 900, 600⟩
    milledRate cv 1900 800 = 55733 ∧ looseRate cv 55733 = 72453 ∧ integrate cv 0 72453 2950 20 = 0 ∧
      cv.alarmContent = 720000 ∧ beltDemand cv 72453 50 = 3043 ∧ beltOutput cv 3043 2950 = 862 ∧
      coilCurrent { beltDef with imin := 250, imax := 1450 } 862 = 1284 := by decide

/-- Section 4.7: two LIFTs, a new target while lifted, and three RETURNs. -/
theorem test_liftingOfSection4_7 :
    let cd := { depthDef with lo := 0, hi := 4000 }
    let r0 : TargetRecord := ⟨1900, some true, 1900, 6, 1906, some []⟩
    let r2 := (r0.lift cd 1500).lift cd 1500
    let r3 := r2.newTarget cd 1000 2100
    let r5 := ((r3.adopt 4).recall).recall
    (r2.commanded, r2.stack, r2.offset) = (0, some [400, 1900], 6) ∧ (r3.commanded, r3.offset) = (1000, 0) ∧
      (r5.commanded, r5.stack, r5.offset) = (1900, some [], 0) ∧
      ((r5.adopt (-3)).recall.commanded, (r5.adopt (-3)).recall.offset) = (1900, -3) := by decide

/-- Section 2.8: the evaluations at 2000 and at 2060. -/
theorem test_meanOfSection2_8 :
    let g := { meanGroup with
      patterns := [⟨some 3, 1, some 0, 4, 0, false⟩, ⟨some 5, 2, none, 2, -35, false⟩], minimum := 2 }
    let heads := [entry ⟨5, 2, 0⟩ .fresh 1905, entry ⟨5, 2, 1⟩ .fresh 1894]
    g.mean ⟨3, 6, 0⟩ (entry ⟨3, 1, 0⟩ .fresh 1862 :: heads) = some (1863, .good) ∧
      g.mean ⟨3, 6, 0⟩ ({ entry ⟨3, 1, 0⟩ .fresh 1862 with quality := some .failed } :: heads) = some (1865, .good) := by
  decide +kernel

/-- A half rounds away from zero (5.4). -/
theorem test_roundDiv : roundDiv 69760 256 = 273 ∧ roundDiv (-5) 2 = -3 ∧ roundDiv 5 2 = 3 ∧ roundDiv 4 3 = 1 := by decide

/-- A halt button that goes down latches the station, and the release button clears it only once it is up. -/
theorem test_haltAndRelease :
    let s := run (.debounceExpiry 2000000 0) (bouncing (dueA (at2s leg) .auto) 0 true)
    let up := run (.debounceExpiry 2000000 1) (bouncing (run (.debounceExpiry 2000000 0) (bouncing s 0 false)) 1 true)
    s.latch = some ⟨1, 5, 0⟩ ∧ s.chanA.state = .held ∧
      (run (.debounceExpiry 2000000 1) (bouncing s 1 true)).latch = some ⟨1, 5, 0⟩ ∧ up.latch = none ∧
      up.chanA.state = .manual ∧ up.line.control.release = true := by decide +kernel

/-- No word of the table spells a command. -/
theorem test_noWordDecodes : decodeTableWord 8 0 = none ∧ State.reset.withFetchWord 8 0 = State.reset := by decide

end Sys2Proof.Tests
end

section
/-! The acceptance stage of the peer table: codes without a definition (R6) and what a sample brings (R7). -/

namespace Sys2Proof.Machine

/-! ### Codes without a definition (R6) -/

/-- R6's stop: without a definition of its code a sample leaves no trace, before its key is looked up. -/
theorem State.acceptSample_undefined {s : State} {st : Settings} (source : BitVec 4) {r : RawSample}
    (hs : s.settings = some st) (hq : st.quantity r.code = none) : s.acceptSample source r = s := by
  unfold State.acceptSample State.withSettings
  simp only [hs, hq, ite_self]

theorem mem_foldl_insertEntry {f : Key → Entry} {ks : List Key} {es : List Entry} {e : Entry}
    (h : e ∈ ks.foldl (fun es k => insertEntry (f k) es) es) : e ∈ es ∨ ∃ k ∈ ks, e = f k := by
  induction ks generalizing es with
  | nil => exact Or.inl h
  | cons k ks ih =>
    rcases ih h with hmem | ⟨j, hj, he⟩
    · rcases mem_insertEntry hmem with he | hmem
      · exact Or.inr ⟨k, List.mem_cons_self, he⟩
      · exact Or.inl hmem
    · exact Or.inr ⟨j, List.mem_cons_of_mem k hj, he⟩

/-- Only the keys of R2's list are pinned. -/
theorem key_mem_namedKeys {number : BitVec 4} {st : Settings} {e : Entry} (h : e ∈ pinnedEntries number st) :
    e.key ∈ namedKeys number st := by
  rcases mem_foldl_insertEntry h with hnil | ⟨k, hk, rfl⟩
  · cases hnil
  · exact hk

/-- Step 4 of the loading checks finds a definition for every key of R2's list. -/
theorem referencesHold_quantity {number : BitVec 4} {st : Settings} (h : referencesHold number st = true) {k : Key}
    (hk : k ∈ namedKeys number st) : (st.quantity k.code).isSome = true := by
  simp only [referencesHold, Bool.and_eq_true, and_assoc, List.all_eq_true] at h
  obtain ⟨-, named, -⟩ := h
  exact named k hk

/-- Settles O14: acceptance stops at the missing definition, and loading refuses an image that pins such a key. -/
theorem undefinedCodesAreIgnored : Obligations.UndefinedCodesAreIgnored := by
  refine ⟨fun s source r st hs hq => State.acceptSample_undefined source hs hq, ?_⟩
  intro number m st hload e he
  obtain ⟨-, -, hrefs, -⟩ := loadImage_pinned hload
  exact Option.isSome_iff_ne_none.1 (referencesHold_quantity hrefs (key_mem_namedKeys he))

/-! ### Effective quality and carried value (R7) -/

theorem RawSample.effective_marker {r : RawSample} (h : r.value = 0x8000#16) :
    RawSample.effective r = (.failed, none) :=
  if_pos h

theorem RawSample.effective_good {r : RawSample} (hv : r.value ≠ 0x8000#16) (hq : r.quality = 0) :
    RawSample.effective r = (.good, some r.value.toInt) := by
  unfold RawSample.effective
  rw [if_neg hv, if_pos hq]

theorem RawSample.effective_held {r : RawSample} (hv : r.value ≠ 0x8000#16) (hq : r.quality = 1) :
    RawSample.effective r = (.held, some r.value.toInt) := by
  unfold RawSample.effective
  rw [if_neg hv, if_neg (by rw [hq]; decide), if_pos hq]

theorem RawSample.effective_suspect {r : RawSample} (hv : r.value ≠ 0x8000#16) (hq : r.quality = 2) :
    RawSample.effective r = (.suspect, some r.value.toInt) := by
  unfold RawSample.effective
  rw [if_neg hv, if_neg (by rw [hq]; decide), if_neg (by rw [hq]; decide), if_pos hq]

/-- FAILED is quality 3, and R7 reads every code above it as FAILED too. -/
theorem RawSample.effective_above {r : RawSample} (hq : 2 < r.quality.toNat) :
    RawSample.effective r = (.failed, none) := by
  have hne (n : Byte) (hn : n.toNat ≤ 2) : r.quality ≠ n := by
    rintro rfl
    omega
  unfold RawSample.effective
  rw [if_neg (hne 0 (by decide)), if_neg (hne 1 (by decide)), if_neg (hne 2 (by decide)), ite_self]

/-- Only a usable sample carries a value: its value field, which is not the marker. -/
theorem RawSample.effective_carries {r : RawSample} {q : Quality} {v : Int}
    (h : RawSample.effective r = (q, some v)) : q ≠ .failed ∧ v = r.value.toInt ∧ r.value ≠ 0x8000#16 := by
  unfold RawSample.effective at h
  split at h
  · cases h
  · rename_i hv
    split at h
    · cases h; exact ⟨by decide, rfl, hv⟩
    · split at h
      · cases h; exact ⟨by decide, rfl, hv⟩
      · split at h
        · cases h; exact ⟨by decide, rfl, hv⟩
        · cases h

/-- Apart from the no-value marker a value field lies within ±32767 (5.3). -/
theorem toInt_bounds_of_ne_marker {w : Word16} (h : w ≠ 0x8000#16) : -32767 ≤ w.toInt ∧ w.toInt ≤ 32767 := by
  have hne : w.toInt ≠ -32768 := fun hw => h (BitVec.eq_of_toInt_eq (hw.trans (by decide)))
  have hlo := BitVec.le_toInt w
  have hhi := BitVec.toInt_lt (x := w)
  omega

/-! ### Acceptance reads key, sequence and effective sample alone (R7) -/

/-- Two samples that differ at most in how their quality and value fields spell the same effective sample. -/
structure RawSample.ReadsAs (r r' : RawSample) : Prop where
  code : r.code = r'.code
  inst : r.inst = r'.inst
  seq : r.seq = r'.seq
  effective : RawSample.effective r = RawSample.effective r'

section
variable {r r' : RawSample} (h : RawSample.ReadsAs r r')
include h

theorem Entry.takeRemote_readsAs (e : Entry) (d : QuantityDef) (clock : Clock) :
    e.takeRemote d r clock = e.takeRemote d r' clock := by
  simp only [Entry.takeRemote, h.seq, h.effective]

theorem State.handOver_readsAs (s : State) (st : Settings) (d : QuantityDef) (old : Entry) (first : Bool) :
    s.handOver st d old first r = s.handOver st d old first r' := by
  simp only [State.handOver, h.code, h.inst, h.effective]

theorem State.takeSample_readsAs (s : State) (st : Settings) (d : QuantityDef) (e : Entry) (first : Bool) :
    s.takeSample st d e first r = s.takeSample st d e first r' := by
  simp only [State.takeSample, Entry.takeRemote_readsAs h, State.handOver_readsAs h]

theorem State.createEntry_readsAs (s : State) (st : Settings) (d : QuantityDef) (k : Key) :
    s.createEntry st d k r = s.createEntry st d k r' := by
  simp only [State.createEntry, State.takeSample_readsAs h]

theorem State.updatePath_readsAs (s : State) (st : Settings) (d : QuantityDef) (e : Entry) :
    s.updatePath st d e r = s.updatePath st d e r' := by
  simp only [State.updatePath, State.takeSample_readsAs h, h.seq]

/-- Every path of the acceptance stage reads the sample through these four alone. -/
theorem State.acceptSample_readsAs (s : State) (source : BitVec 4) :
    s.acceptSample source r = s.acceptSample source r' := by
  simp only [State.acceptSample, State.updatePath_readsAs h, State.createEntry_readsAs h, h.code, h.inst]

end

/-- The last sequence is the sample's own (R11, R12). -/
@[simp] theorem Entry.takeRemote_lastSeq (e : Entry) (d : QuantityDef) (r : RawSample) (clock : Clock) :
    (e.takeRemote d r clock).lastSeq = some r.seq := rfl

/-- Settles O16: one clause per quality code, and acceptance that sees a FAILED sample's key and sequence alone. -/
theorem effectiveQualityOfASample : Obligations.EffectiveQualityOfASample := by
  refine ⟨fun r => ⟨RawSample.effective_marker, RawSample.effective_good, RawSample.effective_held,
    RawSample.effective_suspect, RawSample.effective_above, ?carried⟩, ?failed, Entry.takeRemote_lastSeq⟩
  case carried =>
    intro q v h
    obtain ⟨hq, rfl, hv⟩ := RawSample.effective_carries h
    exact ⟨hq, toInt_bounds_of_ne_marker hv⟩
  case failed =>
    intro s source r r' hcode hinst hseq hr hr'
    exact State.acceptSample_readsAs ⟨hcode, hinst, hseq, hr.trans hr'.symm⟩ s source

end Sys2Proof.Machine
end

section
/-! The serial sensor port: what a completed exchange hands to the judgement (R56), and the reply that a port not yet
in step discards (R57). -/

namespace Sys2Proof.Machine

/-! ### The completion of an exchange (R56 to R58) -/

theorem exec_serialExchangeComplete (t : Nat) (status high low check : Byte) (s : State) :
    exec (.serialExchangeComplete t status high low check) s = execSerialExchangeComplete t status high low check s := rfl

/-- An exchange that has lasted its time ends, and its reply goes to the port's judgement. -/
theorem execSerialExchangeComplete_elapsed {s : State} {t : Nat} {x : SerialExchange} (status high low check : Byte)
    (hrun : s.runs) (hx : s.port.exchange = some x) (htime : x.began + Config.exchangeTime ≤ max s.now t) :
    execSerialExchangeComplete t status high low check s =
      .next ({ s.tick t with port := { s.port with exchange := none } }.judgeReply
        (replyOutcome status high low check)) := by
  unfold execSerialExchangeComplete
  rw [State.event_run hrun]
  simp only [State.tick_fields, State.tick_now, hx, if_pos htime]

/-! ### A reply while SYNCING (R57) -/

/-- Only the port's state and error run change; the outcome of the reply is not looked at. -/
theorem State.judgeReply_syncing {s : State} (h : s.port.state = .syncing) (o : Option ReplyOutcome) :
    s.judgeReply o = { s with port := { s.port with state := .tracking, errorRun := 0 } } := by
  simp only [State.judgeReply, h]

/-- Settles O35: the completed exchange reaches the judgement, which discards every reply of a SYNCING port. -/
theorem repliesWhileSyncingAreDiscarded : Obligations.RepliesWhileSyncingAreDiscarded := by
  intro s t x status high low check hrun hsync hx htime
  rw [exec_serialExchangeComplete, execSerialExchangeComplete_elapsed status high low check hrun hx htime,
    State.judgeReply_syncing]
  exact hsync

end Sys2Proof.Machine
end

section
/-! The recall stack of a target record: LIFT (R83) and RETURN (R84). -/

namespace Sys2Proof.Machine

section
variable {x : TargetRecord}

/-- R83: the value pushed stands on top of the newest three, so that a fifth pushes the oldest out. -/
theorem TargetRecord.lift_of_stack {st : List Int} (h : x.stack = some st) (cd : ChannelDef) (height : Int) :
    x.lift cd height =
      { x with
        stack := some (x.commanded :: st.take 3), commanded := clamp (x.commanded - height) cd.lo cd.hi } := by
  simp only [TargetRecord.lift, h, Config.stackSize, List.take_succ_cons]

/-- R84, stack empty. -/
theorem TargetRecord.recall_of_stack_nil (h : x.stack = some []) : x.recall = x := by
  simp only [TargetRecord.recall, h]

/-- R84, stack holds a value: no step limit and no clamp reach the top. -/
theorem TargetRecord.recall_of_stack_cons {top : Int} {rest : List Int} (h : x.stack = some (top :: rest)) :
    x.recall = { x with stack := some rest, commanded := top, offset := 0, taken := some true } := by
  simp only [TargetRecord.recall, h]

/-- A RETURN right after a LIFT finds the value pushed on top; of a full stack the oldest value stays lost. -/
theorem TargetRecord.recall_lift {st : List Int} (h : x.stack = some st) (cd : ChannelDef) (height : Int) :
    (x.lift cd height).recall = { x with stack := some (st.take 3), offset := 0, taken := some true } := by
  rw [TargetRecord.lift_of_stack h, TargetRecord.recall_of_stack_cons rfl]

end

/-- Settles O22: the two moves of the stack, and the one after the other. -/
theorem liftAndReturn : Obligations.LiftAndReturn := by
  intro x cd height st h
  refine ⟨TargetRecord.lift_of_stack h cd height, ?empty, ?held, ?commanded, ?stack⟩
  case empty =>
    rintro rfl
    exact TargetRecord.recall_of_stack_nil h
  case held =>
    rintro top rest rfl
    exact TargetRecord.recall_of_stack_cons h
  case commanded => rw [TargetRecord.recall_lift h]
  case stack => rw [TargetRecord.recall_lift h]

end Sys2Proof.Machine
end

section
/-! The start at power-on or at the RESET pin (R167), and what it leaves of a store operation in flight (R178). -/

namespace Sys2Proof.Machine

/-! ### The store operation that a start abandons (R178) -/

theorem Store.abandon_idle {s : Store} (h : s.op = none) : s.abandon = s := by
  simp only [Store.abandon, h]

section
variable {s : Store} {op : StoreOp}

/-- How far a write or an erase of a row had come does not matter: the row ends up erased. -/
theorem Store.abandon_row (h : s.op = some op)
    (hk : (∃ data, op.command = .writeRow data) ∨ op.command = .eraseRow) :
    s.abandon = ⟨Memory.eraseRow s.cells op.row.toNat, s.locked, none⟩ := by
  obtain ⟨data, hk⟩ | hk := hk
  · simp only [Store.abandon, h, hk]
  · simp only [Store.abandon, h, hk]

/-- The frame of an abandoned row: the lock cell and the other rows stand. -/
theorem Store.read_abandon_row (hwf : Memory.wf s.cells) (h : s.op = some op)
    (hk : (∃ data, op.command = .writeRow data) ∨ op.command = .eraseRow) :
    s.abandon.locked = s.locked ∧ ∀ a, Memory.read s.abandon.cells a =
      if 16 * op.row.toNat ≤ a ∧ a < 16 * op.row.toNat + 16 then erasedByte else Memory.read s.cells a := by
  rw [Store.abandon_row h hk]
  exact ⟨rfl, Memory.read_eraseRow hwf op.row.toNat⟩

/-- An abandoned ERASE_ALL leaves what a completed one does, the unlocked cell with it. -/
theorem Store.abandon_eraseAll (h : s.op = some op) (hk : op.command = .eraseAll) :
    s.abandon = ⟨[], false, none⟩ := by
  simp only [Store.abandon, h, hk]

theorem Store.abandon_blankCheck (h : s.op = some op) (hk : op.command = .blankCheck) :
    s.abandon = { s with op := none } := by
  simp only [Store.abandon, h, hk]

end

/-- After a start no store is BUSY. -/
theorem Store.abandon_op (s : Store) : s.abandon.op = none := by
  cases hop : s.op with
  | none => rw [Store.abandon_idle hop, hop]
  | some op =>
    cases hk : op.command with
    | writeRow data => rw [Store.abandon_row hop (.inl ⟨data, hk⟩)]
    | eraseRow => rw [Store.abandon_row hop (.inr hk)]
    | eraseAll => rw [Store.abandon_eraseAll hop hk]
    | blankCheck => rw [Store.abandon_blankCheck hop hk]

/-! ### The start (R167, 9.4) -/

@[simp] theorem State.start_store (s : State) (x : Straps) : (s.start x).store = s.store.abandon := rfl

@[simp] theorem State.start_line (s : State) (x : Straps) : (s.start x).line = Line.atStart := rfl

/-- The supply's return begins a start when RESET is released. -/
theorem exec_powerOn_start {s : State} (hs : s.supply = false) (hr : s.resetHeld = false) (x : Straps) :
    exec (.powerOn x) s = .next ({ s with supply := true }.start x) := by
  unfold exec execPowerOn
  simp only [hs, hr, Bool.false_eq_true, if_false, if_true]

/-- The release of RESET begins a start when the supply is at its level. -/
theorem exec_resetRelease_start {s : State} (hs : s.supply = true) (hr : s.resetHeld = true) (x : Straps) :
    exec (.resetRelease x) s = .next ({ s with resetHeld := false }.start x) := by
  unfold exec execResetRelease
  simp only [hs, hr, if_true]

/-- Both starts reach the store and the line alike: the operation is abandoned, the line begins afresh. -/
theorem exec_start_store_line {s : State} {x : Straps} {c : Instr}
    (h : (c = .powerOn x ∧ s.supply = false ∧ s.resetHeld = false) ∨
      (c = .resetRelease x ∧ s.supply = true ∧ s.resetHeld = true)) :
    ∃ u, exec c s = .next u ∧ u.store = s.store.abandon ∧ u.line = Line.atStart := by
  obtain ⟨rfl, hs, hr⟩ | ⟨rfl, hs, hr⟩ := h
  · exact ⟨_, exec_powerOn_start hs hr x, State.start_store _ x, State.start_line _ x⟩
  · exact ⟨_, exec_resetRelease_start hs hr x, State.start_store _ x, State.start_line _ x⟩

/-- Settles O5: the start reaches the store by Store.abandon alone, and each kind of operation leaves its own result. -/
theorem startAbandonsTheStoreOperation : Obligations.StartAbandonsTheStoreOperation := by
  intro s x c hstart hwf
  obtain ⟨u, hexec, hstore, hline⟩ := exec_start_store_line hstart
  refine ⟨u, hexec, ?idle, ?noReply, ?stands, ?inFlight⟩
  case idle => rw [hstore, Store.abandon_op]
  case noReply => rw [hline]; rfl
  case stands => exact fun hop => hstore.trans (Store.abandon_idle hop)
  case inFlight =>
    intro op hop
    cases hk : op.command with
    | writeRow data => exact hstore ▸ Store.read_abandon_row hwf hop (.inl ⟨data, hk⟩)
    | eraseRow => exact hstore ▸ Store.read_abandon_row hwf hop (.inr hk)
    | eraseAll =>
      rw [hstore, Store.abandon_eraseAll hop hk]
      exact ⟨rfl, fun _ => rfl⟩
    | blankCheck =>
      rw [hstore, Store.abandon_blankCheck hop hk]
      exact ⟨rfl, rfl⟩

end Sys2Proof.Machine
end

section
/-! What ends LOADING: the three entries (R168, R170 to R172). -/

namespace Sys2Proof.Machine

/-- LOADING ends in COMMISSIONING under the strap, in SAFE with the fault the loading checks found, and in LISTENING
with the settings they let pass. -/
theorem State.endLoading_cases (s : State) :
    (s.commission = true ∧ s.endLoading = s.readPins.beginReceiving.enterIdle .commissioning) ∨
    (∃ f, s.commission = false ∧ loadImage s.number s.store.cells = .error f ∧
      s.endLoading = (s.readPins.beginReceiving.addFault f).enterIdle .safe) ∨
    ∃ st, s.commission = false ∧ loadImage s.number s.store.cells = .ok st ∧
      s.endLoading = s.readPins.beginReceiving.enterListening st := by
  unfold State.endLoading
  simp only [State.beginReceiving_fields, State.readPins_fields]
  cases hc : s.commission with
  | true => exact .inl ⟨rfl, rfl⟩
  | false =>
    cases hl : loadImage s.number s.store.cells with
    | error f => exact .inr (.inl ⟨f, rfl, rfl, rfl⟩)
    | ok st => exact .inr (.inr ⟨st, rfl, rfl, rfl⟩)

end Sys2Proof.Machine
end

section
/-! Every step keeps the peer table (R1, R22). -/

namespace Sys2Proof.Machine

theorem PeerTable.wf_empty : PeerTable.empty.Wf :=
  ⟨.nil, Nat.zero_le _, Nat.zero_le _, Nat.zero_le _⟩

/-- The pinned entries of a loaded image are 24 at most (R2), so they fit. -/
theorem PeerTable.pinned_wf {number : BitVec 4} {m : Memory} {st : Settings} (h : loadImage number m = .ok st) :
    PeerTable.Wf { PeerTable.empty with entries := pinnedEntries number st } := by
  obtain ⟨-, -, -, hlen⟩ := loadImage_pinned h
  exact ⟨pinnedEntries_pairwise number st, hlen.trans (by decide), Nat.zero_le _, Nat.zero_le _⟩

theorem PeerTable.Wf.startPanel {s : State} (h : s.table.Wf) (st : Settings) : (s.startPanel st).table.Wf := by
  unfold State.startPanel
  split
  · have hp (p : PanelValues) : (s.setPanel p).table.Wf := h
    exact (hp _).deliverPanel _
  · exact h

theorem PeerTable.Wf.endLoading {s : State} (h : s.table.Wf) : s.endLoading.table.Wf := by
  obtain ⟨-, e⟩ | ⟨f, -, -, e⟩ | ⟨st, -, hload, e⟩ := s.endLoading_cases
  · exact h.of_eq (by simp [e])
  · exact h.of_eq (by simp [e])
  · have taken : (s.readPins.beginReceiving.takeSettings st).table.Wf := PeerTable.pinned_wf hload
    exact (taken.startPanel st).of_eq (by simp [e, State.enterListening])

theorem PeerTable.Wf.evaluateGroup {s : State} (h : s.table.Wf) (n : Fin 4) (g : GroupDef) (own : Key) (run : GroupRun)
    (expiry : Clock) : (s.evaluateGroup n g own run expiry).table.Wf := by
  have hg (x : GroupRun) : (s.setGroup n x).table.Wf := h
  exact (hg _).deliverResult _ _ _

theorem PeerTable.Wf.deliverConversion {s : State} (h : s.table.Wf) (st : Settings) (user : ConversionUser)
    (raw : BitVec 12) : (s.deliverConversion st user raw).table.Wf := by
  cases user with
  | check c target => exact h.of_eq (by simp [State.deliverConversion])
  | scan =>
    unfold State.deliverConversion
    dsimp only
    split
    · split
      exacts [h, h.completeScan _ _]
    · exact h

theorem PeerTable.Wf.takeOutcome {s : State} (h : s.table.Wf) (i : Nat) (x : SourceDef) (o : ReplyOutcome) :
    (s.takeOutcome i x o).table.Wf := by
  unfold State.takeOutcome
  split
  exacts [h.deliverRaw _ _ _, h.deliver _ _ _, h, h.deliverFailed _ _]

/-- Only a start, the entry to LISTENING and what takes, ages or delivers samples reach the table. -/
theorem tableWf_kept (c : Instr) : Kept c fun s => s.table.Wf := by
  constructor
  case start => exact fun _ _ _ _ => PeerTable.wf_empty
  case endLoading => exact fun _ h _ => PeerTable.Wf.endLoading h
  case acceptSample => exact fun _ _ _ h => h.acceptSample _ _
  case age => exact fun _ _ h => h.age _ Entry.toAged_key
  case expire => exact fun _ _ h => h.age _ Entry.toExpired_key
  case evaluate => exact fun _ _ _ _ _ _ h _ => PeerTable.Wf.evaluateGroup h _ _ _ _ _
  case conversion => exact fun _ _ _ _ h _ => PeerTable.Wf.deliverConversion h _ _ _
  case takeOutcome => exact fun _ _ _ _ h => PeerTable.Wf.takeOutcome h _ _ _
  case deliverRaw => exact fun _ _ _ _ h => h.deliverRaw _ _ _
  case levelChange => exact fun _ _ _ _ _ h _ => h.levelChange _ _ _
  case refresh =>
    intro s p h
    have hp : (s.setPanel p).table.Wf := h
    exact hp.deliverPanel p
  all_goals
    intros
    exact PeerTable.Wf.of_eq ‹_› (by simp)

/-- Settles O54: every piece of work keeps the table in order, so every step does. -/
theorem everyStepKeepsThePeerTable : Obligations.EveryStepKeepsThePeerTable :=
  fun _ _ => step_kept tableWf_kept fun _ _ h => h

end Sys2Proof.Machine
end

section
/-! What an event hands on, by cases: a completed conversion, a number clash, a changed level of a discrete input. -/

namespace Sys2Proof.Machine

/-- Two states are one where every field is: the frame of an operation is checked field by field. -/
theorem State.eq_of_fields {u s : State} (h1 : u.now = s.now) (h2 : u.supply = s.supply) (h3 : u.resetHeld = s.resetHeld)
    (h4 : u.station = s.station) (h5 : u.number = s.number) (h6 : u.commission = s.commission)
    (h7 : u.settings = s.settings) (h8 : u.table = s.table) (h9 : u.groups = s.groups) (h10 : u.converter = s.converter)
    (h11 : u.smoothing = s.smoothing) (h12 : u.port = s.port) (h13 : u.pulse0 = s.pulse0) (h14 : u.pulse1 = s.pulse1)
    (h15 : u.inputs = s.inputs) (h16 : u.publications = s.publications) (h17 : u.chanA = s.chanA)
    (h18 : u.chanB = s.chanB) (h19 : u.conveyor = s.conveyor) (h20 : u.panel = s.panel) (h21 : u.latch = s.latch)
    (h22 : u.beltHold = s.beltHold) (h23 : u.faults = s.faults) (h24 : u.statusTimer = s.statusTimer)
    (h25 : u.line = s.line) (h26 : u.store = s.store) (h27 : u.pending = s.pending) : u = s := by
  cases u
  cases s
  simp only [State.mk.injEq]
  exact ⟨h1, h2, h3, h4, h5, h6, h7, h8, h9, h10, h11, h12, h13, h14, h15, h16, h17, h18, h19, h20, h21, h22, h23, h24,
    h25, h26, h27⟩

/-- A completed scan reaches the table, the converter and the smoothing states alone. -/
theorem State.completeScan_eq (s : State) (st : Settings) (codes : List Nat) :
    s.completeScan st codes = { s with
      table := (s.completeScan st codes).table, converter := (s.completeScan st codes).converter
      smoothing := (s.completeScan st codes).smoothing } := by
  apply State.eq_of_fields <;> simp

/-- A scan's conversion reaches the table, the converter and the smoothing states alone. -/
theorem State.deliverConversion_scan_eq (s : State) (st : Settings) (raw : BitVec 12) :
    ∃ table converter smoothing, s.deliverConversion st .scan raw =
      { s with table := table, converter := converter, smoothing := smoothing } := by
  unfold State.deliverConversion
  dsimp only
  split
  · split
    · exact ⟨_, _, _, rfl⟩
    · exact ⟨_, _, _, s.completeScan_eq _ _⟩
  · exact ⟨_, _, _, rfl⟩

/-- A clash is nothing new on a MUTED_CLASH bus; else bus and faults first, then both channels to OFF (R158). -/
theorem State.numberClash_cases (s : State) :
    s.numberClash = s ∨ ∃ faults line, s.numberClash =
      (({ s with faults := faults, line := line } : State).channelOff .a).channelOff .b := by
  unfold State.numberClash
  split
  · exact .inl rfl
  · let muted := if s.line.bus = .mutedTimed then s.endMute .mutedClash
      else { s with line := { s.line with bus := .mutedClash } }
    refine .inr ⟨(muted.addFault .numberClash).faults, (muted.addFault .numberClash).line,
      congrArg (fun w : State => (w.channelOff .a).channelOff .b) ?_⟩
    apply State.eq_of_fields <;> simp only [State.addFault_fields, muted] <;> split <;> simp

/-- A panel press reaches the table and the panel values alone. -/
theorem State.panelPress_eq (s : State) (f : InputFunction) (d : PanelDef) (p : PanelValues) :
    s.panelPress f d p = { s with table := (s.panelPress f d p).table, panel := (s.panelPress f d p).panel } := by
  apply State.eq_of_fields <;> simp

/-- So does the truck hold. -/
theorem State.truckHold_eq (s : State) (p : PanelValues) (level : Bool) :
    s.truckHold p level = { s with table := (s.truckHold p level).table, panel := (s.truckHold p level).panel } := by
  apply State.eq_of_fields <;> simp

/-- A changed level is a halt button's cause, a release press, or a matter of the panel (R65). -/
theorem State.levelChange_cases (s : State) (st : Settings) (i : Fin 6) (level : Bool) :
    s.levelChange st i level = s.raiseCause haltInputCause (BitVec.ofNat 8 i.val) ∨
    s.levelChange st i level = s.pressRelease ∨
    ∃ table panel, s.levelChange st i level = { s with table := table, panel := panel } := by
  unfold State.levelChange
  dsimp only
  split
  · exact .inr (.inr ⟨_, _, rfl⟩)
  · cases level with
    | true => exact .inl rfl
    | false => exact .inr (.inr ⟨_, _, rfl⟩)
  · cases level with
    | true => exact .inr (.inl rfl)
    | false => exact .inr (.inr ⟨_, _, rfl⟩)
  · split
    · exact .inr (.inr ⟨_, _, s.truckHold_eq _ _⟩)
    · exact .inr (.inr ⟨_, _, rfl⟩)
  · split
    · split
      · exact .inr (.inr ⟨_, _, s.panelPress_eq _ _ _⟩)
      · exact .inr (.inr ⟨_, _, rfl⟩)
    · exact .inr (.inr ⟨_, _, rfl⟩)

end Sys2Proof.Machine
end

section
/-! Every step keeps the outputs safe (R92, R98, R109, R136, R137, R171) and the belt idle without AUTO (R128). -/

namespace Sys2Proof.Machine

/-! ### Safe outputs -/

theorem Channel.SafeUnder.atStart (x : Station) : Channel.atStart.SafeUnder none x := by
  simp [Channel.SafeUnder, Channel.Still, Channel.atStart]

theorem Channel.SafeUnder.deEnergise {ch : Channel} {l : Option LatchRecord} {x : Station} (h : ch.SafeUnder l x) :
    ch.deEnergise.SafeUnder l x := by
  obtain ⟨⟨-, hcause, -⟩, hlatched, hclear, hoff⟩ := h
  exact ⟨⟨fun _ => rfl, hcause, fun h => absurd h (lt_irrefl _), fun h => absurd h (lt_irrefl _), fun _ => ⟨rfl, rfl⟩⟩,
    hlatched, hclear, hoff⟩

/-- A channel of a station that is not RUNNING is OFF, whatever station state comes next. -/
theorem Channel.SafeUnder.toStation {ch : Channel} {l : Option LatchRecord} {x : Station} (h : ch.SafeUnder l x)
    (hx : x ≠ .running) (y : Station) : ch.SafeUnder l y :=
  ⟨h.1, h.2.1, h.2.2.1, fun _ => h.2.2.2 hx⟩

theorem State.SafeOutputs.start (s : State) (x : Straps) : (s.start x).SafeOutputs :=
  ⟨.atStart _, .atStart _, fun h => absurd rfl h⟩

theorem State.SafeOutputs.stop {s : State} (h : s.SafeOutputs) : s.stop.SafeOutputs :=
  ⟨h.1.deEnergise, h.2.1.deEnergise, h.2.2⟩

/-- Outside LISTENING and RUNNING the latch is CLEAR. -/
theorem State.SafeOutputs.latch_none {s : State} (h : s.SafeOutputs) (hw : ¬ s.atWork) : s.latch = none := by
  by_contra hl
  exact hw (h.2.2 hl)

theorem State.SafeOutputs.endLoading {s : State} (h : s.SafeOutputs) (hs : s.station = .loading) :
    s.endLoading.SafeOutputs := by
  have hl : s.latch = none := h.latch_none (by simp [State.atWork, hs])
  have idle {u : State} (ha : u.chanA = s.chanA) (hb : u.chanB = s.chanB) (hu : u.latch = s.latch) : u.SafeOutputs :=
    ⟨by rw [ha, hu]; exact h.1.toStation (by simp [hs]) _, by rw [hb, hu]; exact h.2.1.toStation (by simp [hs]) _,
      fun hn => absurd (hu.trans hl) hn⟩
  obtain ⟨-, e⟩ | ⟨f, -, -, e⟩ | ⟨st, -, -, e⟩ := s.endLoading_cases
  · exact idle (by simp [e]) (by simp [e]) (by simp [e])
  · exact idle (by simp [e]) (by simp [e]) (by simp [e])
  · have taken : (s.readPins.beginReceiving.takeSettings st).SafeOutputs := by
      have hn : (s.readPins.beginReceiving.takeSettings st).latch = none := hl
      refine ⟨?_, ?_, fun hne => absurd hn hne⟩
      · rw [hn]; exact .start _ _ _
      · rw [hn]; exact .start _ _ _
    have shown : ((s.readPins.beginReceiving.takeSettings st).startPanel st).SafeOutputs :=
      taken.of_eq (by simp) (by simp) (by simp) (by simp)
    rw [e, State.enterListening]
    unfold State.startHalt
    split
    exacts [shown.raiseCause _ _, shown]

theorem State.SafeOutputs.enterRunning {s : State} (h : s.SafeOutputs) (st : Settings) (hs : s.station = .listening) :
    (s.enterRunning st).SafeOutputs := by
  have hstation : (s.enterRunning st).station = .running := by simp [State.enterRunning]
  refine ⟨?_, ?_, fun _ => .inr hstation⟩
  · simpa using h.1.toStation (by simp [hs]) _
  · simpa using h.2.1.toStation (by simp [hs]) _

theorem State.SafeOutputs.numberClash {s : State} (h : s.SafeOutputs) : s.numberClash.SafeOutputs := by
  obtain e | ⟨faults, line, e⟩ := s.numberClash_cases
  · rwa [e]
  · rw [e]
    have hw : ({ s with faults := faults, line := line } : State).SafeOutputs := h
    exact (hw.channelOff .a).channelOff .b

theorem State.SafeOutputs.takeHalt {s : State} (h : s.SafeOutputs) (n : BitVec 4) (cause detail : Byte) :
    (s.takeHalt n cause detail).SafeOutputs := by
  unfold State.takeHalt
  split
  · rename_i hw
    exact h.setLatch hw.1 _
  · exact h

theorem State.SafeOutputs.deliverConversion {s : State} (h : s.SafeOutputs) (st : Settings) (user : ConversionUser)
    (raw : BitVec 12) : (s.deliverConversion st user raw).SafeOutputs := by
  cases user with
  | check c target => exact h.judgeCoil _ _ _
  | scan =>
    obtain ⟨table, converter, smoothing, e⟩ := s.deliverConversion_scan_eq st raw
    rw [e]
    exact h

theorem State.SafeOutputs.levelChange {s : State} (h : s.SafeOutputs) (st : Settings) (i : Fin 6) (level : Bool) :
    (s.levelChange st i level).SafeOutputs := by
  obtain e | e | ⟨table, panel, e⟩ := s.levelChange_cases st i level
  · rw [e]; exact h.raiseCause _ _
  · rw [e]; exact h.pressRelease
  · rw [e]; exact h

theorem State.SafeOutputs.armUpdate {s : State} (h : s.SafeOutputs) (c : ChannelId) (expiry : Clock) :
    (s.armUpdate c expiry).SafeOutputs :=
  h.setChannel ((h.at c).of_eq rfl rfl rfl rfl rfl)

/-- Only what reaches a channel, the latch or the station state can matter; each of these keeps the outputs safe. -/
theorem safeOutputs_kept (c : Instr) : Kept c State.SafeOutputs := by
  constructor
  case start => exact fun _ _ _ _ => .start _ _
  case powerLoss => exact fun s h => State.SafeOutputs.stop (s := { s with supply := false }) h
  case resetAssert => exact fun s h => State.SafeOutputs.stop (s := { s with resetHeld := true }) h
  case endLoading => exact fun _ h hs => h.endLoading hs
  case enterRunning => exact fun _ _ h _ hs => h.enterRunning _ hs
  case watches => exact fun s f h => State.SafeOutputs.runWatches (s := s.endReception) h f
  case clash => exact fun _ h _ => h.numberClash
  case acceptSample => exact fun _ _ _ h => h.acceptSample _ _
  case takeHalt => exact fun _ _ _ _ h => h.takeHalt _ _ _
  case takeRelease => exact fun _ _ _ h => h.takeRelease _
  case conversion => exact fun _ _ _ _ h _ => h.deliverConversion _ _ _
  case levelChange => exact fun _ _ _ _ _ h _ => h.levelChange _ _ _
  case updateChannel => exact fun _ _ _ _ h _ => (h.armUpdate _ _).updateChannel _ _
  case resumeExpired => exact fun _ _ h hs hc => h.resumeExpired hs hc
  all_goals
    intros
    exact State.SafeOutputs.of_eq ‹_› (by simp) (by simp) (by simp) (by simp)

/-! ### The belt without AUTO -/

theorem State.BeltIdle.start (s : State) (x : Straps) : (s.start x).BeltIdle :=
  fun _ k hk => by cases hk

theorem State.BeltIdle.stop {s : State} (h : s.BeltIdle) : s.stop.BeltIdle := h

theorem State.BeltIdle.endLoading {s : State} (h : s.BeltIdle) : s.endLoading.BeltIdle := by
  obtain ⟨-, e⟩ | ⟨f, -, -, e⟩ | ⟨st, -, -, e⟩ := s.endLoading_cases
  · exact h.of_eq (by simp [e]) (by simp [e])
  · exact h.of_eq (by simp [e]) (by simp [e])
  · have taken : (s.readPins.beginReceiving.takeSettings st).BeltIdle := by
      intro _ k hk
      obtain ⟨cv, -, rfl⟩ := Option.map_eq_some_iff.mp hk
      exact ⟨rfl, rfl, rfl⟩
    have shown : ((s.readPins.beginReceiving.takeSettings st).startPanel st).BeltIdle := taken.of_eq (by simp) (by simp)
    rw [e, State.enterListening]
    unfold State.startHalt
    split
    exacts [shown.keeps (State.BeltFollows.raiseCause _ _ _).1, shown]

theorem State.BeltIdle.takeHalt {s : State} (h : s.BeltIdle) (n : BitVec 4) (cause detail : Byte) :
    (s.takeHalt n cause detail).BeltIdle := by
  unfold State.takeHalt
  split
  exacts [h.keeps (State.BeltFollows.setLatch _ _).1, h]

theorem State.BeltIdle.deliverConversion {s : State} (h : s.BeltIdle) (st : Settings) (user : ConversionUser)
    (raw : BitVec 12) : (s.deliverConversion st user raw).BeltIdle := by
  cases user with
  | check c target => exact h.judgeCoil _ _ _
  | scan =>
    obtain ⟨table, converter, smoothing, e⟩ := s.deliverConversion_scan_eq st raw
    rw [e]
    exact h

theorem State.BeltFollows.pressRelease (s : State) : s.BeltFollows s.pressRelease := by
  unfold State.pressRelease
  split
  · exact .of_eq rfl rfl
  · dsimp only
    split
    · exact .of_eq rfl rfl
    · exact (State.BeltFollows.clearLatch s).trans (.of_eq rfl rfl)

theorem State.BeltIdle.levelChange {s : State} (h : s.BeltIdle) (st : Settings) (i : Fin 6) (level : Bool) :
    (s.levelChange st i level).BeltIdle := by
  obtain e | e | ⟨table, panel, e⟩ := s.levelChange_cases st i level
  · rw [e]; exact h.keeps (State.BeltFollows.raiseCause _ _ _).1
  · rw [e]; exact h.keeps (State.BeltFollows.pressRelease _).1
  · rw [e]; exact h

theorem State.BeltIdle.armUpdate {s : State} (h : s.BeltIdle) (c : ChannelId) (expiry : Clock) :
    (s.armUpdate c expiry).BeltIdle :=
  h.setChannel c _ rfl

/-- The hold timer's expiry moves the rate state alone. -/
theorem State.BeltIdle.holdExpired {s : State} {k : Conveyor} (h : s.BeltIdle) (hk : s.conveyor = some k) :
    (s.setConveyor k.holdExpired).BeltIdle := by
  intro ha k' hk'
  cases hk'
  exact h ha k hk

/-- Only what reaches channel A's state or the conveyor can matter. -/
theorem beltIdle_kept (c : Instr) : Kept c State.BeltIdle := by
  constructor
  case start => exact fun _ _ _ _ => .start _ _
  case powerLoss => exact fun _ h => h
  case resetAssert => exact fun _ h => h
  case endLoading => exact fun _ h _ => h.endLoading
  case watches => exact fun s f h => State.BeltIdle.keeps (s := s.endReception) h (State.BeltFollows.runWatches _ _).1
  case clash => exact fun _ h _ => h.keeps (State.BeltFollows.numberClash _).1
  case acceptSample => exact fun _ _ _ h => h.acceptSample _ _
  case takeHalt => exact fun _ _ _ _ h => h.takeHalt _ _ _
  case takeRelease => exact fun _ _ _ h => h.keeps (State.BeltFollows.takeRelease _ _).1
  case conversion => exact fun _ _ _ _ h _ => h.deliverConversion _ _ _
  case levelChange => exact fun _ _ _ _ _ h _ => h.levelChange _ _ _
  case updateChannel => exact fun _ _ _ _ h _ => (h.armUpdate _ _).updateChannel _ _
  case resumeExpired => exact fun _ _ h _ _ => h.resumeExpired _
  case holdExpired => exact fun _ _ h hk => h.holdExpired hk
  all_goals
    intros
    exact State.BeltIdle.of_eq ‹_› (by simp) (by simp)

/-- Settles O55: the two invariants, each kept by every piece of work. -/
theorem everyStepKeepsOutputsSafe : Obligations.EveryStepKeepsOutputsSafe :=
  ⟨fun _ _ => step_kept safeOutputs_kept fun _ _ h => h, fun _ _ => step_kept beltIdle_kept fun _ _ h => h⟩

end Sys2Proof.Machine
end

section
/-! Every step keeps the fault collection, the coil faults and the bus (R149, R112, R116, R158, R162). -/

namespace Sys2Proof.Machine

/-! ### The fault collection -/

theorem State.FaultsWf.endLoading {s : State} (h : s.FaultsWf) : s.endLoading.FaultsWf := by
  obtain ⟨-, e⟩ | ⟨f, -, -, e⟩ | ⟨st, -, -, e⟩ := s.endLoading_cases
  · exact h.of_eq (by simp [e])
  · exact (h.addFault f).of_eq (by simp [e, State.addFault_faults])
  · have taken : (s.readPins.beginReceiving.takeSettings st).FaultsWf := h
    exact taken.of_eq (by simp [e, State.enterListening])

/-- Every addition and every removal keeps the collection free of doubles; nothing else reaches it. -/
theorem faultsWf_kept (c : Instr) : Kept c State.FaultsWf := by
  constructor
  case start => exact fun _ _ _ _ => List.nodup_nil
  case endLoading => exact fun _ h _ => h.endLoading
  case clash => exact fun _ h _ => h.numberClash
  case acceptSample => exact fun _ _ _ h => h.acceptSample _ _
  case takeRelease => exact fun _ _ _ h => h.takeRelease _
  case addOverrun => exact fun _ h => h.addFault _
  case removeOverrun => exact fun _ h => h.removeFault _
  case conversion => exact fun _ _ _ _ h _ => h.deliverConversion _ _ _
  case judgeReply => exact fun _ _ h => h.judgeReply _
  case levelChange => exact fun _ _ _ _ _ h _ => h.levelChange _ _ _
  case updateChannel =>
    intro s st c expiry h _
    have armed : (s.armUpdate c expiry).FaultsWf := h.of_eq (by simp)
    exact armed.updateChannel st c
  case resumeExpired => exact fun _ _ h _ _ => h.resumeExpired _
  case echoFault => exact fun s f h _ => State.FaultsWf.countEcho (s := { s with line := s.line.stopFrame f }) h
  case endMute => exact fun _ h _ => h.endMute _
  all_goals
    intros
    exact State.FaultsWf.of_eq ‹_› (by simp)

/-! ### Coil faults -/

/-- The loading checks find image faults alone. -/
theorem loadImage_error {number : BitVec 4} {m : Memory} {f : FaultCode} (h : loadImage number m = .error f) :
    f ∈ [FaultCode.imageCheckword, .imageFormat, .imageLimits, .imageReference] := by
  unfold loadImage at h
  dsimp only at h
  (repeat' split at h) <;> cases h <;> simp

theorem loadImage_error_noCoil {number : BitVec 4} {m : Memory} {f : FaultCode} (h : loadImage number m = .error f) :
    f.NoCoil := by
  have := loadImage_error h
  simp only [List.mem_cons, List.not_mem_nil, or_false] at this
  rcases this with rfl | rfl | rfl | rfl <;> decide

theorem State.CoilFaultsWf.start (s : State) (x : Straps) : (s.start x).CoilFaultsWf := by
  intro c
  cases c <;> simp [State.start, State.reset, State.channel, Channel.atStart]

/-- The new channels of a loaded image have no coil fault, and the channels before them, which were OFF, left no
code. -/
theorem State.CoilFaultsWf.takeSettings {s : State} (h : s.CoilFaultsWf) (hoff : ∀ c, (s.channel c).state = .off)
    (st : Settings) : (s.takeSettings st).CoilFaultsWf := by
  intro c
  have hch : (s.takeSettings st).channel c = (st.channel c).start s.clock := by cases c <;> rfl
  have hnone (f : CoilFault) : coilCode c f ∉ (s.takeSettings st).faults := h.no_code (by simp [hoff c]) f
  rw [hch]
  exact ⟨by simp [ChannelDef.start, Channel.atStart], fun f => ⟨fun hm => absurd hm (hnone f), fun hf => by cases hf⟩⟩

theorem State.CoilFaultsWf.endLoading {s : State} (h : s.CoilFaultsWf) (ho : s.SafeOutputs) (hs : s.station = .loading) :
    s.endLoading.CoilFaultsWf := by
  have receiving : s.readPins.beginReceiving.CoilFaultsWf := h.same (by simp) (by simp) (by simp)
  obtain ⟨-, e⟩ | ⟨f, -, hf, e⟩ | ⟨st, -, -, e⟩ := s.endLoading_cases
  · exact receiving.same (by simp [e]) (by simp [e]) (by simp [e])
  · exact (receiving.addFault (loadImage_error_noCoil hf)).same (by simp [e]) (by simp [e]) (by simp [e])
  · have hoff (c : ChannelId) : (s.readPins.beginReceiving.channel c).state = .off := by
      have := (ho.at c).2.2.2 (by simp [hs])
      cases c <;> simpa [State.channel] using this
    have shown : ((s.readPins.beginReceiving.takeSettings st).startPanel st).CoilFaultsWf :=
      (receiving.takeSettings hoff st).same (by simp) (by simp) (by simp)
    rw [e, State.enterListening]
    unfold State.startHalt
    split
    exacts [shown.raiseCause _ _, shown]

theorem State.CoilFaultsWf.takeHalt {s : State} (h : s.CoilFaultsWf) (n : BitVec 4) (cause detail : Byte) :
    (s.takeHalt n cause detail).CoilFaultsWf := by
  unfold State.takeHalt
  split
  exacts [h.setLatch _, h]

theorem State.CoilFaultsWf.deliverConversion {s : State} (h : s.CoilFaultsWf) (st : Settings) (user : ConversionUser)
    (raw : BitVec 12) : (s.deliverConversion st user raw).CoilFaultsWf := by
  cases user with
  | check c target => exact h.judgeCoil _ _ _
  | scan =>
    obtain ⟨table, converter, smoothing, e⟩ := s.deliverConversion_scan_eq st raw
    rw [e]
    exact h

theorem State.CoilFaultsWf.judgeReply {s : State} (h : s.CoilFaultsWf) (o : Option ReplyOutcome) :
    (s.judgeReply o).CoilFaultsWf := by
  have port (p : SerialPort) : ({ s with port := p } : State).CoilFaultsWf := h
  unfold State.judgeReply
  split
  · exact h
  · exact (port _).removeFault (by decide)
  · split
    · exact h
    · exact (port _).addFault (by decide)

theorem State.CoilFaultsWf.levelChange {s : State} (h : s.CoilFaultsWf) (st : Settings) (i : Fin 6) (level : Bool) :
    (s.levelChange st i level).CoilFaultsWf := by
  obtain e | e | ⟨table, panel, e⟩ := s.levelChange_cases st i level
  · rw [e]; exact h.raiseCause _ _
  · rw [e]; exact h.pressRelease
  · rw [e]; exact h

theorem State.CoilFaultsWf.countEcho {s : State} (h : s.CoilFaultsWf) : s.countEcho.CoilFaultsWf := by
  have line (l : Line) : ({ s with line := l } : State).CoilFaultsWf := h
  unfold State.countEcho
  split
  · exact h
  · exact (line _).addFault (by decide)

/-- Coil codes follow the channels' entries to FAULT and their leaving it; that outputs are safe matters at the entry
to LISTENING, where the channels begin anew. -/
theorem coilFaultsWf_kept (c : Instr) : Kept c fun s => s.SafeOutputs ∧ s.CoilFaultsWf := by
  have K := safeOutputs_kept c
  constructor
  case start => exact fun hc s x h => ⟨K.start hc s x h.1, .start s x⟩
  case powerLoss => exact fun s h => ⟨K.powerLoss s h.1, h.2.of_eq (fun c => by cases c <;> exact ⟨rfl, rfl⟩) fun _ _ => .rfl⟩
  case resetAssert => exact fun s h => ⟨K.resetAssert s h.1, h.2.of_eq (fun c => by cases c <;> exact ⟨rfl, rfl⟩) fun _ _ => .rfl⟩
  case endLoading => exact fun s h hs => ⟨K.endLoading s h.1 hs, h.2.endLoading h.1 hs⟩
  case enterRunning =>
    exact fun s st h hst hs => ⟨K.enterRunning s st h.1 hst hs, h.2.same (by simp) (by simp) (by simp)⟩
  case watches =>
    exact fun s f h => ⟨K.watches s f h.1, State.CoilFaultsWf.runWatches (s := s.endReception) h.2 f⟩
  case clash => exact fun s h hf => ⟨K.clash s h.1 hf, h.2.numberClash⟩
  case acceptSample => exact fun s n r h => ⟨K.acceptSample s n r h.1, h.2.acceptSample n r⟩
  case takeHalt => exact fun s n k d h => ⟨K.takeHalt s n k d h.1, h.2.takeHalt n k d⟩
  case takeRelease => exact fun hc s n h => ⟨K.takeRelease hc s n h.1, h.2.takeRelease n⟩
  case addOverrun => exact fun s h => ⟨K.addOverrun s h.1, h.2.addFault (by decide)⟩
  case removeOverrun => exact fun s h => ⟨K.removeOverrun s h.1, h.2.removeFault (by decide)⟩
  case conversion => exact fun s st u r h hs => ⟨K.conversion s st u r h.1 hs, h.2.deliverConversion st u r⟩
  case judgeReply => exact fun s o h => ⟨K.judgeReply s o h.1, h.2.judgeReply o⟩
  case levelChange => exact fun hc s st i l h hs => ⟨K.levelChange hc s st i l h.1 hs, h.2.levelChange st i l⟩
  case updateChannel =>
    intro s st c expiry h hs
    have armed : (s.armUpdate c expiry).CoilFaultsWf := h.2.setChannel rfl rfl
    exact ⟨K.updateChannel s st c expiry h.1 hs, armed.updateChannel st c⟩
  case resumeExpired => exact fun s c h hs hc => ⟨K.resumeExpired s c h.1 hs hc, h.2.resumeExpired hs⟩
  case echoFault =>
    exact fun s f h hf => ⟨K.echoFault s f h.1 hf, State.CoilFaultsWf.countEcho (s := { s with line := s.line.stopFrame f }) h.2⟩
  case endMute => exact fun s h hm => ⟨K.endMute s h.1 hm, h.2.endMute _⟩
  all_goals
    intros
    obtain ⟨ho, hc⟩ := ‹State.SafeOutputs _ ∧ State.CoilFaultsWf _›
    exact ⟨ho.of_eq (by simp) (by simp) (by simp) (by simp), hc.same (by simp) (by simp) (by simp)⟩

/-! ### The bus -/

theorem loadImage_error_ofBus {number : BitVec 4} {m : Memory} {f : FaultCode} (h : loadImage number m = .error f) :
    f.ofBus = false := by
  have := loadImage_error h
  simp only [List.mem_cons, List.not_mem_nil, or_false] at this
  rcases this with rfl | rfl | rfl | rfl <;> rfl

/-- Where neither bus nor mute timer nor faults move and a frame in flight goes, the agreement stands. -/
theorem State.BusWf.of_bus {s u : State} (h : s.BusWf) (hb : u.line.bus = s.line.bus)
    (hm : u.line.muteTimer = s.line.muteTimer) (hf : u.line.flight = s.line.flight ∨ u.line.flight = none)
    (he : u.faults = s.faults) : u.BusWf := by
  obtain ⟨hflight, hrest⟩ := h
  refine ⟨fun hne => ?_, by rw [hb, hm, he]; exact hrest⟩
  obtain hf | hf := hf
  · exact hf.trans (hflight (hb ▸ hne))
  · exact hf

theorem State.BusWf.start (s : State) (x : Straps) : (s.start x).BusWf := by
  simp [State.BusWf, State.start, State.reset, Line.atStart]

/-- From RECEIVE_ONLY the bus becomes ACTIVE without a fault of its own coming or going. -/
theorem State.BusWf.activateBus {s : State} (h : s.BusWf) : s.activateBus.BusWf := by
  unfold State.activateBus
  split
  · rename_i hr
    obtain ⟨-, ht, he, hc⟩ := h
    simp only [hr.2, reduceCtorEq, false_iff, iff_false] at ht he hc
    exact ⟨fun hne => absurd rfl hne, by simpa using ht, by simpa using he, by simpa using hc⟩
  · exact h

theorem State.BusWf.startStatus {s : State} (h : s.BusWf) : s.startStatus.BusWf := h

theorem State.BusWf.enterIdle {s : State} (h : s.BusWf) (x : Station) : (s.enterIdle x).BusWf := by
  have entered : ({ s with station := x } : State).BusWf := h
  exact entered.activateBus.startStatus

theorem State.BusWf.endLoading {s : State} (h : s.BusWf) : s.endLoading.BusWf := by
  have receiving : s.readPins.beginReceiving.BusWf := h.of_bus rfl rfl (.inl rfl) rfl
  obtain ⟨-, e⟩ | ⟨f, -, hf, e⟩ | ⟨st, -, -, e⟩ := s.endLoading_cases
  · rw [e]; exact receiving.enterIdle _
  · rw [e]
    exact (receiving.of_faults (by simp) (.add _ (loadImage_error_ofBus hf))).enterIdle _
  · have taken : (s.readPins.beginReceiving.takeSettings st).BusWf := receiving
    rw [e]
    exact taken.of_faults (by simp [State.enterListening]) (.of_eq (by simp [State.enterListening]))

theorem State.BusWf.enterRunning {s : State} (h : s.BusWf) (st : Settings) : (s.enterRunning st).BusWf := by
  have entered (runs : List PublicationRun) : ({ s with station := .running, publications := runs } : State).BusWf := h
  exact (entered _).activateBus.startStatus

theorem State.BusWf.channelOff {s : State} (h : s.BusWf) (c : ChannelId) : (s.channelOff c).BusWf :=
  h.of_faults (by simp) (.channelOff _ _)

/-- Leaving the timed mute takes the timer and ECHO_MUTE away together. -/
theorem State.BusWf.endMute {s : State} (h : s.BusWf) (hm : s.line.bus = .mutedTimed) : (s.endMute .active).BusWf := by
  obtain ⟨-, -, -, hc⟩ := h
  have hclash : FaultCode.numberClash ∉ s.faults := by simp [hc, hm]
  simp [State.BusWf, State.endMute, State.removeFault_line, State.removeFault_faults, hclash]

theorem State.BusWf.numberClash {s : State} (h : s.BusWf) (hf : s.line.flight = none) : s.numberClash.BusWf := by
  unfold State.numberClash
  split
  · exact h
  · rename_i hb
    obtain ⟨-, ht, he, hc⟩ := h
    dsimp only
    refine (State.BusWf.channelOff ?_ .a).channelOff .b
    split
    · simp [State.BusWf, State.endMute, State.removeFault_line, State.addFault_line, State.mem_addFault,
        State.mem_removeFault, hf]
    · rename_i hm
      simp only [hm, false_iff, not_not, iff_false] at ht he
      simp [State.BusWf, State.addFault_line, State.mem_addFault, hf, ht, he]

/-- A frame of its own is in flight on an ACTIVE bus alone, and the eighth echo fault mutes it with ECHO_MUTE. -/
theorem State.BusWf.echoFault {s : State} {f : Flight} (h : s.BusWf) (hf : s.line.flight = some f) :
    (State.countEcho { s with line := s.line.stopFrame f }).BusWf := by
  have hb : s.line.bus = .active := by
    by_contra hne
    simp [h.1 hne] at hf
  obtain ⟨-, ht, he, hc⟩ := h
  simp only [hb, reduceCtorEq, false_iff, iff_false, not_not] at ht he hc
  unfold State.countEcho
  split
  · simp [State.BusWf, Line.stopFrame, hb, ht, he, hc]
  · simp [State.BusWf, State.beginMute, Line.stopFrame, State.addFault_line, State.mem_addFault, hc]

theorem Line.countError_fields (l : Line) : l.countError.bus = l.bus ∧ l.countError.muteTimer = l.muteTimer ∧
    l.countError.flight = l.flight ∧ l.countError.echoRun = l.echoRun ∧ l.countError.queue = l.queue := by
  unfold Line.countError
  split <;> exact ⟨rfl, rfl, rfl, rfl, rfl⟩

/-- The bus moves at a start, an activation, a mute and its end, and a clash, each with the faults that go with it. -/
theorem busWf_kept (c : Instr) : Kept c State.BusWf := by
  constructor
  case start => exact fun _ _ _ _ => .start _ _
  case powerLoss => exact fun _ h => h.of_bus rfl rfl (.inr rfl) rfl
  case resetAssert => exact fun _ h => h.of_bus rfl rfl (.inr rfl) rfl
  case endLoading => exact fun _ h _ => h.endLoading
  case enterRunning => exact fun _ _ h _ _ => h.enterRunning _
  case receiver => exact fun _ _ _ _ h => h
  case dropped =>
    intro s r q h
    obtain ⟨hb, hm, hf, -⟩ := s.line.countError_fields
    exact h.of_bus hb hm (.inl hf) rfl
  case watches =>
    intro s f h
    have ended : s.endReception.BusWf := h
    exact ended.of_faults (by simp) (.of_eq (by simp))
  case clash => exact fun _ h hf => h.numberClash hf
  case acceptSample => exact fun _ _ _ h => h.of_faults (by simp) (.acceptSample _ _ _)
  case takeRelease => exact fun _ _ _ h => h.of_faults (by simp) (.takeRelease _ _)
  case addOverrun => exact fun _ h => h.of_faults (by simp) (.add _ rfl)
  case removeOverrun => exact fun _ h => h.of_faults (by simp) (.remove _ rfl)
  case conversion => exact fun _ _ _ _ h _ => h.of_faults (by simp) (.deliverConversion _ _ _ _)
  case judgeReply => exact fun _ _ h => h.of_faults (by simp) (.judgeReply _ _)
  case levelChange => exact fun _ _ _ _ _ h _ => h.of_faults (by simp) (.levelChange _ _ _ _)
  case queueSample => exact fun _ _ _ h _ => h.of_bus rfl rfl (.inl rfl) rfl
  case updateChannel =>
    intro s st c expiry h _
    have armed : (s.armUpdate c expiry).BusWf := h.of_bus (by simp) (by simp) (.inl (by simp)) (by simp)
    exact armed.of_faults (by simp) (.updateChannel _ _ _)
  case resumeExpired => exact fun _ _ h _ _ => h.of_faults (by simp) (.resumeExpired _ _)
  case beginFrame => exact fun _ _ _ _ _ h hb _ => ⟨fun hne => absurd hb hne, h.2⟩
  case endFrame => exact fun _ _ h _ => h.of_bus rfl rfl (.inr rfl) rfl
  case stopFrame => exact fun _ _ h _ => h.of_bus rfl rfl (.inr rfl) rfl
  case echoFault => exact fun _ _ h hf => h.echoFault hf
  case endMute => exact fun _ h hm => h.endMute hm
  all_goals
    intros
    exact State.BusWf.of_faults ‹_› (by simp) (.of_eq (by simp))

/-- Settles O56: the three invariants, the second together with the safe outputs it needs. -/
theorem everyStepKeepsBusAndFaults : Obligations.EveryStepKeepsBusAndFaults :=
  ⟨fun _ _ => step_kept faultsWf_kept fun _ _ h => h,
    fun _ _ ho hc e => (step_kept coilFaultsWf_kept (fun _ _ h => h) ⟨ho, hc⟩ e).2,
    fun _ _ => step_kept busWf_kept fun _ _ h => h⟩

end Sys2Proof.Machine
end

section
/-! Every step keeps the keys in queue and flight and the counters of the line (R156, R162, R164). -/

namespace Sys2Proof.Machine

/-- Where queue and published keys stand, a frame in flight stands or goes, and LOADING is not entered, the keys stay
in order. -/
theorem State.LineWf.of_parts {s u : State} (h : s.LineWf)
    (hp : publishedKeys u.publications = publishedKeys s.publications) (hq : u.line.queue = s.line.queue)
    (hf : u.line.flight = s.line.flight ∨ u.line.flight = none) (hs : u.station = .loading → s.station = .loading)
    (hr : u.line.echoRun < Config.muteRun) (he : u.line.errors ≤ Config.totalLimit) : u.LineWf := by
  obtain ⟨hlen, hqueue, hflight, hqkeys, hfkeys, hload, -, -⟩ := h
  have hn : u.publications.length = s.publications.length := by
    rw [← publishedKeys_length, hp, publishedKeys_length]
  have keys {k : BitVec 6 × BitVec 2} (hk : k ∈ publishedKeys s.publications) : k ∈ publishedKeys u.publications := hp ▸ hk
  refine ⟨hn ▸ hlen, by rw [hq]; exact hqueue, ?_, by rw [hq]; exact fun k hk => keys (hqkeys k hk), ?_, ?_, hr, he⟩
  · obtain hf | hf := hf
    · rwa [hf]
    · rw [hf]; exact List.nodup_nil
  · obtain hf | hf := hf
    · rw [hf]; exact fun k hk => keys (hfkeys k hk)
    · rw [hf]; exact fun k hk => absurd hk List.not_mem_nil
  · intro hu
    obtain ⟨hpubs, hempty, hnone⟩ := hload (hs hu)
    refine ⟨List.length_eq_zero_iff.mp (by rw [hn, hpubs]; rfl), hq.trans hempty, ?_⟩
    obtain hf | hf := hf
    · exact hf.trans hnone
    · exact hf

section
variable {s : State} (h : s.LineWf)
include h

theorem State.LineWf.echoRun_lt : s.line.echoRun < Config.muteRun := h.2.2.2.2.2.2.1

theorem State.LineWf.errors_le : s.line.errors ≤ Config.totalLimit := h.2.2.2.2.2.2.2

end

theorem muteRun_pos : 0 < Config.muteRun := by decide

theorem State.LineWf.start (s : State) (x : Straps) : (s.start x).LineWf :=
  ⟨Nat.zero_le _, List.nodup_nil, List.nodup_nil, fun _ hk => absurd hk List.not_mem_nil,
    fun _ hk => absurd hk List.not_mem_nil, fun _ => ⟨rfl, rfl, rfl⟩, muteRun_pos, Nat.zero_le _⟩

theorem activateBus_parts (s : State) : s.activateBus.line.queue = s.line.queue ∧
    s.activateBus.line.flight = s.line.flight ∧ s.activateBus.line.echoRun = s.line.echoRun ∧
    s.activateBus.line.errors = s.line.errors := by
  unfold State.activateBus
  split <;> exact ⟨rfl, rfl, rfl, rfl⟩

theorem State.LineWf.activateBus {s : State} (h : s.LineWf) : s.activateBus.LineWf := by
  obtain ⟨hq, hf, hr, he⟩ := activateBus_parts s
  exact h.of_parts (by simp) hq (.inl hf) (by simp) (hr ▸ h.echoRun_lt) (he ▸ h.errors_le)

theorem State.LineWf.startStatus {s : State} (h : s.LineWf) : s.startStatus.LineWf := h

theorem State.LineWf.enterIdle {s : State} (h : s.LineWf) {x : Station} (hx : x ≠ .loading) : (s.enterIdle x).LineWf := by
  have entered : ({ s with station := x } : State).LineWf :=
    h.of_parts rfl rfl (.inl rfl) (fun hu => absurd hu hx) h.echoRun_lt h.errors_le
  exact entered.activateBus.startStatus

/-- An image holds sixteen publication records. -/
theorem settingsOf_publications (m : Memory) : (settingsOf m).publications.length ≤ Config.queueSize :=
  (List.length_filterMap_le _ _).trans (by simp [Config.queueSize])

theorem State.LineWf.takeSettings {s : State} (h : s.LineWf) (hs : s.station = .loading) {st : Settings}
    (hst : st.publications.length ≤ Config.queueSize) : (s.takeSettings st).LineWf := by
  obtain ⟨-, -, -, -, -, hload, hr, he⟩ := h
  obtain ⟨-, hq, hf⟩ := hload hs
  refine ⟨by simpa [State.takeSettings] using hst, ?_, ?_, ?_, ?_, fun hu => Station.noConfusion hu, hr, he⟩
  · show (queueKeys s.line.queue).Nodup
    rw [hq]; exact List.nodup_nil
  · show (flightKeys s.line.flight).Nodup
    rw [hf]; exact List.nodup_nil
  · show ∀ k ∈ queueKeys s.line.queue, _
    rw [hq]; exact fun k hk => absurd hk List.not_mem_nil
  · show ∀ k ∈ flightKeys s.line.flight, _
    rw [hf]; exact fun k hk => absurd hk List.not_mem_nil

theorem State.LineWf.endLoading {s : State} (h : s.LineWf) (hs : s.station = .loading) : s.endLoading.LineWf := by
  have receiving : s.readPins.beginReceiving.LineWf := h.of_parts rfl rfl (.inl rfl) id h.echoRun_lt h.errors_le
  obtain ⟨-, e⟩ | ⟨f, -, -, e⟩ | ⟨st, -, hl, e⟩ := s.endLoading_cases
  · rw [e]; exact receiving.enterIdle (by decide)
  · rw [e]
    have found : (s.readPins.beginReceiving.addFault f).LineWf := receiving.of_core (by simp) (by simp) (by simp)
    exact found.enterIdle (by decide)
  · obtain ⟨hst, -⟩ := loadImage_pinned hl
    have taken := receiving.takeSettings (st := st) hs (hst ▸ settingsOf_publications _)
    rw [e]
    exact taken.of_core (by simp [State.enterListening]) (by simp [State.enterListening]) (by simp [State.enterListening])

/-- At the entry to RUNNING the published keys stand; their timers begin. -/
theorem State.enterRunning_eq (s : State) (st : Settings) : ∃ runs, publishedKeys runs = publishedKeys s.publications ∧
    s.enterRunning st = ({ s with station := .running, publications := runs }.activateBus).startStatus := by
  refine ⟨_, ?_, rfl⟩
  rw [publishedKeys, publishedKeys, List.map_map]
  refine List.map_congr_left fun p _ => ?_
  simp only [Function.comp]
  split <;> rfl

theorem State.LineWf.enterRunning {s : State} (h : s.LineWf) (st : Settings) : (s.enterRunning st).LineWf := by
  obtain ⟨runs, hkeys, e⟩ := s.enterRunning_eq st
  have entered : ({ s with station := .running, publications := runs } : State).LineWf :=
    h.of_parts hkeys rfl (.inl rfl) (fun hu => Station.noConfusion hu) h.echoRun_lt h.errors_le
  rw [e]
  exact entered.activateBus.startStatus

theorem Line.countError_errors {l : Line} (h : l.errors ≤ Config.totalLimit) : l.countError.errors ≤ Config.totalLimit := by
  unfold Line.countError
  split
  exacts [h, saturate_le _ _]

theorem State.LineWf.endMute {s : State} (h : s.LineWf) (x : BusState) : (s.endMute x).LineWf :=
  h.of_parts (by simp) (by simp [State.endMute, State.removeFault_line])
    (.inl (by simp [State.endMute, State.removeFault_line])) (by simp)
    (by simp [State.endMute, State.removeFault_line, Config.muteRun])
    (by simpa [State.endMute, State.removeFault_line] using h.errors_le)

theorem State.LineWf.numberClash {s : State} (h : s.LineWf) : s.numberClash.LineWf := by
  unfold State.numberClash
  split
  · exact h
  · dsimp only
    have off {w : State} (hw : w.LineWf) : (((w.addFault .numberClash).channelOff .a).channelOff .b).LineWf :=
      hw.of_core (by simp) (by simp) (by simp)
    split
    · exact off (h.endMute _)
    · exact off (h.of_parts rfl rfl (.inl rfl) id h.echoRun_lt h.errors_le)

theorem findPublication_key {runs : List PublicationRun} {q : BitVec 6} {i : BitVec 2} {run : PublicationRun}
    (h : findPublication runs q i = some run) : (q, i) ∈ publishedKeys runs := by
  have hk := List.find?_some h
  simp only [Bool.and_eq_true, beq_iff_eq] at hk
  exact List.mem_map.mpr ⟨run, List.mem_of_find?_eq_some h, by rw [hk.1, hk.2]⟩

theorem State.LineWf.queueSample {s : State} (h : s.LineWf) {x : QueuedSample} {run : PublicationRun}
    (hx : findPublication s.publications x.code x.inst = some run) : (s.queueSample x).LineWf := by
  obtain ⟨hlen, hqueue, hflight, hqkeys, hfkeys, hload, hr, he⟩ := h
  obtain ⟨hnew, hkeys⟩ := enqueue_keys hqueue x
  refine ⟨hlen, hnew, hflight, fun k hk => ?_, hfkeys, fun hs => ?_, hr, he⟩
  · obtain hk | rfl := hkeys k hk
    · exact hqkeys k hk
    · exact findPublication_key hx
  · have hnone : s.publications = [] := (hload hs).1
    simp [hnone, findPublication] at hx

/-- A beginning takes at most four samples from the head of the queue into flight. -/
theorem State.LineWf.beginFrame {s : State} (h : s.LineWf) {f : OwnFrame} {k : ControlSet} {q : List QueuedSample}
    (hc : s.chooseFrame = some (f, k, q)) (t : Nat) : State.LineWf { s with line := { s.line with
      control := k, queue := q, flight := some ⟨f, t, false⟩, receiver := .inFrame true, quietSince := none } } := by
  obtain ⟨hlen, hqueue, -, hqkeys, -, -, hr, he⟩ := h
  obtain ⟨hs, hparts⟩ := chooseFrame_keys (t := t) (b := false) hc
  obtain ⟨hf, rfl⟩ | ⟨hf, rfl⟩ := hparts
  · exact ⟨hlen, hqueue, hf ▸ List.nodup_nil, hqkeys, fun k hk => absurd (hf ▸ hk) List.not_mem_nil,
      fun hl => absurd hl hs, hr, he⟩
  · have taken : (queueKeys (s.line.queue.take 4)).Sublist (queueKeys s.line.queue) :=
      (List.take_sublist 4 _).map _
    have left : (queueKeys (s.line.queue.drop 4)).Sublist (queueKeys s.line.queue) := (List.drop_sublist 4 _).map _
    exact ⟨hlen, hqueue.sublist left, hf ▸ hqueue.sublist taken, fun k hk => hqkeys k (left.subset hk),
      fun k hk => hqkeys k (taken.subset (hf ▸ hk)), fun hl => absurd hl hs, hr, he⟩

theorem State.LineWf.countEcho {s : State} (h : s.LineWf) : s.countEcho.LineWf := by
  unfold State.countEcho
  split
  · exact h.of_parts rfl rfl (.inl rfl) id ‹_› h.errors_le
  · unfold State.beginMute
    have muted (x : BusState) (timer : Option Clock) :
        ({ s with line := { s.line with bus := x, muteTimer := timer } } : State).LineWf :=
      h.of_parts rfl rfl (.inl rfl) id h.echoRun_lt h.errors_le
    exact (muted .mutedTimed (some (after s.clock Config.muteTime))).of_core (by simp) (by simp) (by simp)

/-- What the blocks do leaves of the line all but its control frames; the receiver, the sender and the publication
timers are looked at one by one. -/
theorem lineWf_kept (c : Instr) : Kept c State.LineWf := by
  constructor
  case start => exact fun _ _ _ _ => .start _ _
  case powerLoss => exact fun _ h => h.of_parts rfl rfl (.inr rfl) id h.echoRun_lt h.errors_le
  case resetAssert => exact fun _ h => h.of_parts rfl rfl (.inr rfl) id h.echoRun_lt h.errors_le
  case endLoading => exact fun _ h hs => h.endLoading hs
  case enterRunning => exact fun _ _ h _ _ => h.enterRunning _
  case receiver => exact fun _ _ _ _ h => h.of_parts rfl rfl (.inl rfl) id h.echoRun_lt h.errors_le
  case dropped =>
    intro s r q h
    obtain ⟨-, -, hf, hr, hq⟩ := s.line.countError_fields
    exact h.of_parts rfl hq (.inl hf) id (hr ▸ h.echoRun_lt) (Line.countError_errors h.errors_le)
  case watches =>
    intro s f h
    have ended : s.endReception.LineWf := h.of_parts rfl rfl (.inl rfl) id h.echoRun_lt h.errors_le
    exact ended.of_core (by simp) (by simp) (by simp)
  case clash => exact fun _ h _ => h.numberClash
  case armPublication =>
    exact fun s q i x h => h.of_pubs rfl (publishedKeys_update _ _ _ _ fun _ => ⟨rfl, rfl⟩) rfl
  case queueSample => exact fun _ _ _ h hx => h.queueSample hx
  case beginFrame => exact fun _ _ _ _ t h _ hc => h.beginFrame hc t
  case endFrame =>
    exact fun _ _ h _ => h.of_parts (publishedKeys_step _ _) rfl (.inr rfl) id muteRun_pos h.errors_le
  case stopFrame => exact fun _ _ h hf => h.stopFrame hf
  case echoFault => exact fun _ _ h hf => (h.stopFrame hf).countEcho
  case endMute => exact fun _ h _ => h.endMute _
  all_goals
    intros
    exact State.LineWf.of_core ‹_› (by simp) (by simp) (by simp)

/-- Settles O57: what enters the queue has a published key, and what is in flight came from the queue. -/
theorem everyStepKeepsTheLine : Obligations.EveryStepKeepsTheLine :=
  fun _ _ => step_kept lineWf_kept fun _ _ h => h

end Sys2Proof.Machine
end

section
/-! Every step keeps the image store (9.1, R173). -/

namespace Sys2Proof.Machine

theorem setRow_addresses {m : Memory} (h : ∀ x ∈ m, x.1 < 1024) {row : Nat} (hr : row < 64) (bytes : Row) :
    ∀ x ∈ Memory.setRow m row bytes.toList, x.1 < 1024 := fun x hx => by
  obtain hx | ⟨-, hx⟩ := Memory.mem_setRow hx
  · exact h x hx
  · rw [Vector.length_toList] at hx; omega

/-- An operation in flight other than ERASE_ALL names one of the 64 rows. -/
theorem Store.Wf.row_lt {s : Store} {op : StoreOp} (h : s.Wf) (hop : s.op = some op) (hk : op.command ≠ .eraseAll) :
    op.row.toNat < 64 := by
  obtain ⟨-, -, hrow⟩ := h
  rw [hop] at hrow
  exact hrow hk

/-- Only a start and the store's own commands reach the store. -/
theorem storeWf_kept (c : Instr) : Kept c fun s => s.store.Wf := by
  constructor
  case start => exact fun _ _ _ h => h.abandon
  case endLoading =>
    intro s h _
    have stands : s.endLoading.store = s.store := by
      obtain ⟨-, e⟩ | ⟨f, -, -, e⟩ | ⟨st, -, -, e⟩ := s.endLoading_cases
      · simp [e]
      · simp [e]
      · rw [e, State.enterListening, show ∀ w : State, (w.startHalt st).store = w.store by simp,
          show ∀ w : State, (w.startPanel st).store = w.store by simp]
        rfl
    rw [stands]
    exact h
  case beginOp => exact fun _ _ _ _ h hr => ⟨h.1, h.2.1, hr⟩
  case writeBytes => exact fun _ _ r row h hr => ⟨Memory.setRow_wf h.1 _ _, setRow_addresses h.2.1 hr row, h.2.2⟩
  case writeRow =>
    exact fun _ s op row h hop hk =>
      .idle _ (Memory.setRow_wf h.1 _ _) (setRow_addresses h.2.1 (h.row_lt hop hk) row)
  case eraseRow =>
    exact fun _ s op h hop hk => .idle _ (Memory.eraseRow_wf h.1 _) (eraseRow_addresses h.2.1 (h.row_lt hop hk))
  case eraseAll => exact fun _ _ _ => .idle _ Memory.wf_nil fun _ hx => absurd hx List.not_mem_nil
  case blankCheck => exact fun _ h => .idle _ h.1 h.2.1
  all_goals
    intros
    simpa

/-- Settles O58: writes keep the canonical form, and each goes into one of the 64 rows. -/
theorem everyStepKeepsTheStore : Obligations.EveryStepKeepsTheStore :=
  fun _ _ => step_kept storeWf_kept fun _ _ h => h

end Sys2Proof.Machine
end

section
/-! Every step keeps the limits of the settings (R74, R80, R82, R107, R123, R130). -/

namespace Sys2Proof.Machine

theorem State.Limits.start (s : State) (x : Straps) : (s.start x).Limits := ⟨rfl, rfl, rfl, rfl, rfl, rfl, rfl⟩

theorem Channel.Lim.deEnergise {ch : Channel} {o : Option ChannelDef} (h : ch.Lim o) : ch.deEnergise.Lim o := by
  cases o with
  | none => exact ⟨h.1, h.2.1, rfl⟩
  | some cd =>
    obtain ⟨hsane, hnone, hrange, htarget⟩ := h
    refine ⟨hsane, fun hr => ?_, fun hr => hsane.zero hr, htarget⟩
    obtain ⟨hs, -, ht⟩ := hnone hr
    exact ⟨hs, rfl, ht⟩

theorem State.Limits.stop {s : State} (h : s.Limits) : s.stop.Limits := by
  refine State.Limits.iff.mpr ⟨fun c => ?_, (State.Limits.iff.mp h).2⟩
  have := (h.at c).deEnergise
  cases c <;> exact this

theorem State.Limits.numberClash {s : State} (h : s.Limits) : s.numberClash.Limits := by
  obtain e | ⟨faults, line, e⟩ := s.numberClash_cases
  · rwa [e]
  · rw [e]
    have hw : ({ s with faults := faults, line := line } : State).Limits := h
    exact (hw.channelOff .a).channelOff .b

/-- The checks of a loaded image give channels whose limits are the right way round. -/
theorem loadImage_sane {number : BitVec 4} {m : Memory} {st : Settings} (h : loadImage number m = .ok st) (c : ChannelId) :
    (st.channel c).Sane := by
  obtain ⟨rfl, hbytes, -⟩ := loadImage_pinned h
  simp only [byteLimits, Bool.and_eq_true] at hbytes
  obtain ⟨⟨⟨⟨⟨⟨-, ha⟩, hb⟩, -⟩, -⟩, -⟩, -⟩ := hbytes
  cases c
  exacts [channelSane ha, channelSane hb]

theorem conveyorDef_xmax {m : Memory} {cv : ConveyorDef} (h : conveyorDef m = some cv) : 0 ≤ cv.xmax := by
  unfold conveyorDef at h
  dsimp only at h
  split at h
  · cases h
    exact Int.natCast_nonneg _
  · cases h

theorem State.Limits.takeSettings {s : State} {number : BitVec 4} {m : Memory} {st : Settings}
    (h : loadImage number m = .ok st) : (s.takeSettings st).Limits := by
  refine State.Limits.iff.mpr ⟨fun c => ?_, ?_⟩
  · have hch : (s.takeSettings st).channel c = (st.channel c).start s.clock := by cases c <;> rfl
    rw [hch]
    exact ⟨loadImage_sane h c, channelStart_within (loadImage_sane h c) _⟩
  · have hst := (loadImage_pinned h).1
    show ConvLim (st.conveyor.map fun _ => .atStart) (some st.conveyor)
    cases hcv : st.conveyor with
    | none => rfl
    | some cv =>
      have hx : 0 ≤ cv.xmax := conveyorDef_xmax (m := m) (by rw [← hcv, hst]; rfl)
      exact ⟨.atStart, rfl, hx, le_refl _, hx, le_refl _, by decide⟩

theorem State.Limits.endLoading {s : State} (h : s.Limits) : s.endLoading.Limits := by
  obtain ⟨-, e⟩ | ⟨f, -, -, e⟩ | ⟨st, -, hl, e⟩ := s.endLoading_cases
  · exact h.of_eq (by simp [e]) (by simp [e]) (by simp [e]) (by simp [e])
  · exact h.of_eq (by simp [e]) (by simp [e]) (by simp [e]) (by simp [e])
  · have taken : (s.readPins.beginReceiving.takeSettings st).Limits := .takeSettings hl
    have shown : ((s.readPins.beginReceiving.takeSettings st).startPanel st).Limits :=
      taken.of_eq (by simp) (by simp) (by simp) (by simp)
    rw [e, State.enterListening]
    unfold State.startHalt
    split
    exacts [shown.raiseCause _ _, shown]

theorem State.Limits.takeHalt {s : State} (h : s.Limits) (n : BitVec 4) (cause detail : Byte) :
    (s.takeHalt n cause detail).Limits := by
  unfold State.takeHalt
  split
  exacts [h.setLatch _, h]

theorem State.Limits.deliverConversion {s : State} (h : s.Limits) (st : Settings) (user : ConversionUser)
    (raw : BitVec 12) : (s.deliverConversion st user raw).Limits := by
  cases user with
  | check c target => exact h.judgeCoil _ _ _
  | scan =>
    obtain ⟨table, converter, smoothing, e⟩ := s.deliverConversion_scan_eq st raw
    rw [e]
    exact h

theorem State.Limits.levelChange {s : State} (h : s.Limits) (st : Settings) (i : Fin 6) (level : Bool) :
    (s.levelChange st i level).Limits := by
  obtain e | e | ⟨table, panel, e⟩ := s.levelChange_cases st i level
  · rw [e]; exact h.raiseCause _ _
  · rw [e]; exact h.pressRelease
  · rw [e]; exact h

theorem State.Limits.armUpdate {s : State} (h : s.Limits) (c : ChannelId) (expiry : Clock) :
    (s.armUpdate c expiry).Limits :=
  h.setChannel ((h.at c).of_eq rfl rfl rfl)

theorem State.Limits.holdExpired {s : State} {k : Conveyor} (h : s.Limits) (hk : s.conveyor = some k) :
    (s.setConveyor k.holdExpired).Limits := by
  obtain ⟨st, cv, hst, hcv, -, hin⟩ := h.conveyorAt hk
  refine h.setConveyor _ (fun st' cv' hst' hcv' _ => ?_) ⟨st, cv, hst, hcv⟩
  rw [hst, Option.some.injEq] at hst'
  subst hst'
  rw [hcv, Option.some.injEq] at hcv'
  subst hcv'
  exact hin

/-- Only what reaches the channels, the conveyor or the settings can matter. -/
theorem limits_kept (c : Instr) : Kept c State.Limits := by
  constructor
  case start => exact fun _ _ _ _ => .start _ _
  case powerLoss => exact fun s h => State.Limits.stop (s := { s with supply := false }) h
  case resetAssert => exact fun s h => State.Limits.stop (s := { s with resetHeld := true }) h
  case endLoading => exact fun _ h _ => h.endLoading
  case watches => exact fun s f h => State.Limits.runWatches (s := s.endReception) h f
  case clash => exact fun _ h _ => h.numberClash
  case acceptSample => exact fun _ _ _ h => h.acceptSample _ _
  case takeHalt => exact fun _ _ _ _ h => h.takeHalt _ _ _
  case takeRelease => exact fun _ _ _ h => h.takeRelease _
  case conversion => exact fun _ _ _ _ h _ => h.deliverConversion _ _ _
  case levelChange => exact fun _ _ _ _ _ h _ => h.levelChange _ _ _
  case updateChannel =>
    intro s st c expiry h hst
    exact (h.armUpdate c expiry).updateChannel st (by simpa using hst) c
  case resumeExpired => exact fun _ _ h hs _ => h.resumeExpired hs
  case holdExpired => exact fun _ _ h hk => h.holdExpired hk
  all_goals
    intros
    exact State.Limits.of_eq ‹_› (by simp) (by simp) (by simp) (by simp)

/-- Settles O59: a loaded image's limits are sane, and every block's work stays within them. -/
theorem everyStepKeepsTheLimits : Obligations.EveryStepKeepsTheLimits :=
  fun _ _ => step_kept limits_kept fun _ _ h => h

end Sys2Proof.Machine
end

section
/-! What stands without the commands that may change it (R136, R158, R166). -/

namespace Sys2Proof.Machine

/-! ### The totals of the table never sink -/

/-- No total of the table is smaller (R22). -/
def PeerTable.TotalsGrow (p q : PeerTable) : Prop := p.refusals ≤ q.refusals ∧ p.gaps ≤ q.gaps

theorem PeerTable.TotalsGrow.of_eq {p q : PeerTable} (h : q.refusals = p.refusals ∧ q.gaps = p.gaps) : p.TotalsGrow q :=
  ⟨h.1.ge, h.2.ge⟩

theorem le_saturate {total : Nat} (h : total ≤ Config.totalLimit) (n : Nat) : total ≤ saturate total n :=
  Nat.le_min.mpr ⟨Nat.le_add_right _ _, h⟩

@[simp] theorem State.updateEntry_totals (s : State) (k : Key) (f : Entry → Entry) :
    (s.updateEntry k f).table.refusals = s.table.refusals ∧ (s.updateEntry k f).table.gaps = s.table.gaps := ⟨rfl, rfl⟩

@[simp] theorem State.deliver_totals (s : State) (k : Key) (q : Quality) (v : Option Int) :
    (s.deliver k q v).table.refusals = s.table.refusals ∧ (s.deliver k q v).table.gaps = s.table.gaps := by
  unfold State.deliver State.withSettings
  split
  · dsimp only
    split <;> exact ⟨rfl, rfl⟩
  · exact ⟨rfl, rfl⟩

@[simp] theorem State.age_totals (s : State) (k : Key) (f : Entry → QuantityDef → Clock → Entry) :
    (s.age k f).table.refusals = s.table.refusals ∧ (s.age k f).table.gaps = s.table.gaps := by
  unfold State.age State.withSettings
  split
  · dsimp only
    split <;> exact ⟨rfl, rfl⟩
  · exact ⟨rfl, rfl⟩

@[simp] theorem State.deliverResult_totals (s : State) (k : Key) (b : ResultRecord) (r : Option (Int × ResultQuality)) :
    (s.deliverResult k b r).table.refusals = s.table.refusals ∧ (s.deliverResult k b r).table.gaps = s.table.gaps := by
  unfold State.deliverResult
  split
  · simp
  · split <;> simp

@[simp] theorem State.evaluateGroup_totals (s : State) (n : Fin 4) (g : GroupDef) (own : Key) (run : GroupRun) (x : Clock) :
    (s.evaluateGroup n g own run x).table.refusals = s.table.refusals ∧
      (s.evaluateGroup n g own run x).table.gaps = s.table.gaps := by
  simp [State.evaluateGroup]

@[simp] theorem State.deliverRaw_totals (s : State) (i : Nat) (x : SourceDef) (v : Int) :
    (s.deliverRaw i x v).table.refusals = s.table.refusals ∧ (s.deliverRaw i x v).table.gaps = s.table.gaps := by
  simp [State.deliverRaw]

@[simp] theorem State.deliverFailed_totals (s : State) (i : Nat) (x : SourceDef) :
    (s.deliverFailed i x).table.refusals = s.table.refusals ∧ (s.deliverFailed i x).table.gaps = s.table.gaps := by
  simp [State.deliverFailed]

@[simp] theorem State.takeOutcome_totals (s : State) (i : Nat) (x : SourceDef) (o : ReplyOutcome) :
    (s.takeOutcome i x o).table.refusals = s.table.refusals ∧ (s.takeOutcome i x o).table.gaps = s.table.gaps := by
  unfold State.takeOutcome
  split <;> simp

@[simp] theorem State.deliverAnalog_totals (s : State) (codes : List Nat) (x : SourceDef) (i : Nat) :
    (s.deliverAnalog codes x i).table.refusals = s.table.refusals ∧
      (s.deliverAnalog codes x i).table.gaps = s.table.gaps := by
  unfold State.deliverAnalog
  split
  · dsimp only
    split <;> simp
  · simp
  · simp

@[simp] theorem State.completeScan_totals (s : State) (st : Settings) (codes : List Nat) :
    (s.completeScan st codes).table.refusals = s.table.refusals ∧
      (s.completeScan st codes).table.gaps = s.table.gaps :=
  ⟨foldl_keeps (fun w : State => w.table.refusals) _ (fun _ _ => by simp) _ _,
    foldl_keeps (fun w : State => w.table.gaps) _ (fun _ _ => by simp) _ _⟩

@[simp] theorem State.deliverConversion_totals (s : State) (st : Settings) (user : ConversionUser) (raw : BitVec 12) :
    (s.deliverConversion st user raw).table.refusals = s.table.refusals ∧
      (s.deliverConversion st user raw).table.gaps = s.table.gaps := by
  unfold State.deliverConversion
  split
  · simp
  · split
    · dsimp only
      split <;> simp
    · simp

@[simp] theorem State.deliverPanel_totals (s : State) (p : PanelValues) :
    (s.deliverPanel p).table.refusals = s.table.refusals ∧ (s.deliverPanel p).table.gaps = s.table.gaps := by
  simp [State.deliverPanel, State.deliverLeft, State.deliverRight, State.deliverAction, State.deliverMode,
    State.deliverHold]

@[simp] theorem State.panelPress_totals (s : State) (f : InputFunction) (d : PanelDef) (p : PanelValues) :
    (s.panelPress f d p).table.refusals = s.table.refusals ∧ (s.panelPress f d p).table.gaps = s.table.gaps := by
  have step (left up : Bool) : (s.pressStep d p left up).table.refusals = s.table.refusals ∧
      (s.pressStep d p left up).table.gaps = s.table.gaps := by
    cases left <;> simp [State.pressStep, State.deliverLeft, State.deliverRight]
  unfold State.panelPress
  split
  · simp
  · split <;> simp [step, State.pressAction, State.pressMode, State.deliverAction, State.deliverMode]

@[simp] theorem State.levelChange_totals (s : State) (st : Settings) (i : Fin 6) (level : Bool) :
    (s.levelChange st i level).table.refusals = s.table.refusals ∧
      (s.levelChange st i level).table.gaps = s.table.gaps := by
  unfold State.levelChange
  dsimp only
  split
  · simp
  · simp
  · split <;> simp
  · split <;> simp [State.truckHold, State.deliverHold]
  · split
    · split <;> simp
    · simp

@[simp] theorem State.takeSample_totals (s : State) (st : Settings) (d : QuantityDef) (e : Entry) (first : Bool)
    (r : RawSample) : (s.takeSample st d e first r).table.refusals = s.table.refusals ∧
      (s.takeSample st d e first r).table.gaps = s.table.gaps := by
  simp [State.takeSample]

theorem PeerTable.makeRoom_totals {p q : PeerTable} {clock : Clock} (h : p.makeRoom clock = some q) :
    q.refusals = p.refusals ∧ q.gaps = p.gaps := by
  unfold PeerTable.makeRoom at h
  split at h
  · cases h; exact ⟨rfl, rfl⟩
  · split at h
    · cases h; exact ⟨rfl, rfl⟩
    · cases h

/-- A refused creation adds to the refusals (R9). -/
theorem State.createEntry_totals {s : State} (h : s.table.Wf) (st : Settings) (d : QuantityDef) (k : Key)
    (r : RawSample) : s.table.TotalsGrow (s.createEntry st d k r).table := by
  obtain ⟨-, -, hrefusals, -⟩ := h
  unfold State.createEntry
  split
  · rename_i p hp
    exact .of_eq (by simpa using PeerTable.makeRoom_totals hp)
  · exact ⟨le_saturate hrefusals 1, le_rfl⟩

/-- A gap in the sequence adds to the gaps (R12). -/
theorem State.updatePath_totals {s : State} (h : s.table.Wf) (st : Settings) (d : QuantityDef) (e : Entry)
    (r : RawSample) : s.table.TotalsGrow (s.updatePath st d e r).table := by
  obtain ⟨-, -, -, hgaps⟩ := h
  have judged (last : Byte) : s.table.TotalsGrow
      (if (r.seq - last).toNat = 0 then s
        else if (r.seq - last).toNat ≤ 127 then
          ({ s with table := { s.table with gaps := saturate s.table.gaps ((r.seq - last).toNat - 1) } }).takeSample st d e
            false r
        else if e.staleRun = some 2 then s.takeSample st d e true r
        else s.updateEntry e.key fun e => { e with staleRun := e.staleRun.map (· + 1) }).table := by
    split
    · exact .of_eq ⟨rfl, rfl⟩
    · split
      · exact ⟨by simp, by simpa using le_saturate hgaps _⟩
      · split <;> exact .of_eq (by simp)
  unfold State.updatePath
  split
  · exact judged _
  · exact judged _
  · exact .of_eq (by simp)

theorem State.acceptSample_totals {s : State} (h : s.table.Wf) (n : BitVec 4) (r : RawSample) :
    s.table.TotalsGrow (s.acceptSample n r).table := by
  have stands : s.table.TotalsGrow s.table := ⟨le_rfl, le_rfl⟩
  unfold State.acceptSample State.withSettings
  dsimp only
  split
  · split
    · split
      · split
        · exact State.updatePath_totals h _ _ _ _
        · split
          exacts [State.createEntry_totals h _ _ _ _, stands]
      · exact stands
    · exact stands
  · exact stands

/-! ### A loaded station without a start -/

/-- A loaded station whose table is in order, with totals no smaller than these. -/
def State.TotalsFrom (refusals gaps : Nat) (s : State) : Prop :=
  s.station ≠ .loading ∧ s.table.Wf ∧ refusals ≤ s.table.refusals ∧ gaps ≤ s.table.gaps

theorem State.TotalsFrom.grow {refusals gaps : Nat} {s u : State} (h : s.TotalsFrom refusals gaps)
    (hs : u.station = s.station) (hw : u.table.Wf) (hg : s.table.TotalsGrow u.table) : u.TotalsFrom refusals gaps := by
  obtain ⟨hstation, -, hr, hq⟩ := h
  exact ⟨hs ▸ hstation, hw, hr.trans hg.1, hq.trans hg.2⟩

theorem totalsFrom_kept {c : Instr} (hc : c.mayStart = false) (refusals gaps : Nat) :
    Kept c (State.TotalsFrom refusals gaps) := by
  have K := tableWf_kept c
  constructor
  case start => exact fun h => absurd h (by simp [hc])
  case endLoading => exact fun _ h hs => absurd hs h.1
  case enterRunning =>
    intro s st h _ _
    have e : (s.enterRunning st).table = s.table := by simp
    exact ⟨by simp [State.enterRunning], e ▸ h.2.1, e ▸ h.2.2.1, e ▸ h.2.2.2⟩
  case acceptSample => exact fun s n r h => h.grow (by simp) (K.acceptSample s n r h.2.1) (State.acceptSample_totals h.2.1 n r)
  case age => exact fun s k h => h.grow (by simp) (K.age s k h.2.1) (.of_eq (by simp))
  case expire => exact fun s k h => h.grow (by simp) (K.expire s k h.2.1) (.of_eq (by simp))
  case evaluate =>
    exact fun s st n g r e h hs => h.grow (by simp) (K.evaluate s st n g r e h.2.1 hs) (.of_eq (by simp))
  case conversion => exact fun s st u r h hs => h.grow (by simp) (K.conversion s st u r h.2.1 hs) (.of_eq (by simp))
  case takeOutcome => exact fun s i x o h => h.grow (by simp) (K.takeOutcome s i x o h.2.1) (.of_eq (by simp))
  case deliverRaw => exact fun s i x v h => h.grow (by simp) (K.deliverRaw s i x v h.2.1) (.of_eq (by simp))
  case levelChange =>
    exact fun hl s st i l h hs => h.grow (by simp) (K.levelChange hl s st i l h.2.1 hs) (.of_eq (by simp))
  case refresh => exact fun s p h => h.grow (by simp) (K.refresh s p h.2.1) (.of_eq (by simp))
  all_goals
    intros
    have h := ‹State.TotalsFrom refusals gaps _›
    have e : ∀ {u : State}, u.table = State.table _ → u.table.Wf := fun e => h.2.1.of_eq e
    exact h.grow (by simp) (e (by simp)) (.of_eq (by simp))

/-- A loaded station with these settings and this number. -/
def State.LoadedWith (settings : Option Settings) (number : BitVec 4) (s : State) : Prop :=
  s.station ≠ .loading ∧ s.settings = settings ∧ s.number = number

theorem loadedWith_kept {c : Instr} (hc : c.mayStart = false) (settings : Option Settings) (number : BitVec 4) :
    Kept c (State.LoadedWith settings number) := by
  constructor
  case start => exact fun h => absurd h (by simp [hc])
  case endLoading => exact fun _ h hs => absurd hs h.1
  case enterRunning => exact fun s st h _ _ => ⟨by simp [State.enterRunning], by simpa using h.2.1, by simpa using h.2.2⟩
  all_goals
    intros
    have h := ‹State.LoadedWith settings number _›
    simpa [State.LoadedWith] using h

/-- A loaded station's error total is no smaller than this. -/
def State.ErrorsFrom (errors : Nat) (s : State) : Prop :=
  s.station ≠ .loading ∧ s.line.errors ≤ Config.totalLimit ∧ errors ≤ s.line.errors

theorem State.ErrorsFrom.of_line {errors : Nat} {s u : State} (h : s.ErrorsFrom errors) (hs : u.station = s.station)
    (hl : u.line.errors = s.line.errors) : u.ErrorsFrom errors := by
  obtain ⟨hstation, hle, he⟩ := h
  exact ⟨hs ▸ hstation, hl ▸ hle, hl ▸ he⟩

theorem State.ErrorsFrom.of_core {errors : Nat} {s u : State} (h : s.ErrorsFrom errors) (hs : u.station = s.station)
    (hl : u.line.core = s.line.core) : u.ErrorsFrom errors := by
  obtain ⟨-, -, -, -, -, -, he, -⟩ := Line.core_fields hl
  exact h.of_line hs he

theorem Line.errors_le_countError {l : Line} (h : l.errors ≤ Config.totalLimit) : l.errors ≤ l.countError.errors := by
  unfold Line.countError
  split
  exacts [le_rfl, le_saturate h 1]

theorem State.numberClash_errors (s : State) : s.numberClash.line.errors = s.line.errors := by
  unfold State.numberClash
  split
  · rfl
  · dsimp only
    have off (w : State) : (((w.addFault .numberClash).channelOff .a).channelOff .b).line.errors = w.line.errors := by
      have hcore : (((w.addFault .numberClash).channelOff .a).channelOff .b).line.core = w.line.core := by simp
      obtain ⟨-, -, -, -, -, -, he, -⟩ := Line.core_fields hcore
      exact he
    rw [off]
    split
    · simp [State.endMute, State.removeFault_line]
    · rfl

theorem errorsFrom_kept {c : Instr} (hc : c.mayStart = false) (errors : Nat) : Kept c (State.ErrorsFrom errors) := by
  constructor
  case start => exact fun h => absurd h (by simp [hc])
  case endLoading => exact fun _ h hs => absurd hs h.1
  case powerLoss => exact fun _ h => h
  case resetAssert => exact fun _ h => h
  case enterRunning =>
    intro s st ⟨_, hle, he⟩ _ _
    obtain ⟨runs, -, e⟩ := s.enterRunning_eq st
    obtain ⟨-, -, -, herr⟩ := activateBus_parts { s with station := .running, publications := runs }
    have hline : (s.enterRunning st).line.errors = s.line.errors := by rw [e]; exact herr
    exact ⟨by simp [State.enterRunning], hline ▸ hle, hline ▸ he⟩
  case receiver => exact fun _ _ _ _ h => h
  case dropped =>
    exact fun _ _ _ h => ⟨h.1, Line.countError_errors h.2.1, h.2.2.trans (Line.errors_le_countError h.2.1)⟩
  case watches =>
    intro s f h
    have ended : s.endReception.ErrorsFrom errors := h
    exact ended.of_core (by simp) (by simp)
  case clash => exact fun s h _ => h.of_line (by simp) s.numberClash_errors
  case queueSample => exact fun _ _ _ h _ => h
  case beginFrame => exact fun _ _ _ _ _ h _ _ => h
  case endFrame => exact fun _ _ h _ => h
  case stopFrame => exact fun _ _ h _ => h
  case echoFault =>
    intro s f h _
    unfold State.countEcho
    split
    · exact h
    · exact h.of_line (by simp) (by simp [State.beginMute, State.addFault_line, Line.stopFrame])
  case endMute => exact fun s h _ => h.of_line (by simp) (by simp [State.endMute, State.removeFault_line])
  all_goals
    intros
    exact State.ErrorsFrom.of_core ‹_› (by simp) (by simp)

/-! ### The clash, the store and the latch -/

/-- The bus is MUTED_CLASH, and so carries no frame of the station's own. -/
def State.Clashed (s : State) : Prop := s.line.bus = .mutedClash ∧ s.line.flight = none

theorem State.Clashed.of_core {s u : State} (h : s.Clashed) (hl : u.line.core = s.line.core) : u.Clashed := by
  obtain ⟨hb, -, -, -, -, -, -, -, hf, -⟩ := Line.core_fields hl
  exact ⟨hb.trans h.1, hf.mpr h.2⟩

theorem State.Clashed.activateBus {s : State} (h : s.Clashed) : s.activateBus.Clashed := by
  unfold State.activateBus
  split
  · rename_i hr
    simp [h.1] at hr
  · exact h

theorem State.Clashed.endLoading {s : State} (h : s.Clashed) : s.endLoading.Clashed := by
  have receiving : s.readPins.beginReceiving.Clashed := h
  have idle {w : State} (hw : w.Clashed) (x : Station) : (w.enterIdle x).Clashed :=
    State.Clashed.activateBus (s := { w with station := x }) hw
  obtain ⟨-, e⟩ | ⟨f, -, -, e⟩ | ⟨st, -, -, e⟩ := s.endLoading_cases
  · rw [e]; exact idle receiving _
  · rw [e]; exact idle (receiving.of_core (by simp)) _
  · have taken : (s.readPins.beginReceiving.takeSettings st).Clashed := h
    exact taken.of_core (by simp [e, State.enterListening])

/-- On a MUTED_CLASH bus a station sends nothing, so no echo mutes it and no mute ends; a further clash changes
nothing. -/
theorem clashed_kept {c : Instr} (hc : c.mayStart = false) : Kept c State.Clashed := by
  constructor
  case start => exact fun h => absurd h (by simp [hc])
  case powerLoss => exact fun _ h => ⟨h.1, rfl⟩
  case resetAssert => exact fun _ h => ⟨h.1, rfl⟩
  case endLoading => exact fun _ h _ => h.endLoading
  case enterRunning =>
    intro s st h _ _
    obtain ⟨runs, -, e⟩ := s.enterRunning_eq st
    rw [e]
    exact State.Clashed.activateBus (s := { s with station := .running, publications := runs }) h
  case receiver => exact fun _ _ _ _ h => h
  case dropped =>
    intro s r q h
    obtain ⟨hb, -, hf, -⟩ := s.line.countError_fields
    exact ⟨hb.trans h.1, hf.trans h.2⟩
  case watches =>
    intro s f h
    have ended : s.endReception.Clashed := h
    exact ended.of_core (by simp)
  case clash =>
    intro s h _
    have e : s.numberClash = s := by simp [State.numberClash, h.1]
    rwa [e]
  case queueSample => exact fun _ _ _ h _ => h
  case beginFrame => exact fun _ _ _ _ _ h hb _ => absurd (h.1.symm.trans hb) (by decide)
  case endFrame => exact fun _ _ h _ => ⟨h.1, rfl⟩
  case stopFrame => exact fun _ _ h _ => ⟨h.1, rfl⟩
  case echoFault => exact fun _ _ h hf => absurd (h.2.symm.trans hf) (by simp)
  case endMute => exact fun _ h hm => absurd (h.1.symm.trans hm) (by decide)
  all_goals
    intros
    exact State.Clashed.of_core ‹_› (by simp)

/-- The store holds these cells under this lock, whatever operation is in flight. -/
def State.Stores (cells : Memory) (locked : Bool) (s : State) : Prop := s.store.cells = cells ∧ s.store.locked = locked

theorem State.endLoading_store (s : State) : s.endLoading.store = s.store := by
  obtain ⟨-, e⟩ | ⟨f, -, -, e⟩ | ⟨st, -, -, e⟩ := s.endLoading_cases
  · simp [e]
  · simp [e]
  · have taken : (s.readPins.beginReceiving.takeSettings st).store = s.store := rfl
    simp [e, State.enterListening, taken]

theorem stores_kept {c : Instr} (hc : c.mayStart = false) (hm : c.mayChangeStore = false) (cells : Memory)
    (locked : Bool) : Kept c (State.Stores cells locked) := by
  constructor
  case start => exact fun h => absurd h (by simp [hc])
  case endLoading =>
    intro s h _
    unfold State.Stores
    rwa [s.endLoading_store]
  case writeBytes => exact fun h => absurd h (by simp [hm])
  case lock => exact fun h => absurd h (by simp [hm])
  case writeRow => exact fun h => absurd h (by simp [hm])
  case eraseRow => exact fun h => absurd h (by simp [hm])
  case eraseAll => exact fun h => absurd h (by simp [hm])
  case beginOp => exact fun _ _ _ _ h _ => h
  case blankCheck => exact fun _ h => h
  all_goals
    intros
    have h := ‹State.Stores cells locked _›
    simpa [State.Stores] using h

/-- A start by RESTART finds no operation in flight, since BUSY refuses the command. -/
theorem restart_keepsStore {t : Nat} {h : ServiceHeader} {x : Straps} {s u : State}
    (e : exec (.restart t h x) s = .next u) : u.store.cells = s.store.cells ∧ u.store.locked = s.store.locked := by
  have stands {w : State} (hw : w.store = s.store) : w.Stores s.store.cells s.store.locked := by
    simp [State.Stores, hw]
  unfold exec execRestart at e
  refine State.event_kept (P := State.Stores s.store.cells s.store.locked) e (stands rfl) (stands (by simp)) fun w hw => ?_
  unfold State.service State.arrive
  split
  · dsimp only
    have tested : (w.endReception.runWatches (serviceWire h restartCode [])).Stores s.store.cells s.store.locked := by
      simpa [State.Stores] using hw
    split
    · simpa [State.Stores] using tested
    · split
      · split
        · simpa [State.Stores, State.replyStatus] using tested
        · rename_i hr
          have idle : (w.endReception.runWatches (serviceWire h restartCode [])).store.op = none := by
            unfold Store.refusal at hr
            split at hr
            · cases hr
            · rename_i hop
              exact Option.not_isSome_iff_eq_none.mp hop
          unfold State.Stores
          rwa [State.start_store, Store.abandon_idle idle]
      · exact tested
  · exact hw

/-- The latch is LATCHED with this record. -/
def State.LatchedBy (r : LatchRecord) (s : State) : Prop := s.latch = some r

theorem State.LatchedBy.endLoading {s : State} {r : LatchRecord} (h : s.LatchedBy r) : s.endLoading.LatchedBy r := by
  unfold State.LatchedBy at *
  obtain ⟨-, e⟩ | ⟨f, -, -, e⟩ | ⟨st, -, -, e⟩ := s.endLoading_cases
  · simpa [e] using h
  · simpa [e] using h
  · have taken : (s.readPins.beginReceiving.takeSettings st).latch = some r := h
    have shown : ((s.readPins.beginReceiving.takeSettings st).startPanel st).latch = some r := by
      simpa using taken
    rw [e, State.enterListening, State.startHalt]
    split
    · rwa [State.raiseCause_latched _ _ _ (by rw [shown]; exact Option.some_ne_none r)]
    · exact shown

theorem State.LatchedBy.raiseCause {s : State} {r : LatchRecord} (h : s.LatchedBy r) (cause detail : Byte) :
    (s.raiseCause cause detail).LatchedBy r := by
  rwa [State.raiseCause_latched _ _ _ (by simp [show s.latch = some r from h])]

theorem State.LatchedBy.takeHalt {s : State} {r : LatchRecord} (h : s.LatchedBy r) (n : BitVec 4) (cause detail : Byte) :
    (s.takeHalt n cause detail).LatchedBy r := by
  unfold State.LatchedBy at h
  simp [State.takeHalt, State.LatchedBy, h]

theorem State.LatchedBy.runWatches {s : State} {r : LatchRecord} (h : s.LatchedBy r) (f : WireFrame) :
    (s.runWatches f).LatchedBy r := by
  obtain ⟨b, e⟩ := State.runWatches_latched s f (by simp [show s.latch = some r from h])
  rw [e]
  exact h

theorem State.LatchedBy.judgeBelt {s : State} {r : LatchRecord} (h : s.LatchedBy r) (st : Settings) (cv : ConveyorDef)
    (k : Conveyor) (speed : Int) : (s.judgeBelt st cv k speed).LatchedBy r := by
  have block (x : Conveyor) : (s.setConveyor x).LatchedBy r := h
  have stalled (x : Conveyor) : ((s.setConveyor x).addFault .beltStall).LatchedBy r := by
    simpa [State.LatchedBy] using h
  unfold State.judgeBelt
  split
  · exact block _
  · dsimp only
    split
    · split
      exacts [((stalled _).raiseCause _ _).raiseCause _ _, (stalled _).raiseCause _ _]
    · split
      exacts [(block _).raiseCause _ _, block _]

theorem State.LatchedBy.updateChannel {s : State} {r : LatchRecord} (h : s.LatchedBy r) (st : Settings)
    (c : ChannelId) : (s.updateChannel st c).LatchedBy r := by
  have worked : (s.conveyorWork st).LatchedBy r := by
    unfold State.conveyorWork
    split
    · simpa [State.LatchedBy] using h.judgeBelt st _ _ _
    · exact h
  unfold State.updateChannel
  dsimp only
  split
  · exact h
  · split
    · simpa [State.LatchedBy] using worked
    · simpa [State.LatchedBy] using h

/-- A LATCHED latch takes no further cause, and what clears it is not among these commands. -/
theorem latchedBy_kept {c : Instr} (hc : c.mayStart = false) (hm : c.mayClearLatch = false) (r : LatchRecord) :
    Kept c (State.LatchedBy r) := by
  constructor
  case start => exact fun h => absurd h (by simp [hc])
  case endLoading => exact fun _ h _ => h.endLoading
  case watches => exact fun s f h => State.LatchedBy.runWatches (s := s.endReception) h f
  case takeHalt => exact fun _ _ _ _ h => h.takeHalt _ _ _
  case takeRelease => exact fun h => absurd h (by simp [hm])
  case levelChange => exact fun h => absurd h (by simp [hm])
  case updateChannel =>
    intro s st c expiry h _
    have armed : (s.armUpdate c expiry).LatchedBy r := by simpa [State.LatchedBy] using h
    exact armed.updateChannel st c
  all_goals
    intros
    have h := ‹State.LatchedBy r _›
    simpa [State.LatchedBy] using h

theorem Instr.mayStart_of_mayClearLatch {c : Instr} (h : c.mayClearLatch = false) : c.mayStart = false := by
  cases c <;> simp_all [Instr.mayClearLatch, Instr.mayStart]

/-- Settles O60: each clause is an invariant that the commands outside its class keep. -/
theorem whatStandsWithoutItsCommand : Obligations.WhatStandsWithoutItsCommand := by
  intro c s u e
  refine ⟨fun hc hs => ?loaded, fun hc hbus hb => ?clash, fun hm => ?store, fun hm r hr => ?latch⟩
  case loaded =>
    obtain ⟨-, hsettings, hnumber⟩ := exec_kept (loadedWith_kept hc s.settings s.number) ⟨hs, rfl, rfl⟩ e
    refine ⟨hsettings, hnumber, fun hw => ?_, fun hle => ?_⟩
    · exact (exec_kept (totalsFrom_kept hc s.table.refusals s.table.gaps) ⟨hs, hw, le_rfl, le_rfl⟩ e).2.2
    · exact (exec_kept (errorsFrom_kept hc s.line.errors) ⟨hs, hle, le_rfl⟩ e).2.2
  case clash => exact (exec_kept (clashed_kept hc) ⟨hb, hbus.1 (by simp [hb])⟩ e).1
  case store =>
    cases hc : c.mayStart with
    | false => exact exec_kept (stores_kept hc hm s.store.cells s.store.locked) ⟨rfl, rfl⟩ e
    | true =>
      cases c with
      | restart t h x => exact restart_keepsStore e
      | powerOn x => cases hm
      | resetRelease x => cases hm
      | _ => cases hc
  case latch => exact exec_kept (latchedBy_kept (Instr.mayStart_of_mayClearLatch hm) hm r) hr e

end Sys2Proof.Machine
end

section
/-! The frame of every step: the queue, what a command answers, the state after reset (assumption 2, 9.4). -/

namespace Sys2Proof.Machine

/-- Settles O1: the two arms of `step`. -/
theorem stepTakesTheFrontCommand : Obligations.StepTakesTheFrontCommand :=
  ⟨fun _ _ => rfl, fun s h => by simp [step, h]⟩

/-- The queue holds these commands (assumption 2). -/
def State.Queues (q : List Instr) (s : State) : Prop := s.pending = q

/-- What a pin change does to the station as it is at its moment (R64, R46). -/
def State.movePin (s : State) (i : Fin 6) (level : Bool) : State :=
  if s.inputs[i].pin = level then s
  else if s.runs ∧ s.atWork then s.setInput i { s.inputs[i] with
    pin := level
    timer := if level ≠ s.inputs[i].level then some (after s.clock Config.debounceTime) else none }
  else s.setInput i { s.inputs[i] with pin := level }

theorem exec_discretePinChange (t : Nat) (i : Fin 6) (level : Bool) (s : State) :
    exec (.discretePinChange t i level) s = .next ((if s.runs then s.tick t else s).movePin i level) := by
  have moved (w : State) : (if w.inputs[i].pin = level then (.next w : Out)
      else if w.runs ∧ w.atWork then .next (w.setInput i { w.inputs[i] with
        pin := level
        timer := if level ≠ w.inputs[i].level then some (after w.clock Config.debounceTime) else none })
      else .next (w.setInput i { w.inputs[i] with pin := level })) = .next (w.movePin i level) := by
    unfold State.movePin
    split
    · rfl
    · split
      · rfl
      · rfl
  exact moved _

/-- No command faults or is refused: every meaning answers a next state. -/
theorem exec_next (c : Instr) (s : State) : ∃ u, exec c s = .next u := by
  cases c
  case discretePinChange t i level => exact ⟨_, exec_discretePinChange t i level s⟩
  all_goals exact ⟨_, rfl⟩

/-- The end of LOADING leaves the queue. -/
theorem State.endLoading_pending (s : State) : s.endLoading.pending = s.pending := by
  obtain ⟨-, e⟩ | ⟨f, -, -, e⟩ | ⟨st, -, -, e⟩ := s.endLoading_cases
  · simp [e]
  · simp [e]
  · rw [e, State.enterListening]
    have taken : (s.readPins.beginReceiving.takeSettings st).pending = s.pending := by simp [State.takeSettings]
    simpa using taken

/-- No command's meaning reaches the queue. -/
theorem queues_kept (c : Instr) (q : List Instr) : Kept c (State.Queues q) := by
  constructor
  case start => exact fun _ _ _ h => h
  case endLoading =>
    intro s h _
    unfold State.Queues
    rwa [s.endLoading_pending]
  all_goals
    intros
    have h := ‹State.Queues q _›
    simpa [State.Queues] using h

/-- Settles O2: every command answers one next state, and what it queues is all it queues. -/
theorem everyCommandAnswersANextState : Obligations.EveryCommandAnswersANextState := by
  intro c s
  obtain ⟨u, e⟩ := exec_next c s
  exact ⟨u, e, exec_kept (queues_kept c s.pending) rfl e⟩

end Sys2Proof.Machine
end

section
/-! The supply, the RESET pin and every start (R167, R177), and the state after reset (9.4). -/

namespace Sys2Proof.Machine

/-! ### What a start leaves -/

/-- The pins stand through a start, with their debounced levels low (R46). -/
theorem State.start_inputs (s : State) (x : Straps) (i : Fin 6) :
    (s.start x).inputs[i] = ⟨s.inputs[i].pin, false, none⟩ := by
  fin_cases i
  all_goals rfl

theorem State.start_started (s : State) (x : Straps) : (s.start x).Started x := by
  have channels (c : ChannelId) : (s.start x).channel c = Channel.atStart := by cases c <;> rfl
  refine ⟨rfl, rfl, rfl, rfl, rfl, rfl, rfl, rfl, rfl, rfl, rfl, rfl, rfl, rfl, rfl, fun c => ?_, fun i => ?_, rfl, rfl,
    rfl, rfl, rfl, Store.abandon_op _⟩
  · rw [channels c]
    simp [Channel.atStart, RefState.atStart]
  · rw [s.start_inputs x i]
    exact ⟨rfl, rfl⟩

/-- The station after reset is one that has just begun a start. -/
theorem reset_eq_start : State.reset = State.reset.start ⟨0, false⟩ := rfl

/-- Settles O3: reset is what a start leaves, and so meets what every start establishes. -/
theorem resetIsAStart : Obligations.ResetIsAStart := by
  refine ⟨⟨?started, ⟨rfl, rfl⟩, rfl, fun _ => rfl, rfl, fun i => ?pins⟩, ?table, ?outputs, ?faults, ?line, ?bus, ?store,
    ?limits, ?belt, ?coils⟩
  case started => exact reset_eq_start ▸ State.start_started _ _
  case pins => fin_cases i <;> rfl
  case table => exact ⟨List.Pairwise.nil, by decide, by decide, by decide⟩
  case outputs => exact reset_eq_start ▸ State.SafeOutputs.start _ _
  case faults => exact List.nodup_nil
  case line => exact reset_eq_start ▸ State.LineWf.start _ _
  case bus => exact reset_eq_start ▸ State.BusWf.start _ _
  case store => exact Store.Wf.idle false Memory.wf_nil fun _ h => nomatch h
  case limits => exact reset_eq_start ▸ State.Limits.start _ _
  case belt => exact reset_eq_start ▸ State.BeltIdle.start _ _
  case coils => exact reset_eq_start ▸ State.CoilFaultsWf.start _ _

/-! ### Frames a station without watches at work receives -/

/-- The watches rest outside LISTENING and RUNNING (R146). -/
theorem State.runWatches_rest {s : State} (h : ¬ s.atWork) (f : WireFrame) : s.runWatches f = s := by
  unfold State.runWatches
  rw [if_neg h]

section
variable {s : State} {h : ServiceHeader} {code : Byte} {data : List Byte} {needs : ServiceNeeds} {perform : State → State}

/-- A SERVICE frame the store does not take meets the watches alone (R157, R172). -/
theorem State.event_service_passed (hh : s.hears h.source) (t : Nat) (hn : ¬ s.takesService h) :
    s.event t (fun w => w.service h code data needs perform) = .next ((s.heard t).runWatches (serviceWire h code data)) := by
  have passed : ¬ ((s.heard t).runWatches (serviceWire h code data)).takesService h := by
    have station : ((s.heard t).runWatches (serviceWire h code data)).station = s.station := by simp [State.heard]
    have number : ((s.heard t).runWatches (serviceWire h code data)).number = s.number := by simp [State.heard]
    have bus : ((s.heard t).runWatches (serviceWire h code data)).line.bus = s.line.bus := by
      have core := State.runWatches_core (s.heard t) (serviceWire h code data)
      exact (Line.core_fields core).1
    simpa only [State.takesService, station, number, bus] using hn
  unfold State.service
  rw [State.event_hears hh t (serviceWire h code data) rfl, if_neg passed]

variable (hh : s.hears h.source) (ht : s.takesService h)
include hh ht

/-- A SERVICE frame the store takes is judged and performed on the state it arrives in (R172). -/
theorem State.event_service_taken (t : Nat) :
    s.event t (fun w => w.service h code data needs perform) = .next
      ((s.store.refusal h.row needs).elim (perform (s.heard t)) fun status => (s.heard t).replyStatus status h.row) := by
  have rest : ¬ (s.heard t).atWork := by
    rintro (hw | hw)
    · exact absurd (ht.1.symm.trans hw) (by decide)
    · exact absurd (ht.1.symm.trans hw) (by decide)
  unfold State.service
  rw [State.event_hears hh t (serviceWire h code data) rfl, State.runWatches_rest rest,
    if_pos (show (s.heard t).takesService h from ht)]
  cases hr : s.store.refusal h.row needs with
  | none => simp [State.heard, hr]
  | some status => simp [State.heard, hr]

theorem State.event_service_refused {status : Byte} (t : Nat) (hr : s.store.refusal h.row needs = some status) :
    s.event t (fun w => w.service h code data needs perform) = .next ((s.heard t).replyStatus status h.row) := by
  rw [State.event_service_taken hh ht, hr]
  rfl

theorem State.event_service_performed (t : Nat) (hr : s.store.refusal h.row needs = none) :
    s.event t (fun w => w.service h code data needs perform) = .next (perform (s.heard t)) := by
  rw [State.event_service_taken hh ht, hr]
  rfl

end

/-! ### What refuses a command (R173) -/

section
variable {s : Store} {row : Byte} {needs : ServiceNeeds}

theorem Store.refusal_busy (h : s.op ≠ none) : s.refusal row needs = some 1 := by
  unfold Store.refusal
  rw [if_pos (Option.isSome_iff_ne_none.mpr h)]
  rfl

variable (h : s.op = none)
include h

theorem Store.refusal_none (hrow : needs.row = true → row.toNat < 64) (hlock : needs.unlocked = true → s.locked = false)
    (hblank : needs.blank = true → Memory.rowBlank s.cells row.toNat = true) : s.refusal row needs = none := by
  unfold Store.refusal
  rw [if_neg (by simp [h]), if_neg (fun hr => absurd (hrow hr.1) (by omega)), if_neg (fun hl => by simp [hlock hl.1] at hl),
    if_neg (fun hb => by simp [hblank hb.1] at hb)]

theorem Store.refusal_badRow (hn : needs.row = true) (hrow : 63 < row.toNat) : s.refusal row needs = some 5 := by
  unfold Store.refusal
  rw [if_neg (by simp [h]), if_pos ⟨hn, hrow⟩]
  rfl

theorem Store.refusal_locked (hrow : row.toNat ≤ 63) (hn : needs.unlocked = true) (hl : s.locked = true) :
    s.refusal row needs = some 2 := by
  unfold Store.refusal
  rw [if_neg (by simp [h]), if_neg (fun hr => absurd hr.2 (by omega)), if_pos ⟨hn, hl⟩]
  rfl

theorem Store.refusal_notBlank (hrow : row.toNat ≤ 63) (hl : s.locked = false) (hn : needs.blank = true)
    (hb : Memory.rowBlank s.cells row.toNat = false) : s.refusal row needs = some 3 := by
  unfold Store.refusal
  rw [if_neg (by simp [h]), if_neg (fun hr => absurd hr.2 (by omega)), if_neg (by simp [hl]), if_pos ⟨hn, hb⟩]
  rfl

end

/-! ### The three starts -/

/-- Settles O4: each of the three commands answers the state that `State.start` builds. -/
theorem everyStartGivesTheStartState : Obligations.EveryStartGivesTheStartState := by
  have pins (w : State) (x : Straps) (i : Fin 6) : (w.start x).inputs[i].pin = w.inputs[i].pin := by
    rw [w.start_inputs x i]
  refine ⟨fun s x hs hr => ?power, fun s x hs hr => ?reset, fun s t h x hh ht hop => ?restart⟩
  case power =>
    exact ⟨_, exec_powerOn_start hs hr x, State.start_started _ x, ⟨rfl, hr⟩, pins _ x, Store.abandon_idle, rfl⟩
  case reset =>
    exact ⟨_, exec_resetRelease_start hs hr x, State.start_started _ x, ⟨hs, rfl⟩, pins _ x, Store.abandon_idle, rfl⟩
  case restart =>
    have performed : exec (.restart t h x) s = .next ((s.heard t).start x) :=
      State.event_service_performed hh ht t (Store.refusal_none hop nofun nofun nofun)
    exact ⟨_, performed, State.start_started _ x, hh.1, pins _ x, Store.abandon_idle hop, rfl⟩

/-- Settles O6: the two stops, RESET over the supply, and every command that begins with the running test. -/
theorem stoppedStationsAreSafeAndInert : Obligations.StoppedStationsAreSafeAndInert := by
  refine ⟨⟨fun s hs => ?loss, fun s hr => ?assert, fun s x hs hr => ⟨?supply, ?release⟩⟩, fun c s hc hn => ?inert⟩
  case loss =>
    unfold exec execPowerLoss
    rw [if_pos hs]
    rfl
  case assert =>
    unfold exec execResetAssert
    rw [if_pos hr]
    rfl
  case supply => simp [exec, execPowerOn, hs, hr]
  case release => simp [exec, execResetRelease, hs, hr]
  case inert =>
    cases c
    case powerOn => cases hc
    case powerLoss => cases hc
    case resetAssert => cases hc
    case resetRelease => cases hc
    case discretePinChange => cases hc
    all_goals exact congrArg Host.Outcome.next (if_neg hn)

end Sys2Proof.Machine
end

section
/-! The service commands, their refusals and their completions (9.5). -/

namespace Sys2Proof.Machine

/-! ### What begins an operation, and what is performed at once -/

/-- Settles O26: nothing refuses the command, and its `perform` is what the statement writes out. -/
theorem serviceCommandsArePerformed : Obligations.ServiceCommandsArePerformed := by
  refine ⟨fun s t h hh ht hop => ⟨fun hrow => ?read, ?lock⟩,
    fun s t h hh ht hop => ⟨fun data hrow hl hb => ?write, fun hrow hl => ?erase, ?all, fun hrow => ?blank⟩⟩
  case read => exact State.event_service_performed hh ht t (Store.refusal_none hop (fun _ => hrow) nofun nofun)
  case lock => exact State.event_service_performed hh ht t (Store.refusal_none hop nofun nofun nofun)
  case write =>
    refine ⟨_, State.event_service_performed hh ht t
      (Store.refusal_none hop (fun _ => hrow) (fun _ => hl) (fun _ => hb)), rfl, rfl, fun hw a => ?_, rfl⟩
    have bytes := Memory.read_setRow hw h.row.toNat data.toList a
    rwa [Vector.length_toList] at bytes
  case erase => exact State.event_service_performed hh ht t (Store.refusal_none hop (fun _ => hrow) (fun _ => hl) nofun)
  case all => exact State.event_service_performed hh ht t (Store.refusal_none hop nofun nofun nofun)
  case blank => exact State.event_service_performed hh ht t (Store.refusal_none hop (fun _ => hrow) nofun nofun)

/-! ### The SERVICE frames of every command -/

/-- The commands a SERVICE frame brings, each with its frame (9.5, R173). -/
def serviceFrames (t : Nat) (h : ServiceHeader) (data : Row) (x : Straps) (code : Byte) (more : Option Row) :
    List (Instr × WireFrame) :=
  [(.readRow t h, serviceWire h 1 []), (.writeRow t h data, serviceWire h 2 data.toList),
    (.eraseRow t h, serviceWire h 3 []), (.eraseAll t h, serviceWire h 4 []), (.blankCheck t h, serviceWire h 5 []),
    (.lock t h, serviceWire h 6 []), (.restart t h x, serviceWire h 7 []),
    (.serviceBadCommand t h code more, serviceWire h code (rowBytes more))]

section
variable {t : Nat} {h : ServiceHeader} {data : Row} {x : Straps} {code : Byte} {more : Option Row}

theorem exec_serviceBadCommand (hb : badCommand code more = true) (s : State) :
    exec (.serviceBadCommand t h code more) s = s.event t fun w =>
      w.service h code (rowBytes more) ⟨false, false, false⟩ fun w => w.replyStatus badCommandStatus h.row := by
  unfold exec execServiceBadCommand
  simp only [hb, if_true]

/-- Each of them is taken through `State.service` with the bytes of its frame. -/
theorem exec_serviceFrame (hb : badCommand code more = true) {p : Instr × WireFrame}
    (hp : p ∈ serviceFrames t h data x code more) :
    ∃ k bytes needs perform, p.2 = serviceWire h k bytes ∧
      ∀ s : State, exec p.1 s = s.event t fun w => w.service h k bytes needs perform := by
  simp only [serviceFrames, List.mem_cons, List.not_mem_nil, or_false] at hp
  obtain rfl | rfl | rfl | rfl | rfl | rfl | rfl | rfl := hp
  case inr.inr.inr.inr.inr.inr.inr => exact ⟨_, _, _, _, rfl, exec_serviceBadCommand hb⟩
  all_goals exact ⟨_, _, _, _, rfl, fun _ => rfl⟩

end

/-- Settles O27: a busy store refuses every command, an idle one by the first condition that holds, and a frame that is
not taken meets the watches alone. -/
theorem serviceRefusalsInOrder : Obligations.ServiceRefusalsInOrder := by
  intro s t h data x code more hh hb
  have framed (c : Instr) (hc : c ∈ (serviceFrames t h data x code more).map Prod.fst) :
      ∃ p ∈ serviceFrames t h data x code more, p.1 = c := List.mem_map.mp hc
  refine ⟨fun ht => ⟨fun hop c hc => ?busy, fun hop => ⟨?bad, fun hrow => ?row, fun hrow hl => ?locked,
    fun hrow hl hbl => ?blank⟩⟩, fun hn hw c hc => ?rest, fun hw p hp => ?work⟩
  case busy =>
    obtain ⟨p, hp, rfl⟩ := framed c hc
    obtain ⟨k, bytes, needs, perform, -, e⟩ := exec_serviceFrame hb hp
    exact (e s).trans (State.event_service_refused hh ht t (Store.refusal_busy hop))
  case bad =>
    exact (exec_serviceBadCommand hb s).trans
      (State.event_service_performed hh ht t (Store.refusal_none hop nofun nofun nofun))
  case row =>
    exact ⟨State.event_service_refused hh ht t (Store.refusal_badRow hop rfl hrow),
      State.event_service_refused hh ht t (Store.refusal_badRow hop rfl hrow),
      State.event_service_refused hh ht t (Store.refusal_badRow hop rfl hrow),
      State.event_service_refused hh ht t (Store.refusal_badRow hop rfl hrow)⟩
  case locked =>
    exact ⟨State.event_service_refused hh ht t (Store.refusal_locked hop hrow rfl hl),
      State.event_service_refused hh ht t (Store.refusal_locked hop hrow rfl hl)⟩
  case blank => exact State.event_service_refused hh ht t (Store.refusal_notBlank hop hrow hl rfl hbl)
  case rest =>
    obtain ⟨p, hp, rfl⟩ := framed c hc
    obtain ⟨k, bytes, needs, perform, -, e⟩ := exec_serviceFrame hb hp
    rw [e s, State.event_service_passed hh t hn, State.runWatches_rest (show ¬ (s.heard t).atWork from hw)]
  case work =>
    obtain ⟨k, bytes, needs, perform, hf, e⟩ := exec_serviceFrame hb hp
    have untaken : ¬ s.takesService h := by
      rintro ⟨station, -⟩
      rcases hw with hw | hw
      · exact absurd (hw.symm.trans station) (by decide)
      · exact absurd (hw.symm.trans station) (by decide)
    have passed : exec p.1 s = .next ((s.heard t).runWatches p.2) := by
      rw [e s, State.event_service_passed hh t untaken, hf]
    exact ⟨passed, fun hu => passed.trans (congrArg _ (State.runWatches_unwatched (s := s.heard t) hu))⟩

/-! ### The completions -/

section
variable {s : State} {t : Nat} {op : StoreOp} (hop : s.store.op = some op) (hd : s.due t (some op.done) op.done)
include hop hd

theorem State.finishedOp_due : (s.tick t).finishedOp = some op := by
  unfold State.finishedOp
  rw [show (s.tick t).store.op = some op from hop]
  exact if_pos hd.2.2

theorem exec_writeRowComplete_due {data : List Byte} (hc : op.command = .writeRow data) (readBack : Row) :
    exec (.writeRowComplete t readBack) s = .next (((s.tick t).endOp
      (Memory.setRow s.store.cells op.row.toNat readBack.toList) s.store.locked).placeReply
        (if readBack.toList = data then ⟨0, op.row, []⟩ else ⟨4, op.row, readBack.toList⟩)) := by
  show execWriteRowComplete t readBack s = _
  simp only [execWriteRowComplete, State.event_run hd.1, State.finishedOp_due hop hd, hc]
  rfl

theorem exec_eraseRowComplete_due (hc : op.command = .eraseRow) :
    exec (.eraseRowComplete t) s = .next (((s.tick t).endOp
      (Memory.eraseRow s.store.cells op.row.toNat) s.store.locked).placeReply ⟨0, op.row, []⟩) := by
  show execEraseRowComplete t s = _
  simp only [execEraseRowComplete, State.event_run hd.1, State.finishedOp_due hop hd, hc]
  rfl

theorem exec_eraseAllComplete_due (hc : op.command = .eraseAll) :
    exec (.eraseAllComplete t) s = .next (((s.tick t).endOp [] false).placeReply ⟨0, op.row, []⟩) := by
  show execEraseAllComplete t s = _
  simp only [execEraseAllComplete, State.event_run hd.1, State.finishedOp_due hop hd, hc]
  rfl

theorem exec_blankCheckComplete_due (hc : op.command = .blankCheck) :
    exec (.blankCheckComplete t) s = .next (((s.tick t).endOp s.store.cells s.store.locked).placeReply
      ⟨if Memory.rowBlank s.store.cells op.row.toNat then 7 else 3, op.row, []⟩) := by
  show execBlankCheckComplete t s = _
  simp only [execBlankCheckComplete, State.event_run hd.1, State.finishedOp_due hop hd, hc]
  rfl

end

/-- Settles O28: each completion's rule, the rows read by `read_setRow` and `read_eraseRow`. -/
theorem storeOperationsComplete : Obligations.StoreOperationsComplete := by
  refine ⟨fun s t readBack op data hop hc hd hw => ?write, fun s t op hop hd hw => ⟨fun hc => ?row, fun hc => ?all,
    fun hc => ?blank⟩⟩
  case write =>
    refine ⟨_, exec_writeRowComplete_due hop hd hc readBack, rfl, rfl, fun a => ?_, rfl, rfl⟩
    have bytes := Memory.read_setRow hw op.row.toNat readBack.toList a
    rwa [Vector.length_toList] at bytes
  case row =>
    refine ⟨_, exec_eraseRowComplete_due hop hd hc, rfl, by dsimp only [State.placeReply, State.endOp], fun a => ?_, rfl,
      rfl⟩
    show Memory.read (Memory.eraseRow s.store.cells op.row.toNat) a = _
    rw [Memory.read_eraseRow hw]
    rfl
  case all => exact exec_eraseAllComplete_due hop hd hc
  case blank => exact exec_blankCheckComplete_due hop hd hc

end Sys2Proof.Machine
end

section
/-! Timers that expire, the receiver's moves and sending (8.3 to 8.6). -/

namespace Sys2Proof.Machine

/-- A due timer is one that its event finds expired. -/
theorem State.due.timer_expired {s : State} {t : Nat} {timer : Option Clock} {expiry : Clock}
    (h : s.due t timer expiry) : expired timer (s.tick t).clock = some expiry := by
  obtain ⟨-, running, reached⟩ := h
  unfold expired
  rw [running]
  exact if_pos reached

/-- Settles O49: each timer's command where it is due. -/
theorem remainingTimersExpire : Obligations.RemainingTimersExpire := by
  refine ⟨⟨fun s t k expiry hk hd => ?hold, fun s t expiry hd => ?window⟩,
    fun s t expiry hb hd hf => ?mute, fun s t expiry hd => ?status⟩
  case hold =>
    show execConveyorHoldExpiry t s = _
    simp only [execConveyorHoldExpiry, State.event_run hd.1, State.tick_fields, hk, hd.timer_expired]
    rfl
  case window =>
    show execBeltHoldExpiry t s = _
    simp only [execBeltHoldExpiry, State.event_run hd.1, State.tick_fields, hd.timer_expired]
  case mute =>
    show execMuteExpiry t s = _
    simp only [execMuteExpiry, State.event_run hd.1, State.tick_fields, hb, hd.timer_expired, if_true, State.endMute,
      State.removeFault_eq, hf]
    rfl
  case status =>
    show execStatusTimer t s = _
    simp only [execStatusTimer, State.event_run hd.1, State.tick_fields, hd.timer_expired]
    rfl

/-! ### The receiver (R153, R155, R156, R160) -/

/-- A frame the station did not begin counts where it is dropped (R156). -/
theorem Line.countError_eq {l : Line} {own : Bool} (h : l.receiver = .inFrame own) :
    l.countError = { l with errors := if own then l.errors else min (l.errors + 1) 65535 } := by
  cases l
  cases h
  cases own with
  | true => exact if_pos rfl
  | false => exact if_neg (by simp)

/-- A receiver in a frame that the station does not send collects it (R155). -/
theorem State.collecting_of {s : State} {own : Bool} (hf : s.line.flight = none) (hr : s.line.receiver = .inFrame own) :
    s.collecting := by
  refine ⟨?_, hf⟩
  cases own with
  | true => exact .inl hr
  | false => exact .inr hr

theorem exec_receiverIdle_waiting {s : State} {q : Nat} (hrun : s.runs) (hr : s.line.receiver = .waiting)
    (hq : s.line.quietSince = some q) (t : Nat) : exec (.receiverIdle t) s = .next (if q + 32 < max s.now t then
      { s.tick t with line := { s.line with receiver := .idle } } else s.tick t) := by
  show execReceiverIdle t s = _
  simp only [execReceiverIdle, State.event_run hrun, State.tick_fields, hr, hq]
  rfl

theorem exec_frameStartHeard_waiting {s : State} {q t : Nat} (hrun : s.runs) (hf : s.line.flight = none)
    (hr : s.line.receiver = .waiting) (hq : s.line.quietSince = some q) (hle : q ≤ max s.now t) :
    exec (.frameStartHeard t) s =
      .next { s.tick t with line := { s.line with quietSince := some (max s.now t + 40), yielding := false } } := by
  show execFrameStartHeard t s = _
  simp only [execFrameStartHeard, State.event_run hrun, State.tick_fields, State.tick_now, hr, hf, Line.passCell, hq,
    if_pos hle]
  rfl

theorem exec_frameStartHeard_idle {s : State} (hrun : s.runs) (hf : s.line.flight = none)
    (hr : s.line.receiver = .idle) (t : Nat) : exec (.frameStartHeard t) s = .next { s.tick t with line := { s.line with
      receiver := .inFrame false, quietSince := none, yielding := false } } := by
  show execFrameStartHeard t s = _
  simp only [execFrameStartHeard, State.event_run hrun, State.tick_fields, hr, hf]
  rfl

section
variable {s : State} {t : Nat} {own : Bool} (hrun : s.runs) (hf : s.line.flight = none)
  (hr : s.line.receiver = .inFrame own)
include hrun hf hr

theorem exec_frameBroken_collecting : exec (.frameBroken t) s = .next { s.tick t with line := { s.line with
    receiver := .waiting, quietSince := some (max s.now t - 33)
    errors := if own then s.line.errors else min (s.line.errors + 1) 65535 } } := by
  have collects : (s.tick t).collecting := State.collecting_of (own := own) hf hr
  show execFrameBroken t s = _
  simp only [execFrameBroken, State.event_run hrun, if_pos collects, State.tick_fields, Line.countError_eq hr]
  rfl

theorem exec_frameDropped_collecting {cells : List ByteCell} {receiver : Receiver}
    (h : (judgeCells cells = .droppedEarly ∧ receiver = .waiting) ∨
      (judgeCells cells = .droppedAtArrival ∧ receiver = .idle)) :
    exec (.frameDropped t cells) s = .next { s.tick t with line := { s.line with
      receiver := receiver, quietSince := some (max s.now t)
      errors := if own then s.line.errors else min (s.line.errors + 1) 65535 } } := by
  have collects : (s.tick t).collecting := State.collecting_of (own := own) hf hr
  show execFrameDropped t cells s = _
  obtain ⟨hj, rfl⟩ | ⟨hj, rfl⟩ := h
  · simp only [execFrameDropped, State.event_run hrun, if_pos collects, State.tick_fields, hj, Line.countError_eq hr]
    rfl
  · simp only [execFrameDropped, State.event_run hrun, if_pos collects, State.tick_fields, hj, Line.countError_eq hr]
    rfl

end

/-- Settles O9: one rule for each of the receiver's states and the event that meets it. -/
theorem receiverFollowsTheLine : Obligations.ReceiverFollowsTheLine := by
  refine ⟨⟨fun s t q hrun hr hq => ⟨fun hlt => ?quiet, fun hle => ?early⟩, fun s t q hrun hf hr hq hle => ?cell,
    fun s t hrun hf hr => ?begins, fun s t hrun hf hr => ?broken, fun s t hrun hf hr => ?ownBroken⟩,
    fun s t cells own hrun hf hr => ⟨fun hj => ?dropped, fun hj => ?atArrival⟩⟩
  case quiet => rw [exec_receiverIdle_waiting hrun hr hq, if_pos hlt]
  case early => rw [exec_receiverIdle_waiting hrun hr hq, if_neg (Nat.not_lt.mpr hle)]
  case cell => exact exec_frameStartHeard_waiting hrun hf hr hq hle
  case begins => exact exec_frameStartHeard_idle hrun hf hr t
  case broken => exact exec_frameBroken_collecting hrun hf hr
  case ownBroken => exact exec_frameBroken_collecting hrun hf hr
  case dropped => exact exec_frameDropped_collecting hrun hf hr (.inl ⟨hj, rfl⟩)
  case atArrival => exact exec_frameDropped_collecting hrun hf hr (.inr ⟨hj, rfl⟩)

end Sys2Proof.Machine
end

section
/-! Sending: the choice of a frame, its completion and its way back (8.4 to 8.6). -/

namespace Sys2Proof.Machine

/-! ### Beginning (R159, R163, R164) -/

theorem State.mayBegin_of {s : State} {q : Nat} (hb : s.line.bus = .active) (hf : s.line.flight = none)
    (hq : s.line.quietSince = some q)
    (hle : q + 4 * (20 + 4 * s.number.toNat + if s.line.yielding then 100 else 0) ≤ s.now) : s.mayBegin = true := by
  unfold State.mayBegin
  rw [hb, hf, hq]
  exact decide_eq_true hle

theorem State.mayBegin_not {s : State} (h : s.line.bus ≠ .active ∨ s.line.quietSince = none ∨
    ∃ q, s.line.quietSince = some q ∧
      s.now < q + 4 * (20 + 4 * s.number.toNat + if s.line.yielding then 100 else 0)) : s.mayBegin = false := by
  unfold State.mayBegin
  obtain hb | hq | ⟨q, hq, hlt⟩ := h
  · simp [hb]
  · simp [hq]
  · rw [hq]
    have short : ¬ q + Config.bitTime * accessWait s.number s.line.yielding ≤ s.now := Nat.not_le.mpr hlt
    simp [short]

/-- Which station state sends what (R159). -/
@[simp] theorem Station.sends_eq :
    (Station.running.sendsAll = true ∧ Station.running.sendsReply = true ∧ Station.running.sendsStatus = true) ∧
    (Station.commissioning.sendsAll = false ∧ Station.commissioning.sendsReply = true ∧
      Station.commissioning.sendsStatus = true) ∧
    (Station.safe.sendsAll = false ∧ Station.safe.sendsReply = false ∧ Station.safe.sendsStatus = true) ∧
    (Station.loading.sendsAll = false ∧ Station.loading.sendsReply = false ∧ Station.loading.sendsStatus = false) ∧
    (Station.listening.sendsAll = false ∧ Station.listening.sendsReply = false ∧
      Station.listening.sendsStatus = false) := by decide

/-- Choosing a frame does not read the time. -/
theorem State.tick_chooseFrame (s : State) (t : Nat) : (s.tick t).chooseFrame = s.chooseFrame := rfl

section
variable {s : State} {t : Nat} (hrun : s.runs)
include hrun

theorem exec_frameBegin_waits (hm : (s.tick t).mayBegin = false) : exec (.frameBegin t) s = .next (s.tick t) := by
  show execFrameBegin t s = _
  simp only [execFrameBegin, State.event_run hrun, hm]
  rfl

theorem exec_frameBegin_none (hc : s.chooseFrame = none) : exec (.frameBegin t) s = .next (s.tick t) := by
  show execFrameBegin t s = _
  simp only [execFrameBegin, State.event_run hrun, State.tick_chooseFrame, hc, ite_self]

theorem exec_frameBegin_begins {frame : OwnFrame} {control : ControlSet} {queue : List QueuedSample}
    (hm : (s.tick t).mayBegin = true) (hc : s.chooseFrame = some (frame, control, queue)) :
    exec (.frameBegin t) s = .next { s.tick t with line := { s.line with
      control := control, queue := queue, flight := some ⟨frame, max s.now t, false⟩
      receiver := .inFrame true, quietSince := none } } := by
  show execFrameBegin t s = _
  simp only [execFrameBegin, State.event_run hrun, State.tick_chooseFrame, hc, hm, if_true]
  rfl

end

/-- A sample is stamped with its key's counter, 0 for a key that is not published (R71). -/
theorem State.stamp_eq (s : State) (x : QueuedSample) :
    s.stamp x = ⟨x, ((findPublication s.publications x.code x.inst).map PublicationRun.seq).getD 0⟩ := by
  unfold State.stamp
  cases findPublication s.publications x.code x.inst with
  | none => rfl
  | some run => rfl

/-- Settles O50: what `chooseFrame` takes in each station state, first pending first. -/
theorem framesBeginInTheirOrder : Obligations.FramesBeginInTheirOrder := by
  refine ⟨fun s t q hrun hb hf hq hle => ?_, fun s t hrun h => ?waits⟩
  case waits => exact exec_frameBegin_waits hrun (State.mayBegin_not (s := s.tick t) h)
  have begins {frame control queue} (hc : s.chooseFrame = some (frame, control, queue)) :=
    exec_frameBegin_begins (t := t) hrun (State.mayBegin_of (s := s.tick t) hb hf hq hle) hc
  refine ⟨fun hs => ⟨fun cause detail hh => ?halt, fun hh hr => ?release, fun r hh hr hp => ?reply,
    fun hh hr hp hk => ?status, fun hh hr hp hk hne => ?publish⟩, fun hs => ⟨fun r hp => ?cReply, fun hp hk => ?cStatus⟩,
    fun hs hk => ?safe, fun hs => ?none⟩
  case halt => exact begins (by simp [State.chooseFrame, hs, hh])
  case release => exact begins (by simp [State.chooseFrame, hs, hh, hr])
  case reply => exact begins (by simp [State.chooseFrame, hs, hh, hr, hp])
  case status => exact begins (by simp [State.chooseFrame, hs, hh, hr, hp, hk])
  case publish =>
    refine begins ?_
    simp only [State.chooseFrame, hs, Station.sends_eq, hh, hr, hp, hk, hne, Bool.and_false, if_true, and_true, ne_eq,
      not_false_eq_true, Config.publishLimit, funext s.stamp_eq]
  case cReply => exact begins (by simp [State.chooseFrame, hs, hp])
  case cStatus => exact begins (by simp [State.chooseFrame, hs, hp, hk])
  case safe => exact begins (by simp [State.chooseFrame, hs, hk])
  case none =>
    refine exec_frameBegin_none hrun ?_
    obtain hs | hs := hs
    · simp [State.chooseFrame, hs]
    · simp [State.chooseFrame, hs]

/-! ### Completion (R71, R165) -/

/-- The keys a PUBLISH carries. -/
def carriedKeys (samples : List StampedSample) : List (BitVec 6 × BitVec 2) :=
  samples.map fun x => (x.sample.code, x.sample.inst)

theorem flightKeys_publish {samples : List StampedSample} {f : Flight} (h : f.frame = .publish samples) :
    flightKeys (some f) = carriedKeys samples := by
  obtain ⟨frame, began, discarded⟩ := f
  cases h
  rfl

/-- Of distinct keys, each carried key's counter steps once and no other (R71). -/
theorem stepCounters_publish {samples : List StampedSample} (h : (carriedKeys samples).Nodup)
    (runs : List PublicationRun) : stepCounters runs (.publish samples) =
      runs.map fun p => if (p.code, p.inst) ∈ carriedKeys samples then { p with seq := p.seq + 1 } else p := by
  unfold stepCounters
  dsimp only
  induction samples generalizing runs with
  | nil => simp [carriedKeys]
  | cons x xs ih =>
    obtain ⟨hx, hxs⟩ := List.nodup_cons.mp h
    rw [List.foldl_cons, ih hxs, updatePublication, List.map_map]
    refine List.map_congr_left fun p _ => ?_
    have mem : (p.code, p.inst) ∈ carriedKeys (x :: xs) ↔
        (p.code = x.sample.code ∧ p.inst = x.sample.inst) ∨ (p.code, p.inst) ∈ carriedKeys xs := by
      simp [carriedKeys]
    simp only [Function.comp_apply, mem]
    by_cases hp : p.code = x.sample.code ∧ p.inst = x.sample.inst
    · have out : (p.code, p.inst) ∉ carriedKeys xs := by rwa [hp.1, hp.2]
      rw [if_pos hp, if_pos (Or.inl hp)]
      exact if_neg out
    · simp only [hp, if_false, false_or]

theorem exec_frameComplete_over {s : State} {t : Nat} {f : Flight} (hrun : s.runs) (hf : s.line.flight = some f)
    (hle : f.began + 40 * (6 + (f.frame.wire s.number).payload.length) ≤ max s.now t) :
    exec (.frameComplete t) s = .next { s.tick t with
      line := { s.line with
        flight := none, echoRun := 0, yielding := true, receiver := .idle, quietSince := some (max s.now t) }
      publications := stepCounters s.publications f.frame } := by
  show execFrameComplete t s = _
  simp only [execFrameComplete, State.event_run hrun, State.tick_fields, hf]
  exact congrArg _ (if_pos hle)

/-- Settles O52: the frame leaves the line, and the counters step by the kind of the frame. -/
theorem framesComplete : Obligations.FramesComplete := by
  intro s t f hrun hf hle
  refine ⟨_, exec_frameComplete_over hrun hf hle, rfl, fun hn => ?other, fun samples hs hk => ?publish⟩
  case other =>
    show stepCounters s.publications f.frame = _
    unfold stepCounters
    split
    · rename_i samples hs
      exact absurd hs (hn samples)
    · rfl
  case publish =>
    rw [hf, flightKeys_publish hs] at *
    rw [hs]
    exact stepCounters_publish hk s.publications

/-! ### A stopped frame (R161 to R164) -/

/-- The line once its frame is stopped, with this control set and queue. -/
def Line.stoppedWith (l : Line) (control : ControlSet) (queue : List QueuedSample) : Line :=
  { l with flight := none, yielding := false, control := control, queue := queue }

/-- What a stop leaves: at a contention loss nothing more; at an echo fault the run grows, and the eighth mutes the bus. -/
def State.Stops (s : State) (t : Nat) (lost : Prop) (line : Line) : Prop :=
  (lost → exec (.contentionLoss t) s = .next { s.tick t with line := line }) ∧
  (¬ lost → s.line.echoRun < 7 →
    exec (.echoFault t) s = .next { s.tick t with line := { line with echoRun := s.line.echoRun + 1 } }) ∧
  (¬ lost → 7 ≤ s.line.echoRun → .echoMute ∉ s.faults → exec (.echoFault t) s = .next { s.tick t with
    faults := s.faults ++ [.echoMute]
    line := { line with
      bus := .mutedTimed, muteTimer := some (after (s.tick t).clock 1000)
      control := { line.control with status := true } } })

/-- Short of the eighth echo fault in a row the run grows (R162). -/
theorem State.countEcho_short {s : State} (h : s.line.echoRun < 7) :
    s.countEcho = { s with line := { s.line with echoRun := s.line.echoRun + 1 } } :=
  if_pos (Nat.succ_lt_succ h)

/-- The eighth begins the timed mute (R162). -/
theorem State.countEcho_mutes {s : State} (h : 7 ≤ s.line.echoRun) (hm : .echoMute ∉ s.faults) :
    s.countEcho = { s with
      faults := s.faults ++ [.echoMute]
      line := { s.line with
        bus := .mutedTimed, muteTimer := some (after s.clock 1000)
        control := { s.line.control with status := true } } } := by
  have mutes : s.countEcho = s.beginMute := if_neg (Nat.not_lt.mpr (Nat.succ_le_succ h))
  rw [mutes, State.beginMute, State.addFault_eq]
  exact if_neg hm

section
variable {s : State} {t i : Nat} {f : Flight} {driven : Level} (hrun : s.runs) (hf : s.line.flight = some f)
  (hl : (f.frame.wire s.number).levels[i]? = some driven) (h1 : f.began + 4 * i ≤ max s.now t)
  (h2 : max s.now t < f.began + 4 * (i + 1))
include hrun hf hl h1 h2

/-- The frame stops at a recessive bit of SYNC, TYPE or SOURCE by a contention loss, else by an echo fault. -/
theorem exec_contentionLoss_within : exec (.contentionLoss t) s =
    .next (if i < 30 ∧ driven = .recessive then { s.tick t with line := s.line.stopFrame f } else s.tick t) := by
  have differs := Flight.differs_within hl h1 h2
  show execContentionLoss t s = _
  simp only [execContentionLoss, State.event_run hrun, State.tick_fields, State.tick_now, hf, differs]
  split
  · rfl
  · rfl

theorem exec_echoFault_within : exec (.echoFault t) s = .next (if i < 30 ∧ driven = .recessive then s.tick t else
    ({ s.tick t with line := s.line.stopFrame f } : State).countEcho) := by
  have differs := Flight.differs_within hl h1 h2
  show execEchoFault t s = _
  simp only [execEchoFault, State.event_run hrun, State.tick_fields, State.tick_now, hf, differs]
  split
  · rfl
  · rfl

theorem State.Stops.of_stopFrame {line : Line} (hline : s.line.stopFrame f = line) :
    s.Stops t (i < 30 ∧ driven = .recessive) line := by
  subst hline
  refine ⟨fun hlost => ?_, fun hlost hr => ?_, fun hlost hr hm => ?_⟩
  · rw [exec_contentionLoss_within hrun hf hl h1 h2, if_pos hlost]
  · rw [exec_echoFault_within hrun hf hl h1 h2, if_neg hlost]
    exact congrArg _ (State.countEcho_short (s := { s.tick t with line := s.line.stopFrame f }) hr)
  · rw [exec_echoFault_within hrun hf hl h1 h2, if_neg hlost]
    exact congrArg _ (State.countEcho_mutes (s := { s.tick t with line := s.line.stopFrame f }) hr hm)

end

/-! ### What goes back -/

/-- A queued sample of distinct keys is the only one of its key, and the one a returning sample is renewed by. -/
theorem renewed_of_mem {queue : List QueuedSample} (h : (queueKeys queue).Nodup) {x z : QueuedSample} (hz : z ∈ queue)
    (hk : (z.code, z.inst) = (x.code, x.inst)) : renewed queue x = z := by
  have same : z.sameKey x = true := by simpa [QueuedSample.sameKey] using hk
  unfold renewed
  cases hfind : queue.find? (·.sameKey x) with
  | none => exact absurd same (List.find?_eq_none.mp hfind z hz)
  | some y =>
    have hy : y.code = x.code ∧ y.inst = x.inst := by
      simpa [QueuedSample.sameKey] using List.find?_some hfind
    exact List.inj_on_of_nodup_map h (List.mem_of_find?_eq_some hfind) hz (by rw [hk, hy.1, hy.2])

theorem renewed_of_none {queue : List QueuedSample} {x : QueuedSample}
    (h : ∀ z ∈ queue, (z.code, z.inst) ≠ (x.code, x.inst)) : renewed queue x = x := by
  have absent : queue.find? (·.sameKey x) = none := by
    rw [List.find?_eq_none]
    intro z hz
    simpa [QueuedSample.sameKey] using h z hz
  unfold renewed
  rw [absent]

/-- The queued samples that keep their place are those of keys the frame does not carry. -/
theorem returnSamples_eq (samples : List StampedSample) (queue : List QueuedSample) : returnSamples samples queue =
    samples.map (fun x => renewed queue x.sample) ++
      queue.filter fun y => decide ((y.code, y.inst) ∉ carriedKeys samples) := by
  unfold returnSamples
  congr 1
  refine List.filter_congr fun y _ => ?_
  have carried : (samples.any fun x => y.sameKey x.sample) = true ↔ (y.code, y.inst) ∈ carriedKeys samples := by
    rw [List.any_eq_true, carriedKeys, List.mem_map]
    refine exists_congr fun x => and_congr_right fun _ => ?_
    rw [QueuedSample.sameKey, Bool.and_eq_true, beq_iff_eq, beq_iff_eq, Prod.mk.injEq]
    exact and_congr eq_comm eq_comm
  simp only [← carried, Bool.decide_eq_true, decide_not]

/-- Settles O53: the echo rules, and what `returnControl` and `returnSamples` put back of each kind of frame. -/
theorem stoppedFramesGoBack : Obligations.StoppedFramesGoBack := by
  intro s t i f driven hrun hf hl h1 h2
  have stops (control : ControlSet) (queue : List QueuedSample)
      (hk : returnControl s.line.control f.frame f.discarded = control) (hq : (s.line.stopFrame f).queue = queue) :
      s.Stops t (i < 30 ∧ driven = .recessive) (s.line.stoppedWith control queue) := by
    subst hk
    subst hq
    exact State.Stops.of_stopFrame hrun hf hl h1 h2 rfl
  refine ⟨⟨fun hn => ?notLost, fun hlost => ?notEcho⟩, fun cause detail hfr => ?halt, fun hfr => ?release,
    fun r hfr => ?reply, fun payload hfr => ?status, fun samples hfr hnd => ?publish⟩
  case notLost => rw [exec_contentionLoss_within hrun hf hl h1 h2, if_neg hn]
  case notEcho => rw [exec_echoFault_within hrun hf hl h1 h2, if_pos hlost]
  case halt =>
    have stands : (s.line.stopFrame f).queue = s.line.queue := by simp [Line.stopFrame, hfr]
    refine ⟨fun hd hk => stops _ _ (by rw [hfr]; exact if_pos ⟨hk, hd⟩) stands, fun hk => stops _ _ ?_ stands⟩
    rw [hfr]
    refine if_neg fun h => ?_
    obtain hk | hk := hk
    · simp [hk] at h
    · exact hk h.1
  case release =>
    have stands : (s.line.stopFrame f).queue = s.line.queue := by simp [Line.stopFrame, hfr]
    refine ⟨fun hd hk => stops _ _ (by rw [hfr]; exact if_pos hd) stands, fun hk => stops _ _ ?_ stands⟩
    rw [hfr]
    obtain hk | hk := hk
    · simp [returnControl, hk]
    · simp [returnControl, ← hk]
  case reply =>
    have stands : (s.line.stopFrame f).queue = s.line.queue := by simp [Line.stopFrame, hfr]
    exact ⟨fun hk => stops _ _ (by rw [hfr]; exact if_pos hk) stands,
      fun hk => stops _ _ (by rw [hfr]; exact if_neg hk) stands⟩
  case status =>
    have stands : (s.line.stopFrame f).queue = s.line.queue := by simp [Line.stopFrame, hfr]
    exact stops _ _ (by rw [hfr]; rfl) stands
  case publish =>
    refine ⟨samples.map fun x => renewed s.line.queue x.sample, List.length_map _, ?_, fun n x y hx hy => ?_⟩
    · rw [hf, flightKeys_publish hfr]
      refine stops _ _ (by rw [hfr]; rfl) ?_
      simp only [Line.stopFrame, hfr]
      exact returnSamples_eq samples s.line.queue
    · have returned : renewed s.line.queue x.sample = y := by simpa [hx] using hy
      subst returned
      exact ⟨renewed_of_none, fun z hz hk => renewed_of_mem hnd hz hk⟩

end Sys2Proof.Machine
end

section
/-! Intact frames of other stations: samples, HALT, RELEASE, and what the watches see (7.4, 7.5, R157). -/

namespace Sys2Proof.Machine

/-- A block of a station with settings works with them. -/
theorem State.withSettings_of {s : State} {st : Settings} (h : s.settings = some st) (effect : Settings → State) :
    s.withSettings effect = effect st := by
  unfold State.withSettings
  rw [h]

/-- A frame no watch acts on is handed on as it is heard (R157). -/
theorem State.event_hears_unwatched {s : State} {source : Byte} {f : WireFrame} (hh : s.hears source) (t : Nat)
    (hf : f.source = source) (hu : s.unwatched f) (handOn : State → State) :
    s.event t (fun w => w.arrive f handOn) = .next (handOn (s.heard t)) := by
  rw [State.event_hears hh t f hf, State.runWatches_unwatched (s := s.heard t) hu]

/-- Settles O13: at work the samples are accepted one by one, and outside it only the frame is heard. -/
theorem publishFramesAreAcceptedInPayloadOrder : Obligations.PublishFramesAreAcceptedInPayloadOrder := by
  intro s t source samples hh h1 h4 hu
  have handed : exec (.publishFrame t source samples) s =
      .next (if (s.heard t).atWork then (s.heard t).acceptAll (stationOf source) samples else s.heard t) := by
    show execPublishFrame t source samples s = _
    simp only [execPublishFrame, h1, h4, and_self, if_true]
    exact State.event_hears_unwatched hh t rfl hu _
  refine ⟨fun hw => ?work, fun hw => ?rest⟩
  case work =>
    rw [handed, if_pos (show (s.heard t).atWork from hw)]
    rfl
  case rest => rw [handed, if_neg (show ¬ (s.heard t).atWork from hw)]

/-- Settles O24: the frame reaches `takeHalt`, whose branch sets the latch. -/
theorem haltFramesLatch : Obligations.HaltFramesLatch := by
  intro s t source cause detail hh hu
  have handed : exec (.haltFrame t source cause detail) s =
      .next ((s.heard t).takeHalt (stationOf source) cause detail) := State.event_hears_unwatched hh t rfl hu _
  refine ⟨fun hn => ?stands, fun hw hl => ?latches⟩
  case stands =>
    have refused : ¬ ((s.heard t).atWork ∧ (s.heard t).latch = none) := by
      rintro ⟨hw, hl⟩
      exact hn.elim (· hw) (· hl)
    rw [handed, State.takeHalt, if_neg refused]
  case latches =>
    have taken : (s.heard t).takeHalt (stationOf source) cause detail =
        (s.heard t).setLatch ⟨cause, stationOf source, detail⟩ := if_pos ⟨hw, hl⟩
    obtain ⟨latch, belt, channels, frame⟩ := State.setLatch_halts (s.heard t) ⟨cause, stationOf source, detail⟩
    rw [taken] at handed
    exact ⟨_, handed, latch, channels, belt, frame⟩

/-! ### The persisting cause (R140) -/

/-- A function's input is the lowest one that has it (R65). -/
theorem Settings.inputOf_eq_some {st : Settings} {f : InputFunction} {i : Fin 6} :
    st.inputOf f = some i ↔ st.functions[i] = f ∧ ∀ j : Fin 6, j < i → st.functions[j] ≠ f := by
  have places : ([0, 1, 2, 3, 4, 5] : List (Fin 6)) = List.finRange 6 := by decide
  unfold Settings.inputOf
  rw [places, List.find?_eq_some_iff_getElem, beq_iff_eq]
  refine and_congr_right fun _ => ⟨?_, fun h => ⟨i.val, by simp, by simp, fun j hj => ?_⟩⟩
  · rintro ⟨n, hn, rfl, before⟩ j hj
    simpa using before j.val (by simpa [Fin.lt_def] using hj)
  · simpa using h ⟨j, by omega⟩ (by simpa [Fin.lt_def] using hj)

section
variable {s : State} {st : Settings} (hs : s.settings = some st)
include hs

theorem State.persistingCause_halt {i : Fin 6} (hi : st.inputOf .haltButton = some i) (hl : s.inputs[i].level = true) :
    s.persistingCause = some (1, BitVec.ofNat 8 i.val) := by
  have held : s.haltHeld st = some i := by
    unfold State.haltHeld
    rw [hi]
    exact if_pos hl
  unfold State.persistingCause
  rw [hs]
  dsimp only
  rw [held]
  rfl

/-- Without a halt button held the chamber decides (R140). -/
theorem State.persistingCause_chamber
    (hn : ∀ i : Fin 6, st.functions[i] = .haltButton → s.inputs[i].level = false) : s.persistingCause =
      s.conveyor.bind fun k => if k.full then some (2, alarmDetail st) else none := by
  have free : s.haltHeld st = none := by
    unfold State.haltHeld
    cases hi : st.inputOf .haltButton with
    | none => rfl
    | some i =>
      have low := hn i (Settings.inputOf_eq_some.mp hi).1
      exact if_neg (by rw [low]; exact Bool.false_ne_true)
  unfold State.persistingCause
  rw [hs]
  dsimp only
  rw [free]
  cases s.conveyor with
  | none => rfl
  | some k => rfl

end

/-! ### RELEASE (R142) -/

/-- The state a RELEASE that clears the latch leaves before a persisting cause acts again. -/
def State.released (s : State) : State :=
  { s with
    latch := none, chanA := s.chanA.unlatched, chanB := s.chanB.unlatched
    faults := s.faults.filter (· != .beltStall)
    line := { s.line with
      control := { s.line.control with halt := none, status := true }, flight := s.line.flightWithout true false } }

section
variable {s : State} {st : Settings} (hs : s.settings = some st)
include hs

theorem State.takeRelease_refused {source : BitVec 4}
    (h : ¬ s.atWork ∨ source = 0 ∨ st.release.getLsbD source.toNat = false ∨ s.latch = none) :
    s.takeRelease source = s := by
  have refused : ¬ (s.atWork ∧ inSet st.release source ∧ s.latch ≠ none) := by
    rintro ⟨hw, hset, hl⟩
    simp only [inSet, Bool.and_eq_true, bne_iff_ne] at hset
    obtain h | h | h | h := h
    · exact h hw
    · exact hset.1 h
    · simp [h] at hset
    · exact hl h
  unfold State.takeRelease
  rw [State.withSettings_of hs]
  exact if_neg refused

theorem State.takeRelease_clears {source : BitVec 4} (hw : s.atWork) (hn : source ≠ 0)
    (hset : st.release.getLsbD source.toNat = true) (hl : s.latch ≠ none) : s.takeRelease source =
      s.persistingCause.elim s.released fun x => s.released.raiseCause x.1 x.2 := by
  have accepted : s.atWork ∧ inSet st.release source ∧ s.latch ≠ none :=
    ⟨hw, by rw [inSet, hset, Bool.and_true, bne_iff_ne]; exact hn, hl⟩
  have cleared : ({ s with line := s.line.discardHalt } : State).clearLatch = s.released := by
    rw [State.clearLatch_eq, Line.discardHalt_eq]
    rfl
  unfold State.takeRelease
  rw [State.withSettings_of hs, if_pos accepted]
  dsimp only
  rw [cleared, show s.released.persistingCause = s.persistingCause from rfl]
  cases s.persistingCause with
  | none => rfl
  | some x => rfl

end

/-- A channel that a clear latch frees and a persisting cause takes again rests in HELD with cause LATCH (R137). -/
theorem Channel.unlatched_latched {ch : Channel} (h : ch.state = .held) (hc : ch.cause = some .latch) :
    ch.unlatched.latched.state = .held ∧ ch.unlatched.latched.cause = some .latch ∧ ch.unlatched.latched.AtRest := by
  have freed : ch.unlatched = { ch.forced with state := .manual, cause := none } := if_pos ⟨h, hc⟩
  rw [freed, Channel.latched_driven (.inl rfl)]
  exact ⟨rfl, rfl, rfl, rfl, rfl, rfl, rfl⟩

/-- Settles O25: a RELEASE is refused, clears, or clears and latches again by the persisting cause. -/
theorem releaseFramesClearTheLatch : Obligations.ReleaseFramesClearTheLatch := by
  refine ⟨fun s t source st hh hs hu => ?frame, fun s => ⟨fun hn => ?unset, fun st hs => ⟨fun i hi hfirst hl => ?halt,
    fun hn => ⟨fun k cv hk hcv hf => ?chamber, fun hf => ?free⟩⟩⟩⟩
  case frame =>
    have handed : exec (.releaseFrame t source) s = .next ((s.heard t).takeRelease (stationOf source)) :=
      State.event_hears_unwatched hh t rfl hu _
    refine ⟨fun hn => ?_, fun hw hsrc hset hl => ?_⟩
    · rw [handed, State.takeRelease_refused (s := s.heard t) hs hn]
    · have belt := (State.BeltFollows.takeRelease (s.heard t) (stationOf source)).1
      rw [State.takeRelease_clears (s := s.heard t) hs hw hsrc hset hl] at handed belt
      rw [show (s.heard t).persistingCause = s.persistingCause from rfl] at handed belt
      refine ⟨_, handed, ?_⟩
      cases hp : s.persistingCause with
      | none =>
        rw [hp] at belt
        exact ⟨rfl, rfl, rfl, rfl, belt, fun _ => ⟨State.ChannelsResume.of_unlatched rfl rfl, rfl⟩, nofun⟩
      | some x =>
        obtain ⟨cause, detail⟩ := x
        rw [hp] at belt
        have raised := State.raiseCause_clear (s.heard t).released cause detail hw rfl
        simp only [Option.elim] at belt ⊢
        rw [raised] at belt ⊢
        refine ⟨rfl, rfl, rfl, rfl, belt, nofun, fun c d e => ?_⟩
        cases e
        refine ⟨rfl, rfl, fun c hc hcause => ?_⟩
        cases c with
        | a => exact Channel.unlatched_latched hc hcause
        | b => exact Channel.unlatched_latched hc hcause
  case unset => simp [State.persistingCause, hn]
  case halt => exact State.persistingCause_halt hs (Settings.inputOf_eq_some.mpr ⟨hi, hfirst⟩) hl
  case chamber =>
    rw [State.persistingCause_chamber hs hn, hk]
    simp [hf, alarmDetail, hcv, detailByte]
  case free =>
    rw [State.persistingCause_chamber hs hn]
    cases hk : s.conveyor with
    | none => rfl
    | some k => simp [hf k hk]

end Sys2Proof.Machine
end

section
/-! The frame watches (7.5) and the number clash (R158). -/

namespace Sys2Proof.Machine

/-! ### Which frames a watch fits (R146) -/

/-- A watch fits where every byte under a nonzero mask lies within the frame and agrees (R146). -/
theorem Watch.fits_iff (w : Watch) (window : List Byte) : w.fits window = true ↔
    ∀ (i : Nat) (mask pattern : Byte), w.mask[i]? = some mask → w.pattern[i]? = some pattern → mask ≠ 0 →
      ∃ b, window[i]? = some b ∧ b &&& mask = pattern &&& mask := by
  have place (i : Nat) (mask pattern : Byte) : (((mask, pattern), i) ∈ (w.mask.zip w.pattern).zipIdx) ↔
      w.mask[i]? = some mask ∧ w.pattern[i]? = some pattern := by
    rw [List.mk_mem_zipIdx_iff_getElem?, List.getElem?_zip_eq_some]
  have agrees (i : Nat) (mask pattern : Byte) : (mask == 0 || match window[i]? with
      | some b => (b &&& mask) == (pattern &&& mask)
      | none => false) = true ↔ (mask ≠ 0 → ∃ b, window[i]? = some b ∧ b &&& mask = pattern &&& mask) := by
    cases window[i]? with
    | none => simp
    | some b => simp [or_iff_not_imp_left]
  unfold Watch.fits
  rw [List.all_eq_true]
  refine ⟨fun h i mask pattern hm hp => (agrees i mask pattern).mp (h _ ((place i mask pattern).mpr ⟨hm, hp⟩)), ?_⟩
  rintro h ⟨⟨mask, pattern⟩, i⟩ hx
  obtain ⟨hm, hp⟩ := (place i mask pattern).mp hx
  exact (agrees i mask pattern).mpr (h i mask pattern hm hp)

/-- A watched frame is TYPE, SOURCE, LENGTH and the payload (R146). -/
theorem WireFrame.window_getElem (f : WireFrame) : f.window[0]? = some f.typ ∧ f.window[1]? = some f.source ∧
    f.window[2]? = some (BitVec.ofNat 8 f.payload.length) ∧ ∀ i, f.window[3 + i]? = f.payload[i]? := by
  refine ⟨rfl, rfl, rfl, fun i => ?_⟩
  rw [Nat.add_comm]
  rfl

/-- Every watch of an image has twelve mask and twelve pattern bytes (10.2). -/
theorem settingsOf_watch_length (m : Memory) (n : Fin 4) :
    (settingsOf m).watches[n].mask.length = 12 ∧ (settingsOf m).watches[n].pattern.length = 12 := by
  fin_cases n
  all_goals exact ⟨by simp [settingsOf, watchDef], by simp [settingsOf, watchDef]⟩

/-! ### The belt-hold window (R148) -/

/-- A watch that does not open the window leaves it. -/
theorem State.runWatch_window (w : State) (n : Fin 4) {x : Watch} {f : WireFrame}
    (h : ∀ ms, x.action = .beltHold ms → x.fits f.window = false) : (w.runWatch n x f).beltHold = w.beltHold := by
  unfold State.runWatch
  split
  · rfl
  · split
    · simp
    · rfl
  · rename_i ms hx
    rw [if_neg (by simp [h ms hx])]

/-- A BELT_HOLD watch that fits opens it from the clock of the match. -/
theorem State.runWatch_opens {w : State} {n : Fin 4} {x : Watch} {f : WireFrame} {ms : Nat}
    (hx : x.action = .beltHold ms) (hf : x.fits f.window = true) :
    (w.runWatch n x f).beltHold = some (after w.clock ms) := by
  unfold State.runWatch
  rw [hx]
  exact congrArg State.beltHold (if_pos hf)

theorem State.runWatch_clock (w : State) (n : Fin 4) (x : Watch) (f : WireFrame) : (w.runWatch n x f).clock = w.clock := by
  simp [State.clock]

/-- The last fitting BELT_HOLD watch decides (R148). -/
theorem State.runWatches_opens {w : State} {st : Settings} {f : WireFrame} {n : Fin 4} {ms : Nat} (hw : w.atWork)
    (hs : w.settings = some st) (hn : st.watches[n].action = .beltHold ms) (hf : st.watches[n].fits f.window = true)
    (hm : ∀ m : Fin 4, n < m → ∀ x, st.watches[m].action = .beltHold x → st.watches[m].fits f.window = false) :
    (w.runWatches f).beltHold = some (after w.clock ms) := by
  unfold State.runWatches
  rw [if_pos hw, State.withSettings_of hs]
  match n with
  | 0 =>
    rw [State.runWatch_window _ 3 (x := st.watches[3]) (hm 3 (by decide)),
      State.runWatch_window _ 2 (x := st.watches[2]) (hm 2 (by decide)),
      State.runWatch_window _ 1 (x := st.watches[1]) (hm 1 (by decide)),
      State.runWatch_opens (x := st.watches[0]) hn hf]
  | 1 =>
    rw [State.runWatch_window _ 3 (x := st.watches[3]) (hm 3 (by decide)),
      State.runWatch_window _ 2 (x := st.watches[2]) (hm 2 (by decide)),
      State.runWatch_opens (x := st.watches[1]) hn hf, State.runWatch_clock]
  | 2 =>
    rw [State.runWatch_window _ 3 (x := st.watches[3]) (hm 3 (by decide)),
      State.runWatch_opens (x := st.watches[2]) hn hf, State.runWatch_clock, State.runWatch_clock]
  | 3 =>
    rw [State.runWatch_opens (x := st.watches[3]) hn hf, State.runWatch_clock, State.runWatch_clock,
      State.runWatch_clock]

/-- Settles O11: only the watches run at a STATUS or a SERVICE_REPLY, and what they do is their own rules. -/
theorem watchesAloneSeeStatusFrames : Obligations.WatchesAloneSeeStatusFrames := by
  have status {s : State} {source : Byte} (hh : s.hears source) (t : Nat) (payload : Vector Byte 20) :
      exec (.statusFrame t source payload) s = .next ((s.heard t).runWatches (statusWire source payload.toList)) :=
    State.event_hears hh t (statusWire source payload.toList) rfl id
  refine ⟨⟨fun s t source payload hh hu => ?status, fun s t source st row data hh hu => ?reply⟩,
    fun s t source payload hh => ⟨fun hw => ?rest, fun hl => ?latched⟩,
    fun s t source payload st n hh hw hs hf => ⟨fun hn hl hm => ?latch, fun window hn hm => ?hold⟩,
    Watch.fits_iff, WireFrame.window_getElem, settingsOf_watch_length⟩
  case status => exact State.event_hears_unwatched hh t rfl hu id
  case reply => exact State.event_hears_unwatched hh t rfl hu id
  case rest => rw [status hh, State.runWatches_rest (show ¬ (s.heard t).atWork from hw)]
  case latched =>
    obtain ⟨b, e⟩ := State.runWatches_latched (s.heard t) (statusWire source payload.toList) hl
    exact ⟨_, status hh t payload, by rw [e]⟩
  case latch =>
    obtain ⟨b, e⟩ := State.runWatches_latch (w := s.heard t) n hw hl hs hn hf hm
    obtain ⟨latch, belt, channels, frame⟩ := State.raiseCause_halts (s.heard t) (watchCause n)
      (sourceByte (stationOf source)) hw hl
    refine ⟨_, status hh t payload, ?_⟩
    rw [e]
    refine ⟨latch, belt, channels, ?_⟩
    have frame' := congrArg (fun u : State => { u with beltHold := b }) frame
    exact frame'
  case hold =>
    refine ⟨_, status hh t payload, State.runWatches_opens (w := s.heard t) hw hs hn hf hm, ?_⟩
    simp [State.heard]

end Sys2Proof.Machine
end

section
/-! The number clash (R116, R158): the frame at the watches, the bus and its faults, then both channels to OFF. -/

namespace Sys2Proof.Machine

/-! ### A channel's OFF, field by field (R95, R116) -/

/-- A channel as its OFF leaves it. -/
def Channel.offed (ch : Channel) : Channel :=
  if ch.state = .off then ch
  else { ch.forced with state := .off, cause := none, fault := none, resumeTimer := none }

/-- What the latch takes from a channel, its OFF takes as well. -/
theorem Channel.latched_offed (ch : Channel) : ch.latched.offed = ch.offed := by
  unfold Channel.latched
  split
  · rename_i h
    simp [Channel.offed, Channel.silence, Channel.forced, h]
  · rename_i h
    simp [Channel.offed, Channel.silence, Channel.forced, h]
  · rename_i h _
    simp [Channel.offed, Channel.silence, Channel.forced, h]
  · rfl

theorem Channel.latched_off (ch : Channel) : ch.latched.state = .off ↔ ch.state = .off := by
  unfold Channel.latched
  split
  · rename_i h
    simp [h]
  · rename_i h
    simp [h]
  · rename_i h _
    simp [h]
  · rfl

section
variable (s : State) (c d : ChannelId)

theorem State.channelOff_channel : (s.channelOff c).channel d = if d = c then (s.channel c).offed else s.channel d := by
  by_cases h : (s.channel c).state = .off
  · have stands : s.channelOff c = s := if_pos h
    rw [stands, Channel.offed, if_pos h]
    split
    · rename_i hd
      rw [hd]
    · rfl
  · have e := congrArg (fun w : State => w.channel d) (State.channelOff_enters h).2
    rw [Channel.offed, if_neg h]
    refine e.trans (Eq.trans ?_ (State.setChannel_channel s c _ d))
    cases d <;> rfl

theorem State.channelOff_converter : (s.channelOff c).converter =
    if (s.channel c).state = .off then s.converter else s.converter.withRequest c none := by
  by_cases h : (s.channel c).state = .off
  · rw [if_pos h, State.channelOff, if_pos h]
  · rw [if_neg h]
    exact congrArg State.converter (State.channelOff_enters h).2

end

theorem State.channelOff_marks {s : State} {c : ChannelId} (h : (s.channel c).state ≠ .off) :
    (s.channelOff c).line.control.status = true :=
  congrArg (fun w : State => w.line.control.status) (State.channelOff_enters h).2

theorem State.channelOff_marked {s : State} (h : s.line.control.status = true) (c : ChannelId) :
    (s.channelOff c).line.control.status = true := by
  by_cases hc : (s.channel c).state = .off
  · rwa [State.channelOff, if_pos hc]
  · exact State.channelOff_marks hc

/-- Where the channels' faults and the collection agree, a channel's OFF takes both its coil codes away. -/
theorem State.channelOff_faults {s : State} (h : s.CoilFaultsWf) (c : ChannelId) :
    (s.channelOff c).faults = s.faults.filter fun f => decide (f ∉ [coilCode c .coilOpen, coilCode c .coilShort]) := by
  obtain ⟨standing, codes⟩ := h c
  by_cases hoff : (s.channel c).state = .off
  · have none : (s.channel c).fault = none := by
      by_contra hf
      exact absurd ((standing.mp hf).symm.trans hoff) (by decide)
    rw [State.channelOff, if_pos hoff]
    refine (List.filter_eq_self.mpr fun f hf => ?_).symm
    have absent (x : CoilFault) : f ≠ coilCode c x := by
      rintro rfl
      exact absurd ((codes x).mp hf) (by simp [none])
    simp [absent]
  · refine (congrArg State.faults (State.channelOff_enters hoff).2).trans ?_
    show s.faultsWithoutCoil c = _
    unfold State.faultsWithoutCoil
    split
    · rename_i g hg
      refine List.filter_congr fun f hf => ?_
      have only (x : CoilFault) : f = coilCode c x → x = g := by
        rintro rfl
        exact Option.some.inj (((codes x).mp hf).symm.trans hg)
      cases g with
      | coilOpen =>
        have other : f ≠ coilCode c .coilShort := fun e => absurd (only _ e) (by decide)
        by_cases e : f = coilCode c .coilOpen
        · simp [e]
        · simp [e, other]
      | coilShort =>
        have other : f ≠ coilCode c .coilOpen := fun e => absurd (only _ e) (by decide)
        by_cases e : f = coilCode c .coilShort
        · simp [e]
        · simp [e, other]
    · rename_i hg
      refine (List.filter_eq_self.mpr fun f hf => ?_).symm
      have absent (x : CoilFault) : f ≠ coilCode c x := by
        rintro rfl
        exact absurd ((codes x).mp hf) (by simp [hg])
      simp [absent]

/-! ### The frame at the watches -/

/-- At any frame a CLEAR latch stays CLEAR, or the first matching LATCH watch raises its cause; the belt-hold window aside
nothing else moves (R147, R148). -/
theorem State.runWatches_cases (w : State) (f : WireFrame) : ∃ b, w.runWatches f = { w with beltHold := b } ∨
    (w.atWork ∧ w.latch = none ∧ ∃ n : Fin 4,
      w.runWatches f = { w.raiseCause (watchCause n) (sourceByte (stationOf f.source)) with beltHold := b }) := by
  by_cases hl : w.latch = none
  case neg =>
    obtain ⟨b, e⟩ := State.runWatches_latched w f hl
    exact ⟨b, .inl e⟩
  by_cases hw : w.atWork
  case neg => exact ⟨_, .inl (State.runWatches_rest hw f)⟩
  obtain hs | ⟨st, hs⟩ := Option.eq_none_or_eq_some w.settings
  · have unset : w.runWatches f = w := by simp [State.runWatches, State.withSettings, hs]
    exact ⟨w.beltHold, .inl unset⟩
  · let latching : Set (Fin 4) := { n | st.watches[n].action = .latch ∧ st.watches[n].fits f.window = true }
    by_cases hany : latching.Nonempty
    · obtain ⟨n, ⟨hn, hf⟩, first⟩ := WellFounded.has_min (wellFounded_lt (α := Fin 4)) latching hany
      obtain ⟨b, e⟩ := State.runWatches_latch n hw hl hs hn hf fun m hm ha =>
        Bool.eq_false_iff.mpr fun hmf => first m ⟨ha, hmf⟩ hm
      exact ⟨b, .inr ⟨hw, hl, n, e⟩⟩
    · have others (n : Fin 4) : st.watches[n].action = .latch → st.watches[n].fits f.window = false := fun ha =>
        Bool.eq_false_iff.mpr fun hf => hany ⟨n, ha, hf⟩
      refine (Exists.imp fun _ => .inl) ?_
      unfold State.runWatches
      rw [if_pos hw, State.withSettings_of hs]
      obtain ⟨x, e⟩ := State.runWatch_other w 0 st.watches[0] f (others 0)
      rw [e]
      obtain ⟨y, e⟩ := State.runWatch_other { w with beltHold := x } 1 st.watches[1] f (others 1)
      rw [e]
      obtain ⟨z, e⟩ := State.runWatch_other { w with beltHold := y } 2 st.watches[2] f (others 2)
      rw [e]
      exact State.runWatch_other { w with beltHold := z } 3 st.watches[3] f (others 3)

/-- What the watches leave for a clash: each channel stands or is latched, a channel in OFF keeps its waiting check, and
of the converter only waiting checks go. -/
structure State.Watched (s w : State) : Prop where
  offed : ∀ x, (w.channel x).offed = (s.channel x).offed
  off : ∀ x, (w.channel x).state = .off ↔ (s.channel x).state = .off
  request : ∀ x, (s.channel x).state = .off → w.channel x = s.channel x ∧ w.converter.request x = s.converter.request x
  converter : w.converter =
    { s.converter with requestA := w.converter.requestA, requestB := w.converter.requestB }

theorem State.runWatches_watched (w : State) (f : WireFrame) : w.Watched (w.runWatches f) := by
  obtain ⟨b, e | ⟨hw, hl, n, e⟩⟩ := State.runWatches_cases w f
  · rw [e]
    exact ⟨fun x => by cases x <;> rfl, fun x => by cases x <;> rfl, fun x _ => by cases x <;> exact ⟨rfl, rfl⟩, rfl⟩
  · obtain ⟨-, -, halts, -⟩ := State.raiseCause_halts w (watchCause n) (sourceByte (stationOf f.source)) hw hl
    have raised := State.raiseCause_clear w (watchCause n) (sourceByte (stationOf f.source)) hw hl
    have channels (x : ChannelId) : (w.runWatches f).channel x = (w.channel x).latched := by
      rw [e, raised]
      cases x <;> rfl
    refine ⟨fun x => ?_, fun x => ?_, fun x hx => ?_, ?_⟩
    · rw [channels, Channel.latched_offed]
    · rw [channels, Channel.latched_off]
    · refine ⟨by rw [channels, Channel.latched_resting (.inl hx)], ?_⟩
      rw [e]
      exact ((halts x).2 (.inl hx)).2
    · rw [e, raised]
      exact Converter.latched_twice w.converter w.chanA w.chanB

/-! ### The bus and its faults -/

/-- The station once a clash has muted the bus, before the channels go to OFF (R158). -/
def State.clashMuted (s : State) : State :=
  (if s.line.bus = .mutedTimed then s.endMute .mutedClash
    else { s with line := { s.line with bus := .mutedClash } }).addFault .numberClash

theorem State.numberClash_eq {s : State} (h : s.line.bus ≠ .mutedClash) :
    s.numberClash = (s.clashMuted.channelOff .a).channelOff .b := if_neg h

/-- The faults a clash finds standing: without ECHO_MUTE in a timed mute (R162). -/
def State.standingFaults (s : State) : List FaultCode :=
  if s.line.bus = .mutedTimed then s.faults.filter (· != .echoMute) else s.faults

theorem State.mem_standingFaults (s : State) : .numberClash ∈ s.standingFaults ↔ .numberClash ∈ s.faults := by
  unfold State.standingFaults
  split
  · simp
  · rfl

/-- Of the station a clash reaches the fault collection and the line before the channels. -/
theorem State.clashMuted_eq (s : State) : ∃ line, s.clashMuted = { s with
    faults := if .numberClash ∈ s.faults then s.standingFaults else s.standingFaults ++ [.numberClash], line := line } ∧
    line.bus = .mutedClash ∧ (s.line.bus = .mutedTimed → line.muteTimer = none ∧ line.echoRun = 0) := by
  unfold State.clashMuted
  simp only [← State.mem_standingFaults]
  unfold State.standingFaults
  by_cases hb : s.line.bus = .mutedTimed
  · rw [if_pos hb, if_pos hb, State.endMute, State.removeFault_eq, State.addFault_eq]
    dsimp only
    split
    · refine ⟨_, rfl, ?_⟩
      split
      · exact ⟨rfl, fun _ => ⟨rfl, rfl⟩⟩
      · exact ⟨rfl, fun _ => ⟨rfl, rfl⟩⟩
    · refine ⟨_, rfl, ?_⟩
      split
      · exact ⟨rfl, fun _ => ⟨rfl, rfl⟩⟩
      · exact ⟨rfl, fun _ => ⟨rfl, rfl⟩⟩
  · rw [if_neg hb, if_neg hb, State.addFault_eq]
    dsimp only
    split
    · exact ⟨_, rfl, rfl, fun h => absurd h hb⟩
    · exact ⟨_, rfl, rfl, fun h => absurd h hb⟩

/-! ### The clash -/

section
variable {s w : State} (hb : w.line.bus ≠ .mutedClash)
include hb

theorem State.numberClash_channel (x : ChannelId) : w.numberClash.channel x = (w.channel x).offed := by
  obtain ⟨line, e, -⟩ := w.clashMuted_eq
  rw [State.numberClash_eq hb, e, State.channelOff_channel, State.channelOff_channel, State.channelOff_channel]
  cases x <;> rfl

theorem State.numberClash_converter : w.numberClash.converter =
    let k := if w.chanA.state = .off then w.converter else w.converter.withRequest .a none
    if w.chanB.state = .off then k else k.withRequest .b none := by
  obtain ⟨line, e, -⟩ := w.clashMuted_eq
  rw [State.numberClash_eq hb, e, State.channelOff_converter, State.channelOff_converter, State.channelOff_channel]
  rfl

theorem State.numberClash_status {x : ChannelId} (hx : (w.channel x).state ≠ .off) :
    w.numberClash.line.control.status = true := by
  obtain ⟨line, e, -⟩ := w.clashMuted_eq
  have same (c : ChannelId) : w.clashMuted.channel c = w.channel c := by rw [e]; cases c <;> rfl
  rw [State.numberClash_eq hb]
  cases x with
  | a => exact State.channelOff_marked (State.channelOff_marks (by rwa [same])) .b
  | b =>
    refine State.channelOff_marks ?_
    rwa [State.channelOff_channel, if_neg (by decide), same]

theorem State.numberClash_bus : w.numberClash.line.bus = .mutedClash ∧
    (w.line.bus = .mutedTimed → w.numberClash.line.muteTimer = none ∧ w.numberClash.line.echoRun = 0) := by
  obtain ⟨line, e, bus, timed⟩ := w.clashMuted_eq
  have core : w.numberClash.line.core = line.core := by
    rw [State.numberClash_eq hb, e, State.channelOff_core, State.channelOff_core]
  obtain ⟨hbus, -, -, hrun, htimer, -⟩ := Line.core_fields core
  rw [hbus, hrun, htimer]
  exact ⟨bus, timed⟩

/-- A clash adds NUMBER_CLASH, and ends the timed mute's fault. -/
theorem State.numberClash_busFaults : .numberClash ∈ w.numberClash.faults ∧
    (w.line.bus = .mutedTimed → .echoMute ∉ w.numberClash.faults) := by
  obtain ⟨line, e, -⟩ := w.clashMuted_eq
  have same : SameBusFaults w.numberClash w.clashMuted := by
    rw [State.numberClash_eq hb]
    exact (SameBusFaults.channelOff _ _).trans (SameBusFaults.channelOff _ _)
  rw [same _ rfl, same _ rfl, e]
  dsimp only
  split
  · rename_i h
    exact ⟨w.mem_standingFaults.mpr h, fun ht => by simp [State.standingFaults, ht]⟩
  · exact ⟨by simp, fun ht => by simp [State.standingFaults, ht]⟩

/-- Where channels and collection agree, a clash takes every coil code. -/
theorem State.numberClash_faults (h : w.CoilFaultsWf) : w.numberClash.faults =
    (if .numberClash ∈ w.faults then w.standingFaults else w.standingFaults ++ [.numberClash]).filter fun f =>
      decide (f ∉ [FaultCode.coilOpenA, .coilShortA, .coilOpenB, .coilShortB]) := by
  have muted : w.clashMuted.CoilFaultsWf := by
    unfold State.clashMuted
    refine State.CoilFaultsWf.addFault ?_ (by decide)
    split
    · exact h.endMute _
    · exact h.same rfl rfl rfl
  obtain ⟨line, e, -⟩ := w.clashMuted_eq
  rw [State.numberClash_eq hb, State.channelOff_faults (muted.channelOff .a), State.channelOff_faults muted, e,
    List.filter_filter]
  refine List.filter_congr fun f _ => ?_
  cases f <;> rfl

end

/-- A frame bearing the own number is tested by the watches and then is a clash (R157, R158). -/
theorem State.event_own {s : State} {f : WireFrame} (hrun : s.runs) (hcol : s.collecting)
    (ho : stationOf f.source = s.number) (t : Nat) (handOn : State → State) :
    s.event t (fun w => w.arrive f handOn) = .next ((s.heard t).runWatches f).numberClash := by
  rw [State.event_run hrun]
  unfold State.arrive
  rw [if_pos (show (s.tick t).collecting from hcol)]
  exact congrArg _ (if_pos ho)

/-- Whatever command brings the frame. -/
theorem exec_own {s : State} {c : Instr} {source : Byte} (hc : c.frameSource = some source) (hwf : c.wellFormed = true)
    (hrun : s.runs) (hcol : s.collecting) (ho : stationOf source = s.number) : ∃ t f, f.source = source ∧
      exec c s = .next ((s.heard t).runWatches f).numberClash := by
  cases c
  case publishFrame t src samples =>
    cases hc
    refine ⟨t, publishWire source samples, rfl, ?_⟩
    show execPublishFrame t source samples s = _
    simp only [execPublishFrame, of_decide_eq_true hwf, and_self, if_true]
    exact State.event_own hrun hcol ho t _
  case serviceBadCommand t h code data =>
    cases hc
    exact ⟨t, serviceWire h code (rowBytes data), rfl,
      (exec_serviceBadCommand hwf s).trans (State.event_own hrun hcol ho t _)⟩
  all_goals cases hc
  all_goals exact ⟨_, _, rfl, State.event_own hrun hcol ho _ _⟩

/-- Settles O12: the watches first, then what `numberClash` leaves of bus, faults and channels. -/
theorem ownNumberOnTheLineIsAClash : Obligations.OwnNumberOnTheLineIsAClash := by
  intro s c source hc hwf hrun hcol ho hbus
  obtain ⟨t, f, hf, e⟩ := exec_own hc hwf hrun hcol ho
  generalize hw : (s.heard t).runWatches f = w at e
  obtain ⟨offed, off, request, converter⟩ : s.Watched w := by
    obtain ⟨offed, off, request, converter⟩ := State.runWatches_watched (s.heard t) f
    rw [hw] at offed off request converter
    exact ⟨offed, off, request, converter⟩
  have faults : w.faults = s.faults := by simp [← hw, State.heard]
  have bus : w.line.bus = s.line.bus := by
    rw [← hw]
    exact (Line.core_fields (State.runWatches_core (s.heard t) f)).1
  have hb : w.line.bus ≠ .mutedClash := bus ▸ hbus
  have standing : w.standingFaults =
      if s.line.bus = .mutedTimed then s.faults.filter (· != .echoMute) else s.faults := by
    rw [State.standingFaults, bus, faults]
  have kept : s.KeepsConveyor w.numberClash := by
    rw [← hw]
    exact ((State.BeltFollows.runWatches (s.heard t) f).trans (State.BeltFollows.numberClash _)).1
  have latches := State.runWatches_cases (s.heard t) f
  rw [hw] at latches
  refine ⟨_, e, (State.numberClash_bus hb).1, (State.numberClash_busFaults hb).1, fun ht => ?timed, fun hcf => ?codes,
    fun x hx => ?resting, fun x hx => ?driven, ?converter, fun hn => ?idle, fun r hr => ?latched, fun hl => ?clear,
    ?table, ?store, ?station, kept⟩
  case timed =>
    have hm : w.line.bus = .mutedTimed := bus.trans ht
    obtain ⟨timer, run⟩ := (State.numberClash_bus hb).2 hm
    exact ⟨timer, run, (State.numberClash_busFaults hb).2 hm⟩
  case codes =>
    have coils : w.CoilFaultsWf := by
      rw [← hw]
      exact State.CoilFaultsWf.runWatches (s := s.heard t) (hcf.same rfl rfl rfl) f
    rw [State.numberClash_faults hb coils, standing, faults]
  case resting =>
    obtain ⟨channel, asked⟩ := request x hx
    have stays : (w.channel x).state = .off := (off x).mpr hx
    refine ⟨by rw [State.numberClash_channel hb, channel, Channel.offed, if_pos hx], ?_⟩
    rw [State.numberClash_converter hb, ← asked]
    cases x with
    | a =>
      rw [if_pos (show w.chanA.state = .off from stays)]
      dsimp only
      split
      · rfl
      · rfl
    | b =>
      rw [if_pos (show w.chanB.state = .off from stays)]
      split
      · rfl
      · rfl
  case driven =>
    have leaves : (w.channel x).state ≠ .off := fun h => hx ((off x).mp h)
    refine ⟨?_, State.numberClash_status hb leaves, ?_⟩
    · rw [State.numberClash_converter hb]
      cases x with
      | a =>
        rw [if_neg (show ¬ w.chanA.state = .off from leaves)]
        dsimp only
        split
        · rfl
        · rfl
      | b =>
        rw [if_neg (show ¬ w.chanB.state = .off from leaves)]
        rfl
    · rw [State.numberClash_channel hb, offed, Channel.offed, if_neg hx]
  case converter =>
    rw [State.numberClash_converter hb]
    dsimp only
    rw [converter]
    split
    · split
      · rfl
      · rfl
    · split
      · rfl
      · rfl
  case idle =>
    rw [← hw, State.runWatches_rest (show ¬ (s.heard t).atWork from hn)]
    simp [State.heard]
  case latched =>
    obtain ⟨b, rfl | ⟨-, hl, -⟩⟩ := latches
    · simpa [State.heard] using hr
    · exact absurd (hr.symm.trans hl) (by simp)
  case clear =>
    obtain ⟨b, rfl | ⟨hwork, hfree, n, rfl⟩⟩ := latches
    · exact .inl (by simpa [State.heard] using hl)
    · refine .inr ⟨n, ?_⟩
      rw [← hf]
      simp only [State.numberClash_fields]
      exact (State.raiseCause_halts (s.heard t) (watchCause n) (sourceByte (stationOf f.source)) hwork hfree).1
  case table => simp [← hw, State.heard]
  case store => simp [← hw, State.heard]
  case station => simp [← hw, State.heard]

end Sys2Proof.Machine
end

section
/-! Acceptance: the paths of a sample, what taking it does to the table, and the two hand-overs (1.3, 1.4). -/

namespace Sys2Proof.Machine

/-! ### The paths (R5 to R13) -/

section
variable {s : State} {source : BitVec 4} {r : RawSample} {st : Settings} {d : QuantityDef}

theorem State.acceptSample_unheard (hs : s.settings = some st)
    (h : source = 0 ∨ st.listen.getLsbD source.toNat = false) : s.acceptSample source r = s := by
  have outside : inSet st.listen source = false := by
    obtain h | h := h
    · simp [inSet, h]
    · simp [inSet, h]
  unfold State.acceptSample
  rw [State.withSettings_of hs, outside]
  rfl

theorem State.acceptSample_unwanted (hs : s.settings = some st) (hf : s.table.find (r.keyFrom source) = none)
    (hw : st.wants (r.keyFrom source) = false) : s.acceptSample source r = s := by
  unfold RawSample.keyFrom at hf hw
  unfold State.acceptSample
  rw [State.withSettings_of hs]
  split
  · split
    · rw [hf]
      dsimp only
      rw [hw]
      rfl
    · rfl
  · rfl

variable (ha : s.admits source r st d)
include ha

theorem State.acceptSample_known {e : Entry} (hf : s.table.find (r.keyFrom source) = some e) :
    s.acceptSample source r = s.updatePath st d e r := by
  obtain ⟨hs, hset, hq⟩ := ha
  unfold RawSample.keyFrom at hf
  unfold State.acceptSample
  rw [State.withSettings_of hs, if_pos hset, hq]
  dsimp only
  rw [hf]

theorem State.acceptSample_wanted (hf : s.table.find (r.keyFrom source) = none)
    (hw : st.wants (r.keyFrom source) = true) :
    s.acceptSample source r = s.createEntry st d (r.keyFrom source) r := by
  obtain ⟨hs, hset, hq⟩ := ha
  unfold RawSample.keyFrom at *
  unfold State.acceptSample
  rw [State.withSettings_of hs, if_pos hset, hq]
  dsimp only
  rw [hf]
  exact if_pos hw

end

section
variable {s : State} {st : Settings} {d : QuantityDef} {e : Entry} {r : RawSample}

/-- A VACANT or EXPIRED entry resynchronises (R11). -/
theorem State.updatePath_renews (h : e.state = .vacant ∨ e.state = .expired) :
    s.updatePath st d e r = s.takeSample st d e true r := by
  unfold State.updatePath
  obtain h | h := h
  · rw [h]
  · rw [h]

section
variable {last : Byte} (h : e.state = .fresh ∨ e.state = .aged) (hl : e.lastSeq = some last)
include h hl

theorem State.updatePath_judged : s.updatePath st d e r =
    if sequenceDistance r last = 0 then s
    else if sequenceDistance r last ≤ 127 then
      ({ s with table := { s.table with gaps := saturate s.table.gaps (sequenceDistance r last - 1) } }).takeSample st d e
        false r
    else if e.staleRun = some 2 then s.takeSample st d e true r
    else s.updateEntry e.key fun e => { e with staleRun := e.staleRun.map (· + 1) } := by
  unfold State.updatePath
  rw [hl]
  obtain h | h := h
  · rw [h]
    rfl
  · rw [h]
    rfl

theorem State.updatePath_duplicate (h0 : sequenceDistance r last = 0) : s.updatePath st d e r = s := by
  rw [State.updatePath_judged h hl, if_pos h0]

theorem State.updatePath_next (h1 : 1 ≤ sequenceDistance r last) (h2 : sequenceDistance r last ≤ 127) :
    s.updatePath st d e r =
      ({ s with table := { s.table with gaps := min (s.table.gaps + (sequenceDistance r last - 1)) 65535 } }).takeSample
        st d e false r := by
  rw [State.updatePath_judged h hl, if_neg (by omega), if_pos h2]
  rfl

theorem State.updatePath_third (h1 : 128 ≤ sequenceDistance r last) (h2 : e.staleRun = some 2) :
    s.updatePath st d e r = s.takeSample st d e true r := by
  rw [State.updatePath_judged h hl, if_neg (by omega), if_neg (by omega), if_pos h2]

theorem State.updatePath_stale (h1 : 128 ≤ sequenceDistance r last) (h2 : e.staleRun ≠ some 2) :
    s.updatePath st d e r = s.updateEntry e.key fun e => { e with staleRun := e.staleRun.map (· + 1) } := by
  rw [State.updatePath_judged h hl, if_neg (by omega), if_neg (by omega), if_neg h2]

end

/-! ### The table after a sample is taken (R14) -/

theorem State.takeSample_table {b : Bool} :
    (s.takeSample st d e b r).table = s.table.update e.key fun _ => e.takeRemote d r s.clock := by
  simp [State.takeSample, State.updateEntry]

theorem State.takeSample_find {b : Bool} (j : Key) : (s.takeSample st d e b r).table.find j =
    if j = e.key then (s.table.find e.key).map fun _ => e.takeRemote d r s.clock else s.table.find j := by
  rw [State.takeSample_table, PeerTable.find_update _ _ _ fun _ _ => Entry.takeRemote_key e d r s.clock]

end

/-! ### The channels after a hand-over (R15, R16) -/

/-- A channel handed a new target (R74). -/
def Channel.handTarget (ch : Channel) (cd : ChannelDef) (code : BitVec 6) (v : Int) : Channel :=
  match cd.target with
  | .operator _ maxStep _ =>
    if cd.controls ∧ cd.role = targetRole code then { ch with target := ch.target.map fun x => x.newTarget cd maxStep v }
    else ch
  | _ => ch

/-- A channel handed a DEPTH_ACTION (R85). -/
def Channel.handAction (ch : Channel) (cd : ChannelDef) (code : Byte) : Channel :=
  match cd.target with
  | .operator _ _ height =>
    if cd.role = .depth ∧ code = 1 then { ch with target := ch.target.map fun x => x.lift cd height }
    else if cd.role = .depth ∧ code = 2 then { ch with target := ch.target.map TargetRecord.recall }
    else ch
  | _ => ch

/-- What is handed to channel A and then to channel B reaches each once. -/
theorem State.channel_of_both {hand : State → ChannelId → State} {change : ChannelId → Channel → Channel}
    (h : ∀ s c d, (hand s c).channel d = if d = c then change c (s.channel c) else s.channel d) (s : State) (c : ChannelId) :
    (hand (hand s .a) .b).channel c = change c (s.channel c) := by
  cases c with
  | a => rw [h, if_neg (by decide), h, if_pos rfl]
  | b => rw [h, if_pos rfl, h, if_neg (by decide)]

theorem State.setChannel_stands (s : State) (c : ChannelId) : s.setChannel c (s.channel c) = s := by cases c <;> rfl

theorem State.handTarget_eq (s : State) (st : Settings) (c : ChannelId) (code : BitVec 6) (v : Int) :
    s.handTarget st c code v = s.setChannel c ((s.channel c).handTarget (st.channel c) code v) := by
  unfold State.handTarget Channel.handTarget
  dsimp only
  cases (st.channel c).target with
  | operator key maxStep height =>
    dsimp only
    split
    · rfl
    · exact (s.setChannel_stands c).symm
  | derived g => exact (s.setChannel_stands c).symm
  | fixed v => exact (s.setChannel_stands c).symm

theorem State.handAction_eq (s : State) (st : Settings) (c : ChannelId) (code : Byte) :
    s.handAction st c code = s.setChannel c ((s.channel c).handAction (st.channel c) code) := by
  unfold State.handAction Channel.handAction
  dsimp only
  cases (st.channel c).target with
  | operator key maxStep height =>
    dsimp only
    split
    · rfl
    · split
      · rfl
      · exact (s.setChannel_stands c).symm
  | derived g => exact (s.setChannel_stands c).symm
  | fixed v => exact (s.setChannel_stands c).symm

/-- A hand-over of a target moves the target record alone. -/
theorem Channel.handTarget_eq (ch : Channel) (cd : ChannelDef) (code : BitVec 6) (v : Int) :
    ch.handTarget cd code v = { ch with target := (ch.handTarget cd code v).target } := by
  unfold Channel.handTarget
  split
  · split
    · rfl
    · rfl
  · rfl

section
variable {s : State} {st : Settings} {d : QuantityDef} {e : Entry} {r : RawSample}

theorem State.handTargets_none (first : Bool) (code : BitVec 6) : s.handTargets st d e first code none = s := rfl

theorem State.handTargets_channel (first : Bool) (code : BitVec 6) (v : Int) (c : ChannelId) :
    (s.handTargets st d e first code (some v)).channel c =
      if first ∨ e.value ≠ some (clamp v d.lo d.hi) then (s.channel c).handTarget (st.channel c) code (clamp v d.lo d.hi)
      else s.channel c := by
  unfold State.handTargets
  dsimp only [Option.map_some]
  split
  · exact State.channel_of_both (hand := fun w c => w.handTarget st c code (clamp v d.lo d.hi))
      (change := fun c ch => ch.handTarget (st.channel c) code (clamp v d.lo d.hi))
      (fun w c d => by rw [w.handTarget_eq, State.setChannel_channel]) s c
  · rfl

/-- At a first value an action is recorded without acting (R16). -/
theorem State.handActions_first (code : BitVec 6) (value : Option Int) : s.handActions st e true code value = s := by
  unfold State.handActions
  split
  · exact if_pos (.inl rfl)
  · rfl

/-- So at a first value the hand-over reaches target records alone (R9, R11, R13). -/
theorem State.handOver_first (c : ChannelId) :
    ((s.handOver st d e true r).channel c) = { s.channel c with target := ((s.handOver st d e true r).channel c).target } ∧
    s.handOver st d e true r =
      { s with chanA := (s.handOver st d e true r).chanA, chanB := (s.handOver st d e true r).chanB } := by
  unfold State.handOver
  dsimp only
  split
  · exact ⟨rfl, rfl⟩
  · split
    · refine ⟨?_, by apply State.eq_of_fields <;> simp⟩
      cases (RawSample.effective r).2 with
      | none => rw [State.handTargets_none]
      | some v =>
        rw [State.handTargets_channel]
        split
        · exact Channel.handTarget_eq _ _ _ _
        · rfl
    · rw [State.handActions_first, ite_self]
      exact ⟨rfl, rfl⟩

end

end Sys2Proof.Machine
end

section
/-! What acceptance does to the table (R7 to R14). -/

namespace Sys2Proof.Machine

/-- Settles O17: R14 case by case of the effective sample. -/
theorem takingASample : Obligations.TakingASample := by
  intro e d r clock
  refine ⟨rfl, rfl, rfl, rfl, rfl, rfl, rfl, rfl, fun hf => ?failed, fun q v hv => ?carried⟩
  case failed => simp [Entry.takeRemote, Entry.take, hf]
  case carried =>
    have q_ne := (RawSample.effective_carries hv).1
    cases q with
    | failed => exact absurd rfl q_ne
    | _ => simp [Entry.takeRemote, Entry.take, hv]

/-! ### A wanted sample without an entry (R9) -/

section
variable {s : State} {st : Settings} {d : QuantityDef} {k : Key} {r : RawSample} {p : PeerTable}

theorem State.createEntry_placed (hp : s.table.makeRoom s.clock = some p) : s.createEntry st d k r =
    ({ s with table := { p with entries := insertEntry (remoteEntry k) p.entries } }).takeSample st d (remoteEntry k) true
      r := by
  unfold State.createEntry
  rw [hp]

theorem State.createEntry_refused (hp : s.table.makeRoom s.clock = none) : s.createEntry st d k r =
    { s with table := { s.table with refusals := min (s.table.refusals + 1) 65535 } } := by
  unfold State.createEntry
  rw [hp]
  rfl

variable (hp : s.table.makeRoom s.clock = some p) (hn : ∀ e ∈ p.entries, e.key ≠ k)
include hp hn

/-- The new entry takes the sample; every other stands as the place found left it. -/
theorem State.createEntry_find (j : Key) : (s.createEntry st d k r).table.find j =
    if j = k then some ((remoteEntry k).takeRemote d r s.clock) else p.find j := by
  have inserted (i : Key) : PeerTable.find { p with entries := insertEntry (remoteEntry k) p.entries } i =
      if i = k then some (remoteEntry k) else p.find i := find_insertEntry (e := remoteEntry k) hn i
  rw [State.createEntry_placed hp, State.takeSample_find]
  split
  · rename_i hj
    rw [inserted, if_pos (show (remoteEntry k).key = k from rfl), if_pos (show j = k from hj)]
    rfl
  · rename_i hj
    rw [inserted, if_neg (show j ≠ k from hj), if_neg (show j ≠ k from hj)]

theorem State.createEntry_length : (s.createEntry st d k r).table.entries.length = p.entries.length + 1 := by
  rw [State.createEntry_placed hp, State.takeSample_table]
  simp only [PeerTable.update, List.length_map]
  exact insertEntry_length_new (e := remoteEntry k) hn

end

/-- Settles O15: an unheard or unwanted sample leaves no trace, and a wanted one has room and makes its entry. -/
theorem wantedSamplesCreateAnEntry : Obligations.WantedSamplesCreateAnEntry := by
  refine ⟨⟨fun s source r st hs h => State.acceptSample_unheard hs h,
    fun s source r st hs hf hw => State.acceptSample_unwanted hs hf hw⟩, fun s source r st d ha hf hw hlen => ?_⟩
  have place : s.table.makeRoom s.clock = some s.table := if_pos hlen
  have absent := PeerTable.find_none hf
  have found := State.createEntry_find (st := st) (d := d) (r := r) place absent
  rw [State.acceptSample_wanted ha hf hw]
  refine ⟨_, _, rfl, by rw [found, if_pos rfl], rfl, fun k hk => by rw [found, if_neg hk], ?_⟩
  rw [State.createEntry_placed place, State.takeSample]
  refine ⟨by simp [State.updateEntry, PeerTable.update], by simp [State.updateEntry, PeerTable.update], fun c => ?_, ?_⟩
  · rw [(State.handOver_first c).1]
    cases c <;> exact ⟨rfl, rfl⟩
  · refine (State.handOver_first .a).2.trans ?_
    simp [State.updateEntry]

/-! ### Eviction (R10) -/

/-- An entry that may be evicted. -/
def Entry.Evictable (e : Entry) : Prop := e.pinned = false ∧ e.state = .expired

/-- Of two entries the first goes before the second: expired longer, or as long under a lower key (R10). -/
def Entry.GoesBefore (v e : Entry) (clock : Clock) : Prop :=
  e.expiredFor clock < v.expiredFor clock ∨
    (e.expiredFor clock = v.expiredFor clock ∧ keyRank v.key < keyRank e.key)

/-- Among entries in key order the victim is the evictable one that goes before all others (R10). -/
theorem foldl_longerExpired (clock : Clock) (l : List Entry)
    (hl : l.Pairwise fun x y => keyRank x.key < keyRank y.key) :
    match l.foldl (longerExpired clock) none with
    | some v => v ∈ l ∧ v.Evictable ∧ ∀ e ∈ l, e.Evictable → e ≠ v → v.GoesBefore e clock
    | none => ∀ e ∈ l, ¬ e.Evictable := by
  induction l using List.reverseRecOn with
  | nil => simp
  | append_singleton xs x ih =>
    obtain ⟨hxs, -, before⟩ := List.pairwise_append.mp hl
    specialize ih hxs
    rw [List.foldl_append, List.foldl_cons, List.foldl_nil]
    generalize xs.foldl (longerExpired clock) none = best at ih ⊢
    by_cases hx : x.Evictable
    · cases best with
      | none =>
        rw [show longerExpired clock none x = some x from if_pos hx]
        refine ⟨by simp, hx, fun e he hev hne => ?_⟩
        obtain he | he := List.mem_append.mp he
        · exact absurd hev (ih e he)
        · exact absurd (List.mem_singleton.mp he) hne
      | some b =>
        obtain ⟨hb, hbe, first⟩ := ih
        rw [show longerExpired clock (some b) x = if b.expiredFor clock < x.expiredFor clock then some x else some b from
          if_pos hx]
        by_cases hlt : b.expiredFor clock < x.expiredFor clock
        · rw [if_pos hlt]
          refine ⟨by simp, hx, fun e he hev hne => .inl ?_⟩
          obtain he | he := List.mem_append.mp he
          · by_cases heb : e = b
            · rwa [heb]
            · obtain h | ⟨h, -⟩ := first e he hev heb
              · omega
              · omega
          · exact absurd (List.mem_singleton.mp he) hne
        · rw [if_neg hlt]
          refine ⟨List.mem_append_left _ hb, hbe, fun e he hev hne => ?_⟩
          obtain he | he := List.mem_append.mp he
          · exact first e he hev hne
          · rw [List.mem_singleton.mp he]
            have order : keyRank b.key < keyRank x.key := before b hb x (by simp)
            by_cases heq : x.expiredFor clock = b.expiredFor clock
            · exact .inr ⟨heq, order⟩
            · exact .inl (by omega)
    · rw [show longerExpired clock best x = best from if_neg hx]
      cases best with
      | none =>
        intro e he
        obtain he | he := List.mem_append.mp he
        · exact ih e he
        · rwa [List.mem_singleton.mp he]
      | some b =>
        obtain ⟨hb, hbe, first⟩ := ih
        refine ⟨List.mem_append_left _ hb, hbe, fun e he hev hne => ?_⟩
        obtain he | he := List.mem_append.mp he
        · exact first e he hev hne
        · exact absurd (List.mem_singleton.mp he ▸ hev) hx

/-- Taking one key out of a table without repeats leaves one entry fewer, and every other findable. -/
theorem PeerTable.without_find (p : PeerTable) (v : Key) (j : Key) :
    PeerTable.find { p with entries := p.entries.filter (·.key != v) } j = if j = v then none else p.find j := by
  unfold PeerTable.find
  rw [List.find?_filter]
  split
  · rename_i hj
    rw [List.find?_eq_none]
    intro e _
    simp [hj]
  · rename_i hj
    congr 1
    funext e
    by_cases he : e.key = j
    · simp [he, hj]
    · simp [he]

theorem PeerTable.without_length {p : PeerTable} (h : p.Wf) {v : Entry} (hv : v ∈ p.entries) :
    (p.entries.filter (·.key != v.key)).length + 1 = p.entries.length := by
  have nodup : (p.entries.map Entry.key).Nodup := by
    refine List.pairwise_map.mpr (h.1.imp fun {x y} hxy => ?_)
    exact fun e => absurd (e ▸ hxy) (lt_irrefl _)
  have once : (p.entries.map Entry.key).count v.key = 1 :=
    List.count_eq_one_of_mem nodup (List.mem_map.mpr ⟨v, hv, rfl⟩)
  rw [List.count_eq_countP, List.countP_map] at once
  have parts := List.length_eq_countP_add_countP (fun e : Entry => e.key == v.key) (l := p.entries)
  have same : p.entries.countP (fun e => e.key == v.key) = 1 := once
  rw [same] at parts
  rw [← List.countP_eq_length_filter, parts, Nat.add_comm]
  congr 1
  exact List.countP_congr fun e _ => by simp

/-- A full table finds its place by evicting the victim, or none (R9, R10). -/
theorem PeerTable.makeRoom_full {p : PeerTable} (h : p.entries.length = 32) (clock : Clock) : p.makeRoom clock =
    (p.entries.foldl (longerExpired clock) none).map fun v =>
      { p with entries := p.entries.filter (·.key != v.key) } := by
  unfold PeerTable.makeRoom PeerTable.victim
  rw [if_neg (by rw [h]; decide)]
  cases p.entries.foldl (longerExpired clock) none with
  | none => rfl
  | some v => rfl

/-- Settles O18: the victim of `foldl_longerExpired` gives way, or the refusal total grows. -/
theorem fullTableEvictsTheLongestExpired : Obligations.FullTableEvictsTheLongestExpired := by
  intro s source r st d ha hf hw hlen hwf
  have victim := foldl_longerExpired s.clock s.table.entries hwf.1
  have room := PeerTable.makeRoom_full hlen s.clock
  rw [State.acceptSample_wanted ha hf hw]
  cases hv : s.table.entries.foldl (longerExpired s.clock) none with
  | none =>
    rw [hv] at victim room
    refine ⟨fun _ => State.createEntry_refused room, ?_⟩
    rintro ⟨e, he, hev⟩
    exact absurd hev (victim e he)
  | some v =>
    rw [hv] at victim room
    obtain ⟨hmem, hev, first⟩ := victim
    have absent : ∀ e ∈ s.table.entries.filter (·.key != v.key), e.key ≠ r.keyFrom source := fun e he =>
      PeerTable.find_none hf e (List.mem_of_mem_filter he)
    have other : v.key ≠ r.keyFrom source := PeerTable.find_none hf v hmem
    have found (j : Key) := State.createEntry_find (st := st) (d := d) (r := r) room absent j
    have length := State.createEntry_length (st := st) (d := d) (r := r) room absent
    simp only [PeerTable.without_find] at found
    refine ⟨fun hn => ?_, fun _ => ⟨_, v, rfl, hmem, hev.1, hev.2, fun e he hp hx hne => first e he ⟨hp, hx⟩ hne,
      ?_, ?_, fun k hk hkv => ?_, ?_, ?_⟩⟩
    · obtain hp | hx := hn v hmem
      · exact absurd (hev.1.symm.trans hp) (by decide)
      · exact absurd hev.2 hx
    · rw [found, if_neg other, if_pos rfl]
    · rw [found, if_pos rfl]
    · rw [found, if_neg hk, if_neg hkv]
    · rw [State.createEntry_placed room, State.takeSample_table]
      rfl
    · rw [length, PeerTable.without_length hwf hmem, hlen]

/-! ### The sequence judgement (R11 to R13, R22) -/

theorem State.updateEntry_find (s : State) (k : Key) (f : Entry → Entry) (j : Key) (hf : ∀ e, e.key = k → (f e).key = k) :
    (s.updateEntry k f).table.find j = if j = k then (s.table.find k).map f else s.table.find j :=
  PeerTable.find_update s.table k j hf

theorem State.updatePath_others {s : State} {st : Settings} {d : QuantityDef} {e : Entry} {r : RawSample} {k : Key}
    (hk : k ≠ e.key) : (s.updatePath st d e r).table.find k = s.table.find k := by
  have taken (w : State) (hw : w.table.find k = s.table.find k) (first : Bool) :
      (w.takeSample st d e first r).table.find k = s.table.find k := by
    rw [State.takeSample_find, if_neg hk, hw]
  have judged (last : Byte) : (if (r.seq - last).toNat = 0 then s
      else if (r.seq - last).toNat ≤ 127 then ({ s with
        table := { s.table with gaps := saturate s.table.gaps ((r.seq - last).toNat - 1) } }).takeSample st d e false r
      else if e.staleRun = some 2 then s.takeSample st d e true r
      else s.updateEntry e.key fun e => { e with staleRun := e.staleRun.map (· + 1) }).table.find k = s.table.find k := by
    split
    · rfl
    · split
      · exact taken { s with table := { s.table with gaps := saturate s.table.gaps ((r.seq - last).toNat - 1) } } rfl false
      · split
        · exact taken s rfl true
        · exact (State.updateEntry_find s e.key (fun e => { e with staleRun := e.staleRun.map (· + 1) }) k
            fun _ h => h).trans (if_neg hk)
  unfold State.updatePath
  split
  · exact judged _
  · exact judged _
  · exact taken s rfl true

/-- Settles O19: each path of the judgement changes the entry of the key alone. -/
theorem sequenceJudgement : Obligations.SequenceJudgement := by
  intro s source r st d e ha hf
  have key := PeerTable.find_key hf
  have taken (w : State) (hw : w.table.find e.key = some e) (hc : w.clock = s.clock) (first : Bool) (j : Key) :
      (w.takeSample st d e first r).table.find j =
        if j = r.keyFrom source then some (e.takeRemote d r s.clock) else w.table.find j := by
    rw [State.takeSample_find, hw, key, hc]
    rfl
  have present : s.table.find e.key = some e := by rw [key, hf]
  have gaps (w : State) (first : Bool) : (w.takeSample st d e first r).table.gaps = w.table.gaps := by
    rw [State.takeSample_table]
    rfl
  rw [State.acceptSample_known ha hf]
  refine ⟨fun k hk => ?others, fun h => ?renews, fun last h hl => ⟨fun h0 => ?duplicate, fun h1 h2 => ?next,
    fun h1 h2 => ?third, fun n h1 h2 h3 => ?stale⟩⟩
  case others => exact State.updatePath_others (by rwa [key])
  case renews =>
    rw [State.updatePath_renews h]
    exact ⟨by rw [taken s present rfl, if_pos rfl], gaps s true⟩
  case duplicate => exact State.updatePath_duplicate h hl h0
  case next =>
    rw [State.updatePath_next h hl h1 h2]
    exact ⟨(taken { s with table := { s.table with gaps := min (s.table.gaps + (sequenceDistance r last - 1)) 65535 } }
      present rfl false _).trans (if_pos rfl), gaps _ false⟩
  case third =>
    rw [State.updatePath_third h hl h1 h2]
    exact ⟨by rw [taken s present rfl, if_pos rfl], gaps s true⟩
  case stale =>
    rw [State.updatePath_stale h hl h1 (by rw [h2]; exact fun e => h3 (Option.some.inj e))]
    refine ⟨(State.updateEntry_find s e.key (fun e => { e with staleRun := e.staleRun.map (· + 1) }) _
      fun _ h => h).trans ?_, rfl⟩
    rw [if_pos key.symm, present]
    simp [h2]

end Sys2Proof.Machine
end

section
/-! What a taken sample hands over: targets (R15), DEPTH_ACTION serials and mode requests (R16). -/

namespace Sys2Proof.Machine

/-! ### The taking behind each path (R9 to R13) -/

/-- One state comes of another by an entry of this key taking the sample, once the path to it has changed the table
alone. -/
def State.Takes (s : State) (st : Settings) (d : QuantityDef) (k : Key) (e : Entry) (first : Bool) (r : RawSample)
    (u : State) : Prop :=
  e.key = k ∧ ∃ p : PeerTable, p.find e.key = some e ∧ u = ({ s with table := p }).takeSample st d e first r

section
variable {s : State} {source : BitVec 4} {r : RawSample} {st : Settings} {d : QuantityDef}

theorem State.Takes.of_find {e : Entry} {k : Key} {first : Bool} (hf : s.table.find k = some e) :
    s.Takes st d k e first r (s.takeSample st d e first r) :=
  ⟨PeerTable.find_key hf, s.table, by rw [PeerTable.find_key hf, hf], rfl⟩

variable (ha : s.admits source r st d)
include ha

section
variable {e : Entry} (hf : s.table.find (r.keyFrom source) = some e)
include hf

theorem State.takes_renewed (h : e.state = .vacant ∨ e.state = .expired) :
    s.Takes st d (r.keyFrom source) e true r (s.acceptSample source r) := by
  rw [State.acceptSample_known ha hf, State.updatePath_renews h]
  exact .of_find hf

variable {last : Byte} (h : e.state = .fresh ∨ e.state = .aged) (hl : e.lastSeq = some last)
include h hl

theorem State.takes_third (h1 : 128 ≤ sequenceDistance r last) (h2 : e.staleRun = some 2) :
    s.Takes st d (r.keyFrom source) e true r (s.acceptSample source r) := by
  rw [State.acceptSample_known ha hf, State.updatePath_third h hl h1 h2]
  exact .of_find hf

theorem State.takes_next (h1 : 1 ≤ sequenceDistance r last) (h2 : sequenceDistance r last ≤ 127) :
    s.Takes st d (r.keyFrom source) e false r (s.acceptSample source r) := by
  rw [State.acceptSample_known ha hf, State.updatePath_next h hl h1 h2]
  exact State.Takes.of_find (s := { s with
    table := { s.table with gaps := min (s.table.gaps + (sequenceDistance r last - 1)) 65535 } }) hf

end

theorem State.takes_created (hf : s.table.find (r.keyFrom source) = none) (hw : st.wants (r.keyFrom source) = true)
    (hp : s.hasPlace) :
    s.Takes st d (r.keyFrom source) (remoteEntry (r.keyFrom source)) true r (s.acceptSample source r) := by
  obtain ⟨p, place, sub⟩ := PeerTable.makeRoom_of_place hp s.clock
  have absent : ∀ e ∈ p.entries, e.key ≠ r.keyFrom source := fun e he => PeerTable.find_none hf e (sub e he)
  rw [State.acceptSample_wanted ha hf hw, State.createEntry_placed place]
  exact ⟨rfl, { p with entries := insertEntry (remoteEntry (r.keyFrom source)) p.entries },
    (find_insertEntry (e := remoteEntry (r.keyFrom source)) absent _).trans (if_pos rfl), rfl⟩

end

/-! ### The hand-over by quantity (1.4) -/

section
variable {s : State} {st : Settings} {d : QuantityDef} {e : Entry} {first : Bool} {r : RawSample}

theorem Settings.consumes_of {st : Settings} {i : BitVec 2} (h : i = st.side.inst ∨ i = 3) :
    st.consumes i = true := by
  obtain h | h := h
  · simp [Settings.consumes, h]
  · simp [Settings.consumes, h]

theorem State.handOver_target (hi : r.inst = st.side.inst ∨ r.inst = 3) (ht : isTarget r.code) :
    s.handOver st d e first r = s.handTargets st d e first r.code (RawSample.effective r).2 := by
  unfold State.handOver
  rw [Settings.consumes_of hi]
  exact if_pos ht

theorem State.handOver_action (hi : r.inst = st.side.inst ∨ r.inst = 3) (hx : isAction r.code) :
    s.handOver st d e first r = s.handActions st e first r.code (RawSample.effective r).2 := by
  have notTarget : ¬ isTarget r.code := by
    obtain hx | hx := hx
    · rw [hx]; decide
    · rw [hx]; decide
  unfold State.handOver
  rw [Settings.consumes_of hi]
  exact (if_neg notTarget).trans (if_pos hx)

/-- An action value is its serial and its code (R16). -/
theorem decodeAction_value (serial : BitVec 7) (code : Byte) :
    decodeAction (some (serial.toNat * 256 + code.toNat : Int)) = some (serial, code) := by
  have nonneg : (0 : Int) ≤ serial.toNat * 256 + code.toNat := by omega
  have bound := code.isLt
  unfold decodeAction
  dsimp only
  rw [if_pos nonneg]
  rw [show ((serial.toNat * 256 + code.toNat : Int)) / 256 = serial.toNat by omega,
    show ((serial.toNat * 256 + code.toNat : Int)) % 256 = code.toNat by omega]
  simp

section
variable {serial : BitVec 7} {action : Byte} {value : Option Int} {code : BitVec 6}
  (hv : decodeAction value = some (serial, action))
include hv

/-- An acted serial hands nothing over, and neither does an entry that acted on none yet (R16). -/
theorem State.handActions_known (h : e.acted = none ∨ e.acted = some serial) :
    s.handActions st e first code value = s := by
  unfold State.handActions
  rw [hv]
  obtain h | h := h
  · rw [h]
  · rw [h]
    exact if_pos (.inr rfl)

theorem State.handActions_new {acted : BitVec 7} (h : e.acted = some acted) (hne : serial ≠ acted) :
    s.handActions st e false code value =
      if code = Config.depthAction then (s.handAction st .a action).handAction st .b action
      else (s.modeRequest st .a action).modeRequest st .b action := by
  unfold State.handActions
  rw [hv, h]
  exact if_neg (by simp [hne])

end

/-! ### What the taking leaves (R14 to R16) -/

section
variable {k : Key} {u : State} (h : s.Takes st d k e first r u) (hi : r.inst = st.side.inst ∨ r.inst = 3)
include h

theorem State.Takes.table : u.table.find k = some (e.takeRemote d r s.clock) := by
  obtain ⟨key, p, found, rfl⟩ := h
  rw [State.takeSample_find, if_pos key.symm]
  exact congrArg (Option.map _) found

/-- A serial is recorded wherever its sample is taken. -/
theorem State.Takes.recorded {serial : BitVec 7} {code : Byte}
    (hd : decodeAction (RawSample.effective r).2 = some (serial, code)) (hx : isAction k.code) :
    ∃ w, u.table.find k = some w ∧ w.acted = some serial := by
  refine ⟨_, h.table, ?_⟩
  unfold Entry.takeRemote
  dsimp only
  rw [hd, h.1]
  exact if_pos hx

include hi

theorem State.Takes.target_channel {q : Quality} {v : Int} (hv : RawSample.effective r = (q, some v))
    (ht : isTarget r.code) (c : ChannelId) : u.channel c =
      if first ∨ e.value ≠ some (clamp v d.lo d.hi) then
        (s.channel c).handTarget (st.channel c) r.code (clamp v d.lo d.hi)
      else s.channel c := by
  obtain ⟨-, p, -, rfl⟩ := h
  rw [State.takeSample, State.handOver_target hi ht, hv, State.handTargets_channel]
  cases c <;> rfl

theorem State.Takes.action_quiet (hx : isAction r.code)
    (hq : ∀ w : State, w.handActions st e first r.code (RawSample.effective r).2 = w) :
    u = { s with table := u.table } := by
  obtain ⟨-, p, -, rfl⟩ := h
  rw [State.takeSample, State.handOver_action hi hx, hq]
  rfl

end

end

/-- Settles O20: a taken target reaches the channel by `Channel.handTarget`. -/
theorem newTargetsReachOperatorChannels : Obligations.NewTargetsReachOperatorChannels := by
  intro s source r st d q v c key maxStep height x ha hv hi hcode htarget hx reaches
  have target : isTarget r.code := hcode.imp And.left And.left
  have role : (st.channel c).controls ∧ (st.channel c).role = targetRole r.code := by
    obtain ⟨hr, hro⟩ | ⟨hr, hro⟩ := hcode
    · rw [hr]
      exact ⟨.inl hro, hro⟩
    · rw [hr]
      exact ⟨.inr hro, hro⟩
  have handed : (s.channel c).handTarget (st.channel c) r.code (clamp v d.lo d.hi) = { s.channel c with
      target := some (x.newTarget (st.channel c) maxStep (clamp v d.lo d.hi)) } := by
    unfold Channel.handTarget
    rw [htarget]
    dsimp only
    rw [if_pos role, hx]
    rfl
  have reached {e : Entry} {first : Bool} (h : s.Takes st d (r.keyFrom source) e first r (s.acceptSample source r))
      (hn : first ∨ e.value ≠ some (clamp v d.lo d.hi)) : reaches :=
    (h.target_channel hi hv target c).trans ((if_pos hn).trans handed)
  refine ⟨fun e last hf hst hl h1 h2 => ⟨fun same => ?_, fun other => ?_⟩, fun e hf hst => ?_,
    fun e last hf hst hl h1 h2 => ?_, fun hf hw hp => ?_⟩
  · exact ((State.takes_next ha hf hst hl h1 h2).target_channel hi hv target c).trans (if_neg (by simp [same]))
  · exact reached (State.takes_next ha hf hst hl h1 h2) (.inr other)
  · exact reached (State.takes_renewed ha hf hst) (.inl rfl)
  · exact reached (State.takes_third ha hf hst hl h1 h2) (.inl rfl)
  · exact reached (State.takes_created ha hf hw hp) (.inl rfl)

/-- Settles O21: LIFT and RETURN are handed over by sequence and by a new serial alone. -/
theorem depthActionsActOncePerSerial : Obligations.DepthActionsActOncePerSerial := by
  intro s source r st d q serial code c key maxStep height x ha hv hi hcode hrole htarget hx recorded stands
  have decoded : decodeAction (RawSample.effective r).2 = some (serial, code) := by rw [hv, decodeAction_value]
  have action : isAction r.code := .inl hcode
  have written {e : Entry} {first : Bool} (h : s.Takes st d (r.keyFrom source) e first r (s.acceptSample source r)) :
      recorded := h.recorded decoded action
  have still {e : Entry} {first : Bool} (h : s.Takes st d (r.keyFrom source) e first r (s.acceptSample source r))
      (hq : ∀ w : State, w.handActions st e first r.code (RawSample.effective r).2 = w) : stands := by
    show (s.acceptSample source r).channel c = s.channel c
    rw [h.action_quiet hi action hq]
    cases c <;> rfl
  have first {e : Entry} (h : s.Takes st d (r.keyFrom source) e true r (s.acceptSample source r)) :
      stands ∧ recorded :=
    ⟨still h fun _ => State.handActions_first _ _, written h⟩
  have handed {e : Entry} {acted : BitVec 7}
      (h : s.Takes st d (r.keyFrom source) e false r (s.acceptSample source r)) (hacted : e.acted = some acted)
      (hne : serial ≠ acted) :
      (s.acceptSample source r).channel c = (s.channel c).handAction (st.channel c) code := by
    obtain ⟨-, p, -, taken⟩ := h
    rw [taken, State.takeSample, State.handOver_action hi action, State.handActions_new decoded hacted hne,
      if_pos hcode]
    refine (State.channel_of_both (hand := fun w c => w.handAction st c code)
      (change := fun c ch => ch.handAction (st.channel c) code)
      (fun w c d => by rw [w.handAction_eq, State.setChannel_channel]) _ c).trans ?_
    cases c <;> rfl
  refine ⟨fun e hf hst => first (State.takes_renewed ha hf hst),
    fun hf hw hp => first (State.takes_created ha hf hw hp),
    fun e last hf hst hl => ⟨fun h1 h2 => first (State.takes_third ha hf hst hl h1 h2), fun h1 h2 => ?_⟩⟩
  have next := State.takes_next ha hf hst hl h1 h2
  refine ⟨written next, fun hnone => still next fun _ => State.handActions_known decoded (.inl hnone),
    fun acted hacted => ?_⟩
  have repeated (hs : serial = acted) : stands :=
    still next fun _ => State.handActions_known decoded (.inr (hs ▸ hacted))
  refine ⟨repeated, fun hne h1 => ?lift, fun hne h2 => ?back, fun h1 h2 => ?other⟩
  case lift =>
    rw [handed next hacted hne]
    simp [Channel.handAction, htarget, hrole, h1, hx]
  case back =>
    rw [handed next hacted hne]
    simp [Channel.handAction, htarget, hrole, h2, hx]
  case other =>
    by_cases hs : serial = acted
    · exact repeated hs
    · show (s.acceptSample source r).channel c = s.channel c
      rw [handed next hacted hs]
      unfold Channel.handAction
      rw [htarget]
      dsimp only
      rw [if_neg fun h => h1 h.2, if_neg fun h => h2 h.2]

/-! ### Mode requests (R94 to R97) -/

theorem State.modeRequest_refused {s : State} {st : Settings} {c : ChannelId} {code : Byte}
    (h : s.station ≠ .running ∨ s.line.bus = .mutedClash ∨ (st.channel c).role = .none) :
    s.modeRequest st c code = s :=
  if_pos h

theorem State.modeRequest_unknown {s : State} {st : Settings} {c : ChannelId} {code : Byte} (h : 2 < code.toNat) :
    s.modeRequest st c code = s := by
  have ne (n : Byte) (hn : n.toNat ≤ 2) : code ≠ n := fun e => by
    rw [e] at h
    omega
  unfold State.modeRequest
  dsimp only
  rw [if_neg (ne 0 (by decide)), if_neg (ne 1 (by decide)), if_neg (ne 2 (by decide)), ite_self]

theorem State.requestManual_stands {s : State} {c : ChannelId} (h : s.latch ≠ none ∨ (s.channel c).state = .manual) :
    s.requestManual c = s := if_pos h

theorem State.requestManual_enters {s : State} {c : ChannelId} (hl : s.latch = none)
    (h : (s.channel c).state ≠ .manual) :
    s.Enters c
      { s.channel c with
        state := .manual, cause := none, sat := .none, inDeadband := false, resumeTimer := none, fault := none
        openRun := if (s.channel c).state = .fault then 0 else (s.channel c).openRun }
      (s.converter.request c) (s.faultsWithoutCoil c) (s.requestManual c) := by
  obtain ⟨l, dropped, marked⟩ := State.dropCoilCode_eq s c
  have open_ : ¬ (s.latch ≠ none ∨ (s.channel c).state = .manual) := by simp [hl, h]
  unfold State.requestManual
  dsimp only
  rw [if_neg open_]
  refine State.Enters.of_put (w := s.dropCoilCode c) ?_ ?_ h
  · rw [dropped, Converter.withRequest_self]
  · rw [dropped]
    exact marked

theorem State.requestAuto_stands {s : State} {cd : ChannelDef} {c : ChannelId}
    (h : s.latch ≠ none ∨ (s.channel c).state = .auto ∨ (s.channel c).state = .held ∨ s.hasReference cd = false) :
    s.requestAuto cd c = s := by
  unfold State.requestAuto
  split
  · rfl
  · rfl
  all_goals
    rename_i hst
    refine if_neg ?_
    rintro ⟨hl, hr⟩
    simp [hl, hst, hr] at h

theorem State.enterAuto_enters {s : State} {c : ChannelId} (h : (s.channel c).state ≠ .auto) :
    s.Enters c
      { s.channel c with
        state := .auto, sat := .none, inDeadband := false, fault := none
        openRun := if (s.channel c).state = .fault then 0 else (s.channel c).openRun
        target := (s.channel c).target.map fun x => { x with offset := 0 } }
      (s.converter.request c) ((s.faultsWithoutCoil c).filter (· != refLostCode c)) (s.enterAuto c) := by
  obtain ⟨l, dropped, marked⟩ := State.dropCoilCode_eq s c
  unfold State.enterAuto
  dsimp only
  refine State.Enters.of_put (w := (s.dropCoilCode c).removeFault (refLostCode c)) ?_ ?_ h
  · rw [State.removeFault_eq, dropped, Converter.withRequest_self]
  · rw [State.removeFault_eq, dropped]
    dsimp only
    split
    · rw [Line.statusMarked_twice]
      exact marked
    · exact marked

theorem State.requestAuto_enters {s : State} {cd : ChannelDef} {c : ChannelId} (hl : s.latch = none)
    (hr : s.hasReference cd = true)
    (h : (s.channel c).state = .off ∨ (s.channel c).state = .manual ∨ (s.channel c).state = .fault) :
    s.requestAuto cd c = s.enterAuto c := by
  unfold State.requestAuto
  obtain h | h | h := h <;> rw [h] <;> exact if_pos ⟨hl, hr⟩

theorem State.hasReference_iff (s : State) (cd : ChannelDef) :
    s.hasReference cd = true ↔ cd.role = .belt ∨ s.activeGroup cd.refs ≠ none := by
  unfold State.hasReference
  simp [Option.isSome_iff_ne_none]

/-- Settles O23: the requests handed to one channel, then what hands them over. -/
theorem modeRequests : Obligations.ModeRequests := by
  refine ⟨?requests, State.hasReference_iff, ?samples⟩
  case requests =>
    intro s st c code ch openRun
    refine ⟨fun h => State.modeRequest_refused h, fun h1 h2 h3 => ?_⟩
    obtain ⟨off, manual, auto⟩ := State.modeRequest_handed h1 h2 h3
    rw [off, manual, auto]
    refine ⟨fun h => if_pos h, State.channelOff_enters, State.requestManual_stands, State.requestManual_enters,
      State.requestAuto_stands, fun hl hr h => ?_, State.modeRequest_unknown⟩
    rw [State.requestAuto_enters hl hr h]
    refine State.enterAuto_enters fun e => ?_
    rw [e] at h
    simp at h
  case samples =>
    intro s source r st d q serial code ha hv hi hcode taken recorded quiet
    have decoded : decodeAction (RawSample.effective r).2 = some (serial, code) := by rw [hv, decodeAction_value]
    have action : isAction r.code := .inr hcode
    have written {e : Entry} {first : Bool} (h : s.Takes st d (r.keyFrom source) e first r (s.acceptSample source r)) :
        recorded := h.recorded decoded action
    have first {e : Entry} (h : s.Takes st d (r.keyFrom source) e true r (s.acceptSample source r)) : quiet :=
      ⟨h.action_quiet hi action fun _ => State.handActions_first _ _, written h⟩
    refine ⟨fun e hf hst => first (State.takes_renewed ha hf hst),
      fun hf hw hp => first (State.takes_created ha hf hw hp),
      fun e last hf hst hl => ⟨fun h1 h2 => first (State.takes_third ha hf hst hl h1 h2), fun h1 h2 => ?_⟩⟩
    have next := State.takes_next ha hf hst hl h1 h2
    refine ⟨fun hknown => ⟨next.action_quiet hi action fun _ => State.handActions_known decoded hknown,
      written next⟩, fun acted hacted hne => ⟨?_, written next⟩⟩
    obtain ⟨-, p, -, accepted⟩ := next
    have handed (w : State) : w.handOver st d e false r = (w.modeRequest st .a code).modeRequest st .b code := by
      rw [State.handOver_action hi action, State.handActions_new decoded hacted hne.symm,
        if_neg (by rw [hcode]; decide)]
    have table := congrArg State.table accepted
    rw [State.takeSample, handed] at accepted table
    simp only [State.modeRequest_fields] at table
    rw [show taken = { s with table := (s.acceptSample source r).table } from rfl, table]
    exact accepted

end Sys2Proof.Machine
end

section
/-! Ageing (R18), and what a delivery does to the table (R20). -/

namespace Sys2Proof.Machine

section
variable {s : State} {st : Settings} {k : Key} {d : QuantityDef} (hs : s.settings = some st)
  (hd : st.quantity k.code = some d)
include hs hd

theorem State.age_of (change : Entry → QuantityDef → Clock → Entry) :
    s.age k change = s.updateEntry k fun e => change e d s.clock := by
  unfold State.age
  rw [State.withSettings_of hs, hd]

theorem State.age_find {change : Entry → QuantityDef → Clock → Entry} (hk : ∀ e c, (change e d c).key = e.key)
    (j : Key) : (s.age k change).table.find j =
      if j = k then (s.table.find k).map fun e => change e d s.clock else s.table.find j := by
  rw [State.age_of hs hd, State.updateEntry_find _ _ _ _ fun e he => (hk e _).trans he]

theorem State.deliver_of (q : Quality) (v : Option Int) :
    s.deliver k q v = s.updateEntry k fun e => e.take d q v s.clock := by
  unfold State.deliver
  rw [State.withSettings_of hs, hd]

theorem State.deliver_find (q : Quality) (v : Option Int) (j : Key) : (s.deliver k q v).table.find j =
    if j = k then (s.table.find k).map fun e => e.take d q v s.clock else s.table.find j := by
  rw [State.deliver_of hs hd, State.updateEntry_find s k (fun e => e.take d q v s.clock) j fun _ he => he]

end

theorem Entry.older_iff {e : Entry} {arrival : Clock} (h : e.arrival = some arrival) (clock : Clock) (limit : Nat) :
    e.older clock limit = true ↔ limit < since clock arrival := by
  unfold Entry.older
  rw [h]
  exact decide_eq_true_iff

section
variable {s : State} {t : Nat} {k : Key}

theorem exec_freshToAged (h : s.runs) : exec (.freshToAged t k) s = .next ((s.tick t).age k Entry.toAged) := by
  show execFreshToAged t k s = _
  rw [execFreshToAged, State.event_run h]

theorem exec_agedToExpired (h : s.runs) : exec (.agedToExpired t k) s = .next ((s.tick t).age k Entry.toExpired) := by
  show execAgedToExpired t k s = _
  rw [execAgedToExpired, State.event_run h]

end

section
variable {s : State} {st : Settings} {k : Key} {d : QuantityDef} {e : Entry} (hs : s.settings = some st)
  (hd : st.quantity k.code = some d) (hf : s.table.find k = some e) {change : Entry → QuantityDef → Clock → Entry}
  (hk : ∀ e c, (change e d c).key = e.key)
include hs hd hf hk

/-- An ageing step moves the one entry and nothing else. -/
theorem State.age_changes : (s.age k change).table.find k = some (change e d s.clock) ∧
    (∀ j, j ≠ k → (s.age k change).table.find j = s.table.find j) ∧
    (s.age k change).table.refusals = s.table.refusals ∧ (s.age k change).table.gaps = s.table.gaps ∧
    s.age k change = { s with table := (s.age k change).table } := by
  refine ⟨by rw [State.age_find hs hd hk, if_pos rfl, hf]; rfl,
    fun j hj => by rw [State.age_find hs hd hk, if_neg hj], ?_⟩
  rw [State.age_of hs hd]
  exact ⟨rfl, rfl, rfl⟩

theorem State.age_stands (h : change e d s.clock = e) (j : Key) : (s.age k change).table.find j = s.table.find j := by
  by_cases hj : j = k
  · rw [hj, (State.age_changes hs hd hf hk).1, h, hf]
  · exact (State.age_changes hs hd hf hk).2.1 j hj

end

/-- Settles O29: each ageing command by `Entry.older_iff`, past its limit and short of it. -/
theorem entriesAge : Obligations.EntriesAge := by
  intro s t st k e d arrival hr hs hf hd harr
  have hs' : (s.tick t).settings = some st := by simpa using hs
  have hf' : (s.tick t).table.find k = some e := by simpa using hf
  refine ⟨fun hst hold => ?_, fun hst hnot => ?_, fun hst hold => ?_, fun hst hnot => ?_⟩
  · have aged : e.toAged d (s.tick t).clock = { e with state := .aged } :=
      if_pos ⟨hst, (Entry.older_iff harr _ _).mpr hold⟩
    have changes := State.age_changes hs' hd hf' fun e c => Entry.toAged_key e d c
    rw [aged] at changes
    exact ⟨_, exec_freshToAged hr, by simpa only [State.tick_fields] using changes⟩
  · have stands : e.toAged d (s.tick t).clock = e := if_neg fun h => by
      have := (Entry.older_iff harr _ _).mp h.2
      omega
    refine ⟨_, exec_freshToAged hr, fun j => ?_⟩
    rw [State.age_stands hs' hd hf' (fun e c => Entry.toAged_key e d c) stands]
    simp
  · have expired : e.toExpired d (s.tick t).clock =
        { e with state := .expired, expiredSince := some (s.tick t).clock } :=
      if_pos ⟨hst, (Entry.older_iff harr _ _).mpr hold⟩
    have changes := State.age_changes hs' hd hf' fun e c => Entry.toExpired_key e d c
    rw [expired] at changes
    exact ⟨_, exec_agedToExpired hr, by simpa only [State.tick_fields] using changes⟩
  · have stands : e.toExpired d (s.tick t).clock = e := if_neg fun h => by
      have := (Entry.older_iff harr _ _).mp h.2
      omega
    refine ⟨_, exec_agedToExpired hr, fun j => ?_⟩
    rw [State.age_stands hs' hd hf' (fun e c => Entry.toExpired_key e d c) stands]
    simp

end Sys2Proof.Machine
end

section
/-! Contributions of a group: claims, their selection by a MEAN (R26, R30, R31), and its value (R32, R33, R36). -/

namespace Sys2Proof.Machine

/-! ### Claims -/

/-- A pattern reads an entry for a group: it matches, is usable and is not the group's own (R26, R30). -/
def Pattern.Reads (p : Pattern) (own : Key) (acceptAged : Bool) (e : Entry) (v : Int) : Prop :=
  p.fits e.key = true ∧ e.key ≠ own ∧ e.value = some v ∧
    (e.state = .fresh ∨ (e.state = .aged ∧ acceptAged = true)) ∧
    (e.quality = some .good ∨ e.quality = some .held ∨ e.quality = some .suspect)

/-- The claim an entry gives with its value. -/
def Pattern.claimOf (p : Pattern) (i : Nat) (e : Entry) (v : Int) : Claim :=
  ⟨e.key, i, v, p.weight, p.offset, e.quality == some .suspect || e.state == .aged⟩

theorem Entry.usable_iff (e : Entry) (acceptAged : Bool) : e.usable acceptAged = true ↔
    (e.state = .fresh ∨ (e.state = .aged ∧ acceptAged = true)) ∧
    (e.quality = some .good ∨ e.quality = some .held ∨ e.quality = some .suspect) := by
  simp [Entry.usable, or_assoc]

theorem Pattern.claim_eq_some {p : Pattern} {i : Nat} {own : Key} {acceptAged : Bool} {e : Entry} {c : Claim} :
    p.claim i own acceptAged e = some c ↔ ∃ v, p.Reads own acceptAged e v ∧ c = p.claimOf i e v := by
  unfold Pattern.claim Pattern.Reads
  constructor
  · intro h
    obtain ⟨⟨fits, other, usable⟩, h⟩ := Option.ite_none_right_eq_some.mp h
    obtain ⟨state, quality⟩ := (Entry.usable_iff _ _).mp usable
    obtain ⟨v, value, same⟩ := Option.map_eq_some_iff.mp h
    exact ⟨v, ⟨fits, other, value, state, quality⟩, same.symm⟩
  · rintro ⟨v, ⟨fits, other, value, state, quality⟩, rfl⟩
    rw [if_pos ⟨fits, other, (Entry.usable_iff _ _).mpr ⟨state, quality⟩⟩, value]
    rfl

theorem Pattern.claimOf_doubtful (p : Pattern) (i : Nat) (e : Entry) (v : Int) :
    (p.claimOf i e v).doubtful = true ↔ e.quality = some .suspect ∨ e.state = .aged := by
  simp [Pattern.claimOf]

/-! ### The selection of a MEAN -/

/-- Every claim of a group's patterns on the entries, in the order they are offered. -/
def GroupDef.candidates (g : GroupDef) (own : Key) (entries : List Entry) : List Claim :=
  g.patterns.zipIdx.flatMap fun (p, i) => entries.filterMap (p.claim i own g.acceptAged)

/-- Claims are offered pattern by pattern, and by key within one. -/
def Claim.Before (c x : Claim) : Prop :=
  c.pattern < x.pattern ∨ (c.pattern = x.pattern ∧ keyRank c.key < keyRank x.key)

/-- The selection (R31) over the claims offered. -/
def selectClaims (offered : List Claim) : List Claim := offered.foldl (fun claims c => addClaim claims (some c)) []

theorem selectClaims_append (xs : List Claim) (x : Claim) :
    selectClaims (xs ++ [x]) = addClaim (selectClaims xs) (some x) := by
  rw [selectClaims, List.foldl_append]
  rfl

theorem addClaim_some (claims : List Claim) (c : Claim) : addClaim claims (some c) =
    if claims.length < 6 ∧ ∀ x ∈ claims, x.key ≠ c.key then claims ++ [c] else claims := by
  unfold addClaim
  simp [Config.contributionLimit]

theorem GroupDef.meanClaims_eq (g : GroupDef) (own : Key) (entries : List Entry) :
    g.meanClaims own entries = selectClaims (g.candidates own entries) := by
  unfold GroupDef.meanClaims GroupDef.candidates selectClaims
  rw [List.foldl_flatMap]
  congr 1
  funext claims ⟨p, i⟩
  dsimp only
  rw [List.foldl_filterMap]
  congr 1
  funext claims e
  cases p.claim i own g.acceptAged e with
  | none => rfl
  | some c => rfl

theorem GroupDef.mem_candidates {g : GroupDef} {own : Key} {entries : List Entry} {c : Claim} :
    c ∈ g.candidates own entries ↔ ∃ (i : Nat) (p : Pattern), g.patterns[i]? = some p ∧ ∃ e ∈ entries, ∃ v,
      p.Reads own g.acceptAged e v ∧ c = p.claimOf i e v := by
  unfold GroupDef.candidates
  simp only [List.mem_flatMap, List.mem_filterMap, Prod.exists, List.mem_zipIdx_iff_getElem?, Pattern.claim_eq_some]
  exact exists_comm

theorem GroupDef.candidates_pairwise (g : GroupDef) (own : Key) {entries : List Entry}
    (hs : entries.Pairwise fun x y => keyRank x.key < keyRank y.key) :
    (g.candidates own entries).Pairwise Claim.Before := by
  have indices : (g.patterns.zipIdx.map Prod.snd).Pairwise (· < ·) := by
    rw [List.zipIdx_map_snd]
    exact List.pairwise_lt_range'
  refine List.pairwise_flatMap.mpr ⟨fun (p, i) _ => ?_, (List.pairwise_map.mp indices).imp fun {x y} hxy => ?_⟩
  · refine List.pairwise_filterMap.mpr (hs.imp fun {x y} hxy c hc c' hc' => ?_)
    obtain ⟨v, -, rfl⟩ := Pattern.claim_eq_some.mp hc
    obtain ⟨v', -, rfl⟩ := Pattern.claim_eq_some.mp hc'
    exact .inr ⟨rfl, hxy⟩
  · intro c hc c' hc'
    obtain ⟨e, -, hc⟩ := List.mem_filterMap.mp hc
    obtain ⟨e', -, hc'⟩ := List.mem_filterMap.mp hc'
    obtain ⟨v, -, rfl⟩ := Pattern.claim_eq_some.mp hc
    obtain ⟨v', -, rfl⟩ := Pattern.claim_eq_some.mp hc'
    exact .inl hxy

/-- What the selection keeps of the claims offered: at most six, no key twice, none of its own. -/
theorem selectClaims_keeps (l : List Claim) :
    (selectClaims l).length ≤ 6 ∧ ((selectClaims l).map Claim.key).Nodup ∧ ∀ c ∈ selectClaims l, c ∈ l := by
  induction l using List.reverseRecOn with
  | nil => simp [selectClaims]
  | append_singleton xs x ih =>
    rw [selectClaims_append]
    generalize selectClaims xs = kept at ih ⊢
    obtain ⟨short, nodup, sub⟩ := ih
    rw [addClaim_some]
    split
    · rename_i h
      refine ⟨by simp; omega, ?_, fun c hc => ?_⟩
      · rw [List.map_append, List.nodup_append]
        refine ⟨nodup, by simp, ?_⟩
        simp only [List.mem_map, List.map_cons, List.map_nil, List.mem_singleton]
        rintro _ ⟨c, hc, rfl⟩ _ rfl
        exact h.2 c hc
      · obtain hc | hc := List.mem_append.mp hc
        · exact List.mem_append_left _ (sub c hc)
        · exact List.mem_append_right _ hc
    · exact ⟨short, nodup, fun c hc => List.mem_append_left _ (sub c hc)⟩

/-- A claim is left out only for one of its key before it, or for six before it. -/
theorem selectClaims_complete (l : List Claim) (hl : l.Pairwise Claim.Before) : ∀ c ∈ l,
    (∃ x ∈ selectClaims l, x.key = c.key ∧ x.pattern ≤ c.pattern) ∨
    ((selectClaims l).length = 6 ∧ ∀ x ∈ selectClaims l, x.Before c) := by
  induction l using List.reverseRecOn with
  | nil => simp
  | append_singleton xs last ih =>
    obtain ⟨sorted, -, before⟩ := List.pairwise_append.mp hl
    specialize ih sorted
    obtain ⟨short, -, sub⟩ := selectClaims_keeps xs
    rw [selectClaims_append]
    generalize selectClaims xs = kept at ih short sub ⊢
    have earlier (x : Claim) (hx : x ∈ kept) : x.Before last := before x (sub x hx) last (by simp)
    rw [addClaim_some]
    intro c hc
    obtain hc | hc := List.mem_append.mp hc
    · obtain ⟨x, hx, same⟩ | ⟨six, all⟩ := ih c hc
      · refine .inl ⟨x, ?_, same⟩
        split
        · exact List.mem_append_left _ hx
        · exact hx
      · rw [if_neg (by omega)]
        exact .inr ⟨six, all⟩
    · rw [List.mem_singleton.mp hc]
      split
      · exact .inl ⟨last, by simp, rfl, le_rfl⟩
      · rename_i h
        by_cases six : kept.length = 6
        · exact .inr ⟨six, earlier⟩
        · obtain ⟨x, hx, same⟩ : ∃ x ∈ kept, x.key = last.key := by
            by_contra none
            exact h ⟨by omega, fun x hx e => none ⟨x, hx, e⟩⟩
          refine .inl ⟨x, hx, same, ?_⟩
          obtain lt | ⟨eq, -⟩ := earlier x hx
          · exact lt.le
          · exact eq.le

/-- What a contribution is (R31). -/
theorem GroupDef.mem_meanClaims {g : GroupDef} {own : Key} {entries : List Entry} {c : Claim}
    (h : c ∈ g.meanClaims own entries) : ∃ (i : Nat) (p : Pattern), g.patterns[i]? = some p ∧ ∃ e ∈ entries, ∃ v,
      p.Reads own g.acceptAged e v ∧ c = p.claimOf i e v := by
  rw [GroupDef.meanClaims_eq] at h
  exact GroupDef.mem_candidates.mp ((selectClaims_keeps _).2.2 c h)

/-! ### The value of a MEAN -/

theorem le_roundDiv {n d m : Int} (hd : 0 < d) (h : m * d ≤ n) : m ≤ roundDiv n d := by
  unfold roundDiv
  split
  · have : (2 * -n + d) / (2 * d) < -m + 1 := Int.ediv_lt_of_lt_mul (by omega) (by linarith [add_mul (-m) 1 (2 * d)])
    omega
  · exact Int.le_ediv_of_mul_le (by omega) (by linarith)

theorem roundDiv_le {n d m : Int} (hd : 0 < d) (h : n ≤ m * d) : roundDiv n d ≤ m := by
  unfold roundDiv
  split
  · have : -m ≤ (2 * -n + d) / (2 * d) := Int.le_ediv_of_mul_le (by omega) (by linarith)
    omega
  · have : (2 * n + d) / (2 * d) < m + 1 := Int.ediv_lt_of_lt_mul (by omega) (by linarith)
    omega

/-- A weighted sum of terms that all reach a bound reaches its multiple by the weights. -/
theorem mul_sum_le_weighted {α : Type} {w f : α → Int} {m : Int} {l : List α} (hw : ∀ x ∈ l, 1 ≤ w x)
    (hf : ∀ x ∈ l, m ≤ f x) : m * (l.map w).sum ≤ (l.map fun x => w x * f x).sum := by
  rw [← List.sum_map_mul_left]
  exact List.sum_le_sum fun x hx => by nlinarith [hw x hx, hf x hx]

theorem weighted_le_mul_sum {α : Type} {w f : α → Int} {m : Int} {l : List α} (hw : ∀ x ∈ l, 1 ≤ w x)
    (hf : ∀ x ∈ l, f x ≤ m) : (l.map fun x => w x * f x).sum ≤ m * (l.map w).sum := by
  rw [← List.sum_map_mul_left]
  exact List.sum_le_sum fun x hx => by nlinarith [hw x hx, hf x hx]

/-- The rounded weighted mean lies between the least and the greatest term (R33). -/
theorem roundDiv_mean_between {α : Type} (w f : α → Int) (l : List α) (hl : l ≠ [])
    (hw : ∀ x ∈ l, 1 ≤ w x) :
    (∃ x ∈ l, f x ≤ roundDiv (l.map fun x => w x * f x).sum (l.map w).sum) ∧
    ∃ x ∈ l, roundDiv (l.map fun x => w x * f x).sum (l.map w).sum ≤ f x := by
  have positive : 0 < (l.map w).sum := by
    refine List.sum_pos _ (fun y hy => ?_) (by simpa using hl)
    obtain ⟨x, hx, rfl⟩ := List.mem_map.mp hy
    exact hw x hx
  constructor
  · by_contra none
    push Not at none
    have above := le_roundDiv positive (mul_sum_le_weighted hw fun x hx => none x hx)
    omega
  · by_contra none
    push Not at none
    have below := roundDiv_le positive (weighted_le_mul_sum hw fun x hx => Int.le_sub_one_of_lt (none x hx))
    omega

/-! ### When a MEAN is valid, and its quality -/

theorem GroupDef.satisfied_iff (g : GroupDef) (claims : List Claim) : g.satisfied claims = true ↔
    (∀ (i : Nat) (p : Pattern), g.patterns[i]? = some p → p.required = true → ∃ c ∈ claims, c.pattern = i) ∧
      g.minimum ≤ claims.length := by
  unfold GroupDef.satisfied
  simp only [Bool.and_eq_true, List.all_eq_true, Prod.forall, List.mem_zipIdx_iff_getElem?, Bool.or_eq_true,
    Bool.not_eq_true', List.any_eq_true, beq_iff_eq, decide_eq_true_eq]
  refine and_congr_left fun _ => ⟨fun h i p hp hr => (h p i hp).resolve_left (by simp [hr]), fun h p i hp => ?_⟩
  cases hr : p.required with
  | true => exact .inr (h i p hp hr)
  | false => exact .inl rfl

theorem GroupDef.mean_eq_none {g : GroupDef} {own : Key} {entries : List Entry} :
    g.mean own entries = none ↔ g.satisfied (g.meanClaims own entries) = false := by
  unfold GroupDef.mean
  simp

theorem GroupDef.mean_eq_some {g : GroupDef} {own : Key} {entries : List Entry} {v : Int} {q : ResultQuality} :
    g.mean own entries = some (v, q) ↔ g.satisfied (g.meanClaims own entries) = true ∧
      v = roundDiv ((g.meanClaims own entries).map fun c => (c.weight : Int) * c.term).sum
        ((g.meanClaims own entries).map fun c => (c.weight : Int)).sum ∧
      q = markQuality (g.meanClaims own entries) false := by
  unfold GroupDef.mean
  dsimp only
  rw [Option.ite_none_right_eq_some]
  simp only [Option.some.injEq, Prod.mk.injEq, eq_comm]

theorem markQuality_eq (claims : List Claim) (resultClamped : Bool) : markQuality claims resultClamped =
    if (∃ c ∈ claims, c.doubtful = true ∨ clamp (c.value + c.offset) (-32767) 32767 ≠ c.value + c.offset) ∨
      resultClamped = true then .suspect else .good := by
  unfold markQuality Claim.clamped Claim.term clampValue clampAbs
  simp only [Bool.or_eq_true, List.any_eq_true, bne_iff_ne, ne_eq]

/-- Settles O31: the selection by `selectClaims_keeps`, the value by `roundDiv_mean_between`. -/
theorem meanIsOfUsableEntriesAndBetweenTerms : Obligations.MeanIsOfUsableEntriesAndBetweenTerms := by
  refine ⟨fun g own entries => ?contributions, fun g own entries i p e v sorted hp he hfit hown hv hst hq => ?complete,
    fun g own entries => ?invalid, fun g own entries v q h => ?quality, fun g own entries v q hmin hw h => ?value⟩
  case contributions =>
    have selected := selectClaims_keeps (g.candidates own entries)
    rw [← GroupDef.meanClaims_eq] at selected
    refine ⟨selected.1, selected.2.1, fun c hc => ?_⟩
    obtain ⟨i, p, hp, e, he, v, ⟨fits, other, value, state, quality⟩, rfl⟩ := GroupDef.mem_meanClaims hc
    exact ⟨e, he, p, hp, rfl, other, fits, state, quality, value, rfl, rfl, Pattern.claimOf_doubtful p i e v⟩
  case complete =>
    have offered : p.claimOf i e v ∈ g.candidates own entries :=
      GroupDef.mem_candidates.mpr ⟨i, p, hp, e, he, v, ⟨hfit, hown, hv, hst, hq⟩, rfl⟩
    have complete := selectClaims_complete _ (g.candidates_pairwise own sorted) _ offered
    rw [← GroupDef.meanClaims_eq] at complete
    exact complete
  case invalid =>
    rw [GroupDef.mean_eq_none, ← Bool.not_eq_true, GroupDef.satisfied_iff]
    refine not_and_or.trans (or_congr ?_ not_le)
    simp only [not_forall, not_exists, not_and, exists_prop, ne_eq]
  case quality =>
    obtain ⟨-, -, hq⟩ := GroupDef.mean_eq_some.mp h
    rw [hq, markQuality_eq]
    simp
  case value =>
    obtain ⟨valid, hv, -⟩ := GroupDef.mean_eq_some.mp h
    have enough := ((g.satisfied_iff _).mp valid).2
    have nonempty : g.meanClaims own entries ≠ [] := by
      intro e
      rw [e] at enough
      exact absurd enough (by simp; omega)
    have weights : ∀ c ∈ g.meanClaims own entries, (1 : Int) ≤ c.weight := fun c hc => by
      obtain ⟨i, p, hp, e, -, v, -, rfl⟩ := GroupDef.mem_meanClaims hc
      exact_mod_cast hw p (List.mem_of_getElem? hp)
    rw [hv]
    exact ⟨rfl, roundDiv_mean_between (fun c : Claim => (c.weight : Int)) Claim.term _ nonempty weights⟩

end Sys2Proof.Machine
end

section
/-! Group evaluation: the SLOPE (R34 to R36), the record and what is delivered (R37 to R39). -/

namespace Sys2Proof.Machine

/-! ### The SLOPE -/

/-- In key order the first entry that answers is the one of the least key. -/
theorem findSome?_least {α : Type} {f : Entry → Option α} {b : Entry} {c : α} : ∀ {l : List Entry},
    l.Pairwise (fun x y => keyRank x.key < keyRank y.key) → b ∈ l → f b = some c →
    (∀ e ∈ l, f e ≠ none → keyRank b.key ≤ keyRank e.key) → l.findSome? f = some c
  | x :: xs, hl, hb, hc, hmin => by
    obtain ⟨before, sorted⟩ := List.pairwise_cons.mp hl
    rw [List.findSome?_cons]
    obtain rfl | hb := List.mem_cons.mp hb
    · rw [hc]
    · have silent : f x = none := by
        by_contra answers
        have := hmin x (by simp) answers
        have := before b hb
        omega
      rw [silent]
      exact findSome?_least sorted hb hc fun e he => hmin e (List.mem_cons_of_mem _ he)

section
variable {g : GroupDef} {own : Key} {entries : List Entry} {base slope : Pattern}

theorem Pattern.claim_eq_none {p : Pattern} {i : Nat} {acceptAged : Bool} {e : Entry} :
    p.claim i own acceptAged e = none ↔ ∀ v, ¬ p.Reads own acceptAged e v := by
  rw [Option.eq_none_iff_forall_ne_some]
  constructor
  · exact fun h v hv => h _ (Pattern.claim_eq_some.mpr ⟨v, hv, rfl⟩)
  · intro h c hc
    obtain ⟨v, hv, -⟩ := Pattern.claim_eq_some.mp hc
    exact h v hv

/-- The entry of the least key that a pattern reads is the one it claims (R34). -/
theorem Pattern.claims_least {p : Pattern} {i : Nat} {acceptAged : Bool} {l : List Entry} {b : Entry} {v : Int}
    (hl : l.Pairwise (fun x y => keyRank x.key < keyRank y.key)) (hb : b ∈ l) (hv : p.Reads own acceptAged b v)
    (hmin : ∀ e ∈ l, ∀ w, p.Reads own acceptAged e w → keyRank b.key ≤ keyRank e.key) :
    l.findSome? (p.claim i own acceptAged) = some (p.claimOf i b v) := by
  refine findSome?_least hl hb (Pattern.claim_eq_some.mpr ⟨v, hv, rfl⟩) fun e he hne => ?_
  obtain ⟨c, hc⟩ := Option.ne_none_iff_exists'.mp hne
  obtain ⟨w, hw, -⟩ := Pattern.claim_eq_some.mp hc
  exact hmin e he w hw

theorem Pattern.claims_none {p : Pattern} {i : Nat} {acceptAged : Bool} {l : List Entry}
    (h : ∀ e ∈ l, ∀ v, ¬ p.Reads own acceptAged e v) : l.findSome? (p.claim i own acceptAged) = none :=
  List.findSome?_eq_none_iff.mpr fun e he => Pattern.claim_eq_none.mpr (h e he)

variable (hp : g.patterns = [base, slope])
include hp

theorem GroupDef.slope_baseless (h : entries.findSome? (base.claim 0 own g.acceptAged) = none) :
    g.slope own entries = none := by
  unfold GroupDef.slope
  rw [hp]
  dsimp only
  rw [h]

theorem GroupDef.slope_armless {b : Claim} (hb : entries.findSome? (base.claim 0 own g.acceptAged) = some b)
    (h : (entries.filter (·.key != b.key)).findSome? (slope.claim 1 own g.acceptAged) = none) :
    g.slope own entries = none := by
  unfold GroupDef.slope
  rw [hp]
  dsimp only
  rw [hb]
  dsimp only
  rw [h]

theorem GroupDef.slope_valid {b x : Claim} (hmin : g.minimum ≤ 2)
    (hb : entries.findSome? (base.claim 0 own g.acceptAged) = some b)
    (hx : (entries.filter (·.key != b.key)).findSome? (slope.claim 1 own g.acceptAged) = some x)
    (h0 : b.pattern = 0) (h1 : x.pattern = 1) :
    g.slope own entries = some (clampValue (b.term + roundDiv (x.term * g.arm) 10000),
      markQuality [b, x] (clampValue (b.term + roundDiv (x.term * g.arm) 10000) !=
        b.term + roundDiv (x.term * g.arm) 10000)) := by
  have satisfied : g.satisfied [b, x] = true := by
    refine (g.satisfied_iff _).mpr ⟨fun i p h _ => ?_, hmin⟩
    rw [hp] at h
    match i, h with
    | 0, _ => exact ⟨b, by simp, h0⟩
    | 1, _ => exact ⟨x, by simp, h1⟩
  unfold GroupDef.slope
  rw [hp]
  dsimp only
  rw [hb]
  dsimp only
  rw [hx]
  exact if_pos satisfied

end

/-- The marks of the two claims and the clamp of the result make a SLOPE SUSPECT (R36). -/
theorem markQuality_pair (b x : Claim) (exact : Int) : markQuality [b, x] (clampValue exact != exact) =
    if (b.doubtful = true ∨ x.doubtful = true ∨ clamp (b.value + b.offset) (-32767) 32767 ≠ b.value + b.offset ∨
      clamp (x.value + x.offset) (-32767) 32767 ≠ x.value + x.offset ∨ clamp exact (-32767) 32767 ≠ exact)
    then .suspect else .good := by
  rw [markQuality_eq]
  refine if_congr ?_ rfl rfl
  simp only [List.mem_cons, List.not_mem_nil, or_false, exists_eq_or_imp, exists_eq_left, bne_iff_ne, clampValue,
    clampAbs]
  tauto

/-! ### The evaluation -/

section
variable {s : State} {t : Nat} {n : Fin 4} {st : Settings} {g : GroupDef} {run : GroupRun} {expiry : Clock}

theorem exec_groupEvaluation_due (hs : s.settings = some st) (hg : st.groups[n] = some g)
    (hr : s.groups[n] = some run) (h : s.due t run.timer expiry) :
    exec (.groupEvaluation t n) s =
      .next ((s.tick t).evaluateGroup n g (g.key s.number st.side) run expiry) := by
  have hs' : (s.tick t).settings = some st := by simpa using hs
  show execGroupEvaluation t n s = _
  rw [execGroupEvaluation, State.event_run h.1, State.withSettings_of hs']
  simp only [State.tick_fields, hg, hr, h.timer_expired]

/-- A valid result is recorded and delivered; an INVALID one keeps the value, and FAILED is delivered over one (R37 to
R39). -/
theorem State.evaluateGroup_valid {own : Key} {v : Int} {q : ResultQuality}
    (h : g.evaluate own s.table.entries = some (v, q)) : s.evaluateGroup n g own run expiry =
      (s.setGroup n ⟨⟨.evaluated, some q, some v⟩, some (after expiry g.period)⟩).deliver own q.delivered (some v) := by
  unfold State.evaluateGroup
  dsimp only
  rw [h]
  rfl

theorem State.evaluateGroup_invalid {own : Key} (h : g.evaluate own s.table.entries = none) :
    s.evaluateGroup n g own run expiry =
      if run.record.value.isSome then
        (s.setGroup n ⟨⟨.evaluated, some .invalid, run.record.value⟩, some (after expiry g.period)⟩).deliver own
          .failed none
      else s.setGroup n ⟨⟨.evaluated, some .invalid, run.record.value⟩, some (after expiry g.period)⟩ := by
  unfold State.evaluateGroup
  dsimp only
  rw [h]
  rfl

/-- The group's slot and the result entry are all an evaluation writes. -/
theorem State.setGroup_groups (r : GroupRun) (m : Fin 4) :
    (s.setGroup n r).groups[m] = if m = n then some r else s.groups[m] := by
  unfold State.setGroup
  by_cases h : m = n
  · rw [h, if_pos rfl]
    exact Vector.getElem_set_self _
  · rw [if_neg h]
    exact Vector.getElem_set_ne n.isLt m.isLt fun e => h (Fin.ext e.symm)

end

/-- Settles O30: the due evaluation, then the mean and the slope by what their claims read. -/
theorem groupEvaluationRecordsAndDelivers : Obligations.GroupEvaluationRecordsAndDelivers := by
  refine ⟨fun s t n st g run expiry x d hs hg hr hdue hx hd => ?evaluation, fun g own entries hm => ?mean, ?slope⟩
  case evaluation =>
    refine ⟨_, exec_groupEvaluation_due hs hg hr hdue, by apply State.eq_of_fields <;> simp, ?_⟩
    have entries : (s.tick t).table.entries = s.table.entries := by simp
    have delivered (r : GroupRun) (q : Quality) (v : Option Int) (j : Key) :
        (((s.tick t).setGroup n r).deliver (g.key s.number st.side) q v).table.find j =
          if j = g.key s.number st.side then some (x.take d q v (s.tick t).clock) else s.table.find j := by
      have hs' : ((s.tick t).setGroup n r).settings = some st := by simpa [State.setGroup] using hs
      have table : ((s.tick t).setGroup n r).table = s.table := by simp [State.setGroup]
      rw [State.deliver_find hs' hd, table, hx]
      rfl
    have recorded (r : GroupRun) (q : Quality) (v : Option Int) (m : Fin 4) :
        (((s.tick t).setGroup n r).deliver (g.key s.number st.side) q v).groups[m] =
          if m = n then some r else s.groups[m] := by
      simp only [State.deliver_fields, State.setGroup_groups, State.tick_fields]
    cases hv : g.evaluate (g.key s.number st.side) s.table.entries with
    | some result =>
      rw [State.evaluateGroup_valid (by rw [entries]; exact hv)]
      refine ⟨fun m hm => by rw [recorded, if_neg hm], fun k hk => by rw [delivered, if_neg hk], fun v q h => ?_,
        fun h => by simp at h⟩
      obtain rfl := Option.some.inj h
      exact ⟨by rw [recorded, if_pos rfl], by rw [delivered, if_pos rfl]⟩
    | none =>
      rw [State.evaluateGroup_invalid (by rw [entries]; exact hv)]
      split
      · exact ⟨fun m hm => by rw [recorded, if_neg hm], fun k hk => by rw [delivered, if_neg hk],
          fun v q h => by simp at h, fun _ => ⟨by rw [recorded, if_pos rfl], by rw [delivered, if_pos rfl]⟩⟩
      · refine ⟨fun m hm => ?_, fun k hk => by simp [State.setGroup], fun v q h => by simp at h, fun _ => ⟨?_, ?_⟩⟩
        · rw [State.setGroup_groups, if_neg hm]
          rfl
        · rw [State.setGroup_groups, if_pos rfl]
        · simpa [State.setGroup] using hx
  case mean =>
    unfold GroupDef.evaluate
    rw [hm]
  case slope =>
    intro g own entries base slope hm hp hmin sorted usable marks
    have evaluated : g.evaluate own entries = g.slope own entries := by
      unfold GroupDef.evaluate
      rw [hm]
    rw [evaluated]
    refine ⟨fun hnone => GroupDef.slope_baseless hp (Pattern.claims_none fun e he v hv => hnone e v ⟨he, hv⟩),
      fun b vb hb hbmin => ?_⟩
    have based := Pattern.claims_least (i := 0) sorted hb.1 hb.2 fun e he w hw => hbmin e w ⟨he, hw⟩
    refine ⟨fun hnone => GroupDef.slope_armless hp based (Pattern.claims_none fun e he v hv => ?_),
      ?sloped⟩
    · obtain ⟨he, other⟩ := List.mem_filter.mp he
      exact absurd (hnone e v ⟨he, hv⟩) (bne_iff_ne.mp other)
    · intro x vx hx hne hxmin tb tx exact result
      have sloped : (entries.filter (·.key != (base.claimOf 0 b vb).key)).findSome? (slope.claim 1 own g.acceptAged) =
          some (slope.claimOf 1 x vx) := by
        refine Pattern.claims_least (sorted.filter _) (List.mem_filter.mpr ⟨hx.1, bne_iff_ne.mpr hne⟩) hx.2
          fun e he w hw => ?_
        obtain ⟨he, other⟩ := List.mem_filter.mp he
        exact hxmin e w ⟨he, hw⟩ (bne_iff_ne.mp other)
      rw [GroupDef.slope_valid hp hmin based sloped rfl rfl, markQuality_pair]
      simp only [Pattern.claimOf_doubtful]
      exact ⟨fun h => congrArg some (congrArg _ (if_pos h)), fun h => congrArg some (congrArg _ (if_neg h))⟩

end Sys2Proof.Machine
end

section
/-! The converter: scan starts and overruns (R48, R51), and the coil checks (R110 to R112). -/

namespace Sys2Proof.Machine

/-! ### The fault collection and STATUS -/

theorem State.addFault_marks (s : State) (f : FaultCode) : s.MarksFaults (s.addFault f) := by
  unfold State.MarksFaults
  rw [State.addFault_eq]
  split
  · exact (if_pos rfl).symm
  · exact (if_neg (by simp)).symm

theorem State.removeFault_marks (s : State) (f : FaultCode) : s.MarksFaults (s.removeFault f) := by
  unfold State.MarksFaults
  rw [State.removeFault_eq]
  dsimp only
  split
  · rename_i h
    refine (if_neg fun e => ?_).symm
    have := List.filter_eq_self.mp e f h
    simp at this
  · rename_i h
    refine (if_pos (List.filter_eq_self.mpr fun g hg => ?_)).symm
    simp only [bne_iff_ne, ne_eq]
    rintro rfl
    exact h hg

/-! ### Scans (R48, R51) -/

section
variable {s : State} {t : Nat} {st : Settings} {expiry : Clock}

theorem exec_scanStart_due (hs : s.settings = some st) (h : s.due t s.converter.scanTimer expiry) :
    exec (.scanStart t) s = .next ({ s.tick t with
      converter := { s.converter with scanTimer := some (after expiry st.scanPeriod) } } : State).scanExpiry := by
  have hs' : (s.tick t).settings = some st := by simpa using hs
  show execScanStart t s = _
  rw [execScanStart, State.event_run h.1, State.withSettings_of hs']
  simp only [State.tick_fields, h.timer_expired]

theorem exec_scanStart_idle (hs : s.settings = some st) (h : s.due t s.converter.scanTimer expiry)
    (hidle : s.converter.scan = none) : exec (.scanStart t) s = .next { s.tick t with converter := { s.converter with
      scan := some []
      scanTimer := some (after expiry st.scanPeriod)
      running := if s.converter.running = none then some ⟨.scan, max s.now t⟩ else s.converter.running } } := by
  rw [exec_scanStart_due hs h, State.scanExpiry]
  dsimp only
  rw [hidle]
  dsimp only
  split
  · rfl
  · rfl

theorem exec_scanStart_overrun {codes : List Nat} (hs : s.settings = some st) (h : s.due t s.converter.scanTimer expiry)
    (hscan : s.converter.scan = some codes) : exec (.scanStart t) s = .next (({ s.tick t with converter :=
      { s.converter with
        scanTimer := some (after expiry st.scanPeriod)
        overrunTimer := some (after (s.tick t).clock 1000) } } : State).addFault .scanOverrun) := by
  rw [exec_scanStart_due hs h, State.scanExpiry]
  dsimp only
  rw [hscan]
  rfl

theorem exec_overrunClear_due (h : s.due t s.converter.overrunTimer expiry) : exec (.overrunClear t) s =
    .next (({ s.tick t with converter := { s.converter with overrunTimer := none } } : State).removeFault
      .scanOverrun) := by
  show execOverrunClear t s = _
  rw [execOverrunClear, State.event_run h.1]
  simp only [State.tick_fields, h.timer_expired]

end

/-- Settles O32: a scan on an idle converter, one that overruns, and the overrun's end. -/
theorem scansStartAndOverrun : Obligations.ScansStartAndOverrun := by
  refine ⟨fun s t st expiry hs hd hidle => ?starts, fun s t st expiry codes hs hd hscan => ?overruns,
    fun s t expiry hd hmem => ?clears⟩
  case starts => exact exec_scanStart_idle hs hd hidle
  case overruns =>
    refine ⟨_, exec_scanStart_overrun hs hd hscan, State.addFault_faults _ _, by simp, ?_, ?_⟩
    · exact State.addFault_marks ({ s.tick t with converter := { s.converter with
        scanTimer := some (after expiry st.scanPeriod)
        overrunTimer := some (after (s.tick t).clock 1000) } } : State) .scanOverrun
    · apply State.eq_of_fields <;> simp
  case clears =>
    rw [exec_overrunClear_due hd, State.removeFault_eq]
    exact congrArg (fun line => Host.Outcome.next { s.tick t with
      converter := { s.converter with overrunTimer := none }
      faults := s.faults.filter (· != FaultCode.scanOverrun), line := line }) (if_pos hmem)

/-! ### Coil checks (R110 to R112) -/

/-- What runs now does not reach what the arbiter begins next. -/
theorem Converter.arbitrated_running (k : Converter) (r : Option Conversion) (positions now : Nat) :
    ({ k with running := r } : Converter).arbitrated positions now = k.arbitrated positions now := by
  unfold Converter.arbitrated
  dsimp only

theorem Converter.withRequest_running (k : Converter) (r : Option Conversion) (c : ChannelId) (x : Option Int) :
    ({ k with running := r } : Converter).withRequest c x = { k.withRequest c x with running := r } := by
  cases c <;> rfl

/-- A channel forced to rest enters its state with its waiting check withdrawn. -/
theorem State.forceChannel_enters {s : State} {c : ChannelId} {state : ChannelState} (cause : Option HeldCause)
    (fault : Option CoilFault) (resume : Option Clock) (h : (s.channel c).state ≠ state) :
    s.Enters c { (s.channel c).forced with state := state, cause := cause, fault := fault, resumeTimer := resume } none
      s.faults (s.forceChannel c state cause fault resume) := by
  refine State.Enters.of_put (w := s.withdrawCheck c) ?_ ?_ h
  · rw [State.withdrawCheck_eq]
  · rw [State.withdrawCheck_eq]

/-- A fault added to a state just entered adds nothing but its code. -/
theorem State.Enters.addFault {s u : State} {c : ChannelId} {ch : Channel} {request : Option Int}
    {faults : List FaultCode} (h : s.Enters c ch request faults u) (f : FaultCode) :
    s.Enters c ch request (if f ∈ faults then faults else faults ++ [f]) (u.addFault f) := by
  obtain ⟨keeps, entered⟩ := h
  have conveyor : (u.addFault f).conveyor = u.conveyor := by simp
  have chanA : (u.addFault f).chanA = u.chanA := by simp
  refine ⟨?_, ?_⟩
  · unfold State.KeepsConveyor at *
    rw [conveyor, chanA, keeps]
  · rw [conveyor, State.addFault_eq, entered]
    dsimp only
    split
    · rfl
    · simp [Line.statusMarked]

/-- A channel's FAULT (R112): it enters at rest, and its code is added. -/
theorem State.coilFault_enters {s : State} {c : ChannelId} (f : CoilFault) (h : (s.channel c).state ≠ .fault) :
    s.Enters c { (s.channel c).forced with state := .fault, cause := none, fault := some f, resumeTimer := none } none
      (if coilCode c f ∈ s.faults then s.faults else s.faults ++ [coilCode c f]) (s.coilFault c f) :=
  (State.forceChannel_enters none (some f) none h).addFault (coilCode c f)

section
variable {s : State} {t began : Nat} {raw : BitVec 12} {st : Settings} {user : ConversionUser}

theorem exec_conversionComplete_elapsed (hr : s.runs) (hs : s.settings = some st)
    (hk : s.converter.running = some ⟨user, began⟩) (ht : began + 25 ≤ max s.now t) :
    exec (.conversionComplete t raw) s =
      .next ((({ s.tick t with converter := { s.converter with running := none } } : State).deliverConversion st user
        raw).nextConversion st.scanList.length) := by
  have hs' : (s.tick t).settings = some st := by simpa using hs
  show execConversionComplete t raw s = _
  rw [execConversionComplete, State.event_run hr, State.withSettings_of hs']
  have hk' : (s.tick t).converter.running = some ⟨user, began⟩ := hk
  rw [hk']
  exact congrArg Host.Outcome.next (if_pos ht)

end

section
variable {s : State} {c : ChannelId} {target measured : Int}

/-- The judgement of a result (R110, R111), case by case. -/
theorem State.judgeCoil_unused
    (h : ¬ (((s.channel c).state = .manual ∨ (s.channel c).state = .auto) ∧ (s.channel c).out ≠ 0)) :
    s.judgeCoil c target measured = s := if_neg h

variable (hd : ((s.channel c).state = .manual ∨ (s.channel c).state = .auto) ∧ (s.channel c).out ≠ 0)
include hd

theorem State.judgeCoil_short (h : 3 * target < 2 * measured ∨ 2600 < measured) :
    s.judgeCoil c target measured = s.coilFault c .coilShort := (if_pos hd).trans (if_pos h)

variable (h1 : 2 * measured ≤ 3 * target) (h2 : measured ≤ 2600)
include h1 h2

theorem State.judgeCoil_notShort : s.judgeCoil c target measured =
    if 4 * measured < target then
      if 2 ≤ (s.channel c).openRun then s.coilFault c .coilOpen
      else s.setChannel c { s.channel c with openRun := (s.channel c).openRun + 1 }
    else s.setChannel c { s.channel c with openRun := 0 } :=
  (if_pos hd).trans (if_neg (show ¬ (3 * target < 2 * measured ∨ 2600 < measured) by omega))

end

/-- Settles O34: the judgement of `State.judgeCoil`, then the arbiter. -/
theorem coilChecksAreJudged : Obligations.CoilChecksAreJudged := by
  intro s t began raw st c target hr hs hk ht measured driven judged faulted
  have ran := exec_conversionComplete_elapsed (raw := raw) hr hs hk ht
  generalize hw : ({ s.tick t with converter := { s.converter with running := none } } : State) = w at ran
  have channel : w.channel c = s.channel c := by
    rw [← hw]
    cases c <;> rfl
  have stays {ch : Channel} (hst : ch.state = (s.channel c).state)
      (h : w.judgeCoil c target measured = w.setChannel c ch) :
      judged ch s.faults s.converter s.line := by
    refine ⟨_, ran, ?_⟩
    rw [show w.deliverConversion st (.check c target) raw = w.setChannel c ch from h]
    have idle : (w.setChannel c ch).converter.running = none := by
      rw [← hw]
      cases c <;> rfl
    rw [State.nextConversion_idle _ _ idle, ← hw]
    unfold State.KeepsConveyor
    cases c
    · refine ⟨?_, ?_⟩
      · exact (if_neg fun h => h.2 (hst.trans h.1)).symm
      · simp [State.setChannel, Converter.arbitrated_running]
    · refine ⟨?_, ?_⟩
      · exact (if_neg fun h => h.2 h.1).symm
      · simp [State.setChannel, Converter.arbitrated_running]
  have faults {f : CoilFault} (hd : driven) (h : w.judgeCoil c target measured = w.coilFault c f) : faulted f := by
    have notFault : (w.channel c).state ≠ .fault := by
      rw [channel]
      obtain ⟨h | h, -⟩ := hd <;> rw [h] <;> decide
    obtain ⟨keeps, entered⟩ := State.coilFault_enters f notFault
    refine ⟨_, ran, ?_⟩
    rw [show w.deliverConversion st (.check c target) raw = w.coilFault c f from h]
    have idle : (w.coilFault c f).converter.running = none := by
      rw [entered, ← hw]
      cases c <;> rfl
    rw [State.nextConversion_idle _ _ idle]
    refine ⟨?_, ?_⟩
    · subst hw
      exact keeps
    · have asked : (w.coilFault c f).converter.arbitrated st.scanList.length (w.coilFault c f).now =
          (s.converter.withRequest c none).arbitrated st.scanList.length (max s.now t) := by
        have now : (w.coilFault c f).now = max s.now t := by
          rw [← hw]
          simp [State.tick]
        have next : (w.coilFault c f).converter = w.converter.withRequest c none := by rw [entered]
        rw [now, next, ← hw]
        dsimp only
        rw [Converter.withRequest_running, Converter.arbitrated_running]
      rw [asked]
      refine (congrArg (fun u : State => { u with
        converter := (s.converter.withRequest c none).arbitrated st.scanList.length (max s.now t) }) entered).trans ?_
      subst hw
      cases c <;> rfl
  refine ⟨fun hd => stays rfl ?_, fun hd h => faults hd ?_, fun hd h1 h2 h3 h4 => faults hd ?_,
    fun hd h1 h2 h3 h4 => stays rfl ?_, fun hd h1 h2 h3 => stays rfl ?_⟩
  · rw [State.judgeCoil_unused (by rwa [channel]), ← channel, State.setChannel_stands]
  · exact State.judgeCoil_short (by rwa [channel]) h
  · rw [State.judgeCoil_notShort (by rwa [channel]) h1 h2, if_pos h3, channel, if_pos h4]
  · rw [State.judgeCoil_notShort (by rwa [channel]) h1 h2, if_pos h3, channel, if_neg (by omega)]
  · rw [State.judgeCoil_notShort (by rwa [channel]) h1 h2, if_neg (by omega), channel]

end Sys2Proof.Machine
end

section
/-! The serial sensor port (R56 to R60) and the pulse inputs (R61 to R63). -/

namespace Sys2Proof.Machine

/-! ### Exchanges (R56 to R59) -/

theorem exec_serialExchangeBegin_due {s : State} {t i : Nat} {st : Settings} {x : SourceDef} {take period : Nat}
    {expiry : Clock} (hs : s.settings = some st) (hx : st.serialSource = some (i, x, take, period))
    (h : s.due t s.port.exchangeTimer expiry) : exec (.serialExchangeBegin t) s = .next { s.tick t with
      port := { s.port with
        exchange := some ⟨max s.now t, [1, 0, 0, 0]⟩, exchangeTimer := some (after expiry period) } } := by
  have hs' : (s.tick t).settings = some st := by simpa using hs
  show execSerialExchangeBegin t s = _
  rw [execSerialExchangeBegin, State.event_run h.1, State.withSettings_of hs', hx]
  simp only [State.tick_fields, h.timer_expired]
  rfl

/-- Of the request's 32 bits the eighth alone is 1 (R56). -/
theorem requestBits_getElem : ∀ k < 32, (SerialExchange.bits ⟨0, [1, 0, 0, 0]⟩)[k]? = some (decide (k = 7)) := by decide

theorem SerialPort.sdo_request {p : SerialPort} {began now : Nat} (h : p.exchange = some ⟨began, [1, 0, 0, 0]⟩)
    (hn : began ≤ now) :
    p.sdo now = if now < began + 64 then some (decide (began + 14 ≤ now ∧ now < began + 16)) else none := by
  have bits : p.sdo now = (SerialExchange.bits ⟨0, [1, 0, 0, 0]⟩)[(now - began) / 2]? := by
    unfold SerialPort.sdo
    rw [h]
    rfl
  rw [bits]
  split
  · rw [requestBits_getElem _ (by omega)]
    exact congrArg some (decide_eq_decide.mpr (by omega))
  · refine List.getElem?_eq_none ?_
    rw [show (SerialExchange.bits ⟨0, [1, 0, 0, 0]⟩).length = 32 by decide]
    omega

/-- What a reply's bytes say (R58). -/
theorem replyOutcome_eq_some {status high low check : Byte} {o : ReplyOutcome} :
    replyOutcome status high low check = some o ↔
      (check = status ^^^ high ^^^ low ^^^ 0x5A ∧ status = 0 ∧ o = .value (high ++ low).toInt) ∨
      (check = status ^^^ high ^^^ low ^^^ 0x5A ∧ status = 1 ∧ o = .notReady) := by
  unfold replyOutcome
  split
  · rename_i hc
    split
    · rename_i h0
      constructor
      · exact fun h => .inl ⟨hc, h0, (Option.some.inj h).symm⟩
      · rintro (⟨-, -, rfl⟩ | ⟨-, h1, -⟩)
        · rfl
        · exact absurd (h0.symm.trans h1) (by decide)
    · rename_i h0
      split
      · rename_i h1
        constructor
        · exact fun h => .inr ⟨hc, h1, (Option.some.inj h).symm⟩
        · rintro (⟨-, h, -⟩ | ⟨-, -, rfl⟩)
          · exact absurd h h0
          · rfl
      · rename_i h1
        exact ⟨nofun, fun h => h.elim (fun h => absurd h.2.1 h0) fun h => absurd h.2.1 h1⟩
  · rename_i hc
    exact ⟨nofun, fun h => absurd (h.elim And.left And.left) hc⟩

theorem replyOutcome_eq_none {status high low check : Byte}
    (h : ¬ (check = status ^^^ high ^^^ low ^^^ 0x5A ∧ (status = 0 ∨ status = 1))) :
    replyOutcome status high low check = none := by
  refine Option.eq_none_iff_forall_ne_some.mpr fun o ho => ?_
  obtain ⟨hc, h0, -⟩ | ⟨hc, h1, -⟩ := replyOutcome_eq_some.mp ho
  · exact h ⟨hc, .inl h0⟩
  · exact h ⟨hc, .inr h1⟩

theorem SerialPort.place_eq (p : SerialPort) (o : ReplyOutcome) :
    p.place o = { p with buffer := if p.buffer = none then some o else p.buffer } := by
  unfold SerialPort.place
  cases p.buffer with
  | none => rfl
  | some older => rfl

section
variable {s : State} (h : s.port.state = .tracking)
include h

theorem State.judgeReply_sound (o : ReplyOutcome) : s.judgeReply (some o) =
    ({ s with port := { s.port.place o with errorRun := 0 } } : State).removeFault .portLost := by
  unfold State.judgeReply
  rw [h]

theorem State.judgeReply_error (hr : s.port.errorRun < 2) : s.judgeReply none =
    { s with port := { s.port with errorRun := s.port.errorRun + 1 } } := by
  unfold State.judgeReply
  rw [h]
  exact if_pos hr

theorem State.judgeReply_third (hr : 2 ≤ s.port.errorRun) : s.judgeReply none =
    ({ s with port := { s.port.place .lost with errorRun := 0, state := .syncing } } : State).addFault .portLost := by
  unfold State.judgeReply
  rw [h]
  exact if_neg (by omega)

end

/-- The judgement marks STATUS with the fault collection, and touches the port beside them (R149). -/
theorem State.judgeReply_marks {s : State} (o : Option ReplyOutcome) : s.MarksFaults (s.judgeReply o) ∧
    s.judgeReply o = { s with
      port := (s.judgeReply o).port, faults := (s.judgeReply o).faults, line := (s.judgeReply o).line } := by
  refine ⟨?_, by apply State.eq_of_fields <;> simp⟩
  unfold State.judgeReply
  split
  · exact (if_pos rfl).symm
  · exact State.removeFault_marks { s with port := { s.port.place _ with errorRun := 0 } } .portLost
  · split
    · exact (if_pos rfl).symm
    · exact State.addFault_marks { s with port := { s.port.place .lost with errorRun := 0, state := .syncing } }
        .portLost

/-- Settles O36: what SDO shows of the exchange, then the judgement of its reply by outcome. -/
theorem serialExchanges : Obligations.SerialExchanges := by
  refine ⟨fun s t i st x take period expiry hs hx hd => exec_serialExchangeBegin_due hs hx hd,
    fun p => ⟨?selected, fun h now => by rw [SerialPort.sdo, h]; rfl,
      fun began h now hn => SerialPort.sdo_request h hn⟩,
    fun s t x status high low check hr hp hx ht => ?judged⟩
  case selected =>
    unfold SerialPort.selected
    exact Option.isSome_iff_ne_none
  case judged =>
    have ran := execSerialExchangeComplete_elapsed status high low check hr hx ht
    generalize hw : ({ s.tick t with port := { s.port with exchange := none } } : State) = w at ran
    have tracking : w.port.state = .tracking := by rw [← hw]; exact hp
    obtain ⟨marks, others⟩ := w.judgeReply_marks (replyOutcome status high low check)
    refine ⟨_, (exec_serialExchangeComplete ..).trans ran, ?_, ?_, fun o ho => ?sound, fun h hrun => ?error,
      fun h hrun => ?third⟩
    · subst hw
      exact marks
    · subst hw
      exact others
    case sound =>
      rw [replyOutcome_eq_some.mpr (ho.imp (fun ⟨a, b, c⟩ => ⟨a, b, c⟩) fun ⟨a, b, c⟩ => ⟨a, b, c⟩),
        State.judgeReply_sound tracking, State.removeFault_faults]
      subst hw
      simp [SerialPort.place_eq]
    case error =>
      rw [replyOutcome_eq_none h, State.judgeReply_error tracking (by rw [← hw]; exact hrun)]
      subst hw
      exact ⟨rfl, rfl⟩
    case third =>
      rw [replyOutcome_eq_none h, State.judgeReply_third tracking (by rw [← hw]; exact hrun), State.addFault_faults]
      subst hw
      simp [SerialPort.place_eq]

/-! ### Deliveries of a source (R53 to R55, R60, R63) -/

section
variable {s : State} {st : Settings} {x : SourceDef} {d : QuantityDef} {e : Entry} {i : Nat}
  (hs : s.settings = some st) (hf : s.table.find (x.key s.number) = some e) (hd : st.quantity x.code = some d)
include hs hf hd

/-- A raw value delivered scaled and smoothed reaches the source's entry and smoothing state alone. -/
theorem State.deliverRaw_delivers (raw : Int) :
    (s.deliverRaw i x raw).smoothing = s.smoothing.set i (some (x.smooth (s.smoothed i) (x.scale raw))) ∧
    (s.deliverRaw i x raw).table.find (x.key s.number) =
      some (e.take d .good (some (x.smooth (s.smoothed i) (x.scale raw))) s.clock) := by
  unfold State.deliverRaw
  refine ⟨by simp, ?_⟩
  refine (State.deliver_find (by exact hs) hd _ _ _).trans ((if_pos rfl).trans ?_)
  exact congrArg (Option.map _) hf

theorem State.deliverFailed_delivers :
    (s.deliverFailed i x).smoothing = s.smoothing.set i none ∧
    (s.deliverFailed i x).table.find (x.key s.number) = some (e.take d .failed none s.clock) := by
  unfold State.deliverFailed
  refine ⟨by simp, ?_⟩
  refine (State.deliver_find (by exact hs) hd _ _ _).trans ((if_pos rfl).trans ?_)
  exact congrArg (Option.map _) hf

omit hf hd in
/-- A delivery leaves every other entry. -/
theorem State.deliver_others {k j : Key} (q : Quality) (v : Option Int) (hj : j ≠ k) :
    (s.deliver k q v).table.find j = s.table.find j := by
  unfold State.deliver
  rw [State.withSettings_of hs]
  split
  · exact (State.updateEntry_find s k (fun e => e.take _ q v s.clock) j fun _ h => h).trans (if_neg hj)
  · rfl

end

/-! ### The SERIAL source's take (R60) -/

section
variable {s : State} {t i : Nat} {st : Settings} {x : SourceDef} {take period : Nat} {expiry : Clock}
  (hs : s.settings = some st) (hx : st.serialSource = some (i, x, take, period)) (h : s.due t s.port.takeTimer expiry)
include hs hx h

theorem exec_serialTake_empty (hb : s.port.buffer = none) : exec (.serialTake t) s = .next { s.tick t with
    port := { s.port with buffer := none, takeTimer := some (after expiry take) } } := by
  have hs' : (s.tick t).settings = some st := by simpa using hs
  show execSerialTake t s = _
  rw [execSerialTake, State.event_run h.1, State.withSettings_of hs', hx]
  simp only [State.tick_fields, h.timer_expired, hb]

theorem exec_serialTake_outcome {o : ReplyOutcome} (hb : s.port.buffer = some o) : exec (.serialTake t) s =
    .next (({ s.tick t with port := { s.port with buffer := none, takeTimer := some (after expiry take) } } :
      State).takeOutcome i x o) := by
  have hs' : (s.tick t).settings = some st := by simpa using hs
  show execSerialTake t s = _
  rw [execSerialTake, State.event_run h.1, State.withSettings_of hs', hx]
  simp only [State.tick_fields, h.timer_expired, hb]

end

theorem State.takeOutcome_others {s : State} {st : Settings} {x : SourceDef} {i : Nat} {k : Key}
    (hs : s.settings = some st) (hk : k ≠ x.key s.number) (o : ReplyOutcome) :
    (s.takeOutcome i x o).table.find k = s.table.find k := by
  unfold State.takeOutcome
  split
  · exact State.deliver_others (by exact hs) _ _ hk
  · exact State.deliver_others hs _ _ hk
  · rfl
  · exact State.deliver_others (by exact hs) _ _ hk

theorem State.takeOutcome_fresh {s : State} {x : SourceDef} {i : Nat} (h : s.smoothed i = none) :
    s.takeOutcome i x .notReady = s := by
  unfold State.takeOutcome
  rw [h]

theorem State.takeOutcome_held {s : State} {x : SourceDef} {i : Nat} {y : Int} (h : s.smoothed i = some y) :
    s.takeOutcome i x .notReady = s.deliver (x.key s.number) .held (some y) := by
  unfold State.takeOutcome
  rw [h]

/-- Settles O37: a take of an empty buffer, then of each outcome that may wait in it. -/
theorem serialTakes : Obligations.SerialTakes := by
  intro s t i st x take period expiry e d hs hx hdue hf hd hi
  cases hb : s.port.buffer with
  | none =>
    refine ⟨_, exec_serialTake_empty hs hx hdue hb, rfl, rfl, fun _ _ => rfl, fun _ => ⟨rfl, rfl⟩, ?_⟩
    simp
  | some o =>
    have ran := exec_serialTake_outcome hs hx hdue hb
    generalize hw : ({ s.tick t with
      port := { s.port with buffer := none, takeTimer := some (after expiry take) } } : State) = w at ran
    have settings : w.settings = some st := by rw [← hw]; exact hs
    have number : w.number = s.number := by rw [← hw]; rfl
    have table : w.table = s.table := by rw [← hw]; rfl
    have smoothing : w.smoothing = s.smoothing := by rw [← hw]; rfl
    have smoothed : w.smoothed i = s.smoothed i := by rw [State.smoothed, smoothing]; rfl
    have clock : w.clock = (s.tick t).clock := by rw [← hw]; rfl
    have found : w.table.find (x.key w.number) = some e := by rw [table, number, hf]
    have port : (w.takeOutcome i x o).port = { s.port with buffer := none, takeTimer := some (after expiry take) } := by
      rw [← hw]
      simp
    refine ⟨_, ran, port, ?_, fun k hk => ?_, nofun, fun raw h => ?value, fun y h hy => ?held,
      fun h hy => ?unready, fun h => ?lost⟩
    · rw [port]
      subst hw
      apply State.eq_of_fields <;> simp
    · rw [State.takeOutcome_others settings (by rwa [number]), table]
    all_goals obtain rfl := Option.some.inj h
    case value =>
      have delivered := State.deliverRaw_delivers (i := i) settings found hd raw
      rwa [smoothing, smoothed, number, clock] at delivered
    case held =>
      rw [State.takeOutcome_held (smoothed.trans hy)]
      refine ⟨by simp [smoothing], ?_⟩
      rw [← number, State.deliver_find settings hd, if_pos rfl, found, clock]
      rfl
    case unready =>
      rw [State.takeOutcome_fresh (smoothed.trans hy)]
      exact ⟨table, smoothing⟩
    case lost =>
      have delivered := State.deliverFailed_delivers (i := i) settings found hd
      rwa [smoothing, number, clock] at delivered

end Sys2Proof.Machine
end

section
/-! The pulse inputs: capture (R61, R62) and the speed delivered (R63). -/

namespace Sys2Proof.Machine

/-- A timer just set has not expired (assumption 3). -/
theorem not_reached_after {c : Clock} {ms : Nat} (h0 : 0 < ms) (h1 : ms < 2 ^ 31) : reached c (after c ms) = false := by
  have distance : since c (after c ms) = 2 ^ 32 - ms := by
    unfold since after
    rw [show c - (c + BitVec.ofNat 32 ms) = -BitVec.ofNat 32 ms by simp, BitVec.toNat_neg, BitVec.toNat_ofNat]
    omega
  unfold reached
  rw [distance]
  exact decide_eq_false (by omega)

theorem expired_after {c : Clock} {ms : Nat} (h0 : 0 < ms) (h1 : ms < 2 ^ 31) :
    expired (some (after c ms)) c = none := by
  unfold expired
  dsimp only
  rw [not_reached_after h0 h1]
  rfl

theorem State.setPulse_pulse (s : State) (i : PulseInput) (p : PulseState) : (s.setPulse i p).pulse i = p := by
  cases i <;> rfl

theorem State.setPulse_stands (s : State) (i : PulseInput) : s.setPulse i (s.pulse i) = s := by cases i <;> rfl

theorem State.setPulse_clock (s : State) (i : PulseInput) (p : PulseState) (t : Nat) :
    ((s.setPulse i p).tick t).clock = (s.tick t).clock := by cases i <;> rfl

/-! ### Edges (R61) -/

theorem PulseState.edge_first {p : PulseState} (h : p.lastEdge = none) (moment : BitVec 32) (expiry : Clock) :
    p.edge moment expiry = { p with lastEdge := some moment, edgeTimer := some expiry } := by
  unfold PulseState.edge
  rw [h]

section
variable {p : PulseState} {moment last : BitVec 32} (h : p.lastEdge = some last) (expiry : Clock)
include h

theorem PulseState.edge_glitch (hg : (moment - last).toNat < 50) : p.edge moment expiry = p := by
  unfold PulseState.edge
  rw [h]
  exact if_pos hg

theorem PulseState.edge_period (hg : 50 ≤ (moment - last).toNat) : p.edge moment expiry = { p with
    lastEdge := some moment
    ring := (if p.ring.length < 4 then p.ring else p.ring.drop 1) ++ [moment - last]
    edgeTimer := some expiry } := by
  unfold PulseState.edge
  rw [h]
  exact if_neg (show ¬ (moment - last).toNat < 50 by omega)

end

section
variable {s : State} {t i : Nat} {input : PulseInput} {st : Settings} {x : SourceDef}
  {constant timeout update : Nat}

theorem exec_pulseEdge (hr : s.runs) (hs : s.settings = some st)
    (hx : st.pulseSource input = some (i, x, constant, timeout, update)) : exec (.pulseEdge t input) s =
      .next ((s.tick t).setPulse input
        ((s.pulse input).edge (BitVec.ofNat 32 (max s.now t)) (after (s.tick t).clock timeout))) := by
  have hs' : (s.tick t).settings = some st := by simpa using hs
  show execPulseEdge t input s = _
  rw [execPulseEdge, State.event_run hr, State.withSettings_of hs', hx]
  cases input <;> rfl

theorem exec_pulseStopped_due {expiry : Clock} (h : s.due t (s.pulse input).edgeTimer expiry) :
    exec (.pulseStopped t input) s =
      .next ((s.tick t).setPulse input { s.pulse input with lastEdge := none, ring := [], edgeTimer := none }) := by
  have timer : expired ((s.tick t).pulse input).edgeTimer (s.tick t).clock = some expiry := by
    cases input <;> exact h.timer_expired
  show execPulseStopped t input s = _
  rw [execPulseStopped, State.event_run h.1, timer]
  cases input <;> rfl

theorem exec_pulseStopped_running (hr : s.runs) (h : expired (s.pulse input).edgeTimer (s.tick t).clock = none) :
    exec (.pulseStopped t input) s = .next (s.tick t) := by
  have timer : expired ((s.tick t).pulse input).edgeTimer (s.tick t).clock = none := by
    cases input <;> exact h
  show execPulseStopped t input s = _
  rw [execPulseStopped, State.event_run hr, timer]

end

/-- Settles O38: each edge by the gap before it, and the restart after the edge timer. -/
theorem pulseInputsCapture : Obligations.PulseInputsCapture := by
  refine ⟨fun s t i input st x constant timeout update hr hs hx => ?edges,
    fun s t i input st x constant timeout update expiry hs hx hd => ?stopped⟩
  case edges =>
    have edge := exec_pulseEdge (t := t) hr hs hx
    refine ⟨fun h => ?_, fun last h hg => ?_, fun last h hg => ?_⟩
    · rw [edge, PulseState.edge_first h]
    · rw [edge, PulseState.edge_glitch h _ hg]
      exact congrArg Host.Outcome.next (State.setPulse_stands (s.tick t) input)
    · rw [edge, PulseState.edge_period h _ hg]
  case stopped =>
    refine ⟨_, exec_pulseStopped_due hd, rfl, fun t' => ?next, fun last h hg h0 h1 => ?restarted⟩
    case next =>
      rw [exec_pulseEdge (by cases input <;> exact hd.1) (by cases input <;> exact hs) hx, State.setPulse_pulse,
        PulseState.edge_first rfl]
    case restarted =>
      have edge := exec_pulseEdge (t := t) hd.1 hs hx
      rw [PulseState.edge_period h _ hg] at edge
      refine ⟨_, edge, by rw [State.setPulse_pulse], by rw [State.setPulse_pulse], ?_⟩
      refine exec_pulseStopped_running (by cases input <;> exact hd.1) ?_
      have same : (((s.tick t).setPulse input { s.pulse input with
          lastEdge := some (BitVec.ofNat 32 (max s.now t))
          ring := (if (s.pulse input).ring.length < 4 then (s.pulse input).ring else (s.pulse input).ring.drop 1) ++
            [BitVec.ofNat 32 (max s.now t) - last]
          edgeTimer := some (after (s.tick t).clock timeout) }).tick t).clock = (s.tick t).clock := by
        rw [State.setPulse_clock]
        simp [State.clock, State.tick]
      rw [State.setPulse_pulse, same]
      exact expired_after h0 h1

/-! ### The speed (R63) -/

theorem exec_pulseUpdate_due {s : State} {t i : Nat} {input : PulseInput} {st : Settings} {x : SourceDef}
    {constant timeout period : Nat} {expiry : Clock} (hs : s.settings = some st)
    (hx : st.pulseSource input = some (i, x, constant, timeout, period))
    (h : s.due t (s.pulse input).updateTimer expiry) : exec (.pulseUpdate t input) s =
      .next (((s.tick t).setPulse input { s.pulse input with
        updateTimer := some (after expiry period) }).deliverRaw i x (pulseSpeed (s.pulse input).ring constant)) := by
  have hs' : (s.tick t).settings = some st := by simpa using hs
  have timer : expired ((s.tick t).pulse input).updateTimer (s.tick t).clock = some expiry := by
    cases input <;> exact h.timer_expired
  show execPulseUpdate t input s = _
  rw [execPulseUpdate, State.event_run h.1, State.withSettings_of hs', hx, timer]
  cases input <;> rfl

/-- Settles O39: the due update delivers the ring's speed by `State.deliverRaw_delivers`. -/
theorem pulseSourcesDeliverTheSpeed : Obligations.PulseSourcesDeliverTheSpeed := by
  intro s t i input st x constant timeout period expiry e d hs hx hdue hf hd hi periods speed y
  have ran := exec_pulseUpdate_due hs hx hdue
  generalize hw : (s.tick t).setPulse input { s.pulse input with updateTimer := some (after expiry period) } = w at ran
  have settings : w.settings = some st := by rw [← hw]; cases input <;> exact hs
  have number : w.number = s.number := by rw [← hw]; cases input <;> rfl
  have table : w.table = s.table := by rw [← hw]; cases input <;> rfl
  have smoothing : w.smoothing = s.smoothing := by rw [← hw]; cases input <;> rfl
  have smoothed : w.smoothed i = s.smoothed i := by rw [State.smoothed, smoothing]; rfl
  have clock : w.clock = (s.tick t).clock := by rw [← hw]; cases input <;> rfl
  have pulse : (w.deliverRaw i x (pulseSpeed (s.pulse input).ring constant)).pulse input = w.pulse input := by
    cases input <;> simp [State.pulse]
  have delivered := State.deliverRaw_delivers (i := i) settings (by rw [table, number, hf]) hd
    (pulseSpeed (s.pulse input).ring constant)
  rw [smoothing, smoothed, number, clock] at delivered
  have scaled : x.scale (pulseSpeed (s.pulse input).ring constant) =
      clampValue (roundDiv (speed * x.gain) 4096 + x.offset) := by
    show _ = clampValue (roundDiv ((if (s.pulse input).ring = [] then 0 else _) * x.gain) 4096 + x.offset)
    rw [SourceDef.scale, pulseSpeed, List.length_map]
  rw [scaled] at delivered
  refine ⟨_, ran, ?_, delivered.1, delivered.2, fun k hk => ?_, ?_⟩
  · rw [pulse, ← hw, State.setPulse_pulse]
  · rw [← table]
    exact State.deliver_others (by exact settings) _ _ (by rwa [number])
  · rw [pulse, ← hw, State.setPulse_pulse]
    cases input <;> (apply State.eq_of_fields <;> simp)

end Sys2Proof.Machine
end

section
/-! A scan's conversions: the codes join, and the last one lets every ANALOG source deliver (R48, R50, R52 to R55). -/

namespace Sys2Proof.Machine

/-! ### One source -/

section
variable {s : State} {codes : List Nat} {x : SourceDef} {i : Nat}

section
variable {positions : List Nat} (hk : x.kind = .analog positions)
include hk

theorem State.deliverAnalog_outside (h : analogRaw positions codes < 40 ∨ 4055 < analogRaw positions codes) :
    s.deliverAnalog codes x i = s.deliverFailed i x := by
  unfold State.deliverAnalog
  rw [hk]
  exact if_pos h

theorem State.deliverAnalog_within (h0 : 40 ≤ analogRaw positions codes) (h1 : analogRaw positions codes ≤ 4055) :
    s.deliverAnalog codes x i = s.deliverRaw i x (analogRaw positions codes) := by
  unfold State.deliverAnalog
  rw [hk]
  exact if_neg (by omega)

end

theorem State.deliverAnalog_find {st : Settings} {k : Key} (hs : s.settings = some st)
    (hk : ∀ positions, x.kind = .analog positions → x.key s.number ≠ k) :
    (s.deliverAnalog codes x i).table.find k = s.table.find k := by
  unfold State.deliverAnalog
  split
  · rename_i positions hx
    dsimp only
    split
    · exact State.deliver_others (by exact hs) _ _ (hk positions hx).symm
    · exact State.deliver_others (by exact hs) _ _ (hk positions hx).symm
  · rfl
  · rfl

theorem State.deliverAnalog_smoothing {j : Nat} (hj : ∀ positions, x.kind = .analog positions → i ≠ j) :
    (s.deliverAnalog codes x i).smoothing[j]? = s.smoothing[j]? := by
  unfold State.deliverAnalog
  split
  · rename_i positions hx
    dsimp only
    split
    · simp only [State.deliverFailed, State.deliver_fields]
      exact List.getElem?_set_ne (hj positions hx)
    · simp only [State.deliverRaw, State.deliver_fields]
      exact List.getElem?_set_ne (hj positions hx)
  · rfl
  · rfl

theorem State.deliverAnalog_length : (s.deliverAnalog codes x i).smoothing.length = s.smoothing.length := by
  unfold State.deliverAnalog
  split
  · dsimp only
    split
    · simp [State.deliverFailed]
    · simp [State.deliverRaw]
  · rfl
  · rfl

end

/-! ### All of them, in image order (R55) -/

/-- The sources of a list deliver, each at its place. -/
def State.deliverAll (s : State) (codes : List Nat) (l : List (SourceDef × Nat)) : State :=
  l.foldl (fun s (x, i) => s.deliverAnalog codes x i) s

/-- What the deliveries of some sources leave of a state: all but the table and the smoothing, and of these the keys and
places that are not an ANALOG source's of theirs. -/
theorem State.deliverAll_keeps {st : Settings} {codes : List Nat} : ∀ (l : List (SourceDef × Nat)) {s : State},
    s.settings = some st →
    s.deliverAll codes l =
      { s with table := (s.deliverAll codes l).table, smoothing := (s.deliverAll codes l).smoothing } ∧
    (s.deliverAll codes l).smoothing.length = s.smoothing.length ∧
    (∀ k, (∀ p ∈ l, ∀ positions, p.1.kind = .analog positions → p.1.key s.number ≠ k) →
      (s.deliverAll codes l).table.find k = s.table.find k) ∧
    ∀ j, (∀ p ∈ l, ∀ positions, p.1.kind = .analog positions → p.2 ≠ j) →
      (s.deliverAll codes l).smoothing[j]? = s.smoothing[j]?
  | [], s, _ => ⟨rfl, rfl, fun _ _ => rfl, fun _ _ => rfl⟩
  | (x, i) :: l, s, hs => by
    have head : s.deliverAnalog codes x i =
        { s with table := (s.deliverAnalog codes x i).table, smoothing := (s.deliverAnalog codes x i).smoothing } := by
      apply State.eq_of_fields <;> simp
    obtain ⟨others, length, find, smoothing⟩ :=
      State.deliverAll_keeps l (s := s.deliverAnalog codes x i) (by simpa using hs)
    have number : (s.deliverAnalog codes x i).number = s.number := by simp
    have unfolded : s.deliverAll codes ((x, i) :: l) = (s.deliverAnalog codes x i).deliverAll codes l := rfl
    rw [unfolded]
    refine ⟨?_, length.trans State.deliverAnalog_length, fun k hk => ?_, fun j hj => ?_⟩
    · rw [others, head]
    · rw [find k fun p hp => by rw [number]; exact hk p (List.mem_cons_of_mem _ hp)]
      exact State.deliverAnalog_find hs (hk (x, i) (by simp))
    · rw [smoothing j fun p hp => hj p (List.mem_cons_of_mem _ hp)]
      exact State.deliverAnalog_smoothing (hj (x, i) (by simp))

/-- With keys of their own, each source delivers once, from the state the scan found. -/
theorem State.deliverAll_delivers {s : State} {st : Settings} {codes : List Nat} {l : List (SourceDef × Nat)}
    {x : SourceDef} {i : Nat} {positions : List Nat} {e : Entry} {d : QuantityDef} (hs : s.settings = some st)
    (keys : (l.map fun p => p.1.key s.number).Nodup) (places : (l.map Prod.snd).Nodup) (hx : (x, i) ∈ l)
    (hk : x.kind = .analog positions) (hi : i < s.smoothing.length) (hf : s.table.find (x.key s.number) = some e)
    (hd : st.quantity x.code = some d) :
    (analogRaw positions codes < 40 ∨ 4055 < analogRaw positions codes →
      (s.deliverAll codes l).smoothing[i]? = some none ∧
      (s.deliverAll codes l).table.find (x.key s.number) = some (e.take d .failed none s.clock)) ∧
    (40 ≤ analogRaw positions codes → analogRaw positions codes ≤ 4055 →
      let y := x.smooth (s.smoothed i) (x.scale (analogRaw positions codes))
      (s.deliverAll codes l).smoothing[i]? = some (some y) ∧
      (s.deliverAll codes l).table.find (x.key s.number) = some (e.take d .good (some y) s.clock)) := by
  obtain ⟨before, behind, rfl⟩ := List.append_of_mem hx
  rw [List.map_append, List.map_cons, List.nodup_middle, List.nodup_cons, ← List.map_append] at keys places
  have key (p : SourceDef × Nat) (hp : p ∈ before ++ behind) : p.1.key s.number ≠ x.key s.number := fun same =>
    keys.1 (List.mem_map.mpr ⟨p, hp, same⟩)
  have place (p : SourceDef × Nat) (hp : p ∈ before ++ behind) : p.2 ≠ i := fun same =>
    places.1 (List.mem_map.mpr ⟨p, hp, same⟩)
  have split : s.deliverAll codes (before ++ (x, i) :: behind) =
      ((s.deliverAll codes before).deliverAnalog codes x i).deliverAll codes behind := List.foldl_append ..
  obtain ⟨others, length, find, smoothing⟩ := State.deliverAll_keeps (codes := codes) before hs
  have find := find (x.key s.number) fun p hp _ _ => key p (List.mem_append_left _ hp)
  have smoothing := smoothing i fun p hp _ _ => place p (List.mem_append_left _ hp)
  rw [split]
  generalize s.deliverAll codes before = w at others length find smoothing ⊢
  have settings : w.settings = some st := by rw [others]; exact hs
  have number : w.number = s.number := by rw [others]
  have clock : w.clock = s.clock := by rw [others]; rfl
  have smoothed : w.smoothed i = s.smoothed i := by unfold State.smoothed; rw [smoothing]
  have found : w.table.find (x.key w.number) = some e := by rw [number, find, hf]
  obtain ⟨-, -, find', smoothing'⟩ := State.deliverAll_keeps (codes := codes) behind
    (s := w.deliverAnalog codes x i) (by simpa using settings)
  have find' := find' (x.key s.number) fun p hp _ _ => by
    rw [show (w.deliverAnalog codes x i).number = s.number by simpa using number]
    exact key p (List.mem_append_right _ hp)
  have smoothing' := smoothing' i fun p hp _ _ => place p (List.mem_append_right _ hp)
  rw [find', smoothing']
  refine ⟨fun outside => ?_, fun h0 h1 => ?_⟩
  · obtain ⟨lost, failed⟩ := State.deliverFailed_delivers (i := i) settings found hd
    rw [State.deliverAnalog_outside hk outside, lost, ← number, failed, clock]
    exact ⟨by simp [length, hi], rfl⟩
  · obtain ⟨kept, good⟩ := State.deliverRaw_delivers (i := i) settings found hd (analogRaw positions codes)
    rw [State.deliverAnalog_within hk h0 h1, kept, ← number, good, clock, smoothed]
    exact ⟨by simp [length, hi], rfl⟩

/-! ### The conversions of a scan -/

section
variable {s : State} {t began : Nat} {raw : BitVec 12} {st : Settings} {codes : List Nat} (hr : s.runs)
  (hs : s.settings = some st) (hk : s.converter.running = some ⟨.scan, began⟩) (ht : began + 25 ≤ max s.now t)
  (hc : s.converter.scan = some codes)
include hr hs hk ht hc

theorem exec_conversionComplete_joins (hl : codes.length + 1 < st.scanList.length) :
    exec (.conversionComplete t raw) s = .next { s.tick t with
      converter := ({ s.converter with scan := some (codes ++ [raw.toNat]) } : Converter).arbitrated st.scanList.length
        (max s.now t) } := by
  rw [exec_conversionComplete_elapsed hr hs hk ht]
  have joined : ({ s.tick t with converter := { s.converter with running := none } } : State).deliverConversion st .scan
      raw =
      { s.tick t with converter := { s.converter with running := none, scan := some (codes ++ [raw.toNat]) } } := by
    unfold State.deliverConversion
    dsimp only
    rw [hc]
    exact if_pos (by simpa using hl)
  rw [joined, State.nextConversion_idle _ _ rfl]
  rfl

theorem exec_conversionComplete_last (hl : codes.length + 1 = st.scanList.length) :
    exec (.conversionComplete t raw) s = .next ((({ s.tick t with
      converter := { s.converter with running := none, scan := none } } : State).deliverAll (codes ++ [raw.toNat])
        st.sources.zipIdx).nextConversion st.scanList.length) := by
  rw [exec_conversionComplete_elapsed hr hs hk ht]
  have completed : ({ s.tick t with converter := { s.converter with running := none } } : State).deliverConversion st
      .scan raw = ({ s.tick t with converter := { s.converter with running := none, scan := none } } : State).deliverAll
        (codes ++ [raw.toNat]) st.sources.zipIdx := by
    unfold State.deliverConversion
    dsimp only
    rw [hc]
    exact if_neg (by simp; omega)
  rw [completed]

end

/-- Settles O33: a code that joins the scan, and the last one with all that the scan delivers. -/
theorem scanConversionsComplete : Obligations.ScanConversionsComplete := by
  refine ⟨fun s t began raw st codes hr hs hk ht hc hl => ?joins,
    fun s t began raw st codes hr hs hk ht hc hl hlen keys => ?last, fun x v => ⟨rfl, fun y => rfl⟩⟩
  case joins =>
    rw [exec_conversionComplete_joins hr hs hk ht hc hl]
    have more : (codes ++ [raw.toNat]).length < st.scanList.length := by simpa using hl
    unfold Converter.arbitrated
    dsimp only
    cases s.converter.requestA with
    | some a => rfl
    | none =>
      cases s.converter.requestB with
      | some b => rfl
      | none => exact congrArg (fun running => Host.Outcome.next { s.tick t with converter := { s.converter with
          running := running, scan := some (codes ++ [raw.toNat]), requestA := none, requestB := none } }) (if_pos more)
  case last =>
    have ran := exec_conversionComplete_last (raw := raw) hr hs hk ht hc hl
    generalize hw : ({ s.tick t with
      converter := { s.converter with running := none, scan := none } } : State) = w at ran
    have settings : w.settings = some st := by rw [← hw]; exact hs
    have number : w.number = s.number := by rw [← hw]; rfl
    have table : w.table = s.table := by rw [← hw]; rfl
    have smoothing : w.smoothing = s.smoothing := by rw [← hw]; rfl
    have smoothed (i : Nat) : w.smoothed i = s.smoothed i := by rw [State.smoothed, smoothing]; rfl
    have clock : w.clock = (s.tick t).clock := by rw [← hw]; rfl
    obtain ⟨others, -, find, place⟩ :=
      State.deliverAll_keeps (codes := codes ++ [raw.toNat]) st.sources.zipIdx settings
    have delivers {x : SourceDef} {i : Nat} {positions : List Nat} {e : Entry} {d : QuantityDef}
        (hx : st.sources[i]? = some x) (hkind : x.kind = .analog positions)
        (hf : s.table.find (x.key s.number) = some e) (hd : st.quantity x.code = some d) :=
      State.deliverAll_delivers (codes := codes ++ [raw.toNat]) settings
        (by rw [number, show (fun p : SourceDef × Nat => p.1.key s.number) = (·.key s.number) ∘ Prod.fst from rfl,
          ← List.map_map, List.zipIdx_map_fst]; exact keys)
        (by rw [List.zipIdx_map_snd]; exact List.nodup_range') (List.mem_zipIdx_iff_getElem?.mpr hx) hkind
        (by rw [smoothing, hlen]; exact (List.getElem?_eq_some_iff.mp hx).1) (by rw [table, number, hf]) hd
    generalize w.deliverAll (codes ++ [raw.toNat]) st.sources.zipIdx = u at ran others find place delivers
    have idle : u.converter.running = none := by rw [others, ← hw]
    rw [State.nextConversion_idle _ _ idle] at ran
    refine ⟨_, ran, ?_, ?_, fun i x hx hkind => ?_, fun k hk => ?_, fun i x positions e d hx hkind hf hd => ?_⟩
    · rw [others, ← hw]
      exact Converter.arbitrated_running ({ s.converter with scan := none } : Converter) none _ _
    · subst hw
      exact congrArg (fun v : State => { v with converter := u.converter.arbitrated st.scanList.length u.now }) others
    · rw [← smoothing]
      refine place i fun p hp positions hpk same => hkind positions ?_
      have hp := List.mem_zipIdx_iff_getElem?.mp hp
      rw [same, hx] at hp
      rw [Option.some.inj hp, hpk]
    · rw [← table]
      refine find k fun p hp positions hpk => ?_
      rw [number]
      exact hk p.1 (List.mem_of_getElem? (List.mem_zipIdx_iff_getElem?.mp hp)) positions hpk
    · have delivered := delivers hx hkind hf hd
      rw [smoothed, number, clock] at delivered
      exact delivered

end Sys2Proof.Machine
end

section
/-! Publication: what a producer gives (R67 to R70), and the payload of a STATUS (R115, R150). -/

namespace Sys2Proof.Machine

/-! ### The runs of the published keys -/

theorem findPublication_updatePublication {runs : List PublicationRun} {code c : BitVec 6} {inst j : BitVec 2}
    {change : PublicationRun → PublicationRun} (hc : ∀ p, (change p).code = p.code ∧ (change p).inst = p.inst) :
    findPublication (updatePublication runs code inst change) c j =
      if (c, j) = (code, inst) then (findPublication runs code inst).map change else findPublication runs c j := by
  unfold findPublication updatePublication
  rw [List.find?_map]
  have keys (p : PublicationRun) : (if p.code = code ∧ p.inst = inst then change p else p).code = p.code ∧
      (if p.code = code ∧ p.inst = inst then change p else p).inst = p.inst := by
    split
    · exact hc p
    · exact ⟨rfl, rfl⟩
  have same : ((fun p : PublicationRun => p.code == c && p.inst == j) ∘
      fun p => if p.code = code ∧ p.inst = inst then change p else p) = fun p => p.code == c && p.inst == j := by
    funext p
    simp only [Function.comp_apply, (keys p).1, (keys p).2]
  rw [same]
  split
  · rename_i h
    obtain ⟨rfl, rfl⟩ := Prod.mk.inj h
    refine Option.map_congr fun p hp => if_pos ?_
    simpa using List.find?_some hp
  · rename_i h
    refine (Option.map_congr fun p hp => if_neg ?_).trans Option.map_id'
    have found := List.find?_some hp
    simp only [Bool.and_eq_true, beq_iff_eq] at found
    rintro ⟨rfl, rfl⟩
    exact h (by rw [found.1, found.2])

/-! ### The queue (R70) -/

section
variable {queue : List QueuedSample} {x : QueuedSample}

theorem QueuedSample.sameKey_iff (y x : QueuedSample) : y.sameKey x = true ↔ (y.code, y.inst) = (x.code, x.inst) := by
  simp [QueuedSample.sameKey]

theorem enqueue_new (h : ∀ y ∈ queue, (y.code, y.inst) ≠ (x.code, x.inst)) : enqueue queue x = queue ++ [x] := by
  refine if_neg ?_
  rw [List.any_eq_true]
  rintro ⟨y, hy, same⟩
  exact h y hy ((QueuedSample.sameKey_iff y x).mp same)

theorem enqueue_queued (h : ∃ y ∈ queue, (y.code, y.inst) = (x.code, x.inst)) :
    enqueue queue x = queue.map fun y => if (y.code, y.inst) = (x.code, x.inst) then x else y := by
  obtain ⟨y, hy, same⟩ := h
  refine (if_pos (List.any_eq_true.mpr ⟨y, hy, (QueuedSample.sameKey_iff y x).mpr same⟩)).trans ?_
  simp only [QueuedSample.sameKey_iff]

end

/-! ### A publication event (R67) -/

/-- A producer reads neither the moment nor the timers of the schedule. -/
theorem State.produce_of_scheduled (s : State) (now : Nat) (runs : List PublicationRun) (st : Settings)
    (code : BitVec 6) (inst : BitVec 2) :
    ({ s with now := now, publications := runs } : State).produce st code inst = s.produce st code inst := rfl

section
variable {s : State} {t : Nat} {code : BitVec 6} {inst : BitVec 2} {st : Settings} {d : PublicationDef}
  {run : PublicationRun} {expiry : Clock} (hs : s.settings = some st) (hd : st.publication code inst = some d)
  (hr : findPublication s.publications code inst = some run) (h : s.due t run.timer expiry)
include hs hd hr h

theorem exec_publicationEvent_silent (hp : s.produce st code inst = none) : exec (.publicationEvent t code inst) s =
    .next { s.tick t with publications := updatePublication s.publications code inst fun p =>
      { p with timer := some (after expiry d.period) } } := by
  have hs' : (s.tick t).settings = some st := by simpa using hs
  show execPublicationEvent t code inst s = _
  rw [execPublicationEvent, State.event_run h.1, State.withSettings_of hs', hd]
  simp only [State.tick_fields, hr, h.timer_expired, State.produce_of_scheduled, hp]

theorem exec_publicationEvent_sample {q : Quality} {v : Int} (hp : s.produce st code inst = some (q, v)) :
    exec (.publicationEvent t code inst) s = .next { s.tick t with
      publications := updatePublication s.publications code inst fun p =>
        { p with timer := some (after expiry d.period) }
      line := { s.line with queue := enqueue s.line.queue ⟨code, inst, q, v⟩ } } := by
  have hs' : (s.tick t).settings = some st := by simpa using hs
  show execPublicationEvent t code inst s = _
  rw [execPublicationEvent, State.event_run h.1, State.withSettings_of hs', hd]
  simp only [State.tick_fields, hr, h.timer_expired, State.produce_of_scheduled, hp]
  rfl

end

/-! ### What a producer gives (R68, R69) -/

section
variable {e : Entry} {q : Quality} {v : Int}

theorem Entry.published_vacant (h : e.state = .vacant) : e.published = none := by
  unfold Entry.published
  rw [h]

theorem Entry.published_failed (h : e.state ≠ .vacant) (hq : e.quality = some .failed) :
    e.published = some (.failed, e.value.getD (-32768)) := by
  unfold Entry.published
  rw [hq]
  cases hst : e.state with
  | vacant => exact absurd hst h
  | _ => cases e.value <;> rfl

theorem Entry.published_fresh (h : e.state = .fresh) (hq : e.quality = some q) (hv : e.value = some v) :
    e.published = some (q, v) := by
  unfold Entry.published
  rw [h, hq, hv]
  cases q <;> rfl

theorem Entry.published_old (h : e.state = .aged ∨ e.state = .expired) (hq : e.quality = some q)
    (hv : e.value = some v) : e.published = some (if q = .good then .held else q, v) := by
  unfold Entry.published
  obtain h | h := h
  · rw [h, hq, hv]
    cases q <;> rfl
  · rw [h, hq, hv]
    cases q <;> rfl

theorem State.produce_entry {s : State} {st : Settings} {code : BitVec 6} {inst : BitVec 2}
    (h1 : code ≠ Config.channelOutput) (h2 : code ≠ Config.chamberFill) :
    s.produce st code inst = (s.table.find ⟨s.number, code, inst⟩).bind Entry.published :=
  (if_neg h1).trans (if_neg h2)

theorem State.produce_chamber {s : State} {st : Settings} {inst : BitVec 2} {cv : ConveyorDef} {k : Conveyor}
    (hc : st.conveyor = some cv) (hk : s.conveyor = some k) :
    s.produce st Config.chamberFill inst = some (.good, roundDiv (k.content * 1000) cv.xmax) := by
  unfold State.produce
  rw [if_neg (by decide), if_pos rfl, hc, hk]
  rfl

end

/-- Settles O42: the due event by its sample, then what each kind of entry and block publishes. -/
theorem publicationEventsQueueASample : Obligations.PublicationEventsQueueASample := by
  refine ⟨fun s t code inst st d run expiry hs hd hr hdue => ?event,
    fun s st code inst h1 h2 => State.produce_entry h1 h2,
    fun e h => Entry.published_vacant h, fun e v h hq hv => by rw [Entry.published_failed h hq, hv]; rfl,
    fun e h hq hv => by rw [Entry.published_failed h hq, hv]; rfl, fun e q v h hq _ hv => Entry.published_fresh h hq hv,
    fun e q v h hq _ hv => Entry.published_old h hq hv, fun s st inst h => rfl,
    fun s st inst cv k hc hk => State.produce_chamber hc hk⟩
  have timer (c : BitVec 6) (j : BitVec 2) := findPublication_updatePublication (runs := s.publications) (code := code)
    (inst := inst) (c := c) (j := j) (change := fun p => { p with timer := some (after expiry d.period) })
    fun p => ⟨rfl, rfl⟩
  have own : findPublication (updatePublication s.publications code inst fun p =>
      { p with timer := some (after expiry d.period) }) code inst =
        some { run with timer := some (after expiry d.period) } := by
    rw [timer, if_pos rfl, hr]
    rfl
  cases hp : s.produce st code inst with
  | none =>
    refine ⟨_, exec_publicationEvent_silent hs hd hr hdue hp, own, fun c j hc => by rw [timer, if_neg hc], rfl,
      fun _ => rfl, nofun⟩
  | some sample =>
    obtain ⟨q, v⟩ := sample
    refine ⟨_, exec_publicationEvent_sample hs hd hr hdue hp, own, fun c j hc => by rw [timer, if_neg hc], rfl,
      nofun, fun q' v' h => ?_⟩
    obtain ⟨rfl, rfl⟩ := Prod.mk.inj (Option.some.inj h)
    exact ⟨fun h => enqueue_new h, fun h => enqueue_queued h⟩

/-! ### STATUS (10.1) -/

/-- The fault bytes, place by place. -/
theorem faultBytes_eq (faults : List FaultCode) : faultBytes faults =
    [0, 1, 2, 3, 4, 5].map fun i => (faults[i]?.map FaultCode.code).getD 0 :=
  match faults with
  | [] | [_] | [_, _] | [_, _, _] | [_, _, _, _] | [_, _, _, _, _] | _ :: _ :: _ :: _ :: _ :: _ :: _ => rfl

theorem latchBytes_length (latch : Option LatchRecord) : ∃ a b c, latchBytes latch = [a, b, c] := by
  cases latch with
  | none => exact ⟨_, _, _, rfl⟩
  | some r => exact ⟨_, _, _, rfl⟩

/-- A channel byte's number (7.6). -/
theorem Channel.statusByte_toNat (ch : Channel) : ch.statusByte.toNat =
    ch.state.code + 8 * (if ch.cause = some .refLost then 1 else 0) + 16 * ch.sat.code + 64 * ch.inDeadband.toNat := by
  unfold Channel.statusByte
  have state : ch.state.code ≤ 4 := by cases ch.state <;> decide
  have sat : ch.sat.code ≤ 2 := by cases ch.sat <;> decide
  have band := ch.inDeadband.toNat_le
  have small (n : Nat) (hn : n ≤ 1) :
      (BitVec.ofNat 8 (ch.state.code + 8 * n + 16 * ch.sat.code + 64 * ch.inDeadband.toNat)).toNat =
        ch.state.code + 8 * n + 16 * ch.sat.code + 64 * ch.inDeadband.toNat := by
    rw [BitVec.toNat_ofNat]
    exact Nat.mod_eq_of_lt (by omega)
  rcases ch.cause with _ | cause
  · exact small 0 (by decide)
  · cases cause with
    | latch => exact small 0 (by decide)
    | refLost => exact small 1 (by decide)

/-- Settles O51: the payload written out, then read field by field. -/
theorem statusCarriesTheCondition : Obligations.StatusCarriesTheCondition := by
  refine ⟨fun s => ?payload, ⟨by decide, by decide, by decide, by decide⟩, fun ch => ?channel⟩
  case payload =>
    obtain ⟨a, b, c, latch⟩ := latchBytes_length s.latch
    have payload : s.statusPayload = [roleByte s.settings, s.station.code, a, b, c, s.chanA.statusByte,
        s.chanB.statusByte, BitVec.ofNat 8 s.faults.length] ++
        ([0, 1, 2, 3, 4, 5].map fun i => (s.faults[i]?.map FaultCode.code).getD 0) ++
        totalBytes s.line.errors ++ totalBytes s.table.refusals ++ totalBytes s.table.gaps := by
      unfold State.statusPayload
      rw [latch, faultBytes_eq]
      rfl
    rw [payload]
    refine ⟨rfl, fun h => by rw [h]; rfl, fun st h => by rw [h]; rfl, rfl, fun h => ?_, fun r h => ?_, rfl, rfl, rfl,
      fun i => ?_, rfl⟩
    · rw [h] at latch
      exact latch.symm
    · rw [h] at latch
      exact latch.symm
    · fin_cases i <;> rfl
  case channel =>
    have number := ch.statusByte_toNat
    have state : ch.state.code ≤ 4 := by cases ch.state <;> decide
    have sat : ch.sat.code ≤ 2 := by cases ch.sat <;> decide
    have band := ch.inDeadband.toNat_le
    have bit (i : Nat) : ch.statusByte.getLsbD i = decide (ch.statusByte.toNat / 2 ^ i % 2 = 1) :=
      Nat.testBit_eq_decide_div_mod_eq
    refine ⟨?state, ?cause, ?sat, ?band, ?top⟩
    case state =>
      refine Eq.trans (b := ch.state.code) ?_ ?_
      · split at number <;> omega
      · cases ch.state <;> rfl
    case cause =>
      rw [bit, decide_eq_true_iff]
      split at number
      · exact iff_of_true (by omega) ‹_›
      · exact iff_of_false (by omega) ‹_›
    case sat =>
      refine Eq.trans (b := ch.sat.code) ?_ ?_
      · split at number <;> omega
      · cases ch.sat <;> rfl
    case band =>
      rw [bit]
      cases hb : ch.inDeadband with
      | false =>
        rw [hb] at number
        exact decide_eq_false (by split at number <;> simp at number <;> omega)
      | true =>
        rw [hb] at number
        exact decide_eq_true (by split at number <;> simp at number <;> omega)
    case top =>
      rw [bit]
      exact decide_eq_false (by split at number <;> omega)

end Sys2Proof.Machine
end

section
/-! The discrete inputs (R64, R65, R139, R143) and the panel (R87 to R90). -/

namespace Sys2Proof.Machine

theorem State.setInput_input (s : State) (i j : Fin 6) (d : DiscreteInput) :
    (s.setInput i d).inputs[j] = if j = i then d else s.inputs[j] := by
  unfold State.setInput
  by_cases h : j = i
  · rw [h, if_pos rfl]
    exact Vector.getElem_set_self _
  · rw [if_neg h]
    exact Vector.getElem_set_ne i.isLt j.isLt fun e => h (Fin.ext e.symm)

theorem exec_debounceExpiry_due {s : State} {t : Nat} {i : Fin 6} {st : Settings} {expiry : Clock}
    (hs : s.settings = some st) (h : s.due t s.inputs[i].timer expiry) : exec (.debounceExpiry t i) s =
      .next (((s.tick t).setInput i ⟨s.inputs[i].pin, s.inputs[i].pin, none⟩).levelChange st i s.inputs[i].pin) := by
  have hs' : (s.tick t).settings = some st := by simpa using hs
  have timer : expired (s.tick t).inputs[i].timer (s.tick t).clock = some expiry := h.timer_expired
  show execDebounceExpiry t i s = _
  rw [execDebounceExpiry, State.event_run h.1, State.withSettings_of hs']
  dsimp only
  rw [timer]
  rfl

/-! ### The hand-over by function (R65) -/

section
variable {s : State} {st : Settings} {i : Fin 6}

theorem State.levelChange_none (h : st.functions[i] = .none) (level : Bool) : s.levelChange st i level = s := by
  unfold State.levelChange
  dsimp only
  rw [h]

theorem State.levelChange_halt (h : st.functions[i] = .haltButton) (level : Bool) :
    s.levelChange st i level = if level then s.raiseCause 1 (BitVec.ofNat 8 i.val) else s := by
  unfold State.levelChange
  dsimp only
  rw [h]
  rfl

theorem State.levelChange_release (h : st.functions[i] = .releaseButton) (level : Bool) :
    s.levelChange st i level = if level then s.pressRelease else s := by
  unfold State.levelChange
  dsimp only
  rw [h]

theorem State.levelChange_truckHold {p : PanelValues} (h : st.functions[i] = .truckHold) (hp : s.panel = some p)
    (level : Bool) : s.levelChange st i level =
      (s.setPanel { p with hold := level }).deliver ⟨s.number, Config.loadHold, 2⟩ .good
        (some (if level then 1 else 0)) := by
  unfold State.levelChange
  dsimp only
  rw [h]
  dsimp only
  rw [hp]
  rfl

/-- A button of the panel acts when it goes high, on a panel station in RUNNING (R88, R89). -/
theorem State.levelChange_press {f : InputFunction} {d : PanelDef} {p : PanelValues} (h : st.functions[i] = f)
    (hf : f ∉ [InputFunction.none, .haltButton, .releaseButton, .truckHold]) (hd : st.panel = some d)
    (hp : s.panel = some p) : s.levelChange st i true = s.panelPress f d p := by
  unfold State.levelChange
  dsimp only
  rw [h, hd, hp]
  cases f <;> simp_all

/-- Other buttons do nothing outside RUNNING, and none does anything when it goes low. -/
theorem State.levelChange_silent {level : Bool}
    (h : (s.station = .listening ∧ st.functions[i] ∉ [InputFunction.haltButton, .releaseButton, .truckHold]) ∨
      (level = false ∧ st.functions[i] ≠ .truckHold)) : s.levelChange st i level = s := by
  have quiet (f : InputFunction) (d : PanelDef) (p : PanelValues) (hl : s.station = .listening ∨ level = false) :
      (if level then s.panelPress f d p else s) = s := by
    obtain hl | hl := hl
    · rw [show s.panelPress f d p = s from if_pos (by rw [hl]; decide), ite_self]
    · rw [hl]
      rfl
  unfold State.levelChange
  dsimp only
  generalize st.functions[i] = f at h
  cases f with
  | none => rfl
  | haltButton =>
    obtain ⟨-, h⟩ | ⟨rfl, -⟩ := h
    · simp at h
    · rfl
  | releaseButton =>
    obtain ⟨-, h⟩ | ⟨rfl, -⟩ := h
    · simp at h
    · rfl
  | truckHold => simp at h
  | _ =>
    dsimp only
    split
    · exact quiet _ _ _ (h.imp And.left And.left)
    · rfl

end

/-! ### The halt button and the release (R139, R143) -/

theorem State.pressRelease_refused {s : State} (h : ¬ s.atWork ∨ s.persistingCause ≠ none) : s.pressRelease = s :=
  if_pos h

section
variable {s : State} (hw : s.atWork) (hp : s.persistingCause = none)
include hw hp

theorem State.pressRelease_clear (hl : s.latch = none) : s.pressRelease = { s with line := { s.line with
    control := { s.line.control with halt := none, release := true }
    flight := s.line.flightWithout true false } } := by
  unfold State.pressRelease
  rw [if_neg (by simp [hw, hp])]
  dsimp only
  rw [if_pos hl, Line.discardHalt_eq]
  rfl

theorem State.pressRelease_latched (hl : s.latch ≠ none) : s.pressRelease = { s with
    latch := none, chanA := s.chanA.unlatched, chanB := s.chanB.unlatched
    faults := s.faults.filter (· != .beltStall)
    line := Line.statusMarked { s.line with
      control := { s.line.control with halt := none, release := true }
      flight := s.line.flightWithout true false } } := by
  unfold State.pressRelease
  rw [if_neg (by simp [hw, hp])]
  dsimp only
  rw [if_neg hl, State.clearLatch_eq, Line.discardHalt_eq]
  rfl

end

/-- The level of an input that is not the halt button's holds no cause (R140). -/
theorem State.persistingCause_setInput {s : State} {st : Settings} (hs : s.settings = some st) {i : Fin 6}
    (h : st.functions[i] ≠ .haltButton) (d : DiscreteInput) : (s.setInput i d).persistingCause = s.persistingCause := by
  have held : (s.setInput i d).haltHeld st = s.haltHeld st := by
    unfold State.haltHeld
    cases hj : st.inputOf .haltButton with
    | none => rfl
    | some j =>
      have other : j ≠ i := fun same => h (same ▸ (Settings.inputOf_eq_some.mp hj).1)
      dsimp only
      rw [State.setInput_input, if_neg other]
  unfold State.persistingCause
  rw [show (s.setInput i d).settings = some st from hs, hs]
  dsimp only
  rw [held]
  rfl

/-- Settles O40: the pin's move, then the debounced level by the input's function. -/
theorem discreteInputsAreDebounced : Obligations.DiscreteInputsAreDebounced := by
  refine ⟨fun s t i level hr hne => ?pins, fun s t i st expiry hs hd => ⟨fun hf => ?none, fun hf hp hw hl => ?halts,
    fun hf hp hno => ?held, fun hf hp => ?low⟩, fun s t i st expiry hs hd hf => ?release⟩
  case pins =>
    have moved := exec_discretePinChange t i level s
    have changed : (s.tick t).inputs[i].pin ≠ level := hne
    rw [if_pos hr, State.movePin, if_neg changed] at moved
    refine ⟨fun hw => ?_, fun hw => ?_⟩
    · rw [moved, if_pos ⟨hr, hw⟩]
      simp only [ne_eq, ite_not]
      rfl
    · rw [moved, if_neg fun h => hw h.2]
      rfl
  case none => rw [exec_debounceExpiry_due hs hd, State.levelChange_none hf]
  case low =>
    rw [exec_debounceExpiry_due hs hd, State.levelChange_halt hf, hp]
    rfl
  case held =>
    rw [exec_debounceExpiry_due hs hd, State.levelChange_halt hf, hp, if_pos rfl]
    exact congrArg Host.Outcome.next (if_neg fun h => hno.elim (· h.1) (· h.2))
  case halts =>
    have ran := exec_debounceExpiry_due hs hd
    rw [State.levelChange_halt hf, hp, if_pos rfl] at ran
    obtain ⟨latch, keeps, channels, frame⟩ := State.raiseCause_halts ((s.tick t).setInput i ⟨true, true, none⟩) 1
      (BitVec.ofNat 8 i.val) hw hl
    have input : (((s.tick t).setInput i ⟨true, true, none⟩).raiseCause 1 (BitVec.ofNat 8 i.val)).inputs[i] =
        ⟨true, true, none⟩ := by
      simp only [State.raiseCause_fields, State.setInput_input, if_true]
    refine ⟨_, ran, input, latch, keeps, channels, ?_⟩
    rw [input]
    exact frame
  case release =>
    have ran := exec_debounceExpiry_due hs hd
    rw [State.levelChange_release hf] at ran
    have cause := State.persistingCause_setInput (s := s.tick t) hs (by rw [hf]; decide) ⟨true, true, none⟩
    have before : (s.tick t).persistingCause = s.persistingCause := rfl
    have pressed : s.inputs[i].pin = true → exec (.debounceExpiry t i) s =
        .next ((s.tick t).setInput i ⟨true, true, none⟩).pressRelease := fun hp => by rw [ran, hp, if_pos rfl]
    rw [before] at cause
    generalize hv : (s.tick t).setInput i ⟨true, true, none⟩ = w at cause pressed
    have working : w.atWork ↔ s.atWork := by rw [← hv]; exact .rfl
    have latch : w.latch = s.latch := by rw [← hv]; rfl
    refine ⟨fun hp => ?_, fun hp hw hc hl => ?_, fun hp hw hc hl => ?_, fun hp hno => ?_⟩
    · rw [ran, hp]
      rfl
    · rw [pressed hp, State.pressRelease_clear (working.mpr hw) (cause.trans hc) (latch.trans hl), ← hv]
      rfl
    · refine ⟨_, pressed hp, ?_⟩
      rw [State.pressRelease_latched (working.mpr hw) (cause.trans hc) (by rwa [latch]), ← hv]
      exact ⟨State.ChannelsResume.of_unlatched rfl rfl, rfl⟩
    · rw [pressed hp, State.pressRelease_refused (by rwa [working, cause])]

/-! ### The panel's deliveries (R87) -/

theorem State.foldl_deliver_others {st : Settings} {k : Key} {l : List (Key × Int)} {s : State}
    (hs : s.settings = some st) (hk : k ∉ l.map Prod.fst) :
    (l.foldl (fun s x => s.deliver x.1 .good (some x.2)) s).table.find k = s.table.find k := by
  induction l generalizing s with
  | nil => rfl
  | cons x l ih =>
    rw [List.foldl_cons, ih (by simpa using hs) (List.not_mem_of_not_mem_cons hk),
      State.deliver_others hs _ _ (List.ne_of_not_mem_cons hk)]

/-- Values delivered to keys of their own reach each its entry. -/
theorem State.foldl_deliver_find {st : Settings} {k : Key} {v : Int} {e : Entry} {q : QuantityDef}
    (hq : st.quantity k.code = some q) {l : List (Key × Int)} {s : State} (hs : s.settings = some st)
    (hn : (l.map Prod.fst).Nodup) (hm : (k, v) ∈ l) (hf : s.table.find k = some e) :
    (l.foldl (fun s x => s.deliver x.1 .good (some x.2)) s).table.find k = some (e.take q .good (some v) s.clock) := by
  induction l generalizing s with
  | nil => simp at hm
  | cons x l ih =>
    obtain ⟨hx, hn⟩ := List.nodup_cons.mp hn
    have settings : (s.deliver x.1 .good (some x.2)).settings = some st := by simpa using hs
    rw [List.foldl_cons]
    obtain rfl | hm := List.mem_cons.mp hm
    · rw [State.foldl_deliver_others settings hx, State.deliver_find hs hq, if_pos rfl, hf]
      rfl
    · have other : k ≠ x.1 := fun same => hx (same ▸ List.mem_map.mpr ⟨(k, v), hm, rfl⟩)
      rw [ih settings hn hm ((State.deliver_others hs _ _ other).trans hf)]
      simp [State.clock]

/-- The five panel values under their keys (R87). -/
def PanelValues.samples (p : PanelValues) (number : BitVec 4) : List (Key × Int) :=
  [(⟨number, Config.depthTarget, 0⟩, p.left), (⟨number, Config.depthTarget, 1⟩, p.right),
    (⟨number, Config.depthAction, 3⟩, p.action.value), (⟨number, Config.modeRequest, 3⟩, p.mode.value),
    (⟨number, Config.loadHold, 2⟩, holdValue p.hold)]

theorem State.deliverPanel_eq (s : State) (p : PanelValues) :
    s.deliverPanel p = (p.samples s.number).foldl (fun s x => s.deliver x.1 .good (some x.2)) s := by
  simp [State.deliverPanel, State.deliverLeft, State.deliverRight, State.deliverAction, State.deliverMode,
    State.deliverHold, PanelValues.samples]

theorem PanelValues.samples_nodup (p : PanelValues) (number : BitVec 4) : ((p.samples number).map Prod.fst).Nodup := by
  simp [PanelValues.samples, Config.depthTarget, Config.depthAction, Config.modeRequest, Config.loadHold]

theorem exec_panelRefresh_due {s : State} {t : Nat} {st : Settings} {expiry : Clock} {d : PanelDef} {p : PanelValues}
    (hs : s.settings = some st) (hd : st.panel = some d) (hp : s.panel = some p) (h : s.due t p.timer expiry) :
    exec (.panelRefresh t) s =
      .next (((s.tick t).setPanel { p with timer := some (after expiry d.refresh) }).deliverPanel
        { p with timer := some (after expiry d.refresh) }) := by
  have hs' : (s.tick t).settings = some st := by simpa using hs
  have hp' : (s.tick t).panel = some p := hp
  show execPanelRefresh t s = _
  rw [execPanelRefresh, State.event_run h.1, State.withSettings_of hs', hd, hp']
  dsimp only
  rw [h.timer_expired]

/-! ### Presses and the truck hold (R88 to R90) -/

/-- One panel value set and delivered: what the station is after the input's expiry. -/
theorem State.panelSet_delivers {s : State} {t : Nat} {i : Fin 6} {st : Settings} {level : Bool} {p : PanelValues}
    {code : BitVec 6} {inst : BitVec 2} {v : Int} (hs : s.settings = some st) :
    let u := (((s.tick t).setInput i ⟨level, level, none⟩).setPanel p).deliver ⟨s.number, code, inst⟩ .good (some v)
    u.panel = some p ∧ u.inputs[i] = ⟨level, level, none⟩ ∧
    (∀ k, k ≠ ⟨s.number, code, inst⟩ → u.table.find k = s.table.find k) ∧
    (∀ e q, s.table.find ⟨s.number, code, inst⟩ = some e → st.quantity code = some q →
      u.table.find ⟨s.number, code, inst⟩ = some (e.take q .good (some v) (s.tick t).clock)) ∧
    u = { s.tick t with panel := u.panel, inputs := u.inputs, table := u.table } := by
  have hs' : (((s.tick t).setInput i ⟨level, level, none⟩).setPanel p).settings = some st := hs
  refine ⟨by simp [State.setPanel], ?_, fun k hk => State.deliver_others hs' _ _ hk, fun e q he hq => ?_, ?_⟩
  · simp only [State.deliver_fields, State.setPanel, State.setInput_input, if_true]
  · rw [State.deliver_find hs' hq, if_pos rfl, show (((s.tick t).setInput i ⟨level, level, none⟩).setPanel p).table =
      s.table from rfl, he]
    rfl
  · apply State.eq_of_fields <;> simp [State.setPanel, State.setInput]

/-- What each press sets and delivers in RUNNING (R88, R89). -/
theorem State.panelPress_sets {s : State} (h : s.station = .running) (d : PanelDef) (p : PanelValues) :
    let sets (p' : PanelValues) (code : BitVec 6) (inst : BitVec 2) (v : Int) :=
      (s.setPanel p').deliver ⟨s.number, code, inst⟩ .good (some v)
    (∀ v, v = clamp (p.left - d.step) d.lo d.hi →
      s.panelPress .stepUpL d p = sets { p with left := v } Config.depthTarget 0 v) ∧
    (∀ v, v = clamp (p.left + d.step) d.lo d.hi →
      s.panelPress .stepDownL d p = sets { p with left := v } Config.depthTarget 0 v) ∧
    (∀ v, v = clamp (p.right - d.step) d.lo d.hi →
      s.panelPress .stepUpR d p = sets { p with right := v } Config.depthTarget 1 v) ∧
    (∀ v, v = clamp (p.right + d.step) d.lo d.hi →
      s.panelPress .stepDownR d p = sets { p with right := v } Config.depthTarget 1 v) ∧
    (∀ x ∈ [(InputFunction.liftAll, (1 : Byte)), (.returnAll, 2)], s.panelPress x.1 d p =
      sets { p with action := ⟨p.action.serial + 1, x.2⟩ } Config.depthAction 3
        ((p.action.serial + 1).toNat * 256 + x.2.toNat)) ∧
    ∀ x ∈ [(InputFunction.autoAll, (2 : Byte)), (.manualAll, 1), (.offAll, 0)], s.panelPress x.1 d p =
      sets { p with mode := ⟨p.mode.serial + 1, x.2⟩ } Config.modeRequest 3
        ((p.mode.serial + 1).toNat * 256 + x.2.toNat) := by
  have running : ¬ s.station ≠ .running := not_not.mpr h
  refine ⟨?_, ?_, ?_, ?_, ?_, ?_⟩
  · rintro v rfl
    exact if_neg running
  · rintro v rfl
    exact if_neg running
  · rintro v rfl
    exact if_neg running
  · rintro v rfl
    exact if_neg running
  · rintro x hx
    simp only [List.mem_cons, List.not_mem_nil, or_false] at hx
    obtain rfl | rfl := hx <;> exact if_neg running
  · rintro x hx
    simp only [List.mem_cons, List.not_mem_nil, or_false] at hx
    obtain rfl | rfl | rfl := hx <;> exact if_neg running

/-- Settles O41: each press by its button, then the refresh, the truck hold and what does nothing. -/
theorem panelValuesAreSetAndDelivered : Obligations.PanelValuesAreSetAndDelivered := by
  refine ⟨fun s t i st expiry d p hs hrun hdue hd hp hpin => ?presses, fun s t st expiry d p hs hd hp hdue => ?refresh,
    fun s t i st expiry p hs hw hdue hp hf => ?hold, fun s t i st expiry hs hdue h => ?silent⟩
  case presses =>
    have ran := exec_debounceExpiry_due hs hdue
    rw [hpin] at ran
    have set {p' : PanelValues} {code : BitVec 6} {inst : BitVec 2} {v : Int}
        (h : ((s.tick t).setInput i ⟨true, true, none⟩).levelChange st i true =
          (((s.tick t).setInput i ⟨true, true, none⟩).setPanel p').deliver ⟨s.number, code, inst⟩ .good (some v)) :=
      And.intro (ran.trans (congrArg Host.Outcome.next h)) (State.panelSet_delivers (t := t) (i := i) (level := true)
        (p := p') (code := code) (inst := inst) (v := v) hs)
    have pressed {f : InputFunction} (hf : st.functions[i] = f)
        (hn : f ∉ [InputFunction.none, .haltButton, .releaseButton, .truckHold]) :=
      State.levelChange_press (s := (s.tick t).setInput i ⟨true, true, none⟩) hf hn hd hp
    obtain ⟨upL, downL, upR, downR, actions, modes⟩ :=
      State.panelPress_sets (s := (s.tick t).setInput i ⟨true, true, none⟩) hrun d p
    refine ⟨fun hf => ⟨_, set ((pressed hf (by decide)).trans (upL _ rfl))⟩,
      fun hf => ⟨_, set ((pressed hf (by decide)).trans (downL _ rfl))⟩,
      fun hf => ⟨_, set ((pressed hf (by decide)).trans (upR _ rfl))⟩,
      fun hf => ⟨_, set ((pressed hf (by decide)).trans (downR _ rfl))⟩,
      fun hf => ⟨_, set ((pressed hf (by decide)).trans (actions (_, 1) (by simp)))⟩,
      fun hf => ⟨_, set ((pressed hf (by decide)).trans (actions (_, 2) (by simp)))⟩,
      fun hf => ⟨_, set ((pressed hf (by decide)).trans (modes (_, 2) (by simp)))⟩,
      fun hf => ⟨_, set ((pressed hf (by decide)).trans (modes (_, 1) (by simp)))⟩, fun hf => ?off,
      fun hf => ⟨_, set (State.levelChange_truckHold (s := (s.tick t).setInput i _) hf hp true)⟩⟩
    case off =>
      have off := modes (.offAll, 0) (by simp)
      rw [show ((p.mode.serial + 1).toNat * 256 + ((0 : Byte).toNat : Int) : Int) = (p.mode.serial + 1).toNat * 256 by
        simp] at off
      exact ⟨_, set ((pressed hf (by decide)).trans off)⟩
  case refresh =>
    have ran := exec_panelRefresh_due hs hd hp hdue
    refine ⟨_, ran, by simp [State.setPanel], by apply State.eq_of_fields <;> simp [State.setPanel],
      fun k v hk e q he hq => ?_⟩
    rw [State.deliverPanel_eq]
    refine State.foldl_deliver_find hq (by exact hs) (PanelValues.samples_nodup _ _) ?_ he
    simp only [PanelValues.samples, List.mem_cons, Prod.mk.injEq, List.not_mem_nil, or_false]
    exact hk
  case hold =>
    have ran := exec_debounceExpiry_due hs hdue
    rw [State.levelChange_truckHold (s := (s.tick t).setInput i _) hf hp] at ran
    exact ⟨_, ran, State.panelSet_delivers hs⟩
  case silent => rw [exec_debounceExpiry_due hs hdue, State.levelChange_silent (by exact h)]

end Sys2Proof.Machine
end

section
/-! The updates of a DEPTH or ATTITUDE channel (R92, R93, R100 to R109), and the rest of any channel. -/

namespace Sys2Proof.Machine

/-! ### The output step (R104 to R108) -/

section
variable {s : State} {st : Settings} {cd : ChannelDef} {c : ChannelId}

theorem State.outputStep_manual (h : (s.channel c).state = .manual) : s.outputStep st cd c = { s.channel c with
    out := clamp (clamp (s.latestCommand st (jogCode c)) cd.lowest cd.umax) ((s.channel c).out - cd.slew)
      ((s.channel c).out + cd.slew)
    sat := .none, inDeadband := false } := by
  unfold State.outputStep
  dsimp only
  conv_lhs => rw [h]
  rfl

theorem State.outputStep_resting (h : (s.channel c).state ≠ .auto) (h' : (s.channel c).state ≠ .manual) :
    s.outputStep st cd c = { s.channel c with
      out := 0, sat := (s.channel c).sat, inDeadband := (s.channel c).inDeadband } := by
  unfold State.outputStep
  dsimp only
  cases hst : (s.channel c).state with
  | auto => exact absurd hst h
  | manual => exact absurd hst h'
  | _ => rfl

theorem State.outputStep_auto {l : LastUsed} {y : TargetRecord} (h : (s.channel c).state = .auto)
    (hb : cd.role ≠ .belt) (hl : (s.channel c).ref.last = some l) (hy : (s.channel c).target = some y) :
    let e := shrunkError cd l.measured y.effective
    let u₀ := plungeLimit cd.plunge (s.plungeResult cd) (flowDemand cd e)
    s.outputStep st cd c = { s.channel c with
      out := clamp (clamp u₀ cd.lowest cd.umax) ((s.channel c).out - cd.slew) ((s.channel c).out + cd.slew)
      sat := saturationOf u₀ cd.lowest cd.umax
      inDeadband := decide (e = 0) } := by
  have error : (s.channel c).error cd = some (shrunkError cd l.measured y.effective) := by
    unfold Channel.error
    rw [hl, hy]
  unfold State.outputStep State.autoOutput
  dsimp only
  conv_lhs => rw [h]
  dsimp only
  rw [if_neg hb, error]
  rfl

end

theorem ChannelDef.lowest_controls {cd : ChannelDef} (h : cd.controls) : cd.lowest = -cd.umax :=
  if_neg (ChannelDef.controls_role h).2

/-- A channel at rest that puts out 0 stands. -/
theorem Channel.PutsOut.stands {before ch : Channel} {cd : ChannelDef}
    (h : before.PutsOut cd 0 before.sat before.inDeadband ch) (h0 : before.out = 0) (hc : before.coil = .none)
    (hi : before.current = 0) (hr : before.openRun = 0) : ch = before := by
  obtain ⟨driven, same⟩ := h
  have out : ch.out = 0 := by rw [same]
  obtain ⟨coil, current⟩ := driven.2.2 out
  rw [same, coil, current, if_pos rfl]
  cases before
  dsimp only at h0 hc hi hr
  subst h0 hc hi hr
  rfl

theorem Channel.PutsOut.out {before ch : Channel} {cd : ChannelDef} {out : Int} {sat : Saturation} {band : Bool}
    (h : before.PutsOut cd out sat band ch) : ch.out = out := by
  rw [h.2]

theorem Channel.PutsOut.state {before ch : Channel} {cd : ChannelDef} {out : Int} {sat : Saturation} {band : Bool}
    (h : before.PutsOut cd out sat band ch) : ch.state = before.state := by
  rw [h.2]

theorem Converter.withRequest_twice (k : Converter) (c : ChannelId) (x y : Option Int) :
    (k.withRequest c x).withRequest c y = k.withRequest c y := by
  cases c <;> rfl

/-! ### Updates that enter no state -/

section
variable {s : State} {t : Nat} {c : ChannelId} {st : Settings} {expiry : Clock} (hs : s.settings = some st)
  (hc : (st.channel c).controls) (hd : s.due t (s.channel c).updateTimer expiry)
include hs hc hd

/-- An update whose reference check changes nothing (R93): settled, put out, driven. -/
theorem exec_channelUpdate_stays {out : Int} {sat : Saturation} {band : Bool} {w : State}
    (hw : w = (s.tick t).setChannel c (s.settled (st.channel c) (s.channel c) expiry))
    (hcheck : w.checkReference (st.channel c) c = w)
    (hout : w.outputStep st (st.channel c) c = { w.channel c with out := out, sat := sat, inDeadband := band }) :
    ∃ u, exec (.channelUpdate t c) s = .next u ∧
      (s.settled (st.channel c) (s.channel c) expiry).PutsOut (st.channel c) out sat band (u.channel c) ∧
      CheckAsked s.converter u.converter (max s.now t) c (u.channel c) ∧
      u = { (s.tick t).setChannel c (u.channel c) with converter := u.converter } := by
  have ran := exec_channelUpdate_controls hs hc hd
  rw [← hw, hcheck] at ran
  obtain ⟨putsOut, asked, frame⟩ := State.driveChannel_putsOut hout
  have channel : w.channel c = s.settled (st.channel c) (s.channel c) expiry := by
    rw [hw, State.setChannel_self]
  have converter : w.converter = s.converter := by rw [hw]; cases c <;> rfl
  have now : w.now = max s.now t := by rw [hw]; cases c <;> rfl
  rw [channel] at putsOut
  rw [converter, now] at asked
  generalize w.driveChannel st (st.channel c) c = u at ran putsOut asked frame
  refine ⟨u, ran, putsOut, asked, ?_⟩
  rw [hw, State.setChannel_set] at frame
  exact frame

end

/-! ### Updates that enter a state (R100, R101) -/

/-- An entry of a channel into a state, then its output: the channel puts out from what it entered as. -/
theorem State.Enters.drives {w v : State} {c : ChannelId} {ch : Channel} {request : Option Int}
    {faults : List FaultCode} {st : Settings} {cd : ChannelDef} {out : Int} {sat : Saturation} {band : Bool}
    (h : w.Enters c ch request faults v)
    (hout : v.outputStep st cd c = { v.channel c with out := out, sat := sat, inDeadband := band }) :
    let u := v.driveChannel st cd c
    ch.PutsOut cd out sat band (u.channel c) ∧
    CheckAsked (w.converter.withRequest c request) u.converter w.now c (u.channel c) ∧ w.KeepsConveyor u ∧
    u = { w.setChannel c (u.channel c) with
      conveyor := u.conveyor, converter := u.converter, faults := faults, line := w.line.statusMarked } := by
  obtain ⟨keeps, entered⟩ := h
  obtain ⟨putsOut, asked, frame⟩ := State.driveChannel_putsOut hout
  have channel : v.channel c = ch := by rw [entered]; cases c <;> rfl
  have converter : v.converter = w.converter.withRequest c request := by rw [entered]
  have now : v.now = w.now := by rw [entered]; cases c <;> rfl
  rw [channel] at putsOut
  rw [converter, now] at asked
  dsimp only
  generalize v.driveChannel st cd c = u at putsOut asked frame
  have state : (u.channel c).state = ch.state := putsOut.state
  have conveyor : u.conveyor = v.conveyor := by rw [frame]; cases c <;> rfl
  refine ⟨putsOut, asked, ?_, ?_⟩
  · have chanA : u.chanA.state = v.chanA.state := by
      cases c with
      | a => exact state.trans (congrArg Channel.state channel).symm
      | b => rw [frame]; rfl
    unfold State.KeepsConveyor at *
    rw [conveyor, chanA, keeps]
  · rw [conveyor]
    refine frame.trans ?_
    rw [entered]
    cases c <;> rfl

/-! ### The reference checks (R100 to R102) -/

section
variable {s : State} {cd : ChannelDef} {c : ChannelId}

/-- Only AUTO without a group, and HELD by REF_LOST with one, are checked. -/
theorem State.checkReference_stands
    (h1 : (s.channel c).state = .auto → (s.channel c).ref.active ≠ none)
    (h2 : (s.channel c).state = .held → (s.channel c).cause = some .refLost →
      (s.channel c).ref.active = none ∨ (s.channel c).windowOpen s.clock = false) : s.checkReference cd c = s := by
  unfold State.checkReference
  dsimp only
  split
  · rename_i hst hactive
    exact absurd hactive (h1 hst)
  · rename_i hst hcause hactive
    refine if_neg fun opened => ?_
    obtain none | closed := h2 hst hcause
    · rw [none] at hactive
      cases hactive
    · rw [closed] at opened
      cases opened
  · rfl

theorem State.checkReference_loses (h : (s.channel c).state = .auto) (ha : (s.channel c).ref.active = none) :
    s.checkReference cd c = s.loseReference cd c := by
  unfold State.checkReference
  dsimp only
  rw [h, ha]

theorem State.checkReference_resumes (h : (s.channel c).state = .held) (hc : (s.channel c).cause = some .refLost)
    {g : Nat} (ha : (s.channel c).ref.active = some g) (hw : (s.channel c).windowOpen s.clock = true) :
    s.checkReference cd c = s.resumeAuto c := by
  unfold State.checkReference
  dsimp only
  rw [h, hc, ha]
  exact if_pos hw

theorem State.loseReference_waits (h : (s.channel c).state ≠ .held) (hw : cd.window ≠ 0) :
    s.Enters c { (s.channel c).forced with
      state := .held, cause := some .refLost, fault := none, resumeTimer := some (after s.clock cd.window) } none
      s.faults (s.loseReference cd c) := by
  rw [State.loseReference, if_neg hw]
  exact State.forceChannel_enters _ _ _ h

/-- The move to MANUAL with REF_LOST added (R102). -/
theorem State.resumeExpired_enters (h : (s.channel c).state ≠ .manual) :
    s.Enters c { (s.channel c).forced with state := .manual, cause := none, resumeTimer := none }
      (s.converter.request c) (if refLostCode c ∈ s.faults then s.faults else s.faults ++ [refLostCode c])
      (s.resumeExpired c) := by
  refine State.Enters.addFault ?_ (refLostCode c)
  exact State.Enters.of_put (w := s) (by rw [Converter.withRequest_self]) rfl h

theorem State.resumeAuto_enters (h : (s.channel c).state ≠ .auto) :
    s.Enters c { s.channel c with state := .auto, cause := none, resumeTimer := none } (s.converter.request c) s.faults
      (s.resumeAuto c) :=
  State.Enters.of_put (w := s) (by rw [Converter.withRequest_self]) rfl h

theorem State.Enters.follows {u : State} {ch : Channel} {request : Option Int} {faults : List FaultCode}
    (h : s.Enters c ch request faults u) (hst : ch.state ≠ .auto) : s.BeltFollows u := by
  obtain ⟨keeps, entered⟩ := h
  refine ⟨keeps, fun auto => ?_⟩
  rw [entered] at auto
  cases c with
  | a => exact absurd auto hst
  | b => exact auto

/-- Two entries of one channel, one after the other, are the second with what the first withdrew. -/
theorem State.Enters.trans {u v : State} {ch ch' : Channel} {request : Option Int} {faults faults' : List FaultCode}
    (h : s.Enters c ch request faults u) (h' : u.Enters c ch' (u.converter.request c) faults' v)
    (hst : ch.state ≠ .auto) (hst' : ch'.state ≠ .auto) : s.Enters c ch' request faults' v := by
  refine ⟨((h.follows hst).trans (h'.follows hst')).1, ?_⟩
  have entered' := h'.2
  rw [Converter.withRequest_self] at entered'
  refine entered'.trans ?_
  rw [h.2]
  cases c <;> rfl

/-- With a window of 0 the loss goes straight on to MANUAL, REF_LOST added (R100). -/
theorem State.loseReference_expires (h : (s.channel c).state = .auto) (hw : cd.window = 0) :
    s.Enters c { (s.channel c).forced with state := .manual, cause := none, fault := none, resumeTimer := none } none
      (if refLostCode c ∈ s.faults then s.faults else s.faults ++ [refLostCode c]) (s.loseReference cd c) := by
  have held := State.forceChannel_enters (s := s) (c := c) (state := .held) (some .refLost) none
    (some (after s.clock cd.window)) (by rw [h]; decide)
  rw [State.loseReference, if_pos hw]
  generalize s.forceChannel c .held (some .refLost) none (some (after s.clock cd.window)) = u at held
  have channel : u.channel c = { (s.channel c).forced with
      state := .held, cause := some .refLost, fault := none, resumeTimer := some (after s.clock cd.window) } := by
    rw [held.2]
    cases c <;> rfl
  have faults : u.faults = s.faults := by rw [held.2]
  have expired := State.resumeExpired_enters (s := u) (c := c) (by rw [channel]; nofun)
  rw [channel, faults] at expired
  exact held.trans expired nofun nofun

end

/-! ### Updates in AUTO, MANUAL and at rest -/

theorem State.settled_active {s : State} {cd : ChannelDef} {ch : Channel} {expiry : Clock} {g : Nat} {m : Int}
    (h : s.activeGroup cd.refs = some (g, m)) : (s.settled cd ch expiry).ref = ⟨some g, some ⟨g, m⟩⟩ := by
  unfold State.settled
  dsimp only
  rw [h]

theorem State.settled_inactive {s : State} {cd : ChannelDef} {ch : Channel} {expiry : Clock}
    (h : s.activeGroup cd.refs = none) : (s.settled cd ch expiry).ref.active = none := by
  unfold State.settled
  dsimp only
  rw [h]

/-- Settles O44: the update is one that enters no state, and each field of the channel is read off what it puts out. -/
theorem autoUpdateDrivesTheChannel : Obligations.AutoUpdateDrivesTheChannel := by
  intro s t c st expiry g m x hs hc hd hauto hg hx cd adopted commanded ramped effective e u₀
  have ref := State.settled_active (ch := s.channel c) (expiry := expiry) hg
  have target : (s.settled cd (s.channel c) expiry).target =
      some { adopted with commanded := commanded, ramped := ramped, effective := effective } := by
    unfold State.settled
    dsimp only
    rw [hx, hg]
    cases hv : s.derivedValue (st.channel c) <;> cases hl : (s.channel c).ref.last with
    | none => simp only [adopted, effective, ramped, commanded, cd, hv, hl, Option.map_some]
    | some l =>
      by_cases same : l.group = g
      · simp only [adopted, effective, ramped, commanded, cd, hv, hl, same, Option.map_some, ne_eq, not_true_eq_false,
          if_true, if_false]
      · simp only [adopted, effective, ramped, commanded, cd, hv, hl, same, Option.map_some, ne_eq,
          not_false_eq_true, if_true, if_false]
  generalize hw : (s.tick t).setChannel c (s.settled cd (s.channel c) expiry) = w
  have channel : w.channel c = s.settled cd (s.channel c) expiry := by rw [← hw, State.setChannel_self]
  have state : (w.channel c).state = .auto := by rw [channel]; exact hauto
  have groups : w.groups = s.groups := by rw [← hw]; cases c <;> rfl
  have check : w.checkReference cd c = w := by
    refine State.checkReference_stands (fun _ => ?_) fun held => ?_
    · rw [channel, ref]
      nofun
    · rw [state] at held
      cases held
  have step := State.outputStep_auto (st := st) (cd := cd) state (ChannelDef.controls_role hc).2
    (by rw [channel, ref]) (by rw [channel, target])
  rw [State.plungeResult_congr groups, channel] at step
  obtain ⟨u, ran, ⟨driven, same⟩, asked, frame⟩ :=
    exec_channelUpdate_stays hs hc hd hw.symm check (step.trans (by rw [channel]))
  have out := (congrArg Channel.out same).trans rfl
  exact ⟨u, ran, (congrArg Channel.state same).trans hauto, (congrArg Channel.cause same).trans rfl,
    (congrArg Channel.ref same).trans ref, (congrArg Channel.target same).trans target, out,
    (congrArg Channel.sat same).trans rfl, (congrArg Channel.inDeadband same).trans rfl,
    (congrArg Channel.updateTimer same).trans rfl, driven, (congrArg Channel.resumeTimer same).trans rfl,
    (congrArg Channel.fault same).trans rfl, (congrArg Channel.openRun same).trans (by rw [out]; rfl), asked, frame⟩

end Sys2Proof.Machine
end

section
/-! The updates that lose the reference and resume (R100 to R102). -/

namespace Sys2Proof.Machine

section
variable {s : State} {t : Nat} {c : ChannelId} {st : Settings} {expiry : Clock} (hs : s.settings = some st)
  (hc : (st.channel c).controls) (hd : s.due t (s.channel c).updateTimer expiry)
include hs hc hd

/-- An update whose reference check enters a state puts out from what the channel entered as. -/
theorem exec_channelUpdate_enters {w : State} {ch : Channel} {request : Option Int} {faults : List FaultCode}
    {out : Int} {sat : Saturation} {band : Bool}
    (hw : w = (s.tick t).setChannel c (s.settled (st.channel c) (s.channel c) expiry))
    (henters : w.Enters c ch request faults (w.checkReference (st.channel c) c))
    (hout : (w.checkReference (st.channel c) c).outputStep st (st.channel c) c =
      { (w.checkReference (st.channel c) c).channel c with out := out, sat := sat, inDeadband := band }) :
    ∃ u, exec (.channelUpdate t c) s = .next u ∧ ch.PutsOut (st.channel c) out sat band (u.channel c) ∧
      CheckAsked (s.converter.withRequest c request) u.converter (max s.now t) c (u.channel c) ∧ s.KeepsConveyor u ∧
      u = { (s.tick t).setChannel c (u.channel c) with
        conveyor := u.conveyor, converter := u.converter, faults := faults, line := s.line.statusMarked } := by
  have ran := exec_channelUpdate_controls hs hc hd
  rw [← hw] at ran
  obtain ⟨putsOut, asked, keeps, frame⟩ := henters.drives hout
  generalize (w.checkReference (st.channel c) c).driveChannel st (st.channel c) c = u at ran putsOut asked keeps frame
  have converter : w.converter = s.converter := by rw [hw]; cases c <;> rfl
  have now : w.now = max s.now t := by rw [hw]; cases c <;> rfl
  have chanA : w.chanA.state = s.chanA.state := by rw [hw]; cases c <;> rfl
  have conveyor : w.conveyor = s.conveyor := by rw [hw]; cases c <;> rfl
  rw [converter, now] at asked
  unfold State.KeepsConveyor at keeps
  rw [chanA, conveyor] at keeps
  refine ⟨u, ran, putsOut, asked, keeps, frame.trans ?_⟩
  rw [hw]
  cases c <;> rfl

end

/-- A resting channel that puts out 0 keeps its flags. -/
theorem State.outputStep_rests {s : State} {st : Settings} {cd : ChannelDef} {c : ChannelId}
    {ch : Channel} (hch : s.channel c = ch) (h : ch.state ≠ .auto) (h' : ch.state ≠ .manual) :
    s.outputStep st cd c = { s.channel c with out := 0, sat := ch.sat, inDeadband := ch.inDeadband } := by
  subst hch
  exact State.outputStep_resting h h'

theorem State.Enters.channel {s u : State} {c : ChannelId} {ch : Channel} {request : Option Int}
    {faults : List FaultCode} (h : s.Enters c ch request faults u) : u.channel c = ch := by
  rw [h.2]
  cases c <;> rfl

/-- The entry of a channel that was not in AUTO leaves the conveyor alone. -/
theorem State.KeepsConveyor.stands {s u : State} {c : ChannelId} (keeps : s.KeepsConveyor u)
    (h : (s.channel c).state ≠ .auto) (hb : c = .b → u.chanA = s.chanA) : u.conveyor = s.conveyor := by
  refine keeps.trans (if_neg fun left => ?_)
  cases c with
  | a => exact h left.1
  | b => exact left.2 (by rw [hb rfl]; exact left.1)

theorem State.latestCommand_of {s u : State} (h : u.table = s.table) (h' : u.clock = s.clock) (st : Settings)
    (code : BitVec 6) : u.latestCommand st code = s.latestCommand st code := by
  unfold State.latestCommand
  rw [h, h']

/-! ### The loss in AUTO (R100) -/

section
variable {s : State} {t : Nat} {c : ChannelId} {st : Settings} {expiry : Clock} (hs : s.settings = some st)
  (hc : (st.channel c).controls) (hd : s.due t (s.channel c).updateTimer expiry)
  (hauto : (s.channel c).state = .auto) (hnone : s.activeGroup (st.channel c).refs = none)
include hs hc hd hauto hnone

/-- With a window the channel waits in HELD at rest. -/
theorem exec_channelUpdate_loses (hwindow : (st.channel c).window ≠ 0) : ∃ u, exec (.channelUpdate t c) s = .next u ∧
    u.channel c = { (s.settled (st.channel c) (s.channel c) expiry).forced with
      state := .held, cause := some .refLost, fault := none
      resumeTimer := some (after (s.tick t).clock (st.channel c).window) } ∧
    s.KeepsConveyor u ∧ u = { (s.tick t).setChannel c (u.channel c) with
      conveyor := u.conveyor, converter := s.converter.withRequest c none, line := s.line.statusMarked } := by
  generalize hw : (s.tick t).setChannel c (s.settled (st.channel c) (s.channel c) expiry) = w
  have channel : w.channel c = s.settled (st.channel c) (s.channel c) expiry := by rw [← hw, State.setChannel_self]
  have state : (w.channel c).state = .auto := by rw [channel]; exact hauto
  have clock : w.clock = (s.tick t).clock := by rw [← hw]; cases c <;> rfl
  have faults : w.faults = s.faults := by rw [← hw]; cases c <;> rfl
  have check : w.checkReference (st.channel c) c = w.loseReference (st.channel c) c :=
    State.checkReference_loses state (by rw [channel, State.settled_inactive hnone])
  have enters := State.loseReference_waits (s := w) (by rw [state]; nofun) hwindow
  rw [← check, channel, clock, faults] at enters
  obtain ⟨u, ran, putsOut, asked, keeps, frame⟩ :=
    exec_channelUpdate_enters hs hc hd hw.symm enters (State.outputStep_rests enters.channel nofun nofun)
  have stands := putsOut.stands rfl rfl rfl rfl
  have converter := (asked.atZero (by rw [stands]; rfl)).trans (Converter.withRequest_twice _ _ _ _)
  refine ⟨u, ran, stands, keeps, frame.trans ?_⟩
  rw [converter]
  cases c <;> rfl

/-- With a window of 0 the channel is in MANUAL at once, and slews from 0 toward the jog. -/
theorem exec_channelUpdate_expires (hwindow : (st.channel c).window = 0) :
    ∃ u, exec (.channelUpdate t c) s = .next u ∧
      ({ (s.settled (st.channel c) (s.channel c) expiry).forced with
        state := .manual, cause := none, fault := none, resumeTimer := none } : Channel).PutsOut (st.channel c)
        (clamp (clamp ((s.tick t).latestCommand st (jogCode c)) (-(st.channel c).umax) (st.channel c).umax)
          (-(st.channel c).slew) (st.channel c).slew) .none false (u.channel c) ∧
      CheckAsked (s.converter.withRequest c none) u.converter (max s.now t) c (u.channel c) ∧
      u.faults = (if refLostCode c ∈ s.faults then s.faults else s.faults ++ [refLostCode c]) ∧
      s.KeepsConveyor u ∧ u = { (s.tick t).setChannel c (u.channel c) with
        conveyor := u.conveyor, converter := u.converter, faults := u.faults, line := s.line.statusMarked } := by
  generalize hw : (s.tick t).setChannel c (s.settled (st.channel c) (s.channel c) expiry) = w
  have channel : w.channel c = s.settled (st.channel c) (s.channel c) expiry := by rw [← hw, State.setChannel_self]
  have state : (w.channel c).state = .auto := by rw [channel]; exact hauto
  have faults : w.faults = s.faults := by rw [← hw]; cases c <;> rfl
  have check : w.checkReference (st.channel c) c = w.loseReference (st.channel c) c :=
    State.checkReference_loses state (by rw [channel, State.settled_inactive hnone])
  have enters := State.loseReference_expires state hwindow
  rw [← check, channel, faults] at enters
  have entered := enters.channel
  have jog : (w.checkReference (st.channel c) c).latestCommand st (jogCode c) =
      (s.tick t).latestCommand st (jogCode c) := by
    refine State.latestCommand_of ?_ ?_ st (jogCode c)
    all_goals
      rw [enters.2, ← hw]
      cases c <;> rfl
  have out := State.outputStep_manual (s := w.checkReference (st.channel c) c) (st := st) (cd := st.channel c) (c := c)
    (by rw [entered])
  have rest : ((w.checkReference (st.channel c) c).channel c).out = 0 := by rw [entered]; rfl
  rw [jog, rest, ChannelDef.lowest_controls hc, Int.zero_sub, Int.zero_add] at out
  obtain ⟨u, ran, putsOut, asked, keeps, frame⟩ := exec_channelUpdate_enters hs hc hd hw.symm enters out
  have newFaults := congrArg State.faults frame
  refine ⟨u, ran, putsOut, asked, newFaults, keeps, ?_⟩
  rw [newFaults]
  exact frame

end

/-! ### Waiting in HELD (R100, R101) -/

section
variable {s : State} {t : Nat} {c : ChannelId} {st : Settings} {expiry : Clock} (hs : s.settings = some st)
  (hc : (st.channel c).controls) (hd : s.due t (s.channel c).updateTimer expiry)
  (hheld : (s.channel c).state = .held) (hcause : (s.channel c).cause = some .refLost)
include hs hc hd hheld hcause

/-- A group inside the window returns the channel to AUTO, and the update drives it. -/
theorem exec_channelUpdate_resumes {window : Clock} {g : Nat} {m : Int} {y : TargetRecord}
    (hresume : (s.channel c).resumeTimer = some window) (hpassed : passed (s.tick t).clock window = false)
    (hactive : s.activeGroup (st.channel c).refs = some (g, m))
    (hy : (s.settled (st.channel c) (s.channel c) expiry).target = some y) :
    let cd := st.channel c
    let settled := s.settled cd (s.channel c) expiry
    let e := shrunkError cd m y.effective
    let u₀ := plungeLimit cd.plunge (s.plungeResult cd) (flowDemand cd e)
    ∃ u, exec (.channelUpdate t c) s = .next u ∧
      ({ settled with state := .auto, cause := none, resumeTimer := none } : Channel).PutsOut cd
        (clamp (clamp u₀ (-cd.umax) cd.umax) ((s.channel c).out - cd.slew) ((s.channel c).out + cd.slew))
        (saturationOf u₀ (-cd.umax) cd.umax) (decide (e = 0)) (u.channel c) ∧
      CheckAsked s.converter u.converter (max s.now t) c (u.channel c) ∧
      u = { (s.tick t).setChannel c (u.channel c) with
        converter := u.converter, line := s.line.statusMarked } := by
  intro cd settled e u₀
  generalize hw : (s.tick t).setChannel c settled = w
  have channel : w.channel c = settled := by rw [← hw, State.setChannel_self]
  have state : (w.channel c).state = .held := by rw [channel]; exact hheld
  have faults : w.faults = s.faults := by rw [← hw]; cases c <;> rfl
  have request : w.converter.request c = s.converter.request c := by rw [← hw]; cases c <;> rfl
  have opened : (w.channel c).windowOpen w.clock = true := by
    have clock : w.clock = (s.tick t).clock := by rw [← hw]; cases c <;> rfl
    have resume : settled.resumeTimer = some window := hresume
    unfold Channel.windowOpen
    rw [channel, resume, clock]
    dsimp only
    rw [hpassed]
    rfl
  have ref : settled.ref = ⟨some g, some ⟨g, m⟩⟩ := State.settled_active hactive
  have check : w.checkReference cd c = w.resumeAuto c :=
    State.checkReference_resumes state (by rw [channel]; exact hcause) (by rw [channel, ref]) opened
  have enters := State.resumeAuto_enters (s := w) (c := c) (by rw [state]; nofun)
  rw [← check, channel, faults, request] at enters
  have entered := enters.channel
  have groups : (w.checkReference cd c).groups = s.groups := by rw [enters.2, ← hw]; cases c <;> rfl
  have out := State.outputStep_auto (s := w.checkReference cd c) (st := st) (cd := cd) (c := c) (by rw [entered])
    (ChannelDef.controls_role hc).2 (l := ⟨g, m⟩) (y := y) (by rw [entered]; exact congrArg RefState.last ref)
    (by rw [entered]; exact hy)
  have before : ((w.checkReference cd c).channel c).out = (s.channel c).out := by rw [entered]; rfl
  dsimp only at out
  rw [State.plungeResult_congr groups, before, ChannelDef.lowest_controls hc] at out
  obtain ⟨u, ran, putsOut, asked, keeps, frame⟩ := exec_channelUpdate_enters hs hc hd hw.symm enters out
  rw [Converter.withRequest_self] at asked
  have conveyor : u.conveyor = s.conveyor := keeps.stands (by rw [hheld]; nofun) (by rintro rfl; rw [frame]; rfl)
  refine ⟨u, ran, putsOut, asked, frame.trans ?_⟩
  rw [conveyor]
  cases c <;> rfl

/-- Without a group, or past the window, the channel waits on with output 0. -/
theorem exec_channelUpdate_waits (hwaits : s.activeGroup (st.channel c).refs = none ∨
      (∃ window, (s.channel c).resumeTimer = some window ∧ passed (s.tick t).clock window = true)) :
    ∃ u, exec (.channelUpdate t c) s = .next u ∧
      (s.settled (st.channel c) (s.channel c) expiry).PutsOut (st.channel c) 0 (s.channel c).sat
        (s.channel c).inDeadband (u.channel c) ∧
      u = { (s.tick t).setChannel c (u.channel c) with converter := s.converter.withRequest c none } := by
  generalize hw : (s.tick t).setChannel c (s.settled (st.channel c) (s.channel c) expiry) = w
  have channel : w.channel c = s.settled (st.channel c) (s.channel c) expiry := by rw [← hw, State.setChannel_self]
  have state : (w.channel c).state = .held := by rw [channel]; exact hheld
  have check : w.checkReference (st.channel c) c = w := by
    refine State.checkReference_stands (fun auto => ?_) fun _ _ => ?_
    · rw [state] at auto
      cases auto
    · obtain none | ⟨window, resume, past⟩ := hwaits
      · exact .inl (by rw [channel, State.settled_inactive none])
      · right
        have clock : w.clock = (s.tick t).clock := by rw [← hw]; cases c <;> rfl
        have resume' : (w.channel c).resumeTimer = some window := by rw [channel]; exact resume
        unfold Channel.windowOpen
        rw [resume', clock]
        dsimp only
        rw [past]
        rfl
  have out := State.outputStep_rests (st := st) (cd := st.channel c) channel
    (by rw [← channel, state]; nofun) (by rw [← channel, state]; nofun)
  obtain ⟨u, ran, putsOut, asked, frame⟩ := exec_channelUpdate_stays hs hc hd hw.symm check out
  have converter := asked.atZero putsOut.out
  rw [converter] at frame
  exact ⟨u, ran, putsOut, frame⟩

end

/-! ### The window's expiry (R102) -/

theorem exec_resumeWindowExpiry_due {s : State} {t : Nat} {c : ChannelId} {window : Clock}
    (hheld : (s.channel c).state = .held) (hcause : (s.channel c).cause = some .refLost)
    (hd : s.due t (s.channel c).resumeTimer window) :
    exec (.resumeWindowExpiry t c) s = .next ((s.tick t).resumeExpired c) := by
  have channel : (s.tick t).channel c = s.channel c := by cases c <;> rfl
  show execResumeWindowExpiry t c s = _
  rw [execResumeWindowExpiry, State.event_run hd.1]
  simp only [channel, hheld, hcause, and_self, if_true, hd.timer_expired]

theorem exec_resumeWindowExpiry_moves {s : State} {t : Nat} {c : ChannelId} {window : Clock}
    (hheld : (s.channel c).state = .held) (hcause : (s.channel c).cause = some .refLost)
    (hd : s.due t (s.channel c).resumeTimer window) : ∃ u, exec (.resumeWindowExpiry t c) s = .next u ∧
      u.channel c = { (s.channel c).forced with state := .manual, cause := none, resumeTimer := none } ∧
      u.faults = (if refLostCode c ∈ s.faults then s.faults else s.faults ++ [refLostCode c]) ∧
      u = { (s.tick t).setChannel c (u.channel c) with faults := u.faults, line := s.line.statusMarked } := by
  have channel : (s.tick t).channel c = s.channel c := by cases c <;> rfl
  have enters := State.resumeExpired_enters (s := s.tick t) (c := c) (by rw [channel, hheld]; nofun)
  have ran := exec_resumeWindowExpiry_due hheld hcause hd
  generalize (s.tick t).resumeExpired c = u at enters ran
  have entered := enters.channel
  obtain ⟨keeps, frame⟩ := enters
  rw [channel] at entered
  have newFaults : u.faults = (if refLostCode c ∈ s.faults then s.faults else s.faults ++ [refLostCode c]) := by
    rw [frame]
    rfl
  have conveyor : u.conveyor = s.conveyor :=
    keeps.stands (c := c) (by rw [hheld]; nofun) (by rintro rfl; rw [frame]; rfl)
  refine ⟨u, ran, entered, newFaults, frame.trans ?_⟩
  rw [newFaults, entered, conveyor, Converter.withRequest_self, channel]
  cases c <;> rfl

/-- Settles O45: the loss by its two windows, the waiting channel's two updates, and the window's expiry. -/
theorem lostReferencesHoldAndResume : Obligations.LostReferencesHoldAndResume := by
  refine ⟨fun s t c st expiry hs hc hd hauto hnone => ⟨exec_channelUpdate_loses hs hc hd hauto hnone,
      exec_channelUpdate_expires hs hc hd hauto hnone⟩,
    fun s t c st expiry hs hc hd hheld hcause => ⟨?_, exec_channelUpdate_waits hs hc hd hheld hcause⟩,
    fun s t c window => exec_resumeWindowExpiry_moves⟩
  intro window g m y hresume hpassed hactive hy
  exact exec_channelUpdate_resumes hs hc hd hheld hcause hresume hpassed hactive hy

end Sys2Proof.Machine
end

section
/-! The updates in MANUAL and at rest (R92, R93, R98, R108, R112), and the latest command (R108, R121). -/

namespace Sys2Proof.Machine

/-! ### The latest command -/

theorem Entry.sound_iff {e : Entry} :
    e.sound = true ↔ e.quality = some .good ∨ e.quality = some .held ∨ e.quality = some .suspect := by
  unfold Entry.sound
  simp only [Bool.or_eq_true, beq_iff_eq, or_assoc]

theorem Settings.consumes_iff {st : Settings} {i : BitVec 2} : st.consumes i = true ↔ i = st.side.inst ∨ i = 3 := by
  unfold Settings.consumes
  simp only [Bool.or_eq_true, beq_iff_eq]

/-- The fold of `laterArrival` finds an entry that arrived last. -/
theorem foldl_laterArrival (clock : Clock) (l : List Entry) : (l = [] ∧ l.foldl (laterArrival clock) none = none) ∨
    ∃ b, l.foldl (laterArrival clock) none = some b ∧ b ∈ l ∧ ∀ e ∈ l, b.ageAt clock ≤ e.ageAt clock := by
  induction l using List.reverseRecOn with
  | nil => exact .inl ⟨rfl, rfl⟩
  | append_singleton l e ih =>
    right
    rw [List.foldl_append]
    obtain ⟨rfl, none⟩ | ⟨b, found, mem, least⟩ := ih
    · exact ⟨e, rfl, by simp, by simp⟩
    · rw [found]
      by_cases later : e.ageAt clock < b.ageAt clock
      · refine ⟨e, if_pos later, by simp, fun x hx => ?_⟩
        obtain hx | hx := List.mem_append.1 hx
        · exact (Nat.le_of_lt later).trans (least x hx)
        · rw [List.mem_singleton.1 hx]
      · refine ⟨b, if_neg later, by simp [mem], fun x hx => ?_⟩
        obtain hx | hx := List.mem_append.1 hx
        · exact least x hx
        · rw [List.mem_singleton.1 hx]
          exact Nat.le_of_not_lt later

/-- An entry that the latest command may be taken from (R108, R121). -/
def State.Commands (s : State) (st : Settings) (code : BitVec 6) (e : Entry) : Prop :=
  e ∈ s.table.entries ∧ e.origin = .remote ∧ e.key.code = code ∧ (e.key.inst = st.side.inst ∨ e.key.inst = 3) ∧
    e.state = .fresh ∧ (e.quality = some .good ∨ e.quality = some .held ∨ e.quality = some .suspect)

theorem Entry.bound_iff {st : Settings} {code : BitVec 6} {e : Entry} : e.bound st code = true ↔
    e.origin = .remote ∧ e.key.code = code ∧ (e.key.inst = st.side.inst ∨ e.key.inst = 3) := by
  unfold Entry.bound
  simp only [Bool.and_eq_true, beq_iff_eq, Settings.consumes_iff, and_assoc]

theorem State.commands_iff {s : State} {st : Settings} {code : BitVec 6} {e : Entry} :
    e ∈ s.table.entries.filter (fun e => e.bound st code && e.state == .fresh && e.sound) ↔ s.Commands st code e := by
  unfold State.Commands
  simp only [List.mem_filter, Bool.and_eq_true, beq_iff_eq, Entry.bound_iff, Entry.sound_iff, and_assoc]

theorem State.latestCommand_absent {s : State} {st : Settings} {code : BitVec 6} (h : ∀ e, ¬ s.Commands st code e) :
    s.latestCommand st code = 0 := by
  have empty : s.table.entries.filter (fun e => e.bound st code && e.state == .fresh && e.sound) = [] :=
    List.eq_nil_iff_forall_not_mem.2 fun e mem => h e (State.commands_iff.1 mem)
  unfold State.latestCommand
  rw [empty]
  rfl

theorem State.latestCommand_present {s : State} {st : Settings} {code : BitVec 6} (h : ∃ e, s.Commands st code e) :
    ∃ e, s.Commands st code e ∧ s.latestCommand st code = e.value.getD 0 ∧
      ∀ e', s.Commands st code e' → e.ageAt s.clock ≤ e'.ageAt s.clock := by
  obtain ⟨e, he⟩ := h
  obtain ⟨empty, _⟩ | ⟨b, found, mem, least⟩ := foldl_laterArrival s.clock
      (s.table.entries.filter fun e => e.bound st code && e.state == .fresh && e.sound)
  · have absurdity := State.commands_iff.2 he
    rw [empty] at absurdity
    cases absurdity
  · refine ⟨b, State.commands_iff.1 mem, ?_, fun e' he' => least e' (State.commands_iff.2 he')⟩
    unfold State.latestCommand
    dsimp only
    rw [found]
    dsimp only [Option.bind_some]
    cases b.value <;> rfl

/-! ### The conveyor outside RUNNING (R118) -/

theorem State.commandBelt_frame (s : State) (cv : ConveyorDef) (hold : Bool) (trim : Int) :
    s.commandBelt cv hold trim = { s with conveyor := (s.commandBelt cv hold trim).conveyor } := by
  unfold State.commandBelt
  split
  · split
    · rfl
    · rfl
  · rfl

theorem State.judgeBelt_outside {s : State} (h : s.station ≠ .running) (st : Settings) (cv : ConveyorDef)
    (k : Conveyor) (speed : Int) : s.judgeBelt st cv k speed = { s with conveyor := some k } :=
  if_pos h

theorem State.conveyorWork_outside {s : State} (h : s.station ≠ .running) (st : Settings) :
    s.conveyorWork st = { s with conveyor := (s.conveyorWork st).conveyor } := by
  unfold State.conveyorWork
  split
  · dsimp only
    rw [State.judgeBelt_outside h, State.commandBelt_frame]
  · rfl

/-! ### The updates -/

section
variable {s : State} {t : Nat} {c : ChannelId} {st : Settings} {expiry : Clock} (hs : s.settings = some st)
  (hd : s.due t (s.channel c).updateTimer expiry)
include hs hd

theorem exec_channelUpdate_manual (hc : (st.channel c).controls) (hmanual : (s.channel c).state = .manual) :
    let cd := st.channel c
    ∃ u, exec (.channelUpdate t c) s = .next u ∧
      (s.settled cd (s.channel c) expiry).PutsOut cd
        (clamp (clamp ((s.tick t).latestCommand st (jogCode c)) (-cd.umax) cd.umax) ((s.channel c).out - cd.slew)
          ((s.channel c).out + cd.slew)) .none false (u.channel c) ∧
      CheckAsked s.converter u.converter (max s.now t) c (u.channel c) ∧
      u = { (s.tick t).setChannel c (u.channel c) with converter := u.converter } := by
  intro cd
  generalize hw : (s.tick t).setChannel c (s.settled cd (s.channel c) expiry) = w
  have channel : w.channel c = s.settled cd (s.channel c) expiry := by rw [← hw, State.setChannel_self]
  have state : (w.channel c).state = .manual := by rw [channel]; exact hmanual
  have check : w.checkReference cd c = w := by
    refine State.checkReference_stands ?_ ?_
    · rw [state]; nofun
    · rw [state]; nofun
  have jog : w.latestCommand st (jogCode c) = (s.tick t).latestCommand st (jogCode c) := by
    refine State.latestCommand_of ?_ ?_ st (jogCode c)
    all_goals
      rw [← hw]
      cases c <;> rfl
  have before : (w.channel c).out = (s.channel c).out := by rw [channel]; rfl
  have out := State.outputStep_manual (st := st) (cd := cd) state
  rw [jog, before, ChannelDef.lowest_controls hc] at out
  exact exec_channelUpdate_stays hs hc hd hw.symm check out

/-- A DEPTH or ATTITUDE channel at rest that is not waiting for a reference. -/
theorem exec_channelUpdate_rests (hc : (st.channel c).controls) (hauto : (s.channel c).state ≠ .auto)
    (hmanual : (s.channel c).state ≠ .manual)
    (hlost : (s.channel c).state = .held → (s.channel c).cause ≠ some .refLost) :
    let cd := st.channel c
    ∃ u, exec (.channelUpdate t c) s = .next u ∧
      (s.settled cd (s.channel c) expiry).PutsOut cd 0 (s.channel c).sat (s.channel c).inDeadband (u.channel c) ∧
      u = { (s.tick t).setChannel c (u.channel c) with converter := s.converter.withRequest c none } := by
  intro cd
  generalize hw : (s.tick t).setChannel c (s.settled cd (s.channel c) expiry) = w
  have channel : w.channel c = s.settled cd (s.channel c) expiry := by rw [← hw, State.setChannel_self]
  have state : (w.channel c).state = (s.channel c).state := by rw [channel]; rfl
  have cause : (w.channel c).cause = (s.channel c).cause := by rw [channel]; rfl
  have check : w.checkReference cd c = w := by
    refine State.checkReference_stands (fun auto => absurd (state.symm.trans auto) hauto) fun held lost => ?_
    exact absurd (cause.symm.trans lost) (hlost (state.symm.trans held))
  have out := State.outputStep_rests (st := st) (cd := cd) channel hauto hmanual
  obtain ⟨u, ran, putsOut, asked, frame⟩ := exec_channelUpdate_stays hs hc hd hw.symm check out
  rw [asked.atZero putsOut.out] at frame
  exact ⟨u, ran, putsOut, frame⟩

/-- A BELT channel at rest outside RUNNING. -/
theorem exec_channelUpdate_beltRests (hb : (st.channel c).role = .belt) (hstation : s.station ≠ .running)
    (hauto : (s.channel c).state ≠ .auto) (hmanual : (s.channel c).state ≠ .manual) :
    let cd := st.channel c
    ∃ u, exec (.channelUpdate t c) s = .next u ∧
      ({ s.channel c with updateTimer := some (after expiry cd.period) } : Channel).PutsOut cd 0 (s.channel c).sat
        (s.channel c).inDeadband (u.channel c) ∧
      u = { (s.tick t).setChannel c (u.channel c) with
        conveyor := u.conveyor, converter := s.converter.withRequest c none } := by
  intro cd
  have ran := exec_channelUpdate_due hs hd
  unfold State.updateChannel at ran
  dsimp only at ran
  rw [if_neg (by rw [hb]; nofun), if_pos hb] at ran
  generalize hw : (s.tick t).setChannel c { s.channel c with
    updateTimer := some (after expiry (st.channel c).period) } = w at ran
  have station : w.station ≠ .running := by rw [← hw]; cases c <;> exact hstation
  have worked := State.conveyorWork_outside station st
  generalize w.conveyorWork st = v at ran worked
  have channel : v.channel c = { s.channel c with updateTimer := some (after expiry cd.period) } := by
    rw [worked, ← hw]
    cases c <;> rfl
  have converter : v.converter = s.converter := by rw [worked, ← hw]; cases c <;> rfl
  obtain ⟨putsOut, asked, frame⟩ :=
    State.driveChannel_putsOut (State.outputStep_rests (st := st) (cd := cd) channel hauto hmanual)
  change exec _ s = .next (v.driveChannel st cd c) at ran
  generalize v.driveChannel st cd c = u at ran putsOut asked frame
  have asked := asked.atZero putsOut.out
  rw [channel] at putsOut
  refine ⟨u, ran, putsOut, frame.trans ?_⟩
  have conveyor : u.conveyor = v.conveyor := by rw [frame]; cases c <;> rfl
  rw [asked, converter, conveyor, worked, ← hw]
  cases c <;> rfl

end

/-- Settles O46: MANUAL and rest by the role of the channel, the latest command by what qualifies. -/
theorem manualAndRestingUpdates : Obligations.ManualAndRestingUpdates := by
  refine ⟨fun s t c st expiry hs hc hd => exec_channelUpdate_manual hs hd hc, ?_, fun s st code =>
    ⟨State.latestCommand_absent, State.latestCommand_present⟩⟩
  intro s t c st expiry hs hrole hd hrest hstation cd begun
  have hauto : (s.channel c).state ≠ .auto := by
    obtain h | h | ⟨h, _⟩ := hrest <;> rw [h] <;> nofun
  have hmanual : (s.channel c).state ≠ .manual := by
    obtain h | h | ⟨h, _⟩ := hrest <;> rw [h] <;> nofun
  by_cases hb : (st.channel c).role = .belt
  · obtain ⟨u, ran, putsOut, frame⟩ := exec_channelUpdate_beltRests hs hd hb (hstation hb) hauto hmanual
    exact ⟨u, ran, by rw [show begun = _ from if_pos hb]; exact putsOut, fun h => absurd hb h, frame⟩
  · have hlost : (s.channel c).state = .held → (s.channel c).cause ≠ some .refLost := by
      obtain h | h | ⟨_, h⟩ := hrest
      · rw [h]; nofun
      · rw [h]; nofun
      · intro _
        rw [h]
        nofun
    have hc : (st.channel c).controls := by
      unfold ChannelDef.controls
      cases hr : (st.channel c).role with
      | none => exact absurd hr hrole
      | belt => exact absurd hr hb
      | _ => simp
    obtain ⟨u, ran, putsOut, frame⟩ := exec_channelUpdate_rests hs hd hc hauto hmanual hlost
    have conveyor : u.conveyor = s.conveyor := by rw [frame]; cases c <;> rfl
    refine ⟨u, ran, by rw [show begun = _ from if_neg hb]; exact putsOut, fun _ => conveyor, frame.trans ?_⟩
    rw [conveyor]
    cases c <;> rfl

end Sys2Proof.Machine
end

section
/-! The BELT update (R118, R119, R123 to R130, R132, R134): the judgement in its steps, and the updates that raise
neither cause. -/

namespace Sys2Proof.Machine

/-! ### The judgement (R130, R132, R134) -/

/-- The conveyor as a judgement in RUNNING leaves it, before any cause is raised. -/
def Conveyor.judged (k : Conveyor) (cv : ConveyorDef) (speed : Int) (period : Nat) (condition : Bool) (clock : Clock) :
    Conveyor :=
  { ({ k with content := integrate cv k.content k.loose speed period } : Conveyor).judgeFull cv with
    stallStart := nextStallStart k.stallStart condition clock }

/-- What a judgement in RUNNING has written before either cause is raised. -/
def State.judged (w : State) (st : Settings) (cv : ConveyorDef) (k : Conveyor) (speed : Int) : State :=
  let condition := stallCondition w.chanA k.command speed
  let filled := w.setConveyor (k.judged cv speed st.chanA.period condition w.clock)
  if stallRaised k.stallStart condition w.clock then filled.addFault .beltStall else filled

theorem State.judgeBelt_running {w : State} (h : w.station = .running) (st : Settings) (cv : ConveyorDef)
    (k : Conveyor) (speed : Int) :
    let condition := stallCondition w.chanA k.command speed
    let filled := k.judged cv speed st.chanA.period condition w.clock
    let v := w.judged st cv k speed
    let v' := if filled.full ∧ ¬ k.full then v.raiseCause chamberFullCause (alarmDetail st) else v
    w.judgeBelt st cv k speed =
      if stallRaised k.stallStart condition w.clock then v'.raiseCause beltStallCause (detailByte speed) else v' :=
  if_neg (not_not.2 h)

theorem State.judged_unraised {w : State} {st : Settings} {cv : ConveyorDef} {k : Conveyor} {speed : Int}
    (h : stallRaised k.stallStart (stallCondition w.chanA k.command speed) w.clock = false) :
    w.judged st cv k speed = w.setConveyor
      (k.judged cv speed st.chanA.period (stallCondition w.chanA k.command speed) w.clock) := by
  unfold State.judged
  dsimp only
  rw [h]
  rfl

theorem Conveyor.judgeFull_eq (k : Conveyor) (cv : ConveyorDef) : k.judgeFull cv =
    { k with full := decide ((if k.full then cv.resumeContent else cv.alarmContent) ≤ k.content) } := by
  unfold Conveyor.judgeFull
  cases k.full with
  | false => rfl
  | true =>
    simp only [if_true]
    rw [← decide_not]
    simp only [Int.not_lt]

/-- A stall start that raises nothing begins with the condition and is gone without it (R134). -/
theorem nextStallStart_unraised {start : Option Clock} {condition : Bool} {clock : Clock}
    (h : stallRaised start condition clock = false) :
    nextStallStart start condition clock = if condition then some (start.getD clock) else none := by
  cases start with
  | none => rfl
  | some x =>
    cases condition with
    | false => rfl
    | true =>
      have short : ¬ Config.stallTime ≤ since clock x := of_decide_eq_false h
      exact if_neg short

theorem stallCondition_outside {before : Channel} (h : before.state ≠ .auto) (command : Option Int) (speed : Int) :
    stallCondition before command speed = false := by
  unfold stallCondition
  cases command with
  | none => rfl
  | some _ => simp [h]

/-- A judgement that raises neither cause leaves the conveyor alone changed. -/
theorem State.judgeBelt_quiet {w : State} {st : Settings} {cv : ConveyorDef} {k : Conveyor} {speed : Int}
    (h : w.station = .running)
    (hstall : stallRaised k.stallStart (stallCondition w.chanA k.command speed) w.clock = false)
    (hfull : k.full = true ∨ integrate cv k.content k.loose speed st.chanA.period < cv.alarmContent ∨ w.latch ≠ none) :
    w.judgeBelt st cv k speed = w.setConveyor
      (k.judged cv speed st.chanA.period (stallCondition w.chanA k.command speed) w.clock) := by
  have whole := State.judgeBelt_running h st cv k speed
  dsimp only at whole
  rw [hstall, State.judged_unraised hstall] at whole
  rw [whole, if_neg (by nofun)]
  split
  next raised =>
    obtain full | short | latched := hfull
    · exact absurd full raised.2
    · have notFull : k.full = false := Bool.eq_false_iff.2 raised.2
      have reached := raised.1
      unfold Conveyor.judged at reached
      rw [Conveyor.judgeFull_eq] at reached
      dsimp only at reached
      rw [notFull] at reached
      exact absurd (of_decide_eq_true reached) (by simpa using short)
    · exact State.raiseCause_latched _ _ _ latched
  next => rfl

/-! ### The steps after the judgement -/

theorem State.commandBelt_auto {w : State} {k : Conveyor} (hk : w.conveyor = some k) (ha : w.chanA.state = .auto)
    (cv : ConveyorDef) (hold : Bool) (trim : Int) : w.commandBelt cv hold trim = w.setConveyor { k with
      substate := some (chooseSubstate cv k hold trim).1, command := some (chooseSubstate cv k hold trim).2 } := by
  unfold State.commandBelt
  rw [hk]
  exact if_pos ha

theorem ChannelDef.lowest_belt {cd : ChannelDef} (h : cd.role = .belt) : cd.lowest = 0 := if_pos h

/-- The output of a BELT channel in AUTO is the belt demand's (R129). -/
theorem State.outputStep_belt {w : State} {st : Settings} {cv : ConveyorDef} {cd : ChannelDef} {k : Conveyor}
    {command : Int} (hb : cd.role = .belt) (hcv : st.conveyor = some cv) (hk : w.conveyor = some k)
    (hc : k.command = some command) (ha : w.chanA.state = .auto) :
    let u₀ := beltOutput cv command (w.beltSpeed cv)
    w.outputStep st cd .a = { w.channel .a with
      out := clamp (clamp u₀ 0 cd.umax) (w.chanA.out - cd.slew) (w.chanA.out + cd.slew)
      sat := saturationOf u₀ 0 cd.umax, inDeadband := false } := by
  have state : (w.channel .a).state = .auto := ha
  have demand : w.beltDemandOutput st = beltOutput cv command (w.beltSpeed cv) := by
    unfold State.beltDemandOutput
    rw [hcv, hk]
    dsimp only
    rw [hc]
  unfold State.outputStep
  dsimp only
  conv_lhs => rw [state]
  dsimp only
  unfold State.autoOutput Channel.drive
  rw [demand, ChannelDef.lowest_belt hb]
  exact if_pos hb

/-! ### The update -/

section
variable {s : State} {t : Nat} {st : Settings} {cv : ConveyorDef} {k : Conveyor} {expiry : Clock}
  (hs : s.settings = some st) (hb : st.chanA.role = .belt) (hcv : st.conveyor = some cv) (hk : s.conveyor = some k)
  (hd : s.due t s.chanA.updateTimer expiry)
include hs hb hcv hk hd

/-- An update that changes nothing but the conveyor before its output step (R119). -/
theorem exec_channelUpdate_beltSteps {k' : Conveyor} {out : Int} {sat : Saturation} {band : Bool} {w : State}
    (hw : w = (s.tick t).setChannel .a { s.chanA with updateTimer := some (after expiry st.chanA.period) })
    (hworked : (w.judgeBelt st cv (s.rated cv k (s.tick t).clock) (s.beltSpeed cv)).commandBelt cv
      ((s.tick t).holdCondition st) ((s.tick t).trim st) = w.setConveyor k')
    (hout : (w.setConveyor k').outputStep st st.chanA .a =
      { w.channel .a with out := out, sat := sat, inDeadband := band }) :
    ∃ u, exec (.channelUpdate t .a) s = .next u ∧ u.conveyor = some k' ∧
      ({ s.chanA with updateTimer := some (after expiry st.chanA.period) } : Channel).PutsOut st.chanA out sat band
        u.chanA ∧
      CheckAsked s.converter u.converter (max s.now t) .a u.chanA ∧
      u = { s.tick t with conveyor := u.conveyor, chanA := u.chanA, converter := u.converter } := by
  have ran := exec_channelUpdate_belt hs hb hcv hk hd
  dsimp only at ran
  rw [← hw, hworked] at ran
  obtain ⟨putsOut, asked, frame⟩ := State.driveChannel_putsOut (s := w.setConveyor k') (c := .a) hout
  generalize (w.setConveyor k').driveChannel st st.chanA .a = u at ran putsOut asked frame
  subst hw
  have conveyor : u.conveyor = some k' := congrArg State.conveyor frame
  exact ⟨u, ran, conveyor, putsOut, asked, frame.trans (by rw [conveyor]; rfl)⟩

end

end Sys2Proof.Machine
end

section
/-! The BELT update that raises neither cause, and what every BELT update leaves of the rates (R118 to R134). -/

namespace Sys2Proof.Machine

/-! ### What the judgement makes of the rated conveyor -/

theorem State.rated_judged_short {s : State} {cv : ConveyorDef} {k : Conveyor} {clock : Clock} {speed : Int}
    {period : Nat} {condition : Bool}
    (h : k.full = true ∨ integrate cv k.content (s.rated cv k clock).loose speed period < cv.alarmContent) :
    (s.rated cv k clock).judged cv speed period condition clock = { s.rated cv k clock with
      content := integrate cv k.content (s.rated cv k clock).loose speed period
      full := k.full && decide (cv.resumeContent ≤ integrate cv k.content (s.rated cv k clock).loose speed period)
      stallStart := nextStallStart k.stallStart condition clock } := by
  obtain ⟨content, full, _, _, stallStart⟩ := State.rated_keeps s cv k clock
  generalize s.rated cv k clock = r at *
  unfold Conveyor.judged
  rw [Conveyor.judgeFull_short (by rw [full, content]; exact h), content, full, stallStart]

theorem State.rated_judged {s : State} {cv : ConveyorDef} {k : Conveyor} {clock : Clock} {speed : Int}
    {period : Nat} {condition : Bool} :
    (s.rated cv k clock).judged cv speed period condition clock = { s.rated cv k clock with
      content := integrate cv k.content (s.rated cv k clock).loose speed period
      full := decide ((if k.full then cv.resumeContent else cv.alarmContent) ≤
        integrate cv k.content (s.rated cv k clock).loose speed period)
      stallStart := nextStallStart k.stallStart condition clock } := by
  obtain ⟨content, full, _, _, stallStart⟩ := State.rated_keeps s cv k clock
  generalize s.rated cv k clock = r at *
  unfold Conveyor.judged
  rw [Conveyor.judgeFull_eq, content, full, stallStart]

/-! ### In AUTO -/

section
variable {s : State} {t : Nat} {st : Settings} {cv : ConveyorDef} {k : Conveyor} {expiry : Clock}
  (hs : s.settings = some st) (hb : st.chanA.role = .belt) (hcv : st.conveyor = some cv) (hk : s.conveyor = some k)
  (hd : s.due t s.chanA.updateTimer expiry)
include hs hb hcv hk hd

theorem exec_channelUpdate_beltAuto (hstation : s.station = .running) (hauto : s.chanA.state = .auto) :
    let speed := s.beltSpeed cv
    let clock := (s.tick t).clock
    let r := s.rated cv k clock
    let content := integrate cv k.content r.loose speed st.chanA.period
    let stalls := stallCondition s.chanA k.command speed
    k.full = true ∨ content < cv.alarmContent →
    (∀ start, stalls = true → k.stallStart = some start → since clock start < 1500) →
    let k' : Conveyor := { r with
      content := content, full := k.full && decide (cv.resumeContent ≤ content)
      stallStart := if stalls then some (k.stallStart.getD clock) else none }
    let chosen := chooseSubstate cv k' ((s.tick t).holdCondition st) ((s.tick t).trim st)
    let u₀ := beltOutput cv chosen.2 speed
    ∃ u, exec (.channelUpdate t .a) s = .next u ∧
      u.conveyor = some { k' with substate := some chosen.1, command := some chosen.2 } ∧
      ({ s.chanA with updateTimer := some (after expiry st.chanA.period) } : Channel).PutsOut st.chanA
        (clamp (clamp u₀ 0 st.chanA.umax) (s.chanA.out - st.chanA.slew) (s.chanA.out + st.chanA.slew))
        (saturationOf u₀ 0 st.chanA.umax) false u.chanA ∧
      CheckAsked s.converter u.converter (max s.now t) .a u.chanA ∧
      u = { s.tick t with conveyor := u.conveyor, chanA := u.chanA, converter := u.converter } := by
  intro speed clock r content stalls hshort hstall k' chosen u₀
  obtain ⟨sameContent, sameFull, sameCommand, _, sameStart⟩ := State.rated_keeps s cv k clock
  have unraised : stallRaised k.stallStart stalls clock = false := by
    refine Bool.eq_false_iff.2 fun raised => ?_
    obtain ⟨condition, start, begun, long⟩ := (stallRaised_iff _ _ _).1 raised
    exact absurd (hstall start condition begun) (Nat.not_lt.2 long)
  generalize hw : (s.tick t).setChannel .a { s.chanA with updateTimer := some (after expiry st.chanA.period) } = w
  have condition : stallCondition w.chanA r.command speed = stalls := by rw [sameCommand, ← hw]; rfl
  have wclock : w.clock = clock := by rw [← hw]; rfl
  have judged : w.judgeBelt st cv r speed = w.setConveyor k' := by
    rw [State.judgeBelt_quiet (by rw [← hw]; exact hstation) (by rw [condition, wclock, sameStart]; exact unraised)
      (by rw [sameFull, sameContent]; exact hshort.imp_right .inl), condition, wclock, State.rated_judged_short hshort,
      nextStallStart_unraised unraised]
  have auto : (w.setConveyor k').chanA.state = .auto := by rw [← hw]; exact hauto
  have worked := State.commandBelt_auto rfl auto cv ((s.tick t).holdCondition st) ((s.tick t).trim st)
  rw [← judged] at worked
  refine exec_channelUpdate_beltSteps hs hb hcv hk hd hw.symm (worked.trans (by rw [judged]; rfl)) ?_
  subst hw
  exact State.outputStep_belt hb hcv rfl rfl hauto

/-! ### Outside AUTO -/

theorem exec_channelUpdate_beltOutside (hauto : s.chanA.state ≠ .auto) :
    let r := s.rated cv k (s.tick t).clock
    let content := integrate cv k.content r.loose (s.beltSpeed cv) st.chanA.period
    (s.station = .running → k.full = true ∨ content < cv.alarmContent ∨ s.latch ≠ none) →
    let begun : Channel := { s.chanA with updateTimer := some (after expiry st.chanA.period) }
    ∃ u, exec (.channelUpdate t .a) s = .next u ∧
      (s.station = .running → u.conveyor = some { r with
        content := content, stallStart := none
        full := decide ((if k.full then cv.resumeContent else cv.alarmContent) ≤ content) }) ∧
      (s.station ≠ .running → u.conveyor = some r) ∧
      (s.chanA.state = .manual → begun.PutsOut st.chanA
        (clamp (clamp ((s.tick t).latestCommand st Config.jogA) 0 st.chanA.umax) (s.chanA.out - st.chanA.slew)
          (s.chanA.out + st.chanA.slew)) .none false u.chanA) ∧
      (s.chanA.state ≠ .manual → begun.PutsOut st.chanA 0 s.chanA.sat s.chanA.inDeadband u.chanA) ∧
      CheckAsked s.converter u.converter (max s.now t) .a u.chanA ∧
      u = { s.tick t with conveyor := u.conveyor, chanA := u.chanA, converter := u.converter } := by
  intro r content hquiet begun
  obtain ⟨sameContent, sameFull, sameCommand, _, sameStart⟩ := State.rated_keeps s cv k (s.tick t).clock
  generalize hw : (s.tick t).setChannel .a begun = w
  have condition : stallCondition w.chanA r.command (s.beltSpeed cv) = false := by
    refine stallCondition_outside ?_ _ _
    rw [← hw]
    exact hauto
  have wclock : w.clock = (s.tick t).clock := by rw [← hw]; rfl
  have station : w.station = s.station := by rw [← hw]; rfl
  obtain ⟨k', judged, inside, outside⟩ : ∃ k', w.judgeBelt st cv r (s.beltSpeed cv) = w.setConveyor k' ∧
      (s.station = .running → k' = { r with
        content := content, stallStart := none
        full := decide ((if k.full then cv.resumeContent else cv.alarmContent) ≤ content) }) ∧
      (s.station ≠ .running → k' = r) := by
    by_cases running : s.station = .running
    · have unraised : stallRaised k.stallStart false (s.tick t).clock = false :=
        Bool.eq_false_iff.2 fun raised => Bool.noConfusion ((stallRaised_iff _ _ _).1 raised).1
      refine ⟨_, State.judgeBelt_quiet (station.trans running)
        (by rw [condition, wclock, sameStart]; exact unraised) ?_, fun _ => ?_, fun h => absurd running h⟩
      · rw [sameFull, sameContent, ← hw]
        exact hquiet running
      · rw [condition, wclock, State.rated_judged, nextStallStart_unraised unraised]
        rfl
    · exact ⟨r, State.judgeBelt_outside (by rw [station]; exact running) st cv r _, fun h => absurd h running,
        fun _ => rfl⟩
  have out : (w.setConveyor k').chanA.state ≠ .auto := by rw [← hw]; exact hauto
  have worked := (congrArg (fun v => v.commandBelt cv ((s.tick t).holdCondition st) ((s.tick t).trim st)) judged).trans
    (State.commandBelt_outside _ cv _ _ out)
  by_cases manual : s.chanA.state = .manual
  · have step := State.outputStep_manual (s := w.setConveyor k') (c := .a) (st := st) (cd := st.chanA)
      (by rw [← hw]; exact manual)
    rw [ChannelDef.lowest_belt hb] at step
    obtain ⟨u, ran, conveyor, putsOut, asked, frame⟩ :=
      exec_channelUpdate_beltSteps hs hb hcv hk hd hw.symm worked step
    refine ⟨u, ran, fun h => by rw [conveyor, inside h], fun h => by rw [conveyor, outside h], fun _ => ?_,
      fun h => absurd manual h, asked, frame⟩
    subst hw
    exact putsOut
  · have step := State.outputStep_rests (s := w.setConveyor k') (c := .a) (st := st) (cd := st.chanA)
      (ch := begun) (by rw [← hw]; rfl) hauto manual
    obtain ⟨u, ran, conveyor, putsOut, asked, frame⟩ :=
      exec_channelUpdate_beltSteps hs hb hcv hk hd hw.symm worked step
    exact ⟨u, ran, fun h => by rw [conveyor, inside h], fun h => by rw [conveyor, outside h],
      fun h => absurd h manual, fun _ => putsOut, asked, frame⟩

end

/-! ### Every BELT update -/

theorem State.outputStep_puts (w : State) (st : Settings) (cd : ChannelDef) (c : ChannelId) : ∃ out sat band,
    w.outputStep st cd c = { w.channel c with out := out, sat := sat, inDeadband := band } := by
  by_cases auto : (w.channel c).state = .auto
  · have step : w.outputStep st cd c = w.autoOutput st cd c := by
      unfold State.outputStep
      dsimp only
      rw [auto]
    rw [step]
    unfold State.autoOutput
    dsimp only
    split
    · exact ⟨_, _, _, rfl⟩
    · split
      · exact ⟨_, _, _, rfl⟩
      · exact ⟨_, _, _, rfl⟩
  · by_cases manual : (w.channel c).state = .manual
    · exact ⟨_, _, _, State.outputStep_manual manual⟩
    · exact ⟨_, _, _, State.outputStep_resting auto manual⟩

/-- A state with the rates of `r` and channel A's update timer at `timer`. -/
def State.HasRates (w : State) (r : Conveyor) (timer : Option Clock) : Prop :=
  (∃ k', w.conveyor = some k' ∧ k'.rate = r.rate ∧ k'.milled = r.milled ∧ k'.loose = r.loose ∧
    k'.holdTimer = r.holdTimer) ∧ w.chanA.updateTimer = timer

namespace State.HasRates

variable {w : State} {r : Conveyor} {timer : Option Clock} (h : w.HasRates r timer)
include h

theorem of_eq {u : State} (h1 : u.conveyor = w.conveyor) (h2 : u.chanA.updateTimer = w.chanA.updateTimer) :
    u.HasRates r timer := by
  unfold State.HasRates at *
  rwa [h1, h2]

theorem addFault (f : FaultCode) : (w.addFault f).HasRates r timer := h.of_eq (by simp) (by simp)

theorem raiseCause (a d : Byte) : (w.raiseCause a d).HasRates r timer := by
  by_cases raises : w.atWork ∧ w.latch = none
  · obtain ⟨⟨k', hk', rates⟩, hupdate⟩ := h
    rw [State.raiseCause_clear w a d raises.1 raises.2]
    refine ⟨?_, Channel.latched_timer.trans hupdate⟩
    dsimp only
    rw [hk']
    split
    · exact ⟨k'.leaveAuto, rfl, rates⟩
    · exact ⟨k', rfl, rates⟩
  · have stands : w.raiseCause a d = w := if_neg raises
    rwa [stands]

theorem commandBelt (cv : ConveyorDef) (hold : Bool) (trim : Int) : (w.commandBelt cv hold trim).HasRates r timer := by
  by_cases auto : w.chanA.state = .auto
  · obtain ⟨⟨k', hk', rates⟩, hupdate⟩ := h
    rw [State.commandBelt_auto hk' auto]
    exact ⟨⟨_, rfl, rates⟩, hupdate⟩
  · rwa [State.commandBelt_outside w cv hold trim auto]

theorem driveChannel (st : Settings) (cd : ChannelDef) (c : ChannelId) : (w.driveChannel st cd c).HasRates r timer := by
  obtain ⟨out, sat, band, step⟩ := w.outputStep_puts st cd c
  obtain ⟨putsOut, _, frame⟩ := State.driveChannel_putsOut step
  generalize w.driveChannel st cd c = u at *
  refine h.of_eq ?_ ?_
  · rw [frame]
    cases c <;> rfl
  · cases c with
    | a => exact (congrArg Channel.updateTimer putsOut.2).trans rfl
    | b => rw [frame]; rfl

end State.HasRates

theorem State.judged_hasRates (w : State) (st : Settings) (cv : ConveyorDef) (r : Conveyor) (speed : Int) :
    (w.judged st cv r speed).HasRates r w.chanA.updateTimer := by
  have filled (condition : Bool) : (w.setConveyor
      (r.judged cv speed st.chanA.period condition w.clock)).HasRates r w.chanA.updateTimer :=
    ⟨⟨_, rfl, rfl, rfl, rfl, rfl⟩, rfl⟩
  unfold State.judged
  dsimp only
  split
  · exact (filled _).addFault _
  · exact filled _

theorem State.judgeBelt_hasRates (w : State) (st : Settings) (cv : ConveyorDef) (r : Conveyor) (speed : Int) :
    (w.judgeBelt st cv r speed).HasRates r w.chanA.updateTimer := by
  by_cases running : w.station = .running
  · rw [State.judgeBelt_running running]
    have judged := w.judged_hasRates st cv r speed
    generalize w.judged st cv r speed = v at judged
    have alarmed (p : Prop) [Decidable p] :
        (if p then v.raiseCause chamberFullCause (alarmDetail st) else v).HasRates r w.chanA.updateTimer := by
      split
      · exact judged.raiseCause _ _
      · exact judged
    split
    · exact (alarmed _).raiseCause _ _
    · exact alarmed _
  · rw [State.judgeBelt_outside running]
    exact ⟨⟨r, rfl, rfl, rfl, rfl, rfl⟩, rfl⟩

theorem exec_channelUpdate_rates {s : State} {t : Nat} {st : Settings} {cv : ConveyorDef} {k : Conveyor}
    {expiry : Clock} (hs : s.settings = some st) (hb : st.chanA.role = .belt) (hcv : st.conveyor = some cv)
    (hk : s.conveyor = some k) (hd : s.due t s.chanA.updateTimer expiry) : ∃ u, exec (.channelUpdate t .a) s = .next u ∧
      u.HasRates (s.rated cv k (s.tick t).clock) (some (after expiry st.chanA.period)) := by
  have ran := exec_channelUpdate_belt hs hb hcv hk hd
  exact ⟨_, ran, ((State.judgeBelt_hasRates _ st cv _ _).commandBelt _ _ _).driveChannel _ _ _⟩

/-- Settles O47: AUTO, every update's rates, and the updates outside AUTO. -/
theorem beltUpdateInAuto : Obligations.BeltUpdateInAuto := by
  refine ⟨fun s t st cv k expiry hs hb hcv hk hstation hd hauto =>
    exec_channelUpdate_beltAuto hs hb hcv hk hd hstation hauto, ?_,
    fun s t st cv k expiry hs hb hcv hk hd hauto => exec_channelUpdate_beltOutside hs hb hcv hk hd hauto⟩
  intro s t st cv k expiry hs hb hcv hk hd r
  obtain ⟨u, ran, ⟨k', conveyor, rate, milled, loose, hold⟩, timer⟩ := exec_channelUpdate_rates hs hb hcv hk hd
  exact ⟨u, k', ran, conveyor, rate, milled, loose, hold, timer⟩

end Sys2Proof.Machine
end

section
/-! The causes of the BELT update (R128, R130, R132, R134, R135, R138). -/

namespace Sys2Proof.Machine

/-! ### What a latch leaves of a channel and the converter -/

theorem Channel.latched_atRest {ch : Channel} (h : ch.state = .manual ∨ ch.state = .auto) :
    ch.latched.state = .held ∧ ch.latched.cause = some .latch ∧ ch.latched.AtRest := by
  rw [Channel.latched_driven h]
  exact ⟨rfl, rfl, rfl, rfl, rfl, rfl, rfl⟩

theorem Channel.latched_notManual {ch : Channel} : ch.latched.state ≠ .manual := by
  by_cases driven : ch.state = .manual ∨ ch.state = .auto
  · rw [(Channel.latched_atRest driven).1]
    nofun
  · obtain ⟨notManual, _⟩ := not_or.1 driven
    unfold Channel.latched
    split
    · nofun
    · nofun
    · nofun
    · exact notManual

theorem Converter.latched_running (k : Converter) (c : ChannelId) (ch : Channel) :
    (k.latched c ch).running = k.running := by
  unfold Converter.latched
  split
  · rfl
  · cases c <;> rfl

theorem Converter.withRequest_request (k : Converter) (c : ChannelId) (x : Option Int) :
    (k.withRequest c x).request c = x := by
  cases c <;> rfl

theorem Line.halting_marked (l : Line) (cause detail : Byte) : l.statusMarked.halting cause detail =
    l.halting cause detail := rfl

theorem Conveyor.leaveAuto_map (k : Conveyor) (auto : Prop) [Decidable auto] (h : ¬ auto → k.stallStart = none) :
    (if auto then (some k).map Conveyor.leaveAuto else some k) = some { k with
      stallStart := none, substate := if auto then none else k.substate
      command := if auto then none else k.command } := by
  by_cases left : auto
  · simp only [left, if_true]
    rfl
  · simp only [left, if_false]
    rw [← h left]

theorem Channel.PutsOut.stops {before ch : Channel} {cd : ChannelDef} {sat : Saturation} {band : Bool}
    (h : before.PutsOut cd 0 sat band ch) : ch.out = 0 ∧ ch.coil = .none ∧ ch.current = 0 :=
  ⟨h.out, h.1.2.2 h.out⟩

theorem nextStallStart_outside (start : Option Clock) (clock : Clock) : nextStallStart start false clock = none := by
  cases start <;> rfl

/-! ### The steps after a cause -/

/-- A cause raised on a CLEAR latch, then the command and the output step of channel A (assumption 31). -/
theorem State.raiseCause_drives {v : State} {st : Settings} (cv : ConveyorDef) (hold : Bool) (trim : Int)
    {a d : Byte} (hwork : v.atWork) (hlatch : v.latch = none) :
    let u := ((v.raiseCause a d).commandBelt cv hold trim).driveChannel st st.chanA .a
    u.latch = some ⟨a, v.number, d⟩ ∧
    u.conveyor = (if v.chanA.state = .auto then v.conveyor.map Conveyor.leaveAuto else v.conveyor) ∧
    v.chanA.latched.PutsOut st.chanA 0 v.chanA.latched.sat v.chanA.latched.inDeadband u.chanA ∧
    u.chanB = v.chanB.latched ∧ u.converter.request .a = none ∧ u.converter.running = v.converter.running ∧
    u = { v with
      latch := u.latch, conveyor := u.conveyor, chanA := u.chanA, chanB := u.chanB, converter := u.converter
      line := v.line.halting a d } := by
  have raised := State.raiseCause_clear v a d hwork hlatch
  have chanA : (v.raiseCause a d).chanA = v.chanA.latched := by rw [raised]
  have commanded := State.commandBelt_outside (v.raiseCause a d) cv hold trim
    (by rw [chanA]; exact Channel.latched_state)
  have step := State.outputStep_rests (s := v.raiseCause a d) (c := .a) (st := st) (cd := st.chanA) chanA
    Channel.latched_state Channel.latched_notManual
  obtain ⟨putsOut, asked, frame⟩ := State.driveChannel_putsOut step
  intro u
  have driven : u = (v.raiseCause a d).driveChannel st st.chanA .a := by rw [← commanded]
  rw [← driven] at putsOut asked frame
  generalize u = u at *
  have converter := asked.atZero putsOut.out
  have request : u.converter.request .a = none := by rw [converter, Converter.withRequest_request]
  have running : u.converter.running = v.converter.running := by
    rw [converter, raised]
    exact (Converter.latched_running _ _ _).trans (Converter.latched_running _ _ _)
  rw [raised] at frame
  refine ⟨congrArg State.latch frame, congrArg State.conveyor frame, ?_, congrArg State.chanB frame, request, running,
    ?_⟩
  · have before : (v.raiseCause a d).channel .a = v.chanA.latched := chanA
    rw [before] at putsOut
    exact putsOut
  · rw [congrArg State.latch frame, congrArg State.conveyor frame, congrArg State.chanB frame]
    exact frame

/-! ### The judgement that raises a cause -/

section
variable {w : State} {st : Settings} {cv : ConveyorDef} {k : Conveyor} {speed : Int}

theorem State.judged_eq : w.judged st cv k speed = { w with
    conveyor := some (k.judged cv speed st.chanA.period (stallCondition w.chanA k.command speed) w.clock)
    faults := (w.judged st cv k speed).faults, line := (w.judged st cv k speed).line } := by
  unfold State.judged
  dsimp only
  split
  · rw [State.addFault_eq]
    split
    · rfl
    · rfl
  · rfl

theorem State.judged_line : (w.judged st cv k speed).line.statusMarked = w.line.statusMarked := by
  unfold State.judged
  dsimp only
  split
  · rw [State.addFault_eq]
    split
    · rfl
    · rfl
  · rfl

theorem State.judged_faults_raised
    (h : stallRaised k.stallStart (stallCondition w.chanA k.command speed) w.clock = true) :
    (w.judged st cv k speed).faults = if .beltStall ∈ w.faults then w.faults else w.faults ++ [.beltStall] := by
  unfold State.judged
  dsimp only
  rw [if_pos h, State.addFault_faults]
  rfl

theorem State.judged_faults_unraised
    (h : stallRaised k.stallStart (stallCondition w.chanA k.command speed) w.clock = false) :
    (w.judged st cv k speed).faults = w.faults := by
  rw [State.judged_unraised h]
  rfl

theorem Conveyor.judged_full {period : Nat} {condition : Bool} {clock : Clock} :
    (k.judged cv speed period condition clock).full =
      decide ((if k.full then cv.resumeContent else cv.alarmContent) ≤
        integrate cv k.content k.loose speed period) := by
  unfold Conveyor.judged
  rw [Conveyor.judgeFull_eq]

/-- Content at the alarm with chamber full clear latches CHAMBER_FULL, whatever the stall (assumption 19). -/
theorem State.judgeBelt_alarms (h : w.station = .running) (hlatch : w.latch = none) (hfull : k.full = false)
    (halarm : cv.alarmContent ≤ integrate cv k.content k.loose speed st.chanA.period) :
    w.judgeBelt st cv k speed = (w.judged st cv k speed).raiseCause chamberFullCause (alarmDetail st) := by
  have work : (w.judged st cv k speed).atWork := by
    rw [State.judged_eq]
    exact .inr h
  have clear : (w.judged st cv k speed).latch = none := by rw [State.judged_eq]; exact hlatch
  have latched : ((w.judged st cv k speed).raiseCause chamberFullCause (alarmDetail st)).latch ≠ none := by
    rw [State.raiseCause_clear _ _ _ work clear]
    nofun
  have full : (k.judged cv speed st.chanA.period (stallCondition w.chanA k.command speed) w.clock).full = true := by
    rw [Conveyor.judged_full, hfull]
    exact decide_eq_true halarm
  have alarm := And.intro full (Bool.eq_false_iff.1 hfull)
  rw [State.judgeBelt_running h, if_pos alarm, State.raiseCause_latched _ beltStallCause _ latched, ite_self]

/-- Short of the alarm the stall latches BELT_STALL. -/
theorem State.judgeBelt_stalls (h : w.station = .running)
    (hraised : stallRaised k.stallStart (stallCondition w.chanA k.command speed) w.clock = true)
    (hshort : k.full = true ∨ integrate cv k.content k.loose speed st.chanA.period < cv.alarmContent) :
    w.judgeBelt st cv k speed = (w.judged st cv k speed).raiseCause beltStallCause (detailByte speed) := by
  rw [State.judgeBelt_running h, if_pos hraised, if_neg]
  rintro ⟨full, notFull⟩
  obtain already | short := hshort
  · exact notFull already
  · rw [Conveyor.judged_full, if_neg notFull] at full
    exact absurd (of_decide_eq_true full) (Int.not_le.2 short)

end

/-! ### The update -/

section
variable {s : State} {t : Nat} {st : Settings} {cv : ConveyorDef} {k : Conveyor} {expiry : Clock}
  (hs : s.settings = some st) (hb : st.chanA.role = .belt) (hcv : st.conveyor = some cv) (hk : s.conveyor = some k)
  (hstation : s.station = .running) (hd : s.due t s.chanA.updateTimer expiry) (hlatch : s.latch = none)
include hs hb hcv hk hstation hd hlatch

/-- What either cause leaves of the station. -/
theorem exec_channelUpdate_latches {cause detail : Byte} {w : State}
    (hw : w = (s.tick t).setChannel .a { s.chanA with updateTimer := some (after expiry st.chanA.period) })
    (hjudged : w.judgeBelt st cv (s.rated cv k (s.tick t).clock) (s.beltSpeed cv) =
      (w.judged st cv (s.rated cv k (s.tick t).clock) (s.beltSpeed cv)).raiseCause cause detail) :
    let r := s.rated cv k (s.tick t).clock
    let content := integrate cv k.content r.loose (s.beltSpeed cv) st.chanA.period
    let stall := stallCondition s.chanA k.command (s.beltSpeed cv) = true ∧ ∃ start, k.stallStart = some start ∧
      1500 ≤ since (s.tick t).clock start
    ∃ u, exec (.channelUpdate t .a) s = .next u ∧
      u.latch = some ⟨cause, s.number, detail⟩ ∧
      u.conveyor = some { r with
        content := content, stallStart := none
        full := decide ((if k.full then cv.resumeContent else cv.alarmContent) ≤ content)
        substate := if s.chanA.state = .auto then none else k.substate
        command := if s.chanA.state = .auto then none else k.command } ∧
      (∀ c, (s.channel c).state = .manual ∨ (s.channel c).state = .auto →
        (u.channel c).state = .held ∧ (u.channel c).cause = some .latch ∧ (u.channel c).AtRest) ∧
      (s.chanA.state = .off ∨ s.chanA.state = .fault →
        u.chanA.state = s.chanA.state ∧ u.chanA.out = 0 ∧ u.chanA.coil = .none ∧ u.chanA.current = 0) ∧
      (s.chanB.state = .off ∨ s.chanB.state = .fault → u.chanB = s.chanB) ∧
      u.chanA.updateTimer = some (after expiry st.chanA.period) ∧ u.converter.request .a = none ∧
      u.converter.running = s.converter.running ∧
      (stall → u.faults = if .beltStall ∈ s.faults then s.faults else s.faults ++ [.beltStall]) ∧
      (¬ stall → u.faults = s.faults) ∧
      u = { s.tick t with
        latch := u.latch, conveyor := u.conveyor, chanA := u.chanA, chanB := u.chanB, converter := u.converter
        faults := u.faults
        line := s.line.halting cause detail } := by
  intro r content stall
  obtain ⟨sameContent, sameFull, sameCommand, sameSubstate, sameStart⟩ := State.rated_keeps s cv k (s.tick t).clock
  have ran := exec_channelUpdate_belt hs hb hcv hk hd
  dsimp only at ran
  rw [← hw, hjudged] at ran
  have judged := State.judged_eq (w := w) (st := st) (cv := cv) (k := r) (speed := s.beltSpeed cv)
  have lines := State.judged_line (w := w) (st := st) (cv := cv) (k := r) (speed := s.beltSpeed cv)
  have condition : stallCondition w.chanA r.command (s.beltSpeed cv) =
      stallCondition s.chanA k.command (s.beltSpeed cv) := by rw [sameCommand, hw]; rfl
  have clock : w.clock = (s.tick t).clock := by rw [hw]; rfl
  have stalled : stallRaised r.stallStart (stallCondition w.chanA r.command (s.beltSpeed cv)) w.clock = true ↔
      stall := by
    rw [condition, sameStart, clock]
    exact stallRaised_iff _ _ _
  have raisedFaults (h : stall) : (w.judged st cv r (s.beltSpeed cv)).faults =
      if .beltStall ∈ s.faults then s.faults else s.faults ++ [.beltStall] := by
    rw [State.judged_faults_raised (stalled.2 h), hw]
    rfl
  have keptFaults (h : ¬ stall) : (w.judged st cv r (s.beltSpeed cv)).faults = s.faults := by
    rw [State.judged_faults_unraised (Bool.eq_false_iff.2 fun raised => h (stalled.1 raised)), hw]
    rfl
  rw [condition, clock, State.rated_judged] at judged
  generalize w.judged st cv r (s.beltSpeed cv) = v at *
  have chanA : v.chanA = { s.chanA with updateTimer := some (after expiry st.chanA.period) } := by
    rw [judged, hw]
    rfl
  have chanB : v.chanB = s.chanB := by rw [judged, hw]; rfl
  obtain ⟨latch, conveyor, putsOut, latchedB, request, running, frame⟩ :=
    State.raiseCause_drives (st := st) cv ((s.tick t).holdCondition st) ((s.tick t).trim st) (a := cause) (d := detail)
      (v := v) (by rw [judged, hw]; exact .inr hstation) (by rw [judged, hw]; exact hlatch)
  generalize ((v.raiseCause cause detail).commandBelt cv ((s.tick t).holdCondition st)
    ((s.tick t).trim st)).driveChannel st st.chanA .a = u at *
  have stateA : v.chanA.state = s.chanA.state := by rw [chanA]
  have number : v.number = s.number := by rw [judged, hw]; rfl
  have work : v.converter.running = s.converter.running := by rw [judged, hw]; rfl
  have timer : v.chanA.updateTimer = some (after expiry st.chanA.period) := by rw [chanA]
  have faults : u.faults = v.faults := (congrArg State.faults frame).trans rfl
  refine ⟨u, ran, ?_, ?_, ?_, ?_, ?_, ?_, request, running.trans work, ?_, ?_, ?_⟩
  · rw [latch, number]
  · rw [conveyor, stateA, judged]
    refine (Conveyor.leaveAuto_map _ _ fun outside => ?_).trans ?_
    · dsimp only
      rw [stallCondition_outside outside, nextStallStart_outside]
    · dsimp only
      rw [sameSubstate, sameCommand]
  · intro c driven
    cases c with
    | a =>
      have driven : v.chanA.state = .manual ∨ v.chanA.state = .auto := by rw [stateA]; exact driven
      obtain ⟨state, cause, _, _, _, sat, band⟩ := Channel.latched_atRest driven
      obtain ⟨out, coil, current⟩ := putsOut.stops
      exact ⟨putsOut.state.trans state, (congrArg Channel.cause putsOut.2).trans cause, out, coil, current,
        (congrArg Channel.sat putsOut.2).trans sat, (congrArg Channel.inDeadband putsOut.2).trans band⟩
    | b =>
      show u.chanB.state = _ ∧ u.chanB.cause = _ ∧ u.chanB.AtRest
      rw [latchedB, chanB]
      exact Channel.latched_atRest driven
  · intro resting
    rw [Channel.latched_resting (by rw [stateA]; exact resting)] at putsOut
    exact ⟨putsOut.state.trans stateA, putsOut.stops⟩
  · intro resting
    rw [latchedB, chanB, Channel.latched_resting resting]
  · exact (congrArg Channel.updateTimer putsOut.2).trans (Channel.latched_timer.trans timer)
  · exact fun h => faults.trans (raisedFaults h)
  · exact fun h => faults.trans (keptFaults h)
  · have line : v.line.halting cause detail = s.line.halting cause detail := by
      rw [← Line.halting_marked, lines, hw]
      rfl
    rw [faults]
    refine frame.trans ?_
    rw [line, judged, hw]
    rfl

end

/-- Settles O48: both causes leave the same but for their code, their detail and chamber full. -/
theorem beltCausesLatch : Obligations.BeltCausesLatch := by
  intro s t st cv k expiry hs hb hcv hk hstation hd hlatch speed clock r content stall latches
  obtain ⟨sameContent, sameFull, sameCommand, _, sameStart⟩ := State.rated_keeps s cv k clock
  generalize hw : (s.tick t).setChannel .a { s.chanA with updateTimer := some (after expiry st.chanA.period) } = w
  have station : w.station = .running := by rw [← hw]; exact hstation
  have clear : w.latch = none := by rw [← hw]; exact hlatch
  refine ⟨fun notFull alarm => ?_, fun short stalled => ?_⟩
  · have judged := State.judgeBelt_alarms (w := w) (st := st) (cv := cv) (k := r) (speed := speed) station clear
      (sameFull.trans notFull) (by rw [sameContent]; exact alarm)
    have full : decide ((if k.full then cv.resumeContent else cv.alarmContent) ≤ content) = true := by
      rw [notFull]
      exact decide_eq_true alarm
    have detail : alarmDetail st = detailByte cv.alarm := by unfold alarmDetail; rw [hcv]
    have latched := exec_channelUpdate_latches hs hb hcv hk hstation hd hlatch hw.symm judged
    dsimp only at latched
    rw [full, detail] at latched
    exact latched
  · have raised : stallRaised r.stallStart (stallCondition w.chanA r.command speed) w.clock = true := by
      rw [sameStart, sameCommand, ← hw]
      exact (stallRaised_iff _ _ _).2 stalled
    have judged := State.judgeBelt_stalls (w := w) (st := st) (cv := cv) (k := r) (speed := speed) station raised
      (by rw [sameFull, sameContent]; exact short)
    have full : decide ((if k.full then cv.resumeContent else cv.alarmContent) ≤ content) =
        (k.full && decide (cv.resumeContent ≤ content)) := by
      obtain full | below := short
      · rw [full]
        rfl
      · cases k.full with
        | true => rfl
        | false => exact decide_eq_false (Int.not_le.2 below)
    have latched := exec_channelUpdate_latches hs hb hcv hk hstation hd hlatch hw.symm judged
    dsimp only at latched
    rw [full] at latched
    exact latched

end Sys2Proof.Machine
end

section
/-! The formulas of the control chain, of results and references, and of the conveyor (R42, R76, R79, R104 to R107,
R120 to R134). -/

namespace Sys2Proof.Machine

/-! ### The control chain (R104 to R107) -/

section
variable {cd : ChannelDef} {m target : Int}

theorem shrunkError_within (h : |clamp (target - m) (-32767) 32767| ≤ cd.deadband) : shrunkError cd m target = 0 :=
  if_pos (abs_le.1 h)

theorem shrunkError_above (hd : 0 ≤ cd.deadband) (h : cd.deadband < clamp (target - m) (-32767) 32767) :
    shrunkError cd m target = clamp (target - m) (-32767) 32767 - cd.deadband :=
  (if_neg fun within => absurd within.2 (Int.not_le.2 h)).trans (if_pos (Int.lt_of_le_of_lt hd h))

theorem shrunkError_below (hd : 0 ≤ cd.deadband) (h : clamp (target - m) (-32767) 32767 < -cd.deadband) :
    shrunkError cd m target = clamp (target - m) (-32767) 32767 + cd.deadband := by
  refine (if_neg fun within => absurd within.1 (Int.not_le.2 h)).trans (if_neg fun positive => ?_)
  change 0 < clamp (target - m) (-32767) 32767 at positive
  omega

theorem flowDemand_positive {e : Int} (h : 0 < roundDiv (e * cd.gain) 256) :
    flowDemand cd e = roundDiv (e * cd.gain) 256 + cd.umin :=
  if_pos h

theorem flowDemand_negative {e : Int} (h : roundDiv (e * cd.gain) 256 < 0) :
    flowDemand cd e = roundDiv (e * cd.gain) 256 - cd.umin :=
  (if_neg (Int.not_lt.2 h.le)).trans (if_pos h)

theorem flowDemand_zero {e : Int} (h : roundDiv (e * cd.gain) 256 = 0) : flowDemand cd e = 0 := by
  unfold flowDemand
  rw [h]
  rfl

end

section
variable {p : PlungeDef} {u : Int}

theorem plungeLimit_retract {result : Option Int} (h : u ≤ 0) : plungeLimit (some p) result u = u :=
  if_neg fun limited => absurd limited.1 (Int.not_lt.2 h)

theorem plungeLimit_absent (h : 0 < u) : plungeLimit (some p) none u = min u p.output :=
  if_pos ⟨h, rfl⟩

theorem plungeLimit_value {v : Int} (h : 0 < u) :
    plungeLimit (some p) (some v) u = if p.limit ≤ v then min u p.output else u := by
  by_cases reached : p.limit ≤ v
  · rw [if_pos reached]
    exact if_pos ⟨h, decide_eq_true reached⟩
  · rw [if_neg reached]
    exact if_neg fun limited => reached (of_decide_eq_true limited.2)

end

/-- A clamp moves by no more than the distance its bounds stand apart. -/
theorem clamp_slew {x y r : Int} (h : 0 ≤ r) : |clamp x (y - r) (y + r) - y| ≤ r := by
  obtain ⟨below, above⟩ := clamp_within (x := x) (show y - r ≤ y + r by omega)
  exact abs_le.2 ⟨by omega, by omega⟩

theorem Channel.drive_bounds {ch : Channel} {cd : ChannelDef} {u : Int} {b : Bool} (hslew : 0 ≤ cd.slew)
    (hb : cd.role ≠ .belt) : let u' := ch.drive cd u b
    |u'.out - ch.out| ≤ cd.slew ∧
    u'.out = clamp (clamp u (-cd.umax) cd.umax) (ch.out - cd.slew) (ch.out + cd.slew) ∧
    u'.sat = if cd.umax < u then .high else if u < -cd.umax then .low else .none := by
  have lowest : cd.lowest = -cd.umax := if_neg hb
  refine ⟨clamp_slew hslew, ?_, ?_⟩
  · unfold Channel.drive
    rw [lowest]
    rfl
  · unfold Channel.drive
    rw [lowest]
    rfl

/-! ### Targets, results and references (R42, R76, R79) -/

theorem ramp_near {r c rate : Int} (h : |c - r| ≤ rate) : ramp r c rate = c := by
  obtain ⟨below, above⟩ := abs_le.1 h
  exact if_pos ⟨above, by omega⟩

theorem ramp_up {r c rate : Int} (h0 : 0 ≤ rate) (h : rate < c - r) : ramp r c rate = r + rate :=
  (if_neg fun near => absurd near.1 (Int.not_le.2 h)).trans (if_pos (by omega))

theorem ramp_down {r c rate : Int} (h0 : 0 ≤ rate) (h : rate < r - c) : ramp r c rate = r - rate :=
  (if_neg fun near => absurd near.2 (Int.not_le.2 h)).trans (if_neg (by omega))

section
variable {s : State} {cd : ChannelDef} {g : Nat}

theorem State.derivedValue_underived (h : ∀ g, cd.target ≠ .derived g) : s.derivedValue cd = none := by
  unfold State.derivedValue
  split
  next derived => exact absurd derived (h _)
  next => rfl

theorem State.derivedValue_derived (h : cd.target = .derived g) :
    s.derivedValue cd = (s.record g).bind (·.value) := by
  unfold State.derivedValue
  rw [h]

theorem State.record_present {run : GroupRun} (h : s.groups[g]? = some (some run)) : s.record g = some run.record := by
  unfold State.record
  rw [h]

theorem State.record_absent (h : ∀ run : GroupRun, s.groups[g]? ≠ some (some run)) : s.record g = none := by
  unfold State.record
  split
  next run found => exact absurd found (h run)
  next => rfl

theorem State.derivedValue_runs (h : cd.target = .derived g) :
    (∀ run : GroupRun, s.groups[g]? = some (some run) → s.derivedValue cd = run.record.value) ∧
    ((∀ run : GroupRun, s.groups[g]? ≠ some (some run)) → s.derivedValue cd = none) := by
  rw [State.derivedValue_derived h]
  refine ⟨fun run found => ?_, fun absent => ?_⟩
  · rw [State.record_present found]
    rfl
  · rw [State.record_absent absent]
    rfl

end

theorem ResultRecord.valid_iff {r : ResultRecord} {v : Int} : r.valid = some v ↔
    r.state = .evaluated ∧ (r.quality = some .good ∨ r.quality = some .suspect) ∧ r.value = some v := by
  unfold ResultRecord.valid
  split
  next state quality => simp [state, quality]
  next state quality => simp [state, quality]
  next good suspect =>
    refine ⟨nofun, ?_⟩
    rintro ⟨state, quality | quality, _⟩
    · exact absurd quality (good state)
    · exact absurd quality (suspect state)

theorem State.validResult_iff {s : State} {g : Nat} {v : Int} : s.validResult g = some v ↔
    ∃ run : GroupRun, s.groups[g]? = some (some run) ∧ run.record.state = .evaluated ∧
      (run.record.quality = some .good ∨ run.record.quality = some .suspect) ∧ run.record.value = some v := by
  unfold State.validResult
  by_cases present : ∃ run : GroupRun, s.groups[g]? = some (some run)
  · obtain ⟨run, found⟩ := present
    rw [State.record_present found]
    refine ResultRecord.valid_iff.trans ⟨fun valid => ⟨run, found, valid⟩, ?_⟩
    rintro ⟨run', found', valid⟩
    rw [found] at found'
    cases found'
    exact valid
  · rw [State.record_absent fun run found => present ⟨run, found⟩]
    refine ⟨nofun, ?_⟩
    rintro ⟨run, found, _⟩
    exact absurd ⟨run, found⟩ present

theorem State.activeGroup_cons_valid {s : State} {g : Nat} {v : Int} (h : s.validResult g = some v) (refs : List Nat) :
    s.activeGroup (g :: refs) = some (g, v) := by
  unfold State.activeGroup
  rw [h]

theorem State.activeGroup_cons_invalid {s : State} {g : Nat} (h : s.validResult g = none) (refs : List Nat) :
    s.activeGroup (g :: refs) = s.activeGroup refs := by
  conv_lhs => unfold State.activeGroup
  rw [h]

theorem State.activeGroup_none {s : State} {refs : List Nat} :
    s.activeGroup refs = none ↔ ∀ g ∈ refs, s.validResult g = none := by
  induction refs with
  | nil => exact ⟨fun _ => nofun, fun _ => rfl⟩
  | cons g refs ih =>
    cases valid : s.validResult g with
    | none => simp [State.activeGroup_cons_invalid valid, ih, valid]
    | some v => simp [State.activeGroup_cons_valid valid, valid]

theorem State.activeGroup_some {s : State} {refs : List Nat} {g : Nat} {v : Int} : s.activeGroup refs = some (g, v) ↔
    ∃ before rest, refs = before ++ g :: rest ∧ s.validResult g = some v ∧ ∀ h ∈ before, s.validResult h = none := by
  induction refs with
  | nil => exact ⟨nofun, by rintro ⟨_ | _, rest, split, _⟩ <;> cases split⟩
  | cons x refs ih =>
    cases valid : s.validResult x with
    | none =>
      rw [State.activeGroup_cons_invalid valid, ih]
      constructor
      · rintro ⟨before, rest, rfl, found, invalid⟩
        exact ⟨x :: before, rest, rfl, found, List.forall_mem_cons.2 ⟨valid, invalid⟩⟩
      · rintro ⟨_ | ⟨y, before⟩, rest, split, found, invalid⟩
        · cases split
          rw [valid] at found
          cases found
        · cases split
          exact ⟨before, rest, rfl, found, (List.forall_mem_cons.1 invalid).2⟩
    | some w =>
      rw [State.activeGroup_cons_valid valid]
      constructor
      · rintro ⟨⟩
        exact ⟨[], refs, rfl, valid, nofun⟩
      · rintro ⟨_ | ⟨y, before⟩, rest, split, found, invalid⟩
        · cases split
          rw [valid] at found
          cases found
          rfl
        · cases split
          rw [(List.forall_mem_cons.1 invalid).1] at valid
          cases valid

/-! ### The conveyor (R120 to R134) -/

section
variable {cv : ConveyorDef} {k : Conveyor} {trim : Int}

theorem chooseSubstate_fallback (h : k.rate = .fallback) : chooseSubstate cv k false trim = (.feed, cv.sfallback) := by
  unfold chooseSubstate
  rw [if_neg nofun, if_pos h]

theorem chooseSubstate_feed (h : k.rate ≠ .fallback) (hl : 0 < k.loose) :
    chooseSubstate cv k false trim = (.feed, beltDemand cv k.loose trim) := by
  unfold chooseSubstate
  rw [if_neg nofun, if_neg h, if_pos hl]

theorem chooseSubstate_clear (h : k.rate ≠ .fallback) (hl : k.loose ≤ 0) (hc : 0 < k.content) :
    chooseSubstate cv k false trim = (.clear, cv.sclear) := by
  unfold chooseSubstate
  rw [if_neg nofun, if_neg h, if_neg (Int.not_lt.2 hl), if_pos hc]

theorem chooseSubstate_idle (h : k.rate ≠ .fallback) (hl : k.loose ≤ 0) (hc : k.content ≤ 0) :
    chooseSubstate cv k false trim = (.idle, cv.smin) := by
  unfold chooseSubstate
  rw [if_neg nofun, if_neg h, if_neg (Int.not_lt.2 hl), if_neg (Int.not_lt.2 hc)]

theorem Conveyor.judgeFull_clear (h : k.full = false) :
    (k.judgeFull cv).full = decide (roundDiv (cv.alarm * cv.xmax) 1000 ≤ k.content) := by
  rw [Conveyor.judgeFull_eq, h]
  rfl

theorem Conveyor.judgeFull_full (h : k.full = true) :
    (k.judgeFull cv).full = decide (roundDiv (cv.resume * cv.xmax) 1000 ≤ k.content) := by
  rw [Conveyor.judgeFull_eq, h]
  rfl

end

section
variable {s : State} {cv : ConveyorDef} {e : Entry}

theorem State.beltSpeed_value {v : Int} (h : s.table.find ⟨s.number, 14, cv.speedInst⟩ = some e)
    (hq : e.quality ≠ some .failed) (hv : e.value = some v) : s.beltSpeed cv = max v 0 := by
  unfold State.beltSpeed
  rw [show s.table.find ⟨s.number, Config.beltSpeed, cv.speedInst⟩ = some e from h]
  dsimp only
  rw [if_neg hq, hv]

theorem State.beltSpeed_unknown (h : s.table.find ⟨s.number, 14, cv.speedInst⟩ = some e)
    (hq : e.quality = some .failed ∨ e.value = none) : s.beltSpeed cv = 0 := by
  unfold State.beltSpeed
  rw [show s.table.find ⟨s.number, Config.beltSpeed, cv.speedInst⟩ = some e from h]
  dsimp only
  obtain failed | absent := hq
  · rw [if_pos failed]
  · rw [absent]
    exact ite_self 0

theorem State.beltSpeed_absent (h : s.table.find ⟨s.number, 14, cv.speedInst⟩ = none) : s.beltSpeed cv = 0 := by
  unfold State.beltSpeed
  rw [show s.table.find ⟨s.number, Config.beltSpeed, cv.speedInst⟩ = none from h]

end

/-- An entry's part in the hold condition (R122). -/
theorem Entry.holds_iff {st : Settings} {e : Entry} : (e.bound st Config.loadHold &&
      (e.state == .fresh || e.state == .aged) && e.sound && e.value.any (· != 0)) = true ↔
    e.origin = .remote ∧ e.key.code = 17 ∧ (e.key.inst = st.side.inst ∨ e.key.inst = 3) ∧
      (e.state = .fresh ∨ e.state = .aged) ∧
      (e.quality = some .good ∨ e.quality = some .held ∨ e.quality = some .suspect) ∧
      ∃ v, e.value = some v ∧ v ≠ 0 := by
  simp only [Bool.and_eq_true, Bool.or_eq_true, beq_iff_eq, Entry.bound_iff, Entry.sound_iff, Option.any_eq_true,
    bne_iff_ne, and_assoc]
  rfl

theorem State.holdCondition_iff (s : State) (st : Settings) : s.holdCondition st = true ↔ s.beltHold ≠ none ∨
    ∃ e ∈ s.table.entries, e.origin = .remote ∧ e.key.code = 17 ∧ (e.key.inst = st.side.inst ∨ e.key.inst = 3) ∧
      (e.state = .fresh ∨ e.state = .aged) ∧
      (e.quality = some .good ∨ e.quality = some .held ∨ e.quality = some .suspect) ∧
      ∃ v, e.value = some v ∧ v ≠ 0 := by
  have unfolded : s.holdCondition st = ((s.table.entries.any fun e => e.bound st Config.loadHold &&
      (e.state == .fresh || e.state == .aged) && e.sound && e.value.any (· != 0)) || s.beltHold.isSome) := by
    unfold State.holdCondition
    congr 2
    funext e
    cases e.value <;> rfl
  rw [unfolded, Bool.or_eq_true, Option.isSome_iff_ne_none, List.any_eq_true, or_comm]
  exact or_congr_right (exists_congr fun e => and_congr_right fun _ => Entry.holds_iff)

theorem stallCondition_iff (before : Channel) (command : Option Int) (speed : Int) :
    stallCondition before command speed = true ↔
      before.state = .auto ∧ 200 ≤ before.out ∧ ∃ cmd, command = some cmd ∧ 10 * speed < cmd := by
  unfold stallCondition
  cases command with
  | none => simp
  | some cmd =>
    dsimp only
    rw [Bool.and_eq_true, Bool.and_eq_true, beq_iff_eq, decide_eq_true_iff, decide_eq_true_iff, and_assoc]
    refine and_congr_right fun _ => and_congr_right fun _ => ⟨fun short => ⟨cmd, rfl, short⟩, ?_⟩
    rintro ⟨_, ⟨⟩, short⟩
    exact short

/-- Settles O43: each formula by its own lemma. -/
theorem controlFormulas : Obligations.ControlFormulas := by
  refine ⟨⟨?error, ?demand, ?plunge, ?output⟩, ⟨?ramp, ?derived, fun s g v => State.validResult_iff, ?active⟩,
    ⟨fun cv q => rfl, fun cv d v => rfl, ?substates, fun cv command speed => rfl,
      fun cv content loose speed period => rfl,
      fun k cv => ⟨Conveyor.judgeFull_clear, Conveyor.judgeFull_full, rfl, rfl⟩⟩, ?speed, fun s st => rfl,
    State.holdCondition_iff, stallCondition_iff⟩
  case error =>
    intro cd m target hd e
    exact ⟨shrunkError_within, shrunkError_above hd, shrunkError_below hd⟩
  case demand =>
    intro cd e p
    exact ⟨flowDemand_positive, flowDemand_negative, flowDemand_zero⟩
  case plunge =>
    intro p result u
    refine ⟨plungeLimit_retract, ?_, ?_, rfl⟩
    · rintro positive rfl
      exact plungeLimit_absent positive
    · rintro v positive rfl
      exact plungeLimit_value positive
  case output =>
    intro ch cd u b humax hslew hb
    exact Channel.drive_bounds hslew hb
  case ramp =>
    intro r c rate h
    exact ⟨ramp_near, ramp_up h, ramp_down h⟩
  case derived =>
    intro s cd
    exact ⟨State.derivedValue_underived, fun g => State.derivedValue_runs⟩
  case active =>
    intro s refs
    exact ⟨State.activeGroup_none, fun g v => State.activeGroup_some⟩
  case substates =>
    intro cv k trim
    exact ⟨rfl, chooseSubstate_fallback, chooseSubstate_feed, chooseSubstate_clear, chooseSubstate_idle⟩
  case speed =>
    intro s cv found
    exact ⟨fun e v h hq hv => State.beltSpeed_value h hq hv, fun e => State.beltSpeed_unknown, State.beltSpeed_absent⟩

end Sys2Proof.Machine
end

section
/-! The receive checks (R154 to R156), the CRC remainder, and the levels of a byte cell (R153). -/

namespace Sys2Proof.Machine

/-! ### The CRC remainder (R154) -/

theorem crcBit_eq (r : Word16) (bit : Bool) :
    crcBit r bit = if r.getLsbD 15 ≠ bit then r <<< 1 ^^^ 0x1021 else r <<< 1 := by
  unfold crcBit
  rw [BitVec.msb_eq_getLsbD_last]
  cases r.getLsbD 15 <;> cases bit <;> rfl

theorem crc_append (bytes : List Byte) (b : Byte) : crc (bytes ++ [b]) = crcByte (crc bytes) b := by
  unfold crc
  rw [List.foldl_append]
  rfl

/-- A remainder that is fed its own top bit shifts. -/
theorem crcBit_own (r : Word16) {n : Nat} (h : n < 16) : crcBit (r <<< n) (r.getLsbD (15 - n)) = r <<< (n + 1) := by
  have top : (r <<< n).getLsbD 15 = r.getLsbD (15 - n) := by
    rw [BitVec.getLsbD_shiftLeft]
    simp [show n ≤ 15 by omega]
  rw [crcBit_eq, top, if_neg (fun h => h rfl), BitVec.shiftLeft_add]

/-- A remainder that is fed eight of its own bits from the top shifts by eight. -/
theorem crcByte_own (r : Word16) (b : Byte) {n : Nat} (h : n ≤ 8) (hb : ∀ i < 8, b.getLsbD i = r.getLsbD (8 - n + i)) :
    crcByte (r <<< n) b = r <<< (n + 8) := by
  have step (j : Nat) (hj : j < 8) : crcBit (r <<< (n + j)) (b.getLsbD (7 - j)) = r <<< (n + j + 1) := by
    rw [hb (7 - j) (by omega), show 8 - n + (7 - j) = 15 - (n + j) by omega]
    exact crcBit_own r (by omega)
  unfold crcByte
  simp only [List.foldl_cons, List.foldl_nil]
  rw [show crcBit (r <<< n) (b.getLsbD 7) = _ from step 0 (by decide),
    show crcBit _ (b.getLsbD 6) = _ from step 1 (by decide), show crcBit _ (b.getLsbD 5) = _ from step 2 (by decide),
    show crcBit _ (b.getLsbD 4) = _ from step 3 (by decide), show crcBit _ (b.getLsbD 3) = _ from step 4 (by decide),
    show crcBit _ (b.getLsbD 2) = _ from step 5 (by decide), show crcBit _ (b.getLsbD 1) = _ from step 6 (by decide),
    show crcBit _ (b.getLsbD 0) = _ from step 7 (by decide)]

theorem highByte_bit (r : Word16) {i : Nat} (h : i < 8) : (highByte r).getLsbD i = r.getLsbD (8 + i) := by
  unfold highByte
  rw [BitVec.getLsbD_extractLsb']
  simp [h]

theorem lowByte_bit (r : Word16) {i : Nat} (h : i < 8) : (lowByte r).getLsbD i = r.getLsbD i := by
  unfold lowByte
  rw [BitVec.getLsbD_extractLsb']
  simp [h]

/-- What is followed by its remainder, high byte first, leaves the remainder 0. -/
theorem crc_closes (bytes : List Byte) : crc (bytes ++ [highByte (crc bytes), lowByte (crc bytes)]) = 0 := by
  have high := crcByte_own (crc bytes) (highByte (crc bytes)) (n := 0) (by decide) fun i hi => highByte_bit _ hi
  have low := crcByte_own (crc bytes) (lowByte (crc bytes)) (n := 8) (by decide) fun i hi => by
    rw [lowByte_bit _ hi, Nat.sub_self, Nat.zero_add]
  rw [BitVec.shiftLeft_zero] at high
  rw [List.append_cons, crc_append, crc_append, high, low]
  exact BitVec.shiftLeft_eq_zero (by decide)

/-! ### The checks over the cells heard (R155, R156) -/

/-- The cells that a frame takes, as far as its LENGTH is heard. -/
def frameSize (cells : List ByteCell) : Nat := 6 + (cells[3]?.map (·.byte.toNat)).getD cells.length

/-- What breaks a frame off at a cell: no SYNC, a dominant stop bit, a LENGTH above 20. -/
def brokenOff (cells : List ByteCell) : Bool :=
  cells[0]?.any (·.byte != Config.sync) || (cells.take (frameSize cells)).any (!·.stop) ||
    cells[3]?.any fun l => decide (20 < l.byte.toNat)

theorem judgeCells_eq (cells : List ByteCell) : judgeCells cells =
    if brokenOff cells then .droppedEarly
    else if cells.length < frameSize cells then .incomplete
    else if arrivalChecks (((cells.take (frameSize cells)).drop 1).map (·.byte)) then .intact
    else .droppedAtArrival := by
  unfold judgeCells brokenOff frameSize
  dsimp only
  rw [List.getElem?_map, List.map_drop, List.map_take]
  cases cells[3]? <;> cases cells <;> rfl

theorem frameSize_heard {cells : List ByteCell} {l : ByteCell} (h : cells[3]? = some l) :
    frameSize cells = 6 + l.byte.toNat := by
  unfold frameSize
  rw [h]
  rfl

theorem frameSize_unheard {cells : List ByteCell} (h : cells[3]? = none) : frameSize cells = 6 + cells.length := by
  unfold frameSize
  rw [h]
  rfl

theorem lt_frameSize_iff {cells : List ByteCell} {i : Nat} (h : i < cells.length) :
    i < frameSize cells ↔ ∀ l, cells[3]? = some l → i < 6 + l.byte.toNat := by
  cases heard : cells[3]? with
  | none =>
    rw [frameSize_unheard heard]
    exact ⟨fun _ => nofun, fun _ => by omega⟩
  | some l => simp [frameSize_heard heard]

theorem brokenOff_iff (cells : List ByteCell) : brokenOff cells = true ↔
    (∃ c, cells[0]? = some c ∧ c.byte ≠ 0xA7) ∨ (∃ l, cells[3]? = some l ∧ 20 < l.byte.toNat) ∨
    ∃ (i : Nat) (c : ByteCell), cells[i]? = some c ∧ c.stop = false ∧
      ∀ l, cells[3]? = some l → i < 6 + l.byte.toNat := by
  have stops : (cells.take (frameSize cells)).any (!·.stop) = true ↔ ∃ (i : Nat) (c : ByteCell), cells[i]? = some c ∧
      c.stop = false ∧ ∀ l, cells[3]? = some l → i < 6 + l.byte.toNat := by
    rw [List.any_eq_true]
    constructor
    · rintro ⟨c, mem, stop⟩
      obtain ⟨i, hi, rfl⟩ := List.mem_iff_getElem.1 mem
      rw [List.length_take, Nat.lt_min] at hi
      refine ⟨i, _, List.getElem?_eq_getElem hi.2, ?_, (lt_frameSize_iff hi.2).1 hi.1⟩
      simpa using stop
    · rintro ⟨i, c, found, stop, inside⟩
      obtain ⟨hi, rfl⟩ := List.getElem?_eq_some_iff.1 found
      refine ⟨cells[i], ?_, by rw [stop]; rfl⟩
      exact List.mem_take_iff_getElem.2 ⟨i, Nat.lt_min.2 ⟨(lt_frameSize_iff hi).2 inside, hi⟩, rfl⟩
  unfold brokenOff
  rw [Bool.or_eq_true, Bool.or_eq_true, stops, or_assoc, or_comm (b := Option.any _ _ = true), Option.any_eq_true,
    Option.any_eq_true]
  simp only [bne_iff_ne, decide_eq_true_iff]
  rfl

theorem judgeCells_early_iff (cells : List ByteCell) : judgeCells cells = .droppedEarly ↔ brokenOff cells = true := by
  rw [judgeCells_eq]
  split
  next broken => exact ⟨fun _ => broken, fun _ => rfl⟩
  next sound =>
    refine ⟨fun early => ?_, fun broken => absurd broken sound⟩
    split at early
    · cases early
    · split at early <;> cases early

theorem checks_iff {typ : Byte} {size : Nat} : (lengthFits typ size && typeFits typ) = true ↔
    let kind := typ.toNat / 16
    let count := typ.toNat % 16
    1 ≤ kind ∧ kind ≤ 6 ∧
      (kind = 1 → 1 ≤ count ∧ count ≤ 4 ∧ size = 5 * count) ∧ (kind ≠ 1 → count = 0) ∧ (kind = 2 → size = 20) ∧
      (kind = 3 → size = 2) ∧ (kind = 4 → size = 0) ∧ (kind = 5 → size = 3 ∨ size = 19) ∧
      (kind = 6 → size = 2 ∨ size = 18) := by
  have kind : frameType typ = typ.toNat / 16 := rfl
  have count : frameCount typ = typ.toNat % 16 := rfl
  unfold lengthFits typeFits
  dsimp only
  rw [← kind, ← count]
  generalize frameType typ = k
  generalize frameCount typ = n
  by_cases range : 1 ≤ k ∧ k ≤ 6
  · obtain ⟨low, high⟩ := range
    interval_cases k <;> simp <;> omega
  · simp only [Bool.and_eq_true, decide_eq_true_iff]
    exact ⟨fun h => absurd ⟨h.2.1, h.2.2.1⟩ range, fun h => absurd ⟨h.1, h.2.1⟩ range⟩

theorem judgeCells_short {cells : List ByteCell} (h : judgeCells cells ≠ .droppedEarly) (hl : cells.length < 4) :
    judgeCells cells = .incomplete := by
  have sound : ¬ brokenOff cells = true := fun broken => h ((judgeCells_early_iff cells).2 broken)
  have unheard : cells[3]? = none := List.getElem?_eq_none (by omega)
  rw [judgeCells_eq, if_neg sound, if_pos (by rw [frameSize_unheard unheard]; omega)]

section
variable {cells rest : List ByteCell} {sync typ source length : ByteCell}
  (h : cells = sync :: typ :: source :: length :: rest)
include h

theorem frameSize_cells : frameSize cells = 6 + length.byte.toNat := by
  subst h
  exact frameSize_heard rfl

/-- The checks at arrival are the CRC's, LENGTH's and TYPE's. -/
theorem arrivalChecks_cells : arrivalChecks (((cells.take (6 + length.byte.toNat)).drop 1).map (·.byte)) = true ↔
    crc (((cells.take (6 + length.byte.toNat)).drop 1).map (·.byte)) = 0 ∧
      (lengthFits typ.byte length.byte.toNat && typeFits typ.byte) = true := by
  unfold arrivalChecks
  rw [Bool.and_eq_true, beq_iff_eq]
  refine and_congr_right fun _ => ?_
  rw [h, show 6 + length.byte.toNat = length.byte.toNat + 2 + 4 by omega]
  rfl

theorem judgeCells_waits (hsound : judgeCells cells ≠ .droppedEarly) (hl : cells.length < 6 + length.byte.toNat) :
    judgeCells cells = .incomplete := by
  have sound : ¬ brokenOff cells = true := fun broken => hsound ((judgeCells_early_iff cells).2 broken)
  rw [judgeCells_eq, if_neg sound, if_pos (by rw [frameSize_cells h]; exact hl)]

theorem judgeCells_arrives (hsound : judgeCells cells ≠ .droppedEarly) (hl : 6 + length.byte.toNat ≤ cells.length) :
    judgeCells cells = if crc (((cells.take (6 + length.byte.toNat)).drop 1).map (·.byte)) = 0 ∧
      (lengthFits typ.byte length.byte.toNat && typeFits typ.byte) = true then .intact else .droppedAtArrival := by
  have sound : ¬ brokenOff cells = true := fun broken => hsound ((judgeCells_early_iff cells).2 broken)
  rw [judgeCells_eq, if_neg sound, if_neg (by rw [frameSize_cells h]; omega), frameSize_cells h]
  simp only [arrivalChecks_cells h]

end

/-! ### The frames a station builds (10.1) -/

/-- A frame whose type and length fit, sent whole with sound stop bits, is intact. -/
theorem WireFrame.judged_intact {f : WireFrame} (hl : f.payload.length ≤ 20)
    (hf : (lengthFits f.typ f.payload.length && typeFits f.typ) = true) :
    judgeCells (f.bytes.map fun b => ⟨b, true⟩) = .intact := by
  generalize hc : (f.bytes.map fun b => ⟨b, true⟩ : List ByteCell) = cells
  have length : (BitVec.ofNat 8 f.payload.length).toNat = f.payload.length := by
    rw [BitVec.toNat_ofNat]
    omega
  have shape : cells = ⟨Config.sync, true⟩ :: ⟨f.typ, true⟩ :: ⟨f.source, true⟩ ::
      ⟨BitVec.ofNat 8 f.payload.length, true⟩ ::
      ((f.payload ++ [highByte (crc f.covered), lowByte (crc f.covered)]).map fun b => ⟨b, true⟩) := by
    rw [← hc]
    rfl
  have whole : cells.length = 6 + f.payload.length := by
    rw [shape]
    simp
    omega
  have bytes : ((cells.take (6 + f.payload.length)).drop 1).map (·.byte) =
      f.covered ++ [highByte (crc f.covered), lowByte (crc f.covered)] := by
    rw [← whole, List.take_length, ← hc, ← List.map_drop, List.map_map]
    exact List.map_id _
  have sound : judgeCells cells ≠ .droppedEarly := by
    rw [Ne, judgeCells_early_iff, brokenOff_iff]
    rintro (⟨c, first, notSync⟩ | ⟨l, heard, long⟩ | ⟨i, c, found, stop, _⟩)
    · rw [shape] at first
      cases first
      exact notSync rfl
    · rw [shape] at heard
      cases heard
      change 20 < (BitVec.ofNat 8 f.payload.length).toNat at long
      omega
    · rw [← hc, List.getElem?_map] at found
      obtain ⟨b, _, rfl⟩ := Option.map_eq_some_iff.1 found
      cases stop
  have arrived := judgeCells_arrives shape sound (by rw [whole]; exact (congrArg (6 + ·) length).le)
  dsimp only at arrived
  rw [length, bytes] at arrived
  rw [arrived, if_pos ⟨crc_closes _, hf⟩]

theorem haltWire_intact (source cause detail : Byte) :
    judgeCells ((haltWire source cause detail).bytes.map fun b => ⟨b, true⟩) = .intact := by
  refine WireFrame.judged_intact (show 2 ≤ 20 by decide) ?_
  show (lengthFits 0x30 2 && typeFits 0x30) = true
  decide

theorem releaseWire_intact (source : Byte) :
    judgeCells ((releaseWire source).bytes.map fun b => ⟨b, true⟩) = .intact := by
  refine WireFrame.judged_intact (show 0 ≤ 20 by decide) ?_
  show (lengthFits 0x40 0 && typeFits 0x40) = true
  decide

theorem statusWire_intact {source : Byte} {payload : List Byte} (h : payload.length = 20) :
    judgeCells ((statusWire source payload).bytes.map fun b => ⟨b, true⟩) = .intact := by
  refine WireFrame.judged_intact h.le ?_
  show (lengthFits 0x20 payload.length && typeFits 0x20) = true
  rw [h]
  decide

theorem replyWire_intact {source status row : Byte} {data : List Byte} (h : data.length = 0 ∨ data.length = 16) :
    judgeCells ((replyWire source status row data).bytes.map fun b => ⟨b, true⟩) = .intact := by
  refine WireFrame.judged_intact (show data.length + 2 ≤ 20 by omega) ?_
  show (lengthFits 0x60 (data.length + 2) && typeFits 0x60) = true
  obtain h | h := h
  · rw [h]
    decide
  · rw [h]
    decide

theorem publishWire_intact {source : Byte} {samples : List RawSample} (h1 : 1 ≤ samples.length)
    (h4 : samples.length ≤ 4) : judgeCells ((publishWire source samples).bytes.map fun b => ⟨b, true⟩) = .intact := by
  have size : (publishWire source samples).payload.length = 5 * samples.length := by
    show (samples.flatMap RawSample.bytes).length = _
    have each (r : RawSample) : (RawSample.bytes r).length = 5 := rfl
    simp only [List.length_flatMap, each, List.map_const', List.sum_replicate, smul_eq_mul, Nat.mul_comm]
  refine WireFrame.judged_intact (by omega) ?_
  rw [size]
  show (lengthFits (BitVec.ofNat 8 (16 + samples.length)) (5 * samples.length) &&
    typeFits (BitVec.ofNat 8 (16 + samples.length))) = true
  generalize samples.length = n at h1 h4
  interval_cases n
  all_goals decide

/-! ### The levels of a byte cell (R153) -/

theorem readCell_cellLevels (b : Byte) : readCell (cellLevels b) = some ⟨b, true⟩ := by
  have bits : [7, 6, 5, 4, 3, 2, 1, 0].foldl (fun (byte : Byte) (i : Nat) =>
      byte <<< 1 ||| if bitLevel (b.getLsbD i) = .recessive then 1 else 0) 0 = b := by
    have level (bit : Bool) : (if bitLevel bit = .recessive then (1 : Byte) else 0) =
        (BitVec.ofBool bit).zeroExtend 8 := by
      cases bit <;> rfl
    simp only [level, List.foldl_cons, List.foldl_nil]
    refine BitVec.eq_of_getLsbD_eq fun i hi => ?_
    interval_cases i <;> simp
  exact congrArg (fun byte => some (⟨byte, true⟩ : ByteCell)) bits

/-- Settles O10: the built frames by `crc_closes`, the checks by `brokenOff_iff` and `checks_iff`. -/
theorem builtFramesPassTheReceiveChecks : Obligations.BuiltFramesPassTheReceiveChecks := by
  refine ⟨fun number f hf => ?_, fun f => ⟨rfl, rfl⟩, ⟨rfl, fun bytes b => ?_⟩, fun cells => ?_, fun cells hsound => ?_,
    fun b => ⟨rfl, rfl, rfl, ?_, readCell_cellLevels b⟩, ?_⟩
  · cases f with
    | halt cause detail => exact haltWire_intact _ _ _
    | release => exact releaseWire_intact _
    | reply r => exact replyWire_intact hf
    | status payload => exact statusWire_intact hf
    | publish samples =>
      obtain ⟨h1, h4⟩ := hf
      exact publishWire_intact (by rw [List.length_map]; exact h1) (by rw [List.length_map]; exact h4)
  · rw [crc_append]
    unfold crcByte
    congr 1
    funext r i
    exact crcBit_eq r _
  · rw [judgeCells_early_iff, brokenOff_iff]
  · refine ⟨judgeCells_short hsound, fun sync typ source length rest shape => ?_⟩
    intro size kind count sound
    have checked : (crc (((cells.take (6 + size)).drop 1).map (·.byte)) = 0 ∧
        (lengthFits typ.byte size && typeFits typ.byte) = true) ↔ sound := and_congr_right fun _ => checks_iff
    refine ⟨judgeCells_waits shape hsound, fun arrived holds => ?_, fun arrived fails => ?_⟩
    · rw [judgeCells_arrives shape hsound arrived, if_pos (checked.2 holds)]
    · rw [judgeCells_arrives shape hsound arrived, if_neg fun holds => fails (checked.1 holds)]
  · intro i hi
    interval_cases i <;> rfl
  · intro x y
    cases x <;> cases y <;> decide

end Sys2Proof.Machine
end

section
/-! The loading checks and the entries (R67, R151, R159, R168, R170 to R172). -/

namespace Sys2Proof.Machine

/-! ### The loading checks (R168) -/

section
variable {number : BitVec 4} {m : Memory}

theorem loadImage_checkword (h : wordSum m ≠ Config.checkSum) : loadImage number m = .error .imageCheckword := by
  unfold loadImage
  dsimp only
  rw [if_pos h]

theorem loadImage_format (h : wordSum m = Config.checkSum) (hf : u16 m 0 ≠ 1) :
    loadImage number m = .error .imageFormat := by
  unfold loadImage
  dsimp only
  rw [if_neg (not_not.2 h), if_pos hf]

theorem loadImage_limits (h : wordSum m = Config.checkSum) (hf : u16 m 0 = 1)
    (hl : byteLimits m = false ∨ Config.pinnedLimit < (pinnedEntries number (settingsOf m)).length) :
    loadImage number m = .error .imageLimits := by
  have outside : (!byteLimits m || Config.pinnedLimit < (pinnedEntries number (settingsOf m)).length) = true := by
    obtain limits | pinned := hl
    · rw [limits]
      rfl
    · rw [decide_eq_true pinned, Bool.or_true]
  unfold loadImage
  dsimp only
  rw [if_neg (not_not.2 h), if_neg (not_not.2 hf), if_pos outside]

theorem loadImage_references (h : wordSum m = Config.checkSum) (hf : u16 m 0 = 1) (hl : byteLimits m = true)
    (hp : (pinnedEntries number (settingsOf m)).length ≤ Config.pinnedLimit) : loadImage number m =
      if referencesHold number (settingsOf m) then .ok (settingsOf m) else .error .imageReference := by
  have inside : ¬ (!byteLimits m || Config.pinnedLimit < (pinnedEntries number (settingsOf m)).length) = true := by
    rw [hl, decide_eq_false (Nat.not_lt.2 hp)]
    nofun
  unfold loadImage
  dsimp only
  rw [if_neg (not_not.2 h), if_neg (not_not.2 hf), if_neg inside]

theorem loadImage_erased : loadImage number [] = .error .imageCheckword := by
  refine loadImage_checkword ?_
  decide +kernel

end

/-! ### The entries (R151, R159) -/

/-- The entry to SAFE or COMMISSIONING. -/
theorem State.enterIdle_eq (s : State) (next : Station) : s.enterIdle next = { s with
    station := next
    statusTimer := some (after s.clock 500)
    line := { s.line with
      bus := if s.number ≠ 0 ∧ s.line.bus = .receiveOnly then .active else s.line.bus
      control := { s.line.control with status := true } } } := by
  unfold State.enterIdle State.activateBus
  dsimp only
  split
  · rfl
  · rfl

/-! ### The end of LOADING (R46, R168) -/

theorem exec_endOfLoading_ends {s : State} {t : Nat} (hr : s.runs) (hs : s.station = .loading)
    (hclock : 6 ≤ (s.tick t).clock.toNat) : exec (.endOfLoading t) s = .next (s.tick t).endLoading := by
  show execEndOfLoading t s = _
  rw [execEndOfLoading, State.event_run hr]
  exact congrArg Host.Outcome.next (if_pos ⟨hs, hclock⟩)

/-- The pins as read at the end of LOADING. -/
theorem State.readPins_input (s : State) (i : Fin 6) :
    s.readPins.inputs[i] = ⟨s.inputs[i].pin, s.inputs[i].pin, none⟩ := by
  fin_cases i <;> rfl

theorem State.endLoading_commission {s : State} (h : s.commission = true) :
    s.endLoading = s.readPins.beginReceiving.enterIdle .commissioning := by
  obtain ⟨_, ended⟩ | ⟨_, unstrapped, _⟩ | ⟨_, unstrapped, _⟩ := s.endLoading_cases
  · exact ended
  · rw [h] at unstrapped
    cases unstrapped
  · rw [h] at unstrapped
    cases unstrapped

theorem State.endLoading_error {s : State} {f : FaultCode} (h : s.commission = false)
    (hf : loadImage s.number s.store.cells = .error f) :
    s.endLoading = (s.readPins.beginReceiving.addFault f).enterIdle .safe := by
  obtain ⟨commission, _⟩ | ⟨f', _, found, ended⟩ | ⟨st, _, found, _⟩ := s.endLoading_cases
  · rw [h] at commission
    cases commission
  · rw [hf] at found
    cases found
    exact ended
  · rw [hf] at found
    cases found

theorem State.endLoading_ok {s : State} {st : Settings} (h : s.commission = false)
    (hst : loadImage s.number s.store.cells = .ok st) :
    s.endLoading = s.readPins.beginReceiving.enterListening st := by
  obtain ⟨commission, _⟩ | ⟨f, _, found, _⟩ | ⟨st', _, found, ended⟩ := s.endLoading_cases
  · rw [h] at commission
    cases commission
  · rw [hst] at found
    cases found
  · rw [hst] at found
    cases found
    exact ended

theorem exec_endOfLoading_idle {s : State} {t : Nat} {next : Station} {faults : List FaultCode} (hr : s.runs)
    (hs : s.station = .loading) (hclock : 6 ≤ (s.tick t).clock.toNat)
    (h : (s.commission = true ∧ next = .commissioning ∧ faults = s.faults) ∨
      (s.commission = false ∧ next = .safe ∧ ∃ f, loadImage s.number s.store.cells = .error f ∧ f ∉ s.faults ∧
        faults = s.faults ++ [f])) :
    ∃ u, exec (.endOfLoading t) s = .next u ∧ (∀ i : Fin 6, u.inputs[i] = ⟨s.inputs[i].pin, s.inputs[i].pin, none⟩) ∧
      u = { s.tick t with
        station := next
        faults := faults
        inputs := u.inputs
        statusTimer := some (after (s.tick t).clock 500)
        line := { s.line with
          receiver := .waiting
          quietSince := some (max s.now t)
          bus := if s.number ≠ 0 ∧ s.line.bus = .receiveOnly then .active else s.line.bus
          control := { s.line.control with status := true } } } := by
  refine ⟨_, exec_endOfLoading_ends hr hs hclock, ?_⟩
  obtain ⟨strap, rfl, rfl⟩ | ⟨strap, rfl, f, found, absent, rfl⟩ := h
  · rw [State.endLoading_commission (s := s.tick t) strap, State.enterIdle_eq]
    exact ⟨(s.tick t).readPins_input, rfl⟩
  · rw [State.endLoading_error (s := s.tick t) strap found, State.enterIdle_eq, State.addFault_eq,
      if_neg (show f ∉ (s.tick t).readPins.beginReceiving.faults from absent)]
    exact ⟨(s.tick t).readPins_input, rfl⟩

/-! ### The end of LISTENING (R67, R170) -/

theorem State.enterRunning_writes (s : State) (st : Settings) : s.enterRunning st = { s with
    station := .running
    publications := s.publications.map fun p => match st.publication p.code p.inst with
      | some d => { p with timer := some (after s.clock d.period) }
      | none => p
    statusTimer := some (after s.clock 500)
    line := { s.line with
      bus := if s.number ≠ 0 ∧ s.line.bus = .receiveOnly then .active else s.line.bus
      control := { s.line.control with status := true } } } := by
  unfold State.enterRunning State.activateBus
  dsimp only
  split
  · rfl
  · rfl

/-- Settles O7: the checks in their order, then LOADING's end without settings and LISTENING's end. -/
theorem loadingEndsAndRunningBegins : Obligations.LoadingEndsAndRunningBegins := by
  refine ⟨fun number m => ⟨loadImage_checkword, loadImage_format, loadImage_limits, loadImage_references,
    loadImage_erased⟩, fun s t next faults hr hs hclock h => exec_endOfLoading_idle hr hs hclock h, ?_⟩
  intro s t st hr hst hs hclock
  show execEntryToRunning t s = _
  rw [execEntryToRunning, State.event_run hr, State.withSettings_of (s := s.tick t) hst, if_pos ⟨hs, hclock⟩,
    State.enterRunning_writes]
  rfl

end Sys2Proof.Machine
end

section
/-! The entry to LISTENING keeps the panel values of a state whose new settings have no panel. -/

namespace Sys2Proof.Machine

/-- An image without a panel leaves the panel values as they stood. -/
theorem State.enterListening_panel_absent {s : State} {st : Settings} (h : st.panel = none) :
    (s.enterListening st).panel = s.panel := by
  have unstarted : (s.takeSettings st).startPanel st = s.takeSettings st := by
    unfold State.startPanel
    rw [h]
  unfold State.enterListening
  rw [unstarted]
  simp only [State.startHalt_fields]
  rfl

/-- A sensor station's image: one plausible quantity, one group, a halt button on input 0, no panel. -/
def sensorImage : Memory :=
  [(0, 0), (1, 1), (2, 4), (3, 0), (12, 10), (16, 6), (17, 0), (18, 100), (19, 0), (21, 128), (23, 127), (160, 0),
    (172, 0), (184, 0), (196, 0), (208, 0), (220, 0), (232, 0), (244, 0), (256, 0), (268, 0), (280, 0), (292, 0)] ++
  [(304, 1), (305, 1), (306, 1), (307, 100), (313, 6), (315, 1), (348, 0), (392, 0), (436, 0), (480, 0), (544, 0),
    (664, 0), (692, 0), (720, 0), (748, 0), (816, 1), (817, 0), (818, 0), (819, 0), (820, 0), (821, 0), (1022, 205),
    (1023, 194)]

theorem sensorImage_loads : loadImage 5 sensorImage = .ok (settingsOf sensorImage) := by
  rw [loadImage_references (by decide +kernel) (by decide +kernel) (by decide +kernel) (by decide +kernel),
    if_pos (by decide +kernel)]

/-- A station in LOADING over the sensor image, which has no panel, with panel values left standing. -/
def stalePanel : State :=
  { State.reset with
    number := 5, store := ⟨sensorImage, true, none⟩, panel := some ⟨0, 0, ⟨0, 0⟩, ⟨0, 0⟩, false, none⟩ }

/-- Refutes O8: nothing at the end of LOADING takes panel values away, so where some stand in LOADING, an image without
a panel enters LISTENING with them. A start clears them, so no run comes to such a state; the statement does not ask
for their absence. -/
theorem not_loadedImageEntersListening : ¬ Obligations.LoadedImageEntersListening := by
  unfold Obligations.LoadedImageEntersListening
  intro h
  have noPanel : (settingsOf sensorImage).panel = none := by decide +kernel
  obtain ⟨u, ran, _, _, panel, _⟩ := h stalePanel 6000 (settingsOf sensorImage) (by decide) rfl (by decide) rfl
    sensorImage_loads
  rw [exec_endOfLoading_ends (by decide) rfl (by decide),
    State.endLoading_ok (s := stalePanel.tick 6000) rfl sensorImage_loads] at ran
  cases ran
  have stands := (State.enterListening_panel_absent noPanel).symm.trans (panel noPanel)
  exact absurd stands nofun

end Sys2Proof.Machine
end
